-- ==== Sys2Proof/Word.lean ====
section
/-! DEFINITION. The word types of the Ivrad (00_scope R4): 64-bit registers, bytes, 512-bit vectors. -/
namespace Sys2Proof

/-- A g-register's width (R79), and the width of an address. -/
abbrev Word := BitVec 64
/-- The unit of memory (R4). -/
abbrev Byte := BitVec 8
/-- A v-register's width, and a 64-byte line's (R79, R197). -/
abbrev Line := BitVec 512

end Sys2Proof
end

