-- ==== Sys2Proof/Syntax.lean ====
section
/-! DEFINITION. The steps of the Ivrad as data: one constructor of `Instr` for every row of spec/opcode_table.json.
An instruction's constructor carries its operands as 02_encoding lays them out; an event's constructor carries the
message, the transaction or the outside input that the event is about. -/
namespace Sys2Proof

/-- A g-register's number (R26, R30). -/
abbrev GReg := Fin 32
/-- A v-register's number (R26, R30). -/
abbrev VIdx := Fin 32
/-- A p-register's number (R30: 0 to 7). -/
abbrev PReg := Fin 8

/-- The access width of R16. -/
inductive Width | b | h | w | d
  deriving DecidableEq, Repr
/-- The source width of `sext` and `zext` (R39). -/
inductive SrcWidth | b | h | w
  deriving DecidableEq, Repr
/-- The policy field of R16; `pd` takes the page's default (R125). -/
inductive Policy | pd | own | wt | sis | wis | unc
  deriving DecidableEq, Repr
/-- The ordering field of R16: code 1 is acquire on a load, release on a store, both on an atomic. -/
inductive MemOrd | plain | one | sc
  deriving DecidableEq, Repr
/-- The scope field of R16. -/
inductive Scope | core | clu | die | pkg | sys
  deriving DecidableEq, Repr

/-- The fields of a scalar memory word (R32, R42). -/
structure MemArgs where
  d : GReg
  a : GReg
  b : GReg
  width : Width
  sx : Bool
  pol : Policy
  ord : MemOrd
  scope : Scope
  scale : BitVec 2
  disp : BitVec 17
  deriving DecidableEq, Repr

/-- The fields of an atomic (R42): `amo` and `cas`. -/
structure AmoArgs where
  d : GReg
  a : GReg
  b : GReg
  c : GReg
  width : Width
  pol : Policy
  ord : MemOrd
  scope : Scope
  scale : BitVec 2
  deriving DecidableEq, Repr

/-- The guard and the modifiers of a vector word (R17, R19): guard, `.s`, rounding override, MOD[4]. -/
structure VMod where
  pg : PReg
  s : Bool
  rnd : BitVec 3
  u : Bool
  deriving DecidableEq, Repr

/-- The fields that the vector memory majors share (R36). -/
structure VMemArgs where
  m : VMod
  d : VIdx
  a : GReg
  pol : Policy
  ord : MemOrd
  scope : Scope
  disp : BitVec 14
  deriving DecidableEq, Repr

/-- The fields of `mma` (R45). -/
structure MmaArgs where
  acc : BitVec 5
  a : GReg
  b : GReg
  c : GReg
  j : GReg
  job : Bool
  clear : Bool
  n : BitVec 4
  kk : BitVec 4
  nn : BitVec 7
  mm : BitVec 4
  ver : BitVec 16
  deriving DecidableEq, Repr

/-- EXT64 of `cpy` (R46). -/
structure CpyArgs where
  conv : BitVec 3
  ch : BitVec 4
  shadow : Bool
  remote : Bool
  dev : BitVec 16
  deriving DecidableEq, Repr

/-- EXT64 of `btwalk` (R46). -/
structure WalkArgs where
  first : BitVec 16
  count : BitVec 16
  widen : BitVec 2
  ch : BitVec 4
  planes : BitVec 2
  deriving DecidableEq, Repr

/-- A cache configuration word (R47). -/
structure CacheCfg where
  parent : BitVec 5
  mask : BitVec 16
  log : BitVec 3
  start : BitVec 7
  deriving DecidableEq, Repr

/-- A v-register's content: 512 bits, the tag's code and the side field (R54, R69, R79). -/
structure VReg where
  bits : Line
  tag : BitVec 5
  side : BitVec 64
  deriving DecidableEq, Repr

/-- What an `rput` carries (R139). -/
inductive PutMsg
  | g (d : GReg) (v : Word)
  | v (d : VIdx) (v : VReg)
  deriving DecidableEq, Repr

/-- Who waits for a reply of the memory system: a thread's access, a store-queue entry, a thread's fetch, a copy
channel, a stream, a launch's report (R311), a command queue or, from 256 up, a die's sampler, the host. -/
inductive Src
  | load (t : Nat)
  | queue (core id : Nat)
  | fetch (t : Nat)
  | copy (c ch : Nat)
  | stream (t : Nat) (k : Fin 4) (id : Nat)
  | report (lid : Nat)
  | device (n : Nat)
  | host (own : Bool)
  deriving DecidableEq, Repr

/-- What a request asks of the home (R287). `hold` and `free` are the two ends of an engine's atomic operation on a free
stack's head (R221): a read that leaves its transaction open, and the write that closes it; `publish` is a `bufpub` (R355),
`move` a `tmove` (R351). -/
inductive ReqKind
  | load
  | fetch
  | store
  | reclaim
  | amo (op : BitVec 4)
  | cas
  | hold
  | free
  | publish
  | move
  deriving DecidableEq, Repr

/-- A request for (part of) one 64-byte line on its way to home (R269, R287). `line` is the virtual address divided
by 64, `mask` the bytes covered, `path` the virtual caches that missed, the last one first; where none missed and one
answered, its number plus 16. -/
structure Req where
  src : Src
  kind : ReqKind
  pol : Policy
  acq : Bool
  core : Nat
  job : Nat
  line : Nat
  mask : BitVec 64
  data : Line
  data2 : Line
  ptime : Nat
  lease : Nat
  path : List Nat
  shadow : Bool
  deriving DecidableEq, Repr

/-- How a reply ends its access: with data, by poison (R287), by a page's state found at translation (R347), or by
the unpublished mark (R358). -/
inductive RepSt | ok | dataLost | notPresent | unmapped | unpublished
  deriving DecidableEq, Repr

/-- The state in which a copy of the line is installed (R286, R287); `registered` names the words. -/
inductive Install
  | none
  | untracked
  | leased
  | shared
  | registered (words : BitVec 16)
  deriving DecidableEq, Repr

/-- A reply of home, of a registrant or of a virtual cache (R287): the data with the words of it that are valid and those of
them that a copy may hold, the timestamps (with `dataLost`, `wts` is the offset of the first poisoned byte), the state to install, the corrected
PTIME (R284), the alias mark (R294), and the cycles at which a store performs at package and at system scope (R353, R392). -/
structure Reply where
  st : RepSt
  data : Line
  words : BitVec 16
  keep : BitVec 16
  wts : Nat
  rts : Nat
  inst : Install
  floor : Option Nat
  aliased : Bool
  pkgAt : Nat
  sysAt : Nat
  deriving DecidableEq, Repr

/-- Who waits for the acknowledgement of a writeback: a thread that flushes the line (R136), a `vcset` (R278), the end of a job
(R264). -/
inductive AckTo
  | flush (t : Nat)
  | vcset (job vc : Nat)
  | ending (job : Nat)
  deriving DecidableEq, Repr

/-- A writeback or a registration return (R272, R287): the line goes to the parent or to home with the registered words
named, all its valid words, the state of the others, and who waits for its acknowledgement, with the cycles of the way back. -/
structure Wb where
  agent : BitVec 32
  job : Nat
  line : Nat
  words : BitVec 16
  held : BitVec 16
  data : Line
  shared : Bool
  lease : Option Nat
  wts : Nat
  ack : Option (AckTo × Nat)
  deriving DecidableEq, Repr

/-- A probe of home to one agent for words of a physical line (R287, R288). -/
structure Probe where
  agent : BitVec 32
  pline : Nat
  words : BitVec 16
  drop : Bool
  deriving DecidableEq, Repr

/-- An acknowledgement with the words it returns (R287, R292). -/
structure ProbeAck where
  agent : BitVec 32
  pline : Nat
  words : BitVec 16
  data : Line
  drop : Bool
  deriving DecidableEq, Repr

/-- The end of a unit on its way up the done tree: its launch, its status word (R310) and, for a trap, the report
of R311. -/
structure UnitEnd where
  lid : Nat
  status : BitVec 32
  cause : Word
  tval : Word
  pc : Word
  thread : Nat
  ptime : Nat
  deriving DecidableEq, Repr

/-- A node of a done tree (R309). -/
inductive DoneNode
  | cluster (c : Nat)
  | group (g : Nat)
  | super (s : Nat)
  | die (d : Nat)
  | root
  deriving DecidableEq, Repr

/-- A launch descriptor on its way to a scheduler (R298, R326); `thread` waits for the identifier. -/
structure LaunchSub where
  die : Nat
  job : Nat
  raw : Line
  thread : Option Nat
  ptime : Nat
  deriving DecidableEq, Repr

/-- The start of a range-fork recruit (R308). -/
structure RecruitMsg where
  slot : Nat
  job : Nat
  lid : Nat
  holder : Nat
  fork : Nat
  group : Nat
  lo : Word
  hi : Word
  cell : Word
  regs : List Word
  pc : Word
  ptime : Nat
  deriving DecidableEq, Repr

/-- A bind record of the slot table (R301). -/
structure BindRec where
  kind : BitVec 8
  ls : BitVec 8
  weight : BitVec 8
  flags : BitVec 8
  job : BitVec 16
  entry : BitVec 16
  pc : Word
  first : BitVec 32
  count : BitVec 32
  lid : BitVec 32
  reserved : BitVec 32
  deriving DecidableEq, Repr

/-- Where a soft error strikes (R365). -/
inductive EccWhere
  | dram (pa : Nat)
  | bankLine (bank set way : Nat)
  | cleanLine (core job line : Nat)
  | localStore (core off : Nat)
  | weightRow (c row : Nat)
  | accumulator (c acc : Nat)
  | context (t : Nat)
  | channel (ch : Nat)
  | clusterState (c : Nat)
  deriving DecidableEq, Repr

/-- A function of the readiness map (R360). -/
inductive FnId
  | core (i : Nat)
  | cluster (i : Nat)
  | channel (i : Nat)
  | bankSeg (i : Nat)
  | ring (i : Nat)
  | fab (i : Nat)
  | dmgr (i : Nat)
  | cmdp (i : Nat)
  | xlat (i : Nat)
  deriving DecidableEq, Repr

/-- One constructor per row of spec/opcode_table.json; each names the rule that gives its effect. The events stand
first: compiled Lean cannot build a constructor with fields past number 244, and the meanings build events. -/
inductive Instr
  /-- DIVIDER_RESULT: R98. -/
  | dividerResult (t : Nat) (d : GReg) (v : Word) (taint : Bool)
  /-- SPECIAL_FUNCTION_RESULT: R163. -/
  | specialFunctionResult (t : Nat) (d : VIdx) (v : VReg) (flags : BitVec 5)
  /-- STREAM_FILL: R184. -/
  | streamFill (t : Nat) (k : Fin 4)
  /-- STREAM_PUSH_PERFORM: R185. -/
  | streamPushPerform (t : Nat) (k : Fin 4)
  /-- ROTATION_VISIT: R144. -/
  | rotationVisit (core : Nat)
  /-- MEMORY_REPLY: R119. -/
  | memoryReply (r : Req) (p : Reply)
  /-- INSTRUCTION_CACHE_FILL: R160. -/
  | instructionCacheFill (r : Req) (p : Reply)
  /-- BANK_CONFLICT_REPLAY: R200. -/
  | bankConflictReplay (t : Nat)
  /-- FULL_EMPTY_REPLAY: R133. -/
  | fullEmptyReplay (t : Nat)
  /-- STORE_QUEUE_ACK: R123. -/
  | storeQueueAck (r : Req) (p : Reply)
  /-- WAKE_DELIVERY: R111. -/
  | wakeDelivery (t job : Nat)
  /-- RPUT_DELIVERY: R139. The way is the sender and the target. -/
  | rputDelivery (way : Nat × Nat) (job : Nat) (m : PutMsg)
  /-- SEND_DELIVERY: R329. The way is the sender and the target. -/
  | sendDelivery (way : Nat × Nat) (job : Nat) (idx : GReg) (v : Word) (ptime : Nat)
  /-- REDUCTION_DELIVERY: R331. The round is a tree's, with the sum once it is on its way to the root's thread. -/
  | reductionDelivery (job : Nat) (round : Nat × Option (Nat × VIdx × VReg × Nat))
  /-- REMOTE_STORE_MESSAGE: R119. -/
  | remoteStoreMessage (t : Nat) (cells : List (Nat × Byte))
  /-- ENGINE_FAULT_SIGNAL: R89. -/
  | engineFaultSignal (t jid : Nat)
  /-- RESIDENCY_WAKE: R149. -/
  | residencyWake (t : Nat)
  /-- MIGRATION_ARRIVAL: R156. -/
  | migrationArrival (t : Nat)
  /-- MIGRATION_RETRY: R157. -/
  | migrationRetry (t : Nat)
  /-- MIGRATION_TIMEOUT: R157. -/
  | migrationTimeout (t : Nat)
  /-- MIGRATED_UNIT_STATUS: R159. -/
  | migratedUnitStatus (holder : Nat) (e : UnitEnd)
  /-- CONTEXT_SWAP: R153. -/
  | contextSwap (slot : Nat × Option Nat) (entry : Nat)
  /-- BIND_RECORD_DISPATCH: R302. -/
  | bindRecordDispatch (slot : Nat) (r : Option BindRec)
  /-- BIND_RECORD_SWAP: R302. -/
  | bindRecordSwap (slot : Nat) (r : Option BindRec)
  /-- BIND_RECORD_RELEASE_CORE: R302. -/
  | bindRecordReleaseCore (slot : Nat) (r : Option BindRec)
  /-- UNIT_RESTART: R302. -/
  | unitRestart (slot : Nat)
  /-- CLUSTER_CLEAR: R195. -/
  | clusterClear (c : Nat)
  /-- CLUSTER_CLEAR_DONE: R195. -/
  | clusterClearDone (c : Nat)
  /-- MATRIX_START: R210. -/
  | matrixStart (c : Nat)
  /-- MATRIX_COMPLETE: R224. -/
  | matrixComplete (c : Nat)
  /-- COPY_BEAT: R212. -/
  | copyBeat (c ch : Nat)
  /-- COPY_COMMAND_DONE: R213. -/
  | copyCommandDone (c ch : Nat)
  /-- COPY_COMMAND_FAULT: R234. -/
  | copyCommandFault (c ch kind addr : Nat)
  /-- BARRIER_RELEASE: R247. -/
  | barrierRelease (c b : Nat) (flags : BitVec 5) (waiters : List (Nat × Nat))
  /-- DCMD_HALT: R252. -/
  | dcmdHalt (c : Nat)
  /-- DCMD_RESUME: R253. -/
  | dcmdResume (c : Nat)
  /-- DCMD_STEP: R253. -/
  | dcmdStep (c : Nat)
  /-- STEP_DONE: R253. -/
  | stepDone (c : Nat)
  /-- CROSS_TRIGGER_HALT: R252. -/
  | crossTriggerHalt (c : Nat)
  /-- CONTEXT_WINDOW_ACCESS: R254. -/
  | contextWindowAccess (c core slot off : Nat) (wr : Option Word)
  /-- STRAINER_SAMPLE: R259. -/
  | strainerSample (die : Nat)
  /-- REGISTER_WRITE: R5. -/
  | registerWrite (bar off : Nat) (v : Word)
  /-- VCSET_SWITCH: R278. -/
  | vcsetSwitch (job vc : Nat)
  /-- HOME_REQUEST: R287. -/
  | homeRequest (r : Req)
  /-- HOME_WRITEBACK: R287. -/
  | homeWriteback (w : Wb)
  /-- VCACHE_WRITEBACK: R272. -/
  | vcacheWriteback (w : Wb) (vc : Nat)
  /-- VCACHE_LOOKUP: R269. -/
  | vcacheLookup (r : Req) (vc : Nat)
  /-- INVALIDATION: R275. -/
  | invalidation (p : Probe)
  /-- FORWARD: R287. -/
  | forward (p : Probe)
  /-- REVOCATION: R287. -/
  | revocation (p : Probe)
  /-- PROMOTION_PROBE: R293. -/
  | promotionProbe (t core : Nat) (wide : Bool)
  /-- SLICE_SWEEP: R284. The slice, and the sets that are left. -/
  | sliceSweep (sweep : Nat × Nat)
  /-- LEASE_TIMEOUT: R286. -/
  | leaseTimeout (core job line granted : Nat)
  /-- AGENT_LOST_SCAN: R366. -/
  | agentLostScan (agent : BitVec 32)
  /-- JOB_END_BANK_SCAN: R264. The job, and the set of the scan. -/
  | jobEndBankScan (scan : Nat × Nat)
  /-- ALLOTMENT_CHANGE: R263. -/
  | allotmentChange (bank way : Nat) (entry : BitVec 16)
  /-- LAUNCH_TAKE: R299. -/
  | launchTake (l : LaunchSub)
  /-- PREDECESSOR_COMPLETE: R299. -/
  | predecessorComplete (lid : Nat)
  /-- DONE_MESSAGE: R309. -/
  | doneMessage (n : DoneNode) (e : UnitEnd)
  /-- LAUNCH_COMPLETE: R311. -/
  | launchComplete (lid : Nat)
  /-- TASK_DECREMENT: R305. -/
  | taskDecrement (rec job ptime : Nat)
  /-- RUN_LIST_INSTALL: R305. The core, and the slot and the task's record where the Infuser has chosen them (R303). -/
  | runListInstall (place : Nat × Option (Nat × Nat))
  /-- STEAL_REQUEST: R306. -/
  | stealRequest (die : Nat)
  /-- STEAL_REPLY: R306. -/
  | stealReply (die victim : Nat)
  /-- RECRUIT_START: R308. -/
  | recruitStart (m : RecruitMsg)
  /-- CANCEL_ARRIVAL: R312. -/
  | cancelArrival (core lid : Nat)
  /-- SEND_ALLOWANCE_RETURN: R314. -/
  | sendAllowanceReturn (core : Nat)
  /-- POISONED_PACKET_DROP: R316. -/
  | poisonedPacketDrop (c : Nat) (req : Option Nat)
  /-- CLUSTER_RESET: R367. -/
  | clusterReset (c : Nat)
  /-- PACKAGE_RESET: R360. -/
  | packageReset
  /-- SELF_TEST_PASS: R360. -/
  | selfTestPass (f : FnId)
  /-- FIRMWARE_BOOT: R362. The image is one that the host has provisioned since the last boot, if any. -/
  | firmwareBoot (f : FnId) (image : Option Nat)
  /-- WATCHDOG_EXPIRY: R362. -/
  | watchdogExpiry (f : FnId)
  /-- EXPLORE_PACKET: R363. The ring place, with 6 added for each number of the base die whose flood it is. -/
  | explorePacket (die : Nat) (from_ : Nat)
  /-- ROUTING_SETUP: R363. -/
  | routingSetup
  /-- RING_LINK_FAILURE: R364. -/
  | ringLinkFailure (i : Nat)
  /-- DROPPED_REPLY_TIMEOUT: R364. -/
  | droppedReplyTimeout (r : Req)
  /-- ECC_ERROR: R365. -/
  | eccError (w : EccWhere) (multi : Bool)
  /-- FAULT_LOG_DELIVERY: R368. A compute die, or, from 8 on, an I/O die whose queue the host reads. -/
  | faultLogDelivery (die : Nat)
  /-- RING_SPLIT: R371. -/
  | ringSplit
  /-- HALF_FENCE: R372. -/
  | halfFence (half : List Nat)
  /-- SELF_FENCE_TIMEOUT: R371. -/
  | selfFenceTimeout (half : List Nat)
  /-- PAGE_IN_REQUEST: R349. -/
  | pageInRequest (va : Nat)
  /-- LEAF_WRITE_VALID: R349. -/
  | leafWriteValid (va : Nat) (leaf : Word)
  /-- TRANSLATION_WALK: R347. -/
  | translationWalk (t va : Nat)
  /-- TMOVE_TRANSFER_DONE: R351. -/
  | tmoveTransferDone (c jid : Nat)
  /-- REPLICA_WINDOW: R352. -/
  | replicaWindow
  /-- REPLICA_FILL: R353. -/
  | replicaFill (r : Req) (p : Reply)
  /-- DOORBELL_WRITE: R388. -/
  | doorbellWrite (q tail : Nat)
  /-- COMMAND_LAUNCH: R389. -/
  | commandLaunch (q : Nat)
  /-- COMMAND_CANCEL_JOB: R389. -/
  | commandCancelJob (q : Nat)
  /-- COMMAND_LOAD_KEY: R396. -/
  | commandLoadKey (q : Nat)
  /-- COMMAND_ATTEST: R397. -/
  | commandAttest (q : Nat)
  /-- COMMAND_DEBUG: R389. -/
  | commandDebug (q : Nat)
  /-- HOST_DEVICE_ACCESS: R391. -/
  | hostDeviceAccess (pa : Nat) (wr : Option Byte) (own : Bool)
  /-- BACK_INVALIDATION: R392. -/
  | backInvalidation (line : Nat) (wb : List (Nat × Byte))
  /-- REMOTE_BEAT_ARRIVAL: R395. -/
  | remoteBeatArrival (job : Nat) (cells : List (Nat × Byte))
  /-- REMOTE_FLAG_ADD: R395. -/
  | remoteFlagAdd (c ch dev : Nat)
  /-- FABRIC_LINK_FAILURE: R395. -/
  | fabricLinkFailure (i : Nat)
  /-- HOST_PORT_DOWN: R386. -/
  | hostPortDown (i : Nat)
  /-- HOST_PORT_UP: R386. -/
  | hostPortUp (i : Nat)
  /-- REMOTE_READ_MESSAGE: R179. -/
  | remoteReadMessage (t : Nat)
  /-- PROBE_ACKNOWLEDGEMENT: R287. -/
  | probeAcknowledgement (a : ProbeAck)
  /-- ADD_REG: R97. -/
  | addReg (d a b : GReg)
  /-- ADD_IMM: R97. -/
  | addImm (d a : GReg) (imm : BitVec 17)
  /-- ADD_IMM32: R97. -/
  | addImm32 (d a : GReg) (imm : BitVec 32)
  /-- SUB_REG: R97. -/
  | subReg (d a b : GReg)
  /-- SUB_IMM: R97. -/
  | subImm (d a : GReg) (imm : BitVec 17)
  /-- SUB_IMM32: R97. -/
  | subImm32 (d a : GReg) (imm : BitVec 32)
  /-- MUL_REG: R97. -/
  | mulReg (d a b : GReg)
  /-- MUL_IMM: R97. -/
  | mulImm (d a : GReg) (imm : BitVec 17)
  /-- MUL_IMM32: R97. -/
  | mulImm32 (d a : GReg) (imm : BitVec 32)
  /-- MULH_REG: R97. -/
  | mulhReg (d a b : GReg)
  /-- MULH_IMM: R97. -/
  | mulhImm (d a : GReg) (imm : BitVec 17)
  /-- MULH_IMM32: R97. -/
  | mulhImm32 (d a : GReg) (imm : BitVec 32)
  /-- MULHU_REG: R97. -/
  | mulhuReg (d a b : GReg)
  /-- MULHU_IMM: R97. -/
  | mulhuImm (d a : GReg) (imm : BitVec 17)
  /-- MULHU_IMM32: R97. -/
  | mulhuImm32 (d a : GReg) (imm : BitVec 32)
  /-- AND_REG: R97. -/
  | andReg (d a b : GReg)
  /-- AND_IMM: R97. -/
  | andImm (d a : GReg) (imm : BitVec 17)
  /-- AND_IMM32: R97. -/
  | andImm32 (d a : GReg) (imm : BitVec 32)
  /-- OR_REG: R97. -/
  | orReg (d a b : GReg)
  /-- OR_IMM: R97. -/
  | orImm (d a : GReg) (imm : BitVec 17)
  /-- OR_IMM32: R97. -/
  | orImm32 (d a : GReg) (imm : BitVec 32)
  /-- XOR_REG: R97. -/
  | xorReg (d a b : GReg)
  /-- XOR_IMM: R97. -/
  | xorImm (d a : GReg) (imm : BitVec 17)
  /-- XOR_IMM32: R97. -/
  | xorImm32 (d a : GReg) (imm : BitVec 32)
  /-- ANDN_REG: R97. -/
  | andnReg (d a b : GReg)
  /-- ANDN_IMM: R97. -/
  | andnImm (d a : GReg) (imm : BitVec 17)
  /-- ANDN_IMM32: R97. -/
  | andnImm32 (d a : GReg) (imm : BitVec 32)
  /-- SHL_REG: R97. -/
  | shlReg (d a b : GReg)
  /-- SHL_IMM: R97. -/
  | shlImm (d a : GReg) (imm : BitVec 17)
  /-- SHL_IMM32: R97. -/
  | shlImm32 (d a : GReg) (imm : BitVec 32)
  /-- SHR_REG: R97. -/
  | shrReg (d a b : GReg)
  /-- SHR_IMM: R97. -/
  | shrImm (d a : GReg) (imm : BitVec 17)
  /-- SHR_IMM32: R97. -/
  | shrImm32 (d a : GReg) (imm : BitVec 32)
  /-- SAR_REG: R97. -/
  | sarReg (d a b : GReg)
  /-- SAR_IMM: R97. -/
  | sarImm (d a : GReg) (imm : BitVec 17)
  /-- SAR_IMM32: R97. -/
  | sarImm32 (d a : GReg) (imm : BitVec 32)
  /-- ROTR_REG: R97. -/
  | rotrReg (d a b : GReg)
  /-- ROTR_IMM: R97. -/
  | rotrImm (d a : GReg) (imm : BitVec 17)
  /-- ROTR_IMM32: R97. -/
  | rotrImm32 (d a : GReg) (imm : BitVec 32)
  /-- MIN_REG: R97. -/
  | minReg (d a b : GReg)
  /-- MIN_IMM: R97. -/
  | minImm (d a : GReg) (imm : BitVec 17)
  /-- MIN_IMM32: R97. -/
  | minImm32 (d a : GReg) (imm : BitVec 32)
  /-- MAX_REG: R97. -/
  | maxReg (d a b : GReg)
  /-- MAX_IMM: R97. -/
  | maxImm (d a : GReg) (imm : BitVec 17)
  /-- MAX_IMM32: R97. -/
  | maxImm32 (d a : GReg) (imm : BitVec 32)
  /-- MINU_REG: R97. -/
  | minuReg (d a b : GReg)
  /-- MINU_IMM: R97. -/
  | minuImm (d a : GReg) (imm : BitVec 17)
  /-- MINU_IMM32: R97. -/
  | minuImm32 (d a : GReg) (imm : BitVec 32)
  /-- MAXU_REG: R97. -/
  | maxuReg (d a b : GReg)
  /-- MAXU_IMM: R97. -/
  | maxuImm (d a : GReg) (imm : BitVec 17)
  /-- MAXU_IMM32: R97. -/
  | maxuImm32 (d a : GReg) (imm : BitVec 32)
  /-- CLZ: R97. -/
  | clz (d a : GReg)
  /-- CTZ: R97. -/
  | ctz (d a : GReg)
  /-- POPC: R97. -/
  | popc (d a : GReg)
  /-- SEXT: R97. -/
  | sext (d a : GReg) (sw : SrcWidth)
  /-- ZEXT: R97. -/
  | zext (d a : GReg) (sw : SrcWidth)
  /-- MADD: R97. -/
  | madd (d a b c : GReg)
  /-- DIV_REG: R98. -/
  | divReg (d a b : GReg)
  /-- DIV_IMM: R98. -/
  | divImm (d a : GReg) (imm : BitVec 17)
  /-- DIV_IMM32: R98. -/
  | divImm32 (d a : GReg) (imm : BitVec 32)
  /-- DIVU_REG: R98. -/
  | divuReg (d a b : GReg)
  /-- DIVU_IMM: R98. -/
  | divuImm (d a : GReg) (imm : BitVec 17)
  /-- DIVU_IMM32: R98. -/
  | divuImm32 (d a : GReg) (imm : BitVec 32)
  /-- REM_REG: R98. -/
  | remReg (d a b : GReg)
  /-- REM_IMM: R98. -/
  | remImm (d a : GReg) (imm : BitVec 17)
  /-- REM_IMM32: R98. -/
  | remImm32 (d a : GReg) (imm : BitVec 32)
  /-- REMU_REG: R98. -/
  | remuReg (d a b : GReg)
  /-- REMU_IMM: R98. -/
  | remuImm (d a : GReg) (imm : BitVec 17)
  /-- REMU_IMM32: R98. -/
  | remuImm32 (d a : GReg) (imm : BitVec 32)
  /-- MOVI: R99. -/
  | movi (d : GReg) (v : BitVec 64)
  /-- NOP: R100. -/
  | nop
  /-- NOPL: R100. -/
  | nopl
  /-- CMP_EQ_REG: R101. -/
  | cmpEqReg (d a b : GReg)
  /-- CMP_EQ_IMM: R101. -/
  | cmpEqImm (d a : GReg) (imm : BitVec 17)
  /-- CMP_NE_REG: R101. -/
  | cmpNeReg (d a b : GReg)
  /-- CMP_NE_IMM: R101. -/
  | cmpNeImm (d a : GReg) (imm : BitVec 17)
  /-- CMP_LT_REG: R101. -/
  | cmpLtReg (d a b : GReg)
  /-- CMP_LT_IMM: R101. -/
  | cmpLtImm (d a : GReg) (imm : BitVec 17)
  /-- CMP_GE_REG: R101. -/
  | cmpGeReg (d a b : GReg)
  /-- CMP_GE_IMM: R101. -/
  | cmpGeImm (d a : GReg) (imm : BitVec 17)
  /-- CMP_LTU_REG: R101. -/
  | cmpLtuReg (d a b : GReg)
  /-- CMP_LTU_IMM: R101. -/
  | cmpLtuImm (d a : GReg) (imm : BitVec 17)
  /-- CMP_GEU_REG: R101. -/
  | cmpGeuReg (d a b : GReg)
  /-- CMP_GEU_IMM: R101. -/
  | cmpGeuImm (d a : GReg) (imm : BitVec 17)
  /-- SEL: R102. -/
  | sel (d a b c : GReg)
  /-- BFX_UNSIGNED: R103. -/
  | bfxUnsigned (d a : GReg) (pos : BitVec 6) (len : BitVec 7)
  /-- BFX_SIGNED: R103. -/
  | bfxSigned (d a : GReg) (pos : BitVec 6) (len : BitVec 7)
  /-- BFI: R103. -/
  | bfi (d a : GReg) (pos : BitVec 6) (len : BitVec 7)
  /-- LEA: R104. -/
  | lea (d a b : GReg) (scale : BitVec 2) (disp : BitVec 17)
  /-- BR: R105. -/
  | br (disp : BitVec 17)
  /-- BCMP_EQ: R105. -/
  | bcmpEq (a b : GReg) (disp : BitVec 17)
  /-- BCMP_NE: R105. -/
  | bcmpNe (a b : GReg) (disp : BitVec 17)
  /-- BCMP_LT: R105. -/
  | bcmpLt (a b : GReg) (disp : BitVec 17)
  /-- BCMP_GE: R105. -/
  | bcmpGe (a b : GReg) (disp : BitVec 17)
  /-- BCMP_LTU: R105. -/
  | bcmpLtu (a b : GReg) (disp : BitVec 17)
  /-- BCMP_GEU: R105. -/
  | bcmpGeu (a b : GReg) (disp : BitVec 17)
  /-- JAL: R105. -/
  | jal (d : GReg) (disp : BitVec 32)
  /-- JR: R105. -/
  | jr (d a : GReg) (disp : BitVec 17)
  /-- TRAP: R107. -/
  | trap (code : BitVec 16)
  /-- BRK: R107. -/
  | brk (code : BitVec 16)
  /-- RETT: R90. -/
  | rett
  /-- RETT_SKIP: R90. -/
  | rettSkip
  /-- RDCR: R109. -/
  | rdcr (d : GReg) (idx : BitVec 12)
  /-- WRCR: R109. -/
  | wrcr (a : GReg) (idx : BitVec 12)
  /-- RDTIME: R110. -/
  | rdtime (d : GReg)
  /-- WAIT: R112. -/
  | wait
  /-- WAKE: R113. -/
  | wake (a : GReg)
  /-- YIELD: R115. -/
  | yield
  /-- EXIT: R116. -/
  | exit
  /-- RPT: R189. -/
  | rpt (count : BitVec 10) (stride : BitVec 3)
  /-- LPSET: R187. -/
  | lpset (k : Fin 3) (a : GReg) (disp : BitVec 17)
  /-- LD: R121. -/
  | ld (m : MemArgs)
  /-- LDC: R121. -/
  | ldc (m : MemArgs)
  /-- ST: R121. -/
  | st (m : MemArgs)
  /-- RECLAIM_STORE: R122. -/
  | reclaimStore (m : MemArgs)
  /-- AMO_ADD: R129. -/
  | amoAdd (m : AmoArgs)
  /-- AMO_AND: R129. -/
  | amoAnd (m : AmoArgs)
  /-- AMO_OR: R129. -/
  | amoOr (m : AmoArgs)
  /-- AMO_XOR: R129. -/
  | amoXor (m : AmoArgs)
  /-- AMO_MIN: R129. -/
  | amoMin (m : AmoArgs)
  /-- AMO_MAX: R129. -/
  | amoMax (m : AmoArgs)
  /-- AMO_MINU: R129. -/
  | amoMinu (m : AmoArgs)
  /-- AMO_MAXU: R129. -/
  | amoMaxu (m : AmoArgs)
  /-- AMO_SWAP: R129. -/
  | amoSwap (m : AmoArgs)
  /-- CAS: R129. -/
  | cas (m : AmoArgs) (disp : BitVec 32)
  /-- LDFE: R132. -/
  | ldfe (m : MemArgs)
  /-- STFE: R132. -/
  | stfe (m : MemArgs)
  /-- LDFF: R132. -/
  | ldff (m : MemArgs)
  /-- FESET: R132. -/
  | feset (m : MemArgs) (full : Bool)
  /-- FENCE_ACQ: R134. -/
  | fenceAcq (scope : Scope) (pr : Bool) (a : GReg)
  /-- FENCE_REL: R134. -/
  | fenceRel (scope : Scope) (all : Bool)
  /-- FENCE_FULL: R134. -/
  | fenceFull (scope : Scope) (all : Bool)
  /-- CFLUSH: R136. -/
  | cflush (a b : GReg) (scope : Scope) (scale : BitVec 2) (disp : BitVec 17)
  /-- UNTAINT: R137. -/
  | untaint (d : GReg)
  /-- RPUT_G: R139. -/
  | rputG (d : GReg) (a : GReg) (b : GReg) (ext : BitVec 32)
  /-- RPUT_V: R139. -/
  | rputV (d : VIdx) (a : GReg) (b : VIdx) (ext : BitVec 32)
  /-- PCLR_G: R140. -/
  | pclrG (d : GReg)
  /-- PCLR_V: R140. -/
  | pclrV (d : VIdx)
  /-- PTOUCH: R138. -/
  | ptouch (a b : GReg) (scale : BitVec 2) (disp : BitVec 17)
  /-- VADD: R165. -/
  | vadd (m : VMod) (d a b : VIdx)
  /-- VSUB: R165. -/
  | vsub (m : VMod) (d a b : VIdx)
  /-- VMUL: R165. -/
  | vmul (m : VMod) (d a b : VIdx)
  /-- VDIV: R165. -/
  | vdiv (m : VMod) (d a b : VIdx)
  /-- VMIN: R165. -/
  | vmin (m : VMod) (d a b : VIdx)
  /-- VMAX: R165. -/
  | vmax (m : VMod) (d a b : VIdx)
  /-- VAND: R165. -/
  | vand (m : VMod) (d a b : VIdx)
  /-- VOR: R165. -/
  | vor (m : VMod) (d a b : VIdx)
  /-- VXOR: R165. -/
  | vxor (m : VMod) (d a b : VIdx)
  /-- VSHL: R165. -/
  | vshl (m : VMod) (d a b : VIdx)
  /-- VSHR: R165. -/
  | vshr (m : VMod) (d a b : VIdx)
  /-- VSAR: R165. -/
  | vsar (m : VMod) (d a b : VIdx)
  /-- VABD: R165. -/
  | vabd (m : VMod) (d a b : VIdx)
  /-- VFMA: R165. -/
  | vfma (m : VMod) (d a b c : VIdx)
  /-- VFMS: R165. -/
  | vfms (m : VMod) (d a b c : VIdx)
  /-- VFNMA: R165. -/
  | vfnma (m : VMod) (d a b c : VIdx)
  /-- VABS: R165. -/
  | vabs (m : VMod) (d a : VIdx)
  /-- VNEG: R165. -/
  | vneg (m : VMod) (d a : VIdx)
  /-- VSQRT: R165. -/
  | vsqrt (m : VMod) (d a : VIdx)
  /-- VRCP: R165. -/
  | vrcp (m : VMod) (d a : VIdx)
  /-- VRSQ: R165. -/
  | vrsq (m : VMod) (d a : VIdx)
  /-- VEXP2: R165. -/
  | vexp2 (m : VMod) (d a : VIdx)
  /-- VLOG2: R165. -/
  | vlog2 (m : VMod) (d a : VIdx)
  /-- VTANH: R165. -/
  | vtanh (m : VMod) (d a : VIdx)
  /-- VNOT: R165. -/
  | vnot (m : VMod) (d a : VIdx)
  /-- VCMP_EQ: R166. -/
  | vcmpEq (m : VMod) (d : PReg) (a b : VIdx)
  /-- VCMP_NE: R166. -/
  | vcmpNe (m : VMod) (d : PReg) (a b : VIdx)
  /-- VCMP_LT: R166. -/
  | vcmpLt (m : VMod) (d : PReg) (a b : VIdx)
  /-- VCMP_LE: R166. -/
  | vcmpLe (m : VMod) (d : PReg) (a b : VIdx)
  /-- VCMP_GT: R166. -/
  | vcmpGt (m : VMod) (d : PReg) (a b : VIdx)
  /-- VCMP_GE: R166. -/
  | vcmpGe (m : VMod) (d : PReg) (a b : VIdx)
  /-- VSEL: R167. -/
  | vsel (m : VMod) (d a b : VIdx) (c : PReg)
  /-- VCVT: R168. -/
  | vcvt (m : VMod) (tag : BitVec 5) (d a : VIdx)
  /-- VBFPN: R169. -/
  | vbfpn (rnd : BitVec 3) (d a : VIdx) (n : BitVec 4) (b : BitVec 3)
  /-- VBFPX: R169. -/
  | vbfpx (d a : VIdx) (b : BitVec 3) (h : Bool)
  /-- VBFPI: R169. -/
  | vbfpi (d a : VIdx) (b : BitVec 3)
  /-- VTAG: R170. -/
  | vtag (tag : BitVec 5) (d a : VIdx)
  /-- VMOV: R170. -/
  | vmov (d a : VIdx)
  /-- VSPLAT: R170. -/
  | vsplat (m : VMod) (tag : BitVec 5) (d : VIdx) (a : GReg)
  /-- VEXT: R171. -/
  | vext (d : GReg) (a : VIdx) (lane : BitVec 6)
  /-- VINS: R171. -/
  | vins (d : VIdx) (a : GReg) (lane : BitVec 6)
  /-- VPERM: R173. -/
  | vperm (m : VMod) (d a b : VIdx)
  /-- VSLIDE: R173. -/
  | vslide (m : VMod) (d a : VIdx) (k : BitVec 17)
  /-- VROT: R173. -/
  | vrot (m : VMod) (d a : VIdx) (k : BitVec 17)
  /-- VRED_ADD: R174. -/
  | vredAdd (m : VMod) (d a : VIdx)
  /-- VRED_MIN: R174. -/
  | vredMin (m : VMod) (d a : VIdx)
  /-- VRED_MAX: R174. -/
  | vredMax (m : VMod) (d a : VIdx)
  /-- VRED_AND: R174. -/
  | vredAnd (m : VMod) (d a : VIdx)
  /-- VRED_OR: R174. -/
  | vredOr (m : VMod) (d a : VIdx)
  /-- VRED_XOR: R174. -/
  | vredXor (m : VMod) (d a : VIdx)
  /-- VSCAN_ADD: R174. -/
  | vscanAdd (m : VMod) (d a : VIdx)
  /-- VSCAN_MIN: R174. -/
  | vscanMin (m : VMod) (d a : VIdx)
  /-- VSCAN_MAX: R174. -/
  | vscanMax (m : VMod) (d a : VIdx)
  /-- VCOMPRESS: R175. -/
  | vcompress (d a : VIdx) (c : PReg)
  /-- PAND: R176. -/
  | pand (d a b : PReg)
  /-- POR: R176. -/
  | por (d a b : PReg)
  /-- PXOR: R176. -/
  | pxor (d a b : PReg)
  /-- PNOT: R176. -/
  | pnot (d a : PReg)
  /-- PSET: R176. -/
  | pset (d : PReg) (a : GReg)
  /-- PCNT: R176. -/
  | pcnt (d : GReg) (a : PReg)
  /-- PFIRST: R176. -/
  | pfirst (d : GReg) (a : PReg)
  /-- VLD: R177. -/
  | vld (m : VMemArgs) (b : GReg) (tag : BitVec 5)
  /-- VST: R177. -/
  | vst (m : VMemArgs) (b : GReg)
  /-- VLDW: R180. -/
  | vldw (m : VMemArgs) (b : GReg) (tag : BitVec 5)
  /-- VGATHER: R181. -/
  | vgather (m : VMemArgs) (b : VIdx) (tag : BitVec 5)
  /-- VSCATTER: R181. -/
  | vscatter (m : VMemArgs) (b : VIdx)
  /-- SBIND_READ: R183. -/
  | sbindRead (k : Fin 4) (a : GReg) (z : Bool) (disp : BitVec 32)
  /-- SBIND_WRITE: R183. -/
  | sbindWrite (k : Fin 4) (a : GReg) (z : Bool) (disp : BitVec 32)
  /-- SUNBIND: R183. -/
  | sunbind (k : Fin 4)
  /-- GADDR_SCALAR: R192. -/
  | gaddrScalar (d a : GReg) (t : BitVec 4)
  /-- GADDR_VECTOR: R192. -/
  | gaddrVector (d a : VIdx) (t : BitVec 4)
  /-- DTSET: R191. -/
  | dtset (a : GReg) (t : BitVec 4)
  /-- MMA: R223. -/
  | mma (m : MmaArgs)
  /-- ACRD: R226. -/
  | acrd (d : VIdx) (a : GReg) (acc : BitVec 5) (row : BitVec 3) (cg : BitVec 2)
  /-- ACST: R227. -/
  | acst (acc : BitVec 5) (a b c : GReg) (tag : BitVec 5) (pitch : BitVec 16)
  /-- ACZERO: R228. -/
  | aczero (acc : BitVec 5) (a : GReg)
  /-- ACVER: R229. -/
  | acver (d : GReg) (acc : BitVec 5)
  /-- CPY: R230. -/
  | cpy (d a b c : GReg) (m : CpyArgs)
  /-- BTWALK: R235. -/
  | btwalk (d a b c : GReg) (m : WalkArgs)
  /-- BTAPP: R237. -/
  | btapp (d a b c : GReg) (pos : BitVec 32) (ch : BitVec 4)
  /-- CPYRES: R244. -/
  | cpyres (d a : GReg)
  /-- JPOLL: R240. -/
  | jpoll (d a : GReg)
  /-- JWAIT: R241. -/
  | jwait (a : GReg)
  /-- CWAIT: R242. -/
  | cwait (a : GReg) (ch : BitVec 4)
  /-- BAR: R247. -/
  | bar (d : GReg) (b : BitVec 4)
  /-- BARV: R247. -/
  | barv (b : BitVec 4)
  /-- BARCFG: R246. -/
  | barcfg (a : GReg) (b : BitVec 4)
  /-- VCDEF: R318. -/
  | vcdef (d : BitVec 4) (a : GReg) (c : CacheCfg)
  /-- VCBIND: R319. -/
  | vcbind (slot : BitVec 6) (vc : BitVec 4) (a : GReg) (len : BitVec 32)
  /-- VCBIND_UNBIND: R319. -/
  | vcbindUnbind (slot : BitVec 6)
  /-- VCSET: R320. -/
  | vcset (d : GReg) (vc : BitVec 4) (a : GReg) (c : CacheCfg)
  /-- VCSTAT: R321. -/
  | vcstat (d : GReg) (vc : BitVec 4) (ctr : BitVec 3)
  /-- SPAWN: R322. -/
  | spawn (d a b c : GReg) (any : Bool) (disp : BitVec 32)
  /-- TDEC: R323. -/
  | tdec (a : GReg)
  /-- RFORK: R324. -/
  | rfork (a b c : GReg) (disp : BitVec 32)
  /-- RJOIN: R325. -/
  | rjoin (a : GReg)
  /-- LAUNCH: R326. -/
  | launch (d a : GReg)
  /-- CANCEL_LAUNCH: R327. -/
  | cancelLaunch (a : GReg)
  /-- CANCEL_GRAPH: R327. -/
  | cancelGraph (a : GReg)
  /-- CANCEL_PHASE: R327. -/
  | cancelPhase (a : GReg)
  /-- CANCEL_JOB: R327. -/
  | cancelJob (a : GReg)
  /-- LVWAIT_LAUNCH: R328. -/
  | lvwaitLaunch (a b : GReg)
  /-- LVWAIT_GRAPH: R328. -/
  | lvwaitGraph (a b : GReg)
  /-- LVWAIT_PHASE: R328. -/
  | lvwaitPhase (a b : GReg)
  /-- LVWAIT_JOB: R328. -/
  | lvwaitJob (a b : GReg)
  /-- SEND: R329. -/
  | send (a b : GReg) (idx : BitVec 5)
  /-- MCAST: R331. -/
  | mcast (a b : GReg) (idx : BitVec 5)
  /-- RADD: R331. -/
  | radd (a : GReg) (b : VIdx) (idx : BitVec 5)
  /-- NTREE: R330. -/
  | ntree (a : GReg) (t : BitVec 4)
  /-- XPUB: R374. -/
  | xpub (a b : GReg) (scope : Scope)
  /-- BUFPUB: R375. -/
  | bufpub (a : GReg)
  /-- TMOVE_DRAM: R376. -/
  | tmoveDram (d a : GReg) (ch : BitVec 12)
  /-- TMOVE_HOST: R376. -/
  | tmoveHost (d a : GReg)
  /-- REPHINT_CLEAR: R377. -/
  | rephintClear (a : GReg)
  /-- REPHINT_PIN: R377. -/
  | rephintPin (a : GReg) (deg : BitVec 2)
  /-- REPHINT_CAP: R377. -/
  | rephintCap (a : GReg) (deg : BitVec 2)
  /-- REPSTAT: R378. -/
  | repstat (d a : GReg) (ctr : BitVec 2)
  /-- PLBINV_ONE: R379. -/
  | plbinvOne (a : GReg)
  /-- PLBINV_ALL: R379. -/
  | plbinvAll
  /-- TLBINV_ONE: R379. -/
  | tlbinvOne (a : GReg)
  /-- TLBINV_ALL: R379. -/
  | tlbinvAll
  /-- CTXSWAP: R380. -/
  | ctxswap (a b : GReg)
  deriving DecidableEq, Repr

end Sys2Proof
end

