-- ==== Sys2Proof/WellFormed.lean ====
section
/-! DEFINITION. Which operand values an instruction word may carry: the ranges that 02_encoding (R29 to R49) and the
instruction chapters state for fields that the field's width alone does not bound. The decoder refuses a word that
breaks one (R51 step 8). -/
namespace Sys2Proof

/-- The tag codes of R54: 0 to 4, 8 to 22. -/
def tagCodeOk (t : BitVec 5) : Bool := t ≤ 4 || (8 ≤ t && t ≤ 22)
/-- The tags that have lanes: I8 to I64, F32 to E2M1 (R54, R170). -/
def laneTagOk (t : BitVec 5) : Bool := (1 ≤ t && t ≤ 4) || (8 ≤ t && t ≤ 15)
/-- The tags of `vgather` (R36): unpacked lanes. -/
def gatherTagOk (t : BitVec 5) : Bool := (1 ≤ t && t ≤ 4) || (8 ≤ t && t ≤ 12)
/-- A BFP tag, 16 to 22 (R54). -/
def bfpTag (t : BitVec 5) : Bool := 16 ≤ t && t ≤ 22

/-- An immediate shift amount must lie in 0 to 63 (R39). -/
def shiftOk17 (imm : BitVec 17) : Bool := imm.toNat ≤ 63
def shiftOk32 (imm : BitVec 32) : Bool := imm.toNat ≤ 63
/-- Position and length of a bit field (R40, R103). -/
def bitFieldOk (pos : BitVec 6) (len : BitVec 7) : Bool :=
  1 ≤ len.toNat && len.toNat ≤ 64 && pos.toNat + len.toNat ≤ 64
/-- The control-register indices of R83. -/
def crIndexOk (idx : BitVec 12) : Bool := idx.toNat ≤ 0x014 || (0x020 ≤ idx.toNat && idx.toNat ≤ 0x02F)
/-- The end displacement of `lpset`, 2 to 256 (R41). -/
def lpsetOk (disp : BitVec 17) : Bool := 2 ≤ disp.toNat && disp.toNat ≤ 256

/-- A displacement is zero with an index (R32, R120). -/
def MemArgs.indexOk (m : MemArgs) : Bool := m.b = 0 || m.disp = 0
/-- `ld`, `ldc`: sign only below double width (R32). -/
def MemArgs.loadOk (m : MemArgs) : Bool := m.indexOk && (!m.sx || m.width ≠ .d)
/-- `st`: no sign (R33). -/
def MemArgs.storeOk (m : MemArgs) : Bool := m.indexOk && !m.sx
/-- The reclaim store: sign 1 and policy uncached (R33). -/
def MemArgs.reclaimOk (m : MemArgs) : Bool := m.indexOk && m.sx && m.pol = .unc
/-- Full/empty loads: word or double (R42). -/
def MemArgs.feLoadOk (m : MemArgs) : Bool := m.loadOk && (m.width = .w || m.width = .d)
/-- `stfe`: word or double, sign 0 (R42). -/
def MemArgs.feStoreOk (m : MemArgs) : Bool := m.storeOk && (m.width = .w || m.width = .d)
/-- `feset`: no displacement, D = 0, word or double, sign 0 (R42). -/
def MemArgs.fesetOk (m : MemArgs) : Bool := m.d = 0 && m.disp = 0 && !m.sx && (m.width = .w || m.width = .d)
/-- `amo`: word or double (R42). -/
def AmoArgs.amoOk (m : AmoArgs) : Bool := m.width = .w || m.width = .d
/-- `cas`: word or double, MOD[4:3] = 0 (R42). -/
def AmoArgs.casOk (m : AmoArgs) : Bool := m.amoOk && m.scale = 0

/-- A rounding override 0 to 5 (R17, R34). -/
def VMod.rndOk (m : VMod) : Bool := m.rnd ≤ 5
/-- A minor that rounds and defines no `.u` or `.z` (R34, R43). -/
def VMod.rounds (m : VMod) : Bool := m.rndOk && !m.u
/-- A minor that rounds and defines `.u` (R43). -/
def VMod.roundsU (m : VMod) : Bool := m.rndOk
/-- A minor that never rounds and defines no `.u` or `.z`. -/
def VMod.plain (m : VMod) : Bool := m.rnd = 0 && !m.u
/-- A minor that never rounds and defines `.u` or `.z`. -/
def VMod.plainU (m : VMod) : Bool := m.rnd = 0
/-- No `.s` form (R164). -/
def VMod.noS (m : VMod) : Bool := !m.s

/-- `vld` (R36, R177): a tag of R54, an exponent address only with BFP, no guard and no `.s` with NONE or BFP. -/
def VMemArgs.vldOk (m : VMemArgs) (b : GReg) (tag : BitVec 5) : Bool :=
  m.m.plain && tagCodeOk tag && (bfpTag tag || b = 0) &&
    ((m.m.pg = 0 && !m.m.s) || !(tag = 0 || bfpTag tag))
/-- `vldw` (R36, R180): source tag E4M3 or BFP4, PG = 0. -/
def VMemArgs.vldwOk (m : VMemArgs) (b : GReg) (tag : BitVec 5) : Bool :=
  m.m.rounds && m.m.pg = 0 && (tag = 18 || (tag = 11 && b = 0))

/-- The ranges of R45 and R222. -/
def MmaArgs.ok (m : MmaArgs) : Bool :=
  2 ≤ m.n.toNat && m.n.toNat ≤ 8 && m.kk.toNat ≤ 24 / m.n.toNat && m.nn.toNat ≤ 64 && m.mm.toNat ≤ 8 &&
    (m.job || m.j = 0)
/-- Bytes of one row that `acst` writes (R227). -/
def acstRowBytes (tag : BitVec 5) : Nat :=
  if tag = 8 then 256 else if tag = 9 then 128 else 8 * (tag.toNat - 14)
/-- `acst` (R44, R227). -/
def acstOk (tag : BitVec 5) (c : GReg) (pitch : BitVec 16) : Bool :=
  (tag = 8 || tag = 9 || bfpTag tag) && (bfpTag tag || c = 0) &&
    acstRowBytes tag ≤ pitch.toNat && pitch.toNat % 4 = 0
/-- EXT64 of `cpy` (R46). -/
def CpyArgs.ok (m : CpyArgs) : Bool := m.conv ≤ 5 && !(m.shadow && m.remote) && (m.remote || m.dev = 0)
/-- EXT64 of `btwalk` (R46). -/
def WalkArgs.ok (m : WalkArgs) : Bool := m.widen ≤ 2 && m.planes ≠ 0
/-- A cache configuration word given to the virtual cache `own` (R47). -/
def CacheCfg.ok (c : CacheCfg) (own : BitVec 4) : Bool :=
  c.parent.toNat ≤ 16 && c.parent.toNat ≠ own.toNat && c.mask ≠ 0 && c.start.toNat + 2 ^ c.log.toNat ≤ 128

/-- Every range of R51 step 8 that the constructor's types do not already give. -/
def Instr.wellFormed : Instr → Bool
  | .shlImm _ _ imm | .shrImm _ _ imm | .sarImm _ _ imm | .rotrImm _ _ imm => shiftOk17 imm
  | .shlImm32 _ _ imm | .shrImm32 _ _ imm | .sarImm32 _ _ imm | .rotrImm32 _ _ imm => shiftOk32 imm
  | .bfxUnsigned _ _ p l | .bfxSigned _ _ p l | .bfi _ _ p l => bitFieldOk p l
  | .rdcr _ idx | .wrcr _ idx => crIndexOk idx
  | .lpset _ _ disp => lpsetOk disp
  | .ld m | .ldc m => m.loadOk
  | .st m => m.storeOk
  | .reclaimStore m => m.reclaimOk
  | .ldfe m | .ldff m => m.feLoadOk
  | .stfe m => m.feStoreOk
  | .feset m _ => m.fesetOk
  | .amoAdd m | .amoAnd m | .amoOr m | .amoXor m | .amoMin m | .amoMax m | .amoMinu m | .amoMaxu m | .amoSwap m =>
    m.amoOk
  | .cas m _ => m.casOk
  | .fenceAcq _ pr a => pr || a = 0
  | .cflush _ b _ _ disp | .ptouch _ b _ disp => b = 0 || disp = 0
  | .rputG _ a _ ext | .rputV _ a _ ext => a = 0 || ext = 0
  | .pclrG d => d ≠ 0
  | .vadd m _ _ _ | .vsub m _ _ _ | .vmul m _ _ _ => m.rounds
  | .vdiv m _ _ _ | .vabd m _ _ _ => m.roundsU
  | .vmin m _ _ _ | .vmax m _ _ _ => m.plainU
  | .vand m _ _ _ | .vor m _ _ _ | .vxor m _ _ _ | .vshl m _ _ _ | .vshr m _ _ _ | .vsar m _ _ _ => m.plain
  | .vfma m _ _ _ _ | .vfms m _ _ _ _ | .vfnma m _ _ _ _ => m.rounds
  | .vabs m _ _ | .vneg m _ _ | .vnot m _ _ => m.plain
  | .vsqrt m _ _ | .vrcp m _ _ | .vrsq m _ _ | .vexp2 m _ _ | .vlog2 m _ _ | .vtanh m _ _ => m.rounds
  | .vcmpEq m d _ _ | .vcmpNe m d _ _ | .vcmpLt m d _ _ | .vcmpLe m d _ _ | .vcmpGt m d _ _ | .vcmpGe m d _ _ =>
    m.plainU && d ≠ 0
  | .vsel m _ _ _ _ => m.plain
  | .vcvt m tag _ _ => m.roundsU && laneTagOk tag
  | .vbfpn rnd _ _ n b => rnd ≤ 5 && 2 ≤ n.toNat && n.toNat ≤ 8 && b.toNat < 16 / n.toNat
  | .vtag tag _ _ => tagCodeOk tag
  | .vsplat m tag _ _ => m.plain && laneTagOk tag
  | .vperm m _ _ _ => m.plainU && m.noS
  | .vslide m _ _ k | .vrot m _ _ k => m.plainU && m.noS && (-63 ≤ k.toInt && k.toInt ≤ 63)
  | .vredAdd m _ _ => m.rounds && m.noS
  | .vredMin m _ _ | .vredMax m _ _ => m.plainU && m.noS
  | .vredAnd m _ _ | .vredOr m _ _ | .vredXor m _ _ => m.plain && m.noS
  | .vscanAdd m _ _ => m.rounds && m.noS
  | .vscanMin m _ _ | .vscanMax m _ _ => m.plainU && m.noS
  | .pand d _ _ | .por d _ _ | .pxor d _ _ | .pnot d _ | .pset d _ => d ≠ 0
  | .vld m b tag => m.vldOk b tag
  | .vst m _ => m.m.plain
  | .vldw m b tag => m.vldwOk b tag
  | .vgather m _ tag => m.m.plain && gatherTagOk tag
  | .vscatter m _ => m.m.plain
  | .mma m => m.ok
  | .acst _ _ _ c tag pitch => acstOk tag c pitch
  | .cpy _ _ _ _ m => m.ok
  | .btwalk _ _ _ _ m => m.ok
  | .vcdef d _ c => c.ok d
  | .vcbind _ _ _ len => len ≠ 0
  | .vcset _ vc _ c => c.ok vc
  | .vcstat _ _ ctr => ctr ≤ 4
  | .spawn _ _ _ c any _ => !any || c = 0
  | _ => true

end Sys2Proof
end

