-- ==== Sys2Proof/Decode.lean ====
section
/-! DEFINITION. The decoder, total on any bytes, and after it the encoder. Both go through the fields of R26: a word
is unpacked into its fields, the major and minor choose the instruction (R37 to R49), and the word is accepted only
if the instruction's own encoding has exactly these fields, so that a non-zero unused field is refused (R29), and its
operands lie in their ranges (R30, R31). -/
namespace Sys2Proof

/-- The fields of an instruction word (R26); `ext` is EXT32 or EXT64, zero where the word has none. -/
structure Fields where
  l : Fin 4
  op : Fin 256
  pg : Fin 8
  r13 : Fin 2
  d : Fin 32
  a : Fin 32
  b : Fin 32
  c : Fin 32
  minor : BitVec 8
  mod : BitVec 5
  imm : BitVec 17
  ext : BitVec 64
  deriving DecidableEq, Repr

/-- The word that the fields make up, as a number (R26). -/
def Fields.pack (f : Fields) : Nat :=
  f.l.val + 4 * (f.op.val + 256 * (f.pg.val + 8 * (f.r13.val + 2 * (f.d.val + 32 * (f.a.val + 32 * (f.b.val +
    32 * (f.c.val + 32 * (f.minor.toNat + 256 * (f.mod.toNat + 32 * (f.imm.toNat + 131072 * f.ext.toNat))))))))))

/-- The fields of the word with the number `w` (R26). -/
def Fields.unpack (w : Nat) : Fields where
  l := Fin.ofNat 4 w
  op := Fin.ofNat 256 (w / 2 ^ 2)
  pg := Fin.ofNat 8 (w / 2 ^ 10)
  r13 := Fin.ofNat 2 (w / 2 ^ 13)
  d := Fin.ofNat 32 (w / 2 ^ 14)
  a := Fin.ofNat 32 (w / 2 ^ 19)
  b := Fin.ofNat 32 (w / 2 ^ 24)
  c := Fin.ofNat 32 (w / 2 ^ 29)
  minor := BitVec.ofNat 8 (w / 2 ^ 34)
  mod := BitVec.ofNat 5 (w / 2 ^ 42)
  imm := BitVec.ofNat 17 (w / 2 ^ 47)
  ext := BitVec.ofNat 64 (w / 2 ^ 64)

/-- The fields of a word with this length code, major and minor and every other field zero. -/
def Fields.base (op : Fin 256) (l : Fin 4) (minor : BitVec 8) : Fields :=
  { l := l, op := op, pg := 0, r13 := 0, d := 0, a := 0, b := 0, c := 0, minor := minor, mod := 0, imm := 0, ext := 0 }

/-- The bytes of a word with this length code (R26); the length of a word with L = 0b11 counts as 8 (R405). -/
def wordBytes (l : Fin 4) : Nat :=
  match l with
  | 1 => 12
  | 2 => 16
  | _ => 8

/-! Codes of the enumerated fields (R16, R39). -/

def Width.code : Width → BitVec 2
  | .b => 0 | .h => 1 | .w => 2 | .d => 3
def Width.of (x : BitVec 2) : Width :=
  if x = 0 then .b else if x = 1 then .h else if x = 2 then .w else .d
/-- Bytes of an access of this width (R121). -/
def Width.bytes : Width → Nat
  | .b => 1 | .h => 2 | .w => 4 | .d => 8
def SrcWidth.code : SrcWidth → BitVec 5
  | .b => 0 | .h => 1 | .w => 2
def SrcWidth.of (x : BitVec 5) : SrcWidth :=
  if x = 0 then .b else if x = 1 then .h else .w
def Policy.code : Policy → BitVec 3
  | .pd => 0 | .own => 1 | .wt => 2 | .sis => 3 | .wis => 4 | .unc => 5
def Policy.of (x : BitVec 3) : Policy :=
  if x = 1 then .own else if x = 2 then .wt else if x = 3 then .sis else if x = 4 then .wis
  else if x = 5 then .unc else .pd
def MemOrd.code : MemOrd → BitVec 2
  | .plain => 0 | .one => 1 | .sc => 2
def MemOrd.of (x : BitVec 2) : MemOrd :=
  if x = 1 then .one else if x = 2 then .sc else .plain
def Scope.code : Scope → BitVec 3
  | .core => 0 | .clu => 1 | .die => 2 | .pkg => 3 | .sys => 4
def Scope.of (x : BitVec 3) : Scope :=
  if x = 1 then .clu else if x = 2 then .die else if x = 3 then .pkg else if x = 4 then .sys else .core

/-! Small conversions between an operand and its field. -/

/-- An imm32 in EXT32 (R26). -/
def w32 (x : BitVec 32) : BitVec 64 := 0#32 ++ x
def p5 (p : PReg) : Fin 32 := ⟨p.val, by omega⟩
def pOf (x : Fin 32) : PReg := ⟨x.val % 8, by omega⟩
def k5 (k : Fin 4) : Fin 32 := ⟨k.val, by omega⟩
def kOf (x : Fin 32) : Fin 4 := ⟨x.val % 4, by omega⟩
def v5 (v : BitVec 4) : Fin 32 := ⟨v.toNat, by omega⟩
def v4 (x : Fin 32) : BitVec 4 := BitVec.ofNat 4 x.val
def r5 (x : BitVec 5) : Fin 32 := ⟨x.toNat, by omega⟩
def bv5 (x : Fin 32) : BitVec 5 := BitVec.ofNat 5 x.val
def bit17 (b : Bool) : BitVec 17 := if b then 1 else 0
def lvl5 (k : Fin 3) : BitVec 5 := BitVec.ofNat 5 k.val
def lvlOf (x : BitVec 5) : Fin 3 := ⟨x.toNat % 3, by omega⟩

/-! The fields that several majors share (R16, R17, R32, R34, R36). -/

def MemArgs.minorBits (m : MemArgs) : BitVec 8 := m.ord.code ++ m.pol.code ++ BitVec.ofBool m.sx ++ m.width.code
def MemArgs.modBits (m : MemArgs) : BitVec 5 := m.scale ++ m.scope.code
def AmoArgs.minorBits (m : AmoArgs) : BitVec 8 := m.ord.code ++ m.pol.code ++ 0#1 ++ m.width.code
def AmoArgs.modBits (m : AmoArgs) : BitVec 5 := m.scale ++ m.scope.code
def VMod.modBits (m : VMod) : BitVec 5 := BitVec.ofBool m.u ++ m.rnd ++ BitVec.ofBool m.s
def VMemArgs.minorBits (m : VMemArgs) : BitVec 8 := m.ord.code ++ m.pol.code ++ 0#3
def VMemArgs.immBits (m : VMemArgs) : BitVec 17 := m.scope.code ++ m.disp
def MmaArgs.ext (m : MmaArgs) : BitVec 64 :=
  0#27 ++ BitVec.ofBool m.job ++ BitVec.ofBool m.clear ++ m.n ++ m.kk ++ m.nn ++ m.mm ++ m.ver
def CpyArgs.ext (m : CpyArgs) : BitVec 64 :=
  0#32 ++ m.dev ++ 0#7 ++ BitVec.ofBool m.remote ++ BitVec.ofBool m.shadow ++ m.ch ++ m.conv
def WalkArgs.ext (m : WalkArgs) : BitVec 64 := 0#24 ++ m.planes ++ m.ch ++ m.widen ++ m.count ++ m.first
def CacheCfg.word (c : CacheCfg) : BitVec 32 := 0#1 ++ c.parent ++ c.mask ++ c.log ++ c.start

def Fields.ext32 (f : Fields) : BitVec 32 := f.ext.extractLsb' 0 32
def Fields.scale (f : Fields) : BitVec 2 := f.mod.extractLsb' 3 2
def Fields.scope (f : Fields) : Scope := Scope.of (f.mod.extractLsb' 0 3)
def Fields.mem (f : Fields) : MemArgs :=
  { d := f.d, a := f.a, b := f.b, width := Width.of (f.minor.extractLsb' 0 2), sx := f.minor.getLsbD 2,
    pol := Policy.of (f.minor.extractLsb' 3 3), ord := MemOrd.of (f.minor.extractLsb' 6 2),
    scope := f.scope, scale := f.scale, disp := f.imm }
def Fields.memNoDisp (f : Fields) : MemArgs := { f.mem with disp := 0 }
def Fields.amo (f : Fields) : AmoArgs :=
  { d := f.d, a := f.a, b := f.b, c := f.c, width := Width.of (f.minor.extractLsb' 0 2),
    pol := Policy.of (f.minor.extractLsb' 3 3), ord := MemOrd.of (f.minor.extractLsb' 6 2),
    scope := f.scope, scale := f.scale }
def Fields.vmod (f : Fields) : VMod :=
  { pg := f.pg, s := f.mod.getLsbD 0, rnd := f.mod.extractLsb' 1 3, u := f.mod.getLsbD 4 }
def Fields.vmem (f : Fields) : VMemArgs :=
  { m := f.vmod, d := f.d, a := f.a, pol := Policy.of (f.minor.extractLsb' 3 3),
    ord := MemOrd.of (f.minor.extractLsb' 6 2), scope := Scope.of (f.imm.extractLsb' 14 3),
    disp := f.imm.extractLsb' 0 14 }
def Fields.mma (f : Fields) : MmaArgs :=
  { acc := bv5 f.d, a := f.a, b := f.b, c := f.c, j := r5 f.mod, job := f.ext.getLsbD 36, clear := f.ext.getLsbD 35,
    n := f.ext.extractLsb' 31 4, kk := f.ext.extractLsb' 27 4, nn := f.ext.extractLsb' 20 7,
    mm := f.ext.extractLsb' 16 4, ver := f.ext.extractLsb' 0 16 }
def Fields.cpy (f : Fields) : CpyArgs :=
  { conv := f.ext.extractLsb' 0 3, ch := f.ext.extractLsb' 3 4, shadow := f.ext.getLsbD 7, remote := f.ext.getLsbD 8,
    dev := f.ext.extractLsb' 16 16 }
def Fields.walk (f : Fields) : WalkArgs :=
  { first := f.ext.extractLsb' 0 16, count := f.ext.extractLsb' 16 16, widen := f.ext.extractLsb' 32 2,
    ch := f.ext.extractLsb' 34 4, planes := f.ext.extractLsb' 38 2 }
def CacheCfg.of (x : BitVec 32) : CacheCfg :=
  { parent := x.extractLsb' 26 5, mask := x.extractLsb' 10 16, log := x.extractLsb' 7 3, start := x.extractLsb' 0 7 }

/-- Why bytes are not an instruction; every reason raises illegal instruction (R51 steps 3 and 5 to 8). -/
inductive DecodeError
  | shortBytes
  | lengthCode
  | noSuchMajorOrMinor
  | fieldNotZeroOrReserved
  | operandRange
  deriving DecidableEq, Repr

/-- The encoding of an instruction (R37 to R49); an event has none. -/
def fieldsOf : Instr → Option Fields
  | .addReg d a b => some { Fields.base 0x01 0 0 with d := d, a := a, b := b }
  | .addImm d a imm => some { Fields.base 0x02 0 0 with d := d, a := a, imm := imm }
  | .addImm32 d a imm => some { Fields.base 0x03 1 0 with d := d, a := a, ext := w32 imm }
  | .subReg d a b => some { Fields.base 0x01 0 1 with d := d, a := a, b := b }
  | .subImm d a imm => some { Fields.base 0x02 0 1 with d := d, a := a, imm := imm }
  | .subImm32 d a imm => some { Fields.base 0x03 1 1 with d := d, a := a, ext := w32 imm }
  | .mulReg d a b => some { Fields.base 0x01 0 2 with d := d, a := a, b := b }
  | .mulImm d a imm => some { Fields.base 0x02 0 2 with d := d, a := a, imm := imm }
  | .mulImm32 d a imm => some { Fields.base 0x03 1 2 with d := d, a := a, ext := w32 imm }
  | .mulhReg d a b => some { Fields.base 0x01 0 3 with d := d, a := a, b := b }
  | .mulhImm d a imm => some { Fields.base 0x02 0 3 with d := d, a := a, imm := imm }
  | .mulhImm32 d a imm => some { Fields.base 0x03 1 3 with d := d, a := a, ext := w32 imm }
  | .mulhuReg d a b => some { Fields.base 0x01 0 4 with d := d, a := a, b := b }
  | .mulhuImm d a imm => some { Fields.base 0x02 0 4 with d := d, a := a, imm := imm }
  | .mulhuImm32 d a imm => some { Fields.base 0x03 1 4 with d := d, a := a, ext := w32 imm }
  | .andReg d a b => some { Fields.base 0x01 0 5 with d := d, a := a, b := b }
  | .andImm d a imm => some { Fields.base 0x02 0 5 with d := d, a := a, imm := imm }
  | .andImm32 d a imm => some { Fields.base 0x03 1 5 with d := d, a := a, ext := w32 imm }
  | .orReg d a b => some { Fields.base 0x01 0 6 with d := d, a := a, b := b }
  | .orImm d a imm => some { Fields.base 0x02 0 6 with d := d, a := a, imm := imm }
  | .orImm32 d a imm => some { Fields.base 0x03 1 6 with d := d, a := a, ext := w32 imm }
  | .xorReg d a b => some { Fields.base 0x01 0 7 with d := d, a := a, b := b }
  | .xorImm d a imm => some { Fields.base 0x02 0 7 with d := d, a := a, imm := imm }
  | .xorImm32 d a imm => some { Fields.base 0x03 1 7 with d := d, a := a, ext := w32 imm }
  | .andnReg d a b => some { Fields.base 0x01 0 8 with d := d, a := a, b := b }
  | .andnImm d a imm => some { Fields.base 0x02 0 8 with d := d, a := a, imm := imm }
  | .andnImm32 d a imm => some { Fields.base 0x03 1 8 with d := d, a := a, ext := w32 imm }
  | .shlReg d a b => some { Fields.base 0x01 0 9 with d := d, a := a, b := b }
  | .shlImm d a imm => some { Fields.base 0x02 0 9 with d := d, a := a, imm := imm }
  | .shlImm32 d a imm => some { Fields.base 0x03 1 9 with d := d, a := a, ext := w32 imm }
  | .shrReg d a b => some { Fields.base 0x01 0 10 with d := d, a := a, b := b }
  | .shrImm d a imm => some { Fields.base 0x02 0 10 with d := d, a := a, imm := imm }
  | .shrImm32 d a imm => some { Fields.base 0x03 1 10 with d := d, a := a, ext := w32 imm }
  | .sarReg d a b => some { Fields.base 0x01 0 11 with d := d, a := a, b := b }
  | .sarImm d a imm => some { Fields.base 0x02 0 11 with d := d, a := a, imm := imm }
  | .sarImm32 d a imm => some { Fields.base 0x03 1 11 with d := d, a := a, ext := w32 imm }
  | .rotrReg d a b => some { Fields.base 0x01 0 12 with d := d, a := a, b := b }
  | .rotrImm d a imm => some { Fields.base 0x02 0 12 with d := d, a := a, imm := imm }
  | .rotrImm32 d a imm => some { Fields.base 0x03 1 12 with d := d, a := a, ext := w32 imm }
  | .minReg d a b => some { Fields.base 0x01 0 13 with d := d, a := a, b := b }
  | .minImm d a imm => some { Fields.base 0x02 0 13 with d := d, a := a, imm := imm }
  | .minImm32 d a imm => some { Fields.base 0x03 1 13 with d := d, a := a, ext := w32 imm }
  | .maxReg d a b => some { Fields.base 0x01 0 14 with d := d, a := a, b := b }
  | .maxImm d a imm => some { Fields.base 0x02 0 14 with d := d, a := a, imm := imm }
  | .maxImm32 d a imm => some { Fields.base 0x03 1 14 with d := d, a := a, ext := w32 imm }
  | .minuReg d a b => some { Fields.base 0x01 0 15 with d := d, a := a, b := b }
  | .minuImm d a imm => some { Fields.base 0x02 0 15 with d := d, a := a, imm := imm }
  | .minuImm32 d a imm => some { Fields.base 0x03 1 15 with d := d, a := a, ext := w32 imm }
  | .maxuReg d a b => some { Fields.base 0x01 0 16 with d := d, a := a, b := b }
  | .maxuImm d a imm => some { Fields.base 0x02 0 16 with d := d, a := a, imm := imm }
  | .maxuImm32 d a imm => some { Fields.base 0x03 1 16 with d := d, a := a, ext := w32 imm }
  | .clz d a => some { Fields.base 0x01 0 17 with d := d, a := a }
  | .ctz d a => some { Fields.base 0x01 0 18 with d := d, a := a }
  | .popc d a => some { Fields.base 0x01 0 19 with d := d, a := a }
  | .sext d a sw => some { Fields.base 0x01 0 20 with d := d, a := a, mod := sw.code }
  | .zext d a sw => some { Fields.base 0x01 0 21 with d := d, a := a, mod := sw.code }
  | .madd d a b c => some { Fields.base 0x01 0 22 with d := d, a := a, b := b, c := c }
  | .divReg d a b => some { Fields.base 0x01 0 32 with d := d, a := a, b := b }
  | .divImm d a imm => some { Fields.base 0x02 0 32 with d := d, a := a, imm := imm }
  | .divImm32 d a imm => some { Fields.base 0x03 1 32 with d := d, a := a, ext := w32 imm }
  | .divuReg d a b => some { Fields.base 0x01 0 33 with d := d, a := a, b := b }
  | .divuImm d a imm => some { Fields.base 0x02 0 33 with d := d, a := a, imm := imm }
  | .divuImm32 d a imm => some { Fields.base 0x03 1 33 with d := d, a := a, ext := w32 imm }
  | .remReg d a b => some { Fields.base 0x01 0 34 with d := d, a := a, b := b }
  | .remImm d a imm => some { Fields.base 0x02 0 34 with d := d, a := a, imm := imm }
  | .remImm32 d a imm => some { Fields.base 0x03 1 34 with d := d, a := a, ext := w32 imm }
  | .remuReg d a b => some { Fields.base 0x01 0 35 with d := d, a := a, b := b }
  | .remuImm d a imm => some { Fields.base 0x02 0 35 with d := d, a := a, imm := imm }
  | .remuImm32 d a imm => some { Fields.base 0x03 1 35 with d := d, a := a, ext := w32 imm }
  | .movi d v => some { Fields.base 0x04 2 0 with d := d, ext := v }
  | .nop => some (Fields.base 0x05 0 0)
  | .cmpEqReg d a b => some { Fields.base 0x06 0 0 with d := d, a := a, b := b }
  | .cmpEqImm d a imm => some { Fields.base 0x06 0 0 with d := d, a := a, imm := imm, mod := 1 }
  | .cmpNeReg d a b => some { Fields.base 0x06 0 1 with d := d, a := a, b := b }
  | .cmpNeImm d a imm => some { Fields.base 0x06 0 1 with d := d, a := a, imm := imm, mod := 1 }
  | .cmpLtReg d a b => some { Fields.base 0x06 0 2 with d := d, a := a, b := b }
  | .cmpLtImm d a imm => some { Fields.base 0x06 0 2 with d := d, a := a, imm := imm, mod := 1 }
  | .cmpGeReg d a b => some { Fields.base 0x06 0 3 with d := d, a := a, b := b }
  | .cmpGeImm d a imm => some { Fields.base 0x06 0 3 with d := d, a := a, imm := imm, mod := 1 }
  | .cmpLtuReg d a b => some { Fields.base 0x06 0 4 with d := d, a := a, b := b }
  | .cmpLtuImm d a imm => some { Fields.base 0x06 0 4 with d := d, a := a, imm := imm, mod := 1 }
  | .cmpGeuReg d a b => some { Fields.base 0x06 0 5 with d := d, a := a, b := b }
  | .cmpGeuImm d a imm => some { Fields.base 0x06 0 5 with d := d, a := a, imm := imm, mod := 1 }
  | .sel d a b c => some { Fields.base 0x07 0 0 with d := d, a := a, b := b, c := c }
  | .bfxUnsigned d a pos len => some { Fields.base 0x08 0 0 with d := d, a := a, imm := (0#4 ++ len ++ pos : BitVec 17) }
  | .bfxSigned d a pos len => some { Fields.base 0x08 0 1 with d := d, a := a, imm := (0#4 ++ len ++ pos : BitVec 17) }
  | .bfi d a pos len => some { Fields.base 0x09 0 0 with d := d, a := a, imm := (0#4 ++ len ++ pos : BitVec 17) }
  | .lea d a b scale disp => some { Fields.base 0x0A 0 0 with d := d, a := a, b := b, mod := (scale ++ 0#3 : BitVec 5), imm := disp }
  | .nopl => some (Fields.base 0x0B 1 0)
  | .br disp => some { Fields.base 0x10 0 0 with imm := disp }
  | .bcmpEq a b disp => some { Fields.base 0x11 0 0 with a := a, b := b, imm := disp }
  | .bcmpNe a b disp => some { Fields.base 0x11 0 1 with a := a, b := b, imm := disp }
  | .bcmpLt a b disp => some { Fields.base 0x11 0 2 with a := a, b := b, imm := disp }
  | .bcmpGe a b disp => some { Fields.base 0x11 0 3 with a := a, b := b, imm := disp }
  | .bcmpLtu a b disp => some { Fields.base 0x11 0 4 with a := a, b := b, imm := disp }
  | .bcmpGeu a b disp => some { Fields.base 0x11 0 5 with a := a, b := b, imm := disp }
  | .jal d disp => some { Fields.base 0x12 1 0 with d := d, ext := w32 disp }
  | .jr d a disp => some { Fields.base 0x13 0 0 with d := d, a := a, imm := disp }
  | .trap code => some { Fields.base 0x14 0 0 with imm := (0#1 ++ code : BitVec 17) }
  | .rett => some (Fields.base 0x15 0 0)
  | .rettSkip => some (Fields.base 0x15 0 1)
  | .rdcr d idx => some { Fields.base 0x16 0 0 with d := d, imm := (0#5 ++ idx : BitVec 17) }
  | .wrcr a idx => some { Fields.base 0x17 0 0 with a := a, imm := (0#5 ++ idx : BitVec 17) }
  | .wait => some (Fields.base 0x18 0 0)
  | .wake a => some { Fields.base 0x19 0 0 with a := a }
  | .yield => some (Fields.base 0x1A 0 0)
  | .exit => some (Fields.base 0x1B 0 0)
  | .brk code => some { Fields.base 0x1C 0 0 with imm := (0#1 ++ code : BitVec 17) }
  | .rdtime d => some { Fields.base 0x1D 0 0 with d := d }
  | .rpt count stride => some { Fields.base 0x1E 0 0 with imm := (0#4 ++ stride ++ count : BitVec 17) }
  | .lpset k a disp => some { Fields.base 0x1F 0 0 with a := a, mod := (lvl5 k), imm := disp }
  | .ld m => some { Fields.base 0x20 0 m.minorBits with d := m.d, a := m.a, b := m.b, mod := m.modBits, imm := m.disp }
  | .st m => some { Fields.base 0x21 0 m.minorBits with d := m.d, a := m.a, b := m.b, mod := m.modBits, imm := m.disp }
  | .reclaimStore m => some { Fields.base 0x21 0 m.minorBits with d := m.d, a := m.a, b := m.b, mod := m.modBits, imm := m.disp }
  | .ldc m => some { Fields.base 0x22 0 m.minorBits with d := m.d, a := m.a, b := m.b, mod := m.modBits, imm := m.disp }
  | .amoAdd m => some { Fields.base 0x23 0 m.minorBits with d := m.d, a := m.a, b := m.b, c := m.c, mod := m.modBits, imm := 0 }
  | .amoAnd m => some { Fields.base 0x23 0 m.minorBits with d := m.d, a := m.a, b := m.b, c := m.c, mod := m.modBits, imm := 1 }
  | .amoOr m => some { Fields.base 0x23 0 m.minorBits with d := m.d, a := m.a, b := m.b, c := m.c, mod := m.modBits, imm := 2 }
  | .amoXor m => some { Fields.base 0x23 0 m.minorBits with d := m.d, a := m.a, b := m.b, c := m.c, mod := m.modBits, imm := 3 }
  | .amoMin m => some { Fields.base 0x23 0 m.minorBits with d := m.d, a := m.a, b := m.b, c := m.c, mod := m.modBits, imm := 4 }
  | .amoMax m => some { Fields.base 0x23 0 m.minorBits with d := m.d, a := m.a, b := m.b, c := m.c, mod := m.modBits, imm := 5 }
  | .amoMinu m => some { Fields.base 0x23 0 m.minorBits with d := m.d, a := m.a, b := m.b, c := m.c, mod := m.modBits, imm := 6 }
  | .amoMaxu m => some { Fields.base 0x23 0 m.minorBits with d := m.d, a := m.a, b := m.b, c := m.c, mod := m.modBits, imm := 7 }
  | .amoSwap m => some { Fields.base 0x23 0 m.minorBits with d := m.d, a := m.a, b := m.b, c := m.c, mod := m.modBits, imm := 8 }
  | .cas m disp => some { Fields.base 0x24 1 m.minorBits with d := m.d, a := m.a, b := m.b, c := m.c, mod := m.modBits, ext := w32 disp }
  | .ldfe m => some { Fields.base 0x25 0 m.minorBits with d := m.d, a := m.a, b := m.b, mod := m.modBits, imm := m.disp }
  | .stfe m => some { Fields.base 0x26 0 m.minorBits with d := m.d, a := m.a, b := m.b, mod := m.modBits, imm := m.disp }
  | .ldff m => some { Fields.base 0x27 0 m.minorBits with d := m.d, a := m.a, b := m.b, mod := m.modBits, imm := m.disp }
  | .feset m full => some { Fields.base 0x28 0 m.minorBits with d := m.d, a := m.a, b := m.b, mod := m.modBits, imm := (bit17 full) }
  | .fenceAcq scope pr a => some { Fields.base 0x29 0 0 with a := a, mod := (0#1 ++ BitVec.ofBool pr ++ scope.code : BitVec 5) }
  | .fenceRel scope all => some { Fields.base 0x29 0 1 with mod := (BitVec.ofBool all ++ 0#1 ++ scope.code : BitVec 5) }
  | .fenceFull scope all => some { Fields.base 0x29 0 2 with mod := (BitVec.ofBool all ++ 0#1 ++ scope.code : BitVec 5) }
  | .cflush a b scope scale disp => some { Fields.base 0x2A 0 0 with a := a, b := b, mod := (scale ++ scope.code : BitVec 5), imm := disp }
  | .untaint d => some { Fields.base 0x2B 0 0 with d := d }
  | .rputG d a b ext => some { Fields.base 0x2C 1 0 with d := d, a := a, b := b, ext := w32 ext }
  | .rputV d a b ext => some { Fields.base 0x2C 1 1 with d := d, a := a, b := b, ext := w32 ext }
  | .pclrG d => some { Fields.base 0x2D 0 0 with d := d }
  | .pclrV d => some { Fields.base 0x2D 0 1 with d := d }
  | .ptouch a b scale disp => some { Fields.base 0x2E 0 0 with a := a, b := b, mod := (scale ++ 0#3 : BitVec 5), imm := disp }
  | .vadd m d a b => some { Fields.base 0x40 0 0 with pg := m.pg, mod := m.modBits, d := d, a := a, b := b }
  | .vsub m d a b => some { Fields.base 0x40 0 1 with pg := m.pg, mod := m.modBits, d := d, a := a, b := b }
  | .vmul m d a b => some { Fields.base 0x40 0 2 with pg := m.pg, mod := m.modBits, d := d, a := a, b := b }
  | .vdiv m d a b => some { Fields.base 0x40 0 3 with pg := m.pg, mod := m.modBits, d := d, a := a, b := b }
  | .vmin m d a b => some { Fields.base 0x40 0 4 with pg := m.pg, mod := m.modBits, d := d, a := a, b := b }
  | .vmax m d a b => some { Fields.base 0x40 0 5 with pg := m.pg, mod := m.modBits, d := d, a := a, b := b }
  | .vand m d a b => some { Fields.base 0x40 0 6 with pg := m.pg, mod := m.modBits, d := d, a := a, b := b }
  | .vor m d a b => some { Fields.base 0x40 0 7 with pg := m.pg, mod := m.modBits, d := d, a := a, b := b }
  | .vxor m d a b => some { Fields.base 0x40 0 8 with pg := m.pg, mod := m.modBits, d := d, a := a, b := b }
  | .vshl m d a b => some { Fields.base 0x40 0 9 with pg := m.pg, mod := m.modBits, d := d, a := a, b := b }
  | .vshr m d a b => some { Fields.base 0x40 0 10 with pg := m.pg, mod := m.modBits, d := d, a := a, b := b }
  | .vsar m d a b => some { Fields.base 0x40 0 11 with pg := m.pg, mod := m.modBits, d := d, a := a, b := b }
  | .vabd m d a b => some { Fields.base 0x40 0 12 with pg := m.pg, mod := m.modBits, d := d, a := a, b := b }
  | .vfma m d a b c => some { Fields.base 0x41 0 0 with pg := m.pg, mod := m.modBits, d := d, a := a, b := b, c := c }
  | .vfms m d a b c => some { Fields.base 0x41 0 1 with pg := m.pg, mod := m.modBits, d := d, a := a, b := b, c := c }
  | .vfnma m d a b c => some { Fields.base 0x41 0 2 with pg := m.pg, mod := m.modBits, d := d, a := a, b := b, c := c }
  | .vabs m d a => some { Fields.base 0x42 0 0 with pg := m.pg, mod := m.modBits, d := d, a := a }
  | .vneg m d a => some { Fields.base 0x42 0 1 with pg := m.pg, mod := m.modBits, d := d, a := a }
  | .vsqrt m d a => some { Fields.base 0x42 0 2 with pg := m.pg, mod := m.modBits, d := d, a := a }
  | .vrcp m d a => some { Fields.base 0x42 0 3 with pg := m.pg, mod := m.modBits, d := d, a := a }
  | .vrsq m d a => some { Fields.base 0x42 0 4 with pg := m.pg, mod := m.modBits, d := d, a := a }
  | .vexp2 m d a => some { Fields.base 0x42 0 5 with pg := m.pg, mod := m.modBits, d := d, a := a }
  | .vlog2 m d a => some { Fields.base 0x42 0 6 with pg := m.pg, mod := m.modBits, d := d, a := a }
  | .vtanh m d a => some { Fields.base 0x42 0 7 with pg := m.pg, mod := m.modBits, d := d, a := a }
  | .vnot m d a => some { Fields.base 0x42 0 8 with pg := m.pg, mod := m.modBits, d := d, a := a }
  | .vcmpEq m d a b => some { Fields.base 0x43 0 0 with pg := m.pg, mod := m.modBits, d := (p5 d), a := a, b := b }
  | .vcmpNe m d a b => some { Fields.base 0x43 0 1 with pg := m.pg, mod := m.modBits, d := (p5 d), a := a, b := b }
  | .vcmpLt m d a b => some { Fields.base 0x43 0 2 with pg := m.pg, mod := m.modBits, d := (p5 d), a := a, b := b }
  | .vcmpLe m d a b => some { Fields.base 0x43 0 3 with pg := m.pg, mod := m.modBits, d := (p5 d), a := a, b := b }
  | .vcmpGt m d a b => some { Fields.base 0x43 0 4 with pg := m.pg, mod := m.modBits, d := (p5 d), a := a, b := b }
  | .vcmpGe m d a b => some { Fields.base 0x43 0 5 with pg := m.pg, mod := m.modBits, d := (p5 d), a := a, b := b }
  | .vsel m d a b c => some { Fields.base 0x44 0 0 with pg := m.pg, mod := m.modBits, d := d, a := a, b := b, c := (p5 c) }
  | .vcvt m tag d a => some { Fields.base 0x45 0 (0#3 ++ tag : BitVec 8) with pg := m.pg, mod := m.modBits, d := d, a := a }
  | .vbfpn rnd d a n b => some { Fields.base 0x46 0 0 with mod := (0#1 ++ rnd ++ 0#1 : BitVec 5), d := d, a := a, imm := (0#10 ++ b ++ n : BitVec 17) }
  | .vbfpx d a b h => some { Fields.base 0x46 0 1 with d := d, a := a, imm := (0#9 ++ BitVec.ofBool h ++ b ++ 0#4 : BitVec 17) }
  | .vbfpi d a b => some { Fields.base 0x46 0 2 with d := d, a := a, imm := (0#10 ++ b ++ 0#4 : BitVec 17) }
  | .vtag tag d a => some { Fields.base 0x47 0 (0#3 ++ tag : BitVec 8) with d := d, a := a }
  | .vmov d a => some { Fields.base 0x48 0 0 with d := d, a := a }
  | .vsplat m tag d a => some { Fields.base 0x48 0 1 with pg := m.pg, mod := m.modBits, d := d, a := a, imm := (0#12 ++ tag : BitVec 17) }
  | .vext d a lane => some { Fields.base 0x49 0 0 with d := d, a := a, imm := (0#11 ++ lane : BitVec 17) }
  | .vins d a lane => some { Fields.base 0x49 0 1 with d := d, a := a, imm := (0#11 ++ lane : BitVec 17) }
  | .vperm m d a b => some { Fields.base 0x4A 0 0 with pg := m.pg, mod := m.modBits, d := d, a := a, b := b }
  | .vslide m d a k => some { Fields.base 0x4B 0 0 with pg := m.pg, mod := m.modBits, d := d, a := a, imm := k }
  | .vrot m d a k => some { Fields.base 0x4B 0 1 with pg := m.pg, mod := m.modBits, d := d, a := a, imm := k }
  | .vredAdd m d a => some { Fields.base 0x4C 0 0 with pg := m.pg, mod := m.modBits, d := d, a := a }
  | .vredMin m d a => some { Fields.base 0x4C 0 1 with pg := m.pg, mod := m.modBits, d := d, a := a }
  | .vredMax m d a => some { Fields.base 0x4C 0 2 with pg := m.pg, mod := m.modBits, d := d, a := a }
  | .vredAnd m d a => some { Fields.base 0x4C 0 3 with pg := m.pg, mod := m.modBits, d := d, a := a }
  | .vredOr m d a => some { Fields.base 0x4C 0 4 with pg := m.pg, mod := m.modBits, d := d, a := a }
  | .vredXor m d a => some { Fields.base 0x4C 0 5 with pg := m.pg, mod := m.modBits, d := d, a := a }
  | .vscanAdd m d a => some { Fields.base 0x4D 0 0 with pg := m.pg, mod := m.modBits, d := d, a := a }
  | .vscanMin m d a => some { Fields.base 0x4D 0 1 with pg := m.pg, mod := m.modBits, d := d, a := a }
  | .vscanMax m d a => some { Fields.base 0x4D 0 2 with pg := m.pg, mod := m.modBits, d := d, a := a }
  | .vcompress d a c => some { Fields.base 0x4E 0 0 with d := d, a := a, c := (p5 c) }
  | .pand d a b => some { Fields.base 0x4F 0 0 with d := (p5 d), a := (p5 a), b := (p5 b) }
  | .por d a b => some { Fields.base 0x4F 0 1 with d := (p5 d), a := (p5 a), b := (p5 b) }
  | .pxor d a b => some { Fields.base 0x4F 0 2 with d := (p5 d), a := (p5 a), b := (p5 b) }
  | .pnot d a => some { Fields.base 0x4F 0 3 with d := (p5 d), a := (p5 a) }
  | .pset d a => some { Fields.base 0x4F 0 4 with d := (p5 d), a := a }
  | .pcnt d a => some { Fields.base 0x4F 0 5 with d := d, a := (p5 a) }
  | .pfirst d a => some { Fields.base 0x4F 0 6 with d := d, a := (p5 a) }
  | .vld m b tag => some { Fields.base 0x50 0 m.minorBits with pg := m.m.pg, d := m.d, a := m.a, mod := m.m.modBits, imm := m.immBits, b := b, c := (r5 tag) }
  | .vst m b => some { Fields.base 0x51 0 m.minorBits with pg := m.m.pg, d := m.d, a := m.a, mod := m.m.modBits, imm := m.immBits, b := b }
  | .vldw m b tag => some { Fields.base 0x52 0 m.minorBits with pg := m.m.pg, d := m.d, a := m.a, mod := m.m.modBits, imm := m.immBits, b := b, c := (r5 tag) }
  | .vgather m b tag => some { Fields.base 0x53 0 m.minorBits with pg := m.m.pg, d := m.d, a := m.a, mod := m.m.modBits, imm := m.immBits, b := b, c := (r5 tag) }
  | .vscatter m b => some { Fields.base 0x54 0 m.minorBits with pg := m.m.pg, d := m.d, a := m.a, mod := m.m.modBits, imm := m.immBits, b := b }
  | .sbindRead k a z disp => some { Fields.base 0x55 1 0 with d := (k5 k), a := a, mod := (BitVec.ofBool z ++ 0#4 : BitVec 5), ext := w32 disp }
  | .sbindWrite k a z disp => some { Fields.base 0x55 1 1 with d := (k5 k), a := a, mod := (BitVec.ofBool z ++ 0#4 : BitVec 5), ext := w32 disp }
  | .sunbind k => some { Fields.base 0x56 0 0 with d := (k5 k) }
  | .gaddrScalar d a t => some { Fields.base 0x57 0 0 with d := d, a := a, imm := (0#13 ++ t : BitVec 17) }
  | .gaddrVector d a t => some { Fields.base 0x57 0 1 with d := d, a := a, imm := (0#13 ++ t : BitVec 17) }
  | .dtset a t => some { Fields.base 0x58 0 0 with a := a, imm := (0#13 ++ t : BitVec 17) }
  | .mma m => some { Fields.base 0x60 2 0 with d := (r5 m.acc), a := m.a, b := m.b, c := m.c, mod := (bv5 m.j), ext := m.ext }
  | .acrd d a acc row cg => some { Fields.base 0x61 0 0 with d := d, a := a, imm := (0#7 ++ cg ++ row ++ acc : BitVec 17) }
  | .acst acc a b c tag pitch => some { Fields.base 0x62 1 (0#3 ++ tag : BitVec 8) with d := (r5 acc), a := a, b := b, c := c, ext := (0#48 ++ pitch : BitVec 64) }
  | .aczero acc a => some { Fields.base 0x63 0 0 with d := (r5 acc), a := a }
  | .acver d acc => some { Fields.base 0x64 0 0 with d := d, imm := (0#12 ++ acc : BitVec 17) }
  | .cpy d a b c m => some { Fields.base 0x65 2 0 with d := d, a := a, b := b, c := c, ext := m.ext }
  | .btwalk d a b c m => some { Fields.base 0x66 2 0 with d := d, a := a, b := b, c := c, ext := m.ext }
  | .btapp d a b c pos ch => some { Fields.base 0x67 2 0 with d := d, a := a, b := b, c := c, ext := (0#28 ++ ch ++ pos : BitVec 64) }
  | .cpyres d a => some { Fields.base 0x68 0 0 with d := d, a := a }
  | .cwait a ch => some { Fields.base 0x69 0 0 with a := a, imm := (0#13 ++ ch : BitVec 17) }
  | .jwait a => some { Fields.base 0x6A 0 0 with a := a }
  | .jpoll d a => some { Fields.base 0x6B 0 0 with d := d, a := a }
  | .bar d b => some { Fields.base 0x6C 0 0 with d := d, imm := (0#13 ++ b : BitVec 17) }
  | .barv b => some { Fields.base 0x6C 0 1 with imm := (0#13 ++ b : BitVec 17) }
  | .barcfg a b => some { Fields.base 0x6D 0 0 with a := a, imm := (0#13 ++ b : BitVec 17) }
  | .vcdef d a c => some { Fields.base 0x70 2 0 with d := (v5 d), a := a, ext := w32 c.word }
  | .vcbind slot vc a len => some { Fields.base 0x71 1 0 with a := a, imm := (0#7 ++ vc ++ slot : BitVec 17), ext := w32 len }
  | .vcbindUnbind slot => some { Fields.base 0x71 1 0 with imm := (0#6 ++ 1#1 ++ 0#4 ++ slot : BitVec 17) }
  | .vcset d vc a c => some { Fields.base 0x72 1 0 with d := d, a := a, imm := (0#13 ++ vc : BitVec 17), ext := w32 c.word }
  | .vcstat d vc ctr => some { Fields.base 0x73 0 0 with d := d, imm := (0#10 ++ ctr ++ vc : BitVec 17) }
  | .spawn d a b c any disp => some { Fields.base 0x74 1 (0#7 ++ BitVec.ofBool any : BitVec 8) with d := d, a := a, b := b, c := c, ext := w32 disp }
  | .tdec a => some { Fields.base 0x75 0 0 with a := a }
  | .rfork a b c disp => some { Fields.base 0x76 1 0 with a := a, b := b, c := c, ext := w32 disp }
  | .rjoin a => some { Fields.base 0x77 0 0 with a := a }
  | .launch d a => some { Fields.base 0x78 0 0 with d := d, a := a }
  | .cancelLaunch a => some { Fields.base 0x79 0 0 with a := a }
  | .cancelGraph a => some { Fields.base 0x79 0 1 with a := a }
  | .cancelPhase a => some { Fields.base 0x79 0 2 with a := a }
  | .cancelJob a => some { Fields.base 0x79 0 3 with a := a }
  | .lvwaitLaunch a b => some { Fields.base 0x7A 0 0 with a := a, b := b }
  | .lvwaitGraph a b => some { Fields.base 0x7A 0 1 with a := a, b := b }
  | .lvwaitPhase a b => some { Fields.base 0x7A 0 2 with a := a, b := b }
  | .lvwaitJob a b => some { Fields.base 0x7A 0 3 with a := a, b := b }
  | .send a b idx => some { Fields.base 0x7B 0 0 with a := a, b := b, imm := (0#12 ++ idx : BitVec 17) }
  | .mcast a b idx => some { Fields.base 0x7B 0 1 with a := a, b := b, imm := (0#12 ++ idx : BitVec 17) }
  | .radd a b idx => some { Fields.base 0x7B 0 2 with a := a, b := b, imm := (0#12 ++ idx : BitVec 17) }
  | .ntree a t => some { Fields.base 0x7C 0 0 with a := a, imm := (0#13 ++ t : BitVec 17) }
  | .xpub a b scope => some { Fields.base 0x80 0 0 with a := a, b := b, mod := (0#2 ++ scope.code : BitVec 5) }
  | .bufpub a => some { Fields.base 0x81 0 0 with a := a }
  | .tmoveDram d a ch => some { Fields.base 0x82 1 0 with d := d, a := a, ext := (0#52 ++ ch : BitVec 64) }
  | .tmoveHost d a => some { Fields.base 0x82 1 0 with d := d, a := a, ext := 0x1000 }
  | .rephintClear a => some { Fields.base 0x83 0 0 with a := a }
  | .rephintPin a deg => some { Fields.base 0x83 0 0 with a := a, imm := (0#13 ++ 1#2 ++ deg : BitVec 17) }
  | .rephintCap a deg => some { Fields.base 0x83 0 0 with a := a, imm := (0#13 ++ 2#2 ++ deg : BitVec 17) }
  | .repstat d a ctr => some { Fields.base 0x84 0 0 with d := d, a := a, imm := (0#15 ++ ctr : BitVec 17) }
  | .plbinvOne a => some { Fields.base 0x85 0 0 with a := a }
  | .plbinvAll => some (Fields.base 0x85 0 1)
  | .tlbinvOne a => some { Fields.base 0x86 0 0 with a := a }
  | .tlbinvAll => some (Fields.base 0x86 0 1)
  | .ctxswap a b => some { Fields.base 0x87 0 0 with a := a, b := b }
  | .dividerResult _ _ _ _ => none
  | .specialFunctionResult _ _ _ _ => none
  | .streamFill _ _ => none
  | .streamPushPerform _ _ => none
  | .rotationVisit _ => none
  | .memoryReply _ _ => none
  | .instructionCacheFill _ _ => none
  | .bankConflictReplay _ => none
  | .fullEmptyReplay _ => none
  | .storeQueueAck _ _ => none
  | .wakeDelivery _ _ => none
  | .rputDelivery _ _ _ => none
  | .sendDelivery _ _ _ _ _ => none
  | .reductionDelivery _ _ => none
  | .remoteStoreMessage _ _ => none
  | .engineFaultSignal _ _ => none
  | .residencyWake _ => none
  | .migrationArrival _ => none
  | .migrationRetry _ => none
  | .migrationTimeout _ => none
  | .migratedUnitStatus _ _ => none
  | .contextSwap _ _ => none
  | .bindRecordDispatch _ _ => none
  | .bindRecordSwap _ _ => none
  | .bindRecordReleaseCore _ _ => none
  | .unitRestart _ => none
  | .clusterClear _ => none
  | .clusterClearDone _ => none
  | .matrixStart _ => none
  | .matrixComplete _ => none
  | .copyBeat _ _ => none
  | .copyCommandDone _ _ => none
  | .copyCommandFault _ _ _ _ => none
  | .barrierRelease _ _ _ _ => none
  | .dcmdHalt _ => none
  | .dcmdResume _ => none
  | .dcmdStep _ => none
  | .stepDone _ => none
  | .crossTriggerHalt _ => none
  | .contextWindowAccess _ _ _ _ _ => none
  | .strainerSample _ => none
  | .registerWrite _ _ _ => none
  | .vcsetSwitch _ _ => none
  | .homeRequest _ => none
  | .homeWriteback _ => none
  | .vcacheWriteback _ _ => none
  | .vcacheLookup _ _ => none
  | .invalidation _ => none
  | .forward _ => none
  | .revocation _ => none
  | .promotionProbe _ _ _ => none
  | .sliceSweep _ => none
  | .leaseTimeout _ _ _ _ => none
  | .agentLostScan _ => none
  | .jobEndBankScan _ => none
  | .allotmentChange _ _ _ => none
  | .launchTake _ => none
  | .predecessorComplete _ => none
  | .doneMessage _ _ => none
  | .launchComplete _ => none
  | .taskDecrement _ _ _ => none
  | .runListInstall _ => none
  | .stealRequest _ => none
  | .stealReply _ _ => none
  | .recruitStart _ => none
  | .cancelArrival _ _ => none
  | .sendAllowanceReturn _ => none
  | .poisonedPacketDrop _ _ => none
  | .clusterReset _ => none
  | .packageReset => none
  | .selfTestPass _ => none
  | .firmwareBoot _ _ => none
  | .watchdogExpiry _ => none
  | .explorePacket _ _ => none
  | .routingSetup => none
  | .ringLinkFailure _ => none
  | .droppedReplyTimeout _ => none
  | .eccError _ _ => none
  | .faultLogDelivery _ => none
  | .ringSplit => none
  | .halfFence _ => none
  | .selfFenceTimeout _ => none
  | .pageInRequest _ => none
  | .leafWriteValid _ _ => none
  | .translationWalk _ _ => none
  | .tmoveTransferDone _ _ => none
  | .replicaWindow => none
  | .replicaFill _ _ => none
  | .doorbellWrite _ _ => none
  | .commandLaunch _ => none
  | .commandCancelJob _ => none
  | .commandLoadKey _ => none
  | .commandAttest _ => none
  | .commandDebug _ => none
  | .hostDeviceAccess _ _ _ => none
  | .backInvalidation _ _ => none
  | .remoteBeatArrival _ _ => none
  | .remoteFlagAdd _ _ _ => none
  | .fabricLinkFailure _ => none
  | .hostPortDown _ => none
  | .hostPortUp _ => none
  | .remoteReadMessage _ => none
  | .probeAcknowledgement _ => none

noncomputable section

/-- The instruction that a major and a minor name, its operands read from the fields (R37 to R49); `none` for an
unassigned major or minor (R38). Values that the enumerated fields do not assign are caught by `decodeFields`. -/
def candidate (f : Fields) : Option Instr :=
  match f.op.val with
  | 0x01 =>
    match f.minor.toNat with
    | 0 => some (.addReg f.d f.a f.b)
    | 1 => some (.subReg f.d f.a f.b)
    | 2 => some (.mulReg f.d f.a f.b)
    | 3 => some (.mulhReg f.d f.a f.b)
    | 4 => some (.mulhuReg f.d f.a f.b)
    | 5 => some (.andReg f.d f.a f.b)
    | 6 => some (.orReg f.d f.a f.b)
    | 7 => some (.xorReg f.d f.a f.b)
    | 8 => some (.andnReg f.d f.a f.b)
    | 9 => some (.shlReg f.d f.a f.b)
    | 10 => some (.shrReg f.d f.a f.b)
    | 11 => some (.sarReg f.d f.a f.b)
    | 12 => some (.rotrReg f.d f.a f.b)
    | 13 => some (.minReg f.d f.a f.b)
    | 14 => some (.maxReg f.d f.a f.b)
    | 15 => some (.minuReg f.d f.a f.b)
    | 16 => some (.maxuReg f.d f.a f.b)
    | 17 => some (.clz f.d f.a)
    | 18 => some (.ctz f.d f.a)
    | 19 => some (.popc f.d f.a)
    | 20 => some (.sext f.d f.a (SrcWidth.of f.mod))
    | 21 => some (.zext f.d f.a (SrcWidth.of f.mod))
    | 22 => some (.madd f.d f.a f.b f.c)
    | 32 => some (.divReg f.d f.a f.b)
    | 33 => some (.divuReg f.d f.a f.b)
    | 34 => some (.remReg f.d f.a f.b)
    | 35 => some (.remuReg f.d f.a f.b)
    | _ => none
  | 0x02 =>
    match f.minor.toNat with
    | 0 => some (.addImm f.d f.a f.imm)
    | 1 => some (.subImm f.d f.a f.imm)
    | 2 => some (.mulImm f.d f.a f.imm)
    | 3 => some (.mulhImm f.d f.a f.imm)
    | 4 => some (.mulhuImm f.d f.a f.imm)
    | 5 => some (.andImm f.d f.a f.imm)
    | 6 => some (.orImm f.d f.a f.imm)
    | 7 => some (.xorImm f.d f.a f.imm)
    | 8 => some (.andnImm f.d f.a f.imm)
    | 9 => some (.shlImm f.d f.a f.imm)
    | 10 => some (.shrImm f.d f.a f.imm)
    | 11 => some (.sarImm f.d f.a f.imm)
    | 12 => some (.rotrImm f.d f.a f.imm)
    | 13 => some (.minImm f.d f.a f.imm)
    | 14 => some (.maxImm f.d f.a f.imm)
    | 15 => some (.minuImm f.d f.a f.imm)
    | 16 => some (.maxuImm f.d f.a f.imm)
    | 32 => some (.divImm f.d f.a f.imm)
    | 33 => some (.divuImm f.d f.a f.imm)
    | 34 => some (.remImm f.d f.a f.imm)
    | 35 => some (.remuImm f.d f.a f.imm)
    | _ => none
  | 0x03 =>
    match f.minor.toNat with
    | 0 => some (.addImm32 f.d f.a f.ext32)
    | 1 => some (.subImm32 f.d f.a f.ext32)
    | 2 => some (.mulImm32 f.d f.a f.ext32)
    | 3 => some (.mulhImm32 f.d f.a f.ext32)
    | 4 => some (.mulhuImm32 f.d f.a f.ext32)
    | 5 => some (.andImm32 f.d f.a f.ext32)
    | 6 => some (.orImm32 f.d f.a f.ext32)
    | 7 => some (.xorImm32 f.d f.a f.ext32)
    | 8 => some (.andnImm32 f.d f.a f.ext32)
    | 9 => some (.shlImm32 f.d f.a f.ext32)
    | 10 => some (.shrImm32 f.d f.a f.ext32)
    | 11 => some (.sarImm32 f.d f.a f.ext32)
    | 12 => some (.rotrImm32 f.d f.a f.ext32)
    | 13 => some (.minImm32 f.d f.a f.ext32)
    | 14 => some (.maxImm32 f.d f.a f.ext32)
    | 15 => some (.minuImm32 f.d f.a f.ext32)
    | 16 => some (.maxuImm32 f.d f.a f.ext32)
    | 32 => some (.divImm32 f.d f.a f.ext32)
    | 33 => some (.divuImm32 f.d f.a f.ext32)
    | 34 => some (.remImm32 f.d f.a f.ext32)
    | 35 => some (.remuImm32 f.d f.a f.ext32)
    | _ => none
  | 0x04 =>
    match f.minor.toNat with
    | 0 => some (.movi f.d f.ext)
    | _ => none
  | 0x05 =>
    match f.minor.toNat with
    | 0 => some .nop
    | _ => none
  | 0x06 =>
    match f.minor.toNat with
    | 0 => if f.mod = 0 then some (.cmpEqReg f.d f.a f.b) else some (.cmpEqImm f.d f.a f.imm)
    | 1 => if f.mod = 0 then some (.cmpNeReg f.d f.a f.b) else some (.cmpNeImm f.d f.a f.imm)
    | 2 => if f.mod = 0 then some (.cmpLtReg f.d f.a f.b) else some (.cmpLtImm f.d f.a f.imm)
    | 3 => if f.mod = 0 then some (.cmpGeReg f.d f.a f.b) else some (.cmpGeImm f.d f.a f.imm)
    | 4 => if f.mod = 0 then some (.cmpLtuReg f.d f.a f.b) else some (.cmpLtuImm f.d f.a f.imm)
    | 5 => if f.mod = 0 then some (.cmpGeuReg f.d f.a f.b) else some (.cmpGeuImm f.d f.a f.imm)
    | _ => none
  | 0x07 =>
    match f.minor.toNat with
    | 0 => some (.sel f.d f.a f.b f.c)
    | _ => none
  | 0x08 =>
    match f.minor.toNat with
    | 0 => some (.bfxUnsigned f.d f.a (f.imm.extractLsb' 0 6) (f.imm.extractLsb' 6 7))
    | 1 => some (.bfxSigned f.d f.a (f.imm.extractLsb' 0 6) (f.imm.extractLsb' 6 7))
    | _ => none
  | 0x09 =>
    match f.minor.toNat with
    | 0 => some (.bfi f.d f.a (f.imm.extractLsb' 0 6) (f.imm.extractLsb' 6 7))
    | _ => none
  | 0x0A =>
    match f.minor.toNat with
    | 0 => some (.lea f.d f.a f.b f.scale f.imm)
    | _ => none
  | 0x0B =>
    match f.minor.toNat with
    | 0 => some .nopl
    | _ => none
  | 0x10 =>
    match f.minor.toNat with
    | 0 => some (.br f.imm)
    | _ => none
  | 0x11 =>
    match f.minor.toNat with
    | 0 => some (.bcmpEq f.a f.b f.imm)
    | 1 => some (.bcmpNe f.a f.b f.imm)
    | 2 => some (.bcmpLt f.a f.b f.imm)
    | 3 => some (.bcmpGe f.a f.b f.imm)
    | 4 => some (.bcmpLtu f.a f.b f.imm)
    | 5 => some (.bcmpGeu f.a f.b f.imm)
    | _ => none
  | 0x12 =>
    match f.minor.toNat with
    | 0 => some (.jal f.d f.ext32)
    | _ => none
  | 0x13 =>
    match f.minor.toNat with
    | 0 => some (.jr f.d f.a f.imm)
    | _ => none
  | 0x14 =>
    match f.minor.toNat with
    | 0 => some (.trap (f.imm.extractLsb' 0 16))
    | _ => none
  | 0x15 =>
    match f.minor.toNat with
    | 0 => some .rett
    | 1 => some .rettSkip
    | _ => none
  | 0x16 =>
    match f.minor.toNat with
    | 0 => some (.rdcr f.d (f.imm.extractLsb' 0 12))
    | _ => none
  | 0x17 =>
    match f.minor.toNat with
    | 0 => some (.wrcr f.a (f.imm.extractLsb' 0 12))
    | _ => none
  | 0x18 =>
    match f.minor.toNat with
    | 0 => some .wait
    | _ => none
  | 0x19 =>
    match f.minor.toNat with
    | 0 => some (.wake f.a)
    | _ => none
  | 0x1A =>
    match f.minor.toNat with
    | 0 => some .yield
    | _ => none
  | 0x1B =>
    match f.minor.toNat with
    | 0 => some .exit
    | _ => none
  | 0x1C =>
    match f.minor.toNat with
    | 0 => some (.brk (f.imm.extractLsb' 0 16))
    | _ => none
  | 0x1D =>
    match f.minor.toNat with
    | 0 => some (.rdtime f.d)
    | _ => none
  | 0x1E =>
    match f.minor.toNat with
    | 0 => some (.rpt (f.imm.extractLsb' 0 10) (f.imm.extractLsb' 10 3))
    | _ => none
  | 0x1F =>
    match f.minor.toNat with
    | 0 => some (.lpset (lvlOf f.mod) f.a f.imm)
    | _ => none
  | 0x20 =>
    some (.ld f.mem)
  | 0x21 =>
    if f.minor.getLsbD 2 = false then some (.st f.mem) else some (.reclaimStore f.mem)
  | 0x22 =>
    some (.ldc f.mem)
  | 0x23 =>
    match f.imm.toNat with
    | 0 => some (.amoAdd f.amo)
    | 1 => some (.amoAnd f.amo)
    | 2 => some (.amoOr f.amo)
    | 3 => some (.amoXor f.amo)
    | 4 => some (.amoMin f.amo)
    | 5 => some (.amoMax f.amo)
    | 6 => some (.amoMinu f.amo)
    | 7 => some (.amoMaxu f.amo)
    | 8 => some (.amoSwap f.amo)
    | _ => none
  | 0x24 =>
    some (.cas f.amo f.ext32)
  | 0x25 =>
    some (.ldfe f.mem)
  | 0x26 =>
    some (.stfe f.mem)
  | 0x27 =>
    some (.ldff f.mem)
  | 0x28 =>
    some (.feset f.memNoDisp (f.imm.getLsbD 0))
  | 0x29 =>
    match f.minor.toNat with
    | 0 => some (.fenceAcq f.scope (f.mod.getLsbD 3) f.a)
    | 1 => some (.fenceRel f.scope (f.mod.getLsbD 4))
    | 2 => some (.fenceFull f.scope (f.mod.getLsbD 4))
    | _ => none
  | 0x2A =>
    match f.minor.toNat with
    | 0 => some (.cflush f.a f.b f.scope f.scale f.imm)
    | _ => none
  | 0x2B =>
    match f.minor.toNat with
    | 0 => some (.untaint f.d)
    | _ => none
  | 0x2C =>
    match f.minor.toNat with
    | 0 => some (.rputG f.d f.a f.b f.ext32)
    | 1 => some (.rputV f.d f.a f.b f.ext32)
    | _ => none
  | 0x2D =>
    match f.minor.toNat with
    | 0 => some (.pclrG f.d)
    | 1 => some (.pclrV f.d)
    | _ => none
  | 0x2E =>
    match f.minor.toNat with
    | 0 => some (.ptouch f.a f.b f.scale f.imm)
    | _ => none
  | 0x40 =>
    match f.minor.toNat with
    | 0 => some (.vadd f.vmod f.d f.a f.b)
    | 1 => some (.vsub f.vmod f.d f.a f.b)
    | 2 => some (.vmul f.vmod f.d f.a f.b)
    | 3 => some (.vdiv f.vmod f.d f.a f.b)
    | 4 => some (.vmin f.vmod f.d f.a f.b)
    | 5 => some (.vmax f.vmod f.d f.a f.b)
    | 6 => some (.vand f.vmod f.d f.a f.b)
    | 7 => some (.vor f.vmod f.d f.a f.b)
    | 8 => some (.vxor f.vmod f.d f.a f.b)
    | 9 => some (.vshl f.vmod f.d f.a f.b)
    | 10 => some (.vshr f.vmod f.d f.a f.b)
    | 11 => some (.vsar f.vmod f.d f.a f.b)
    | 12 => some (.vabd f.vmod f.d f.a f.b)
    | _ => none
  | 0x41 =>
    match f.minor.toNat with
    | 0 => some (.vfma f.vmod f.d f.a f.b f.c)
    | 1 => some (.vfms f.vmod f.d f.a f.b f.c)
    | 2 => some (.vfnma f.vmod f.d f.a f.b f.c)
    | _ => none
  | 0x42 =>
    match f.minor.toNat with
    | 0 => some (.vabs f.vmod f.d f.a)
    | 1 => some (.vneg f.vmod f.d f.a)
    | 2 => some (.vsqrt f.vmod f.d f.a)
    | 3 => some (.vrcp f.vmod f.d f.a)
    | 4 => some (.vrsq f.vmod f.d f.a)
    | 5 => some (.vexp2 f.vmod f.d f.a)
    | 6 => some (.vlog2 f.vmod f.d f.a)
    | 7 => some (.vtanh f.vmod f.d f.a)
    | 8 => some (.vnot f.vmod f.d f.a)
    | _ => none
  | 0x43 =>
    match f.minor.toNat with
    | 0 => some (.vcmpEq f.vmod (pOf f.d) f.a f.b)
    | 1 => some (.vcmpNe f.vmod (pOf f.d) f.a f.b)
    | 2 => some (.vcmpLt f.vmod (pOf f.d) f.a f.b)
    | 3 => some (.vcmpLe f.vmod (pOf f.d) f.a f.b)
    | 4 => some (.vcmpGt f.vmod (pOf f.d) f.a f.b)
    | 5 => some (.vcmpGe f.vmod (pOf f.d) f.a f.b)
    | _ => none
  | 0x44 =>
    match f.minor.toNat with
    | 0 => some (.vsel f.vmod f.d f.a f.b (pOf f.c))
    | _ => none
  | 0x45 =>
    some (.vcvt f.vmod (f.minor.extractLsb' 0 5) f.d f.a)
  | 0x46 =>
    match f.minor.toNat with
    | 0 => some (.vbfpn (f.mod.extractLsb' 1 3) f.d f.a (f.imm.extractLsb' 0 4) (f.imm.extractLsb' 4 3))
    | 1 => some (.vbfpx f.d f.a (f.imm.extractLsb' 4 3) (f.imm.getLsbD 7))
    | 2 => some (.vbfpi f.d f.a (f.imm.extractLsb' 4 3))
    | _ => none
  | 0x47 =>
    some (.vtag (f.minor.extractLsb' 0 5) f.d f.a)
  | 0x48 =>
    match f.minor.toNat with
    | 0 => some (.vmov f.d f.a)
    | 1 => some (.vsplat f.vmod (f.imm.extractLsb' 0 5) f.d f.a)
    | _ => none
  | 0x49 =>
    match f.minor.toNat with
    | 0 => some (.vext f.d f.a (f.imm.extractLsb' 0 6))
    | 1 => some (.vins f.d f.a (f.imm.extractLsb' 0 6))
    | _ => none
  | 0x4A =>
    match f.minor.toNat with
    | 0 => some (.vperm f.vmod f.d f.a f.b)
    | _ => none
  | 0x4B =>
    match f.minor.toNat with
    | 0 => some (.vslide f.vmod f.d f.a f.imm)
    | 1 => some (.vrot f.vmod f.d f.a f.imm)
    | _ => none
  | 0x4C =>
    match f.minor.toNat with
    | 0 => some (.vredAdd f.vmod f.d f.a)
    | 1 => some (.vredMin f.vmod f.d f.a)
    | 2 => some (.vredMax f.vmod f.d f.a)
    | 3 => some (.vredAnd f.vmod f.d f.a)
    | 4 => some (.vredOr f.vmod f.d f.a)
    | 5 => some (.vredXor f.vmod f.d f.a)
    | _ => none
  | 0x4D =>
    match f.minor.toNat with
    | 0 => some (.vscanAdd f.vmod f.d f.a)
    | 1 => some (.vscanMin f.vmod f.d f.a)
    | 2 => some (.vscanMax f.vmod f.d f.a)
    | _ => none
  | 0x4E =>
    match f.minor.toNat with
    | 0 => some (.vcompress f.d f.a (pOf f.c))
    | _ => none
  | 0x4F =>
    match f.minor.toNat with
    | 0 => some (.pand (pOf f.d) (pOf f.a) (pOf f.b))
    | 1 => some (.por (pOf f.d) (pOf f.a) (pOf f.b))
    | 2 => some (.pxor (pOf f.d) (pOf f.a) (pOf f.b))
    | 3 => some (.pnot (pOf f.d) (pOf f.a))
    | 4 => some (.pset (pOf f.d) f.a)
    | 5 => some (.pcnt f.d (pOf f.a))
    | 6 => some (.pfirst f.d (pOf f.a))
    | _ => none
  | 0x50 =>
    some (.vld f.vmem f.b (bv5 f.c))
  | 0x51 =>
    some (.vst f.vmem f.b)
  | 0x52 =>
    some (.vldw f.vmem f.b (bv5 f.c))
  | 0x53 =>
    some (.vgather f.vmem f.b (bv5 f.c))
  | 0x54 =>
    some (.vscatter f.vmem f.b)
  | 0x55 =>
    match f.minor.toNat with
    | 0 => some (.sbindRead (kOf f.d) f.a (f.mod.getLsbD 4) f.ext32)
    | 1 => some (.sbindWrite (kOf f.d) f.a (f.mod.getLsbD 4) f.ext32)
    | _ => none
  | 0x56 =>
    match f.minor.toNat with
    | 0 => some (.sunbind (kOf f.d))
    | _ => none
  | 0x57 =>
    match f.minor.toNat with
    | 0 => some (.gaddrScalar f.d f.a (f.imm.extractLsb' 0 4))
    | 1 => some (.gaddrVector f.d f.a (f.imm.extractLsb' 0 4))
    | _ => none
  | 0x58 =>
    match f.minor.toNat with
    | 0 => some (.dtset f.a (f.imm.extractLsb' 0 4))
    | _ => none
  | 0x60 =>
    match f.minor.toNat with
    | 0 => some (.mma f.mma)
    | _ => none
  | 0x61 =>
    match f.minor.toNat with
    | 0 => some (.acrd f.d f.a (f.imm.extractLsb' 0 5) (f.imm.extractLsb' 5 3) (f.imm.extractLsb' 8 2))
    | _ => none
  | 0x62 =>
    some (.acst (bv5 f.d) f.a f.b f.c (f.minor.extractLsb' 0 5) (f.ext.extractLsb' 0 16))
  | 0x63 =>
    match f.minor.toNat with
    | 0 => some (.aczero (bv5 f.d) f.a)
    | _ => none
  | 0x64 =>
    match f.minor.toNat with
    | 0 => some (.acver f.d (f.imm.extractLsb' 0 5))
    | _ => none
  | 0x65 =>
    match f.minor.toNat with
    | 0 => some (.cpy f.d f.a f.b f.c f.cpy)
    | _ => none
  | 0x66 =>
    match f.minor.toNat with
    | 0 => some (.btwalk f.d f.a f.b f.c f.walk)
    | _ => none
  | 0x67 =>
    match f.minor.toNat with
    | 0 => some (.btapp f.d f.a f.b f.c (f.ext.extractLsb' 0 32) (f.ext.extractLsb' 32 4))
    | _ => none
  | 0x68 =>
    match f.minor.toNat with
    | 0 => some (.cpyres f.d f.a)
    | _ => none
  | 0x69 =>
    match f.minor.toNat with
    | 0 => some (.cwait f.a (f.imm.extractLsb' 0 4))
    | _ => none
  | 0x6A =>
    match f.minor.toNat with
    | 0 => some (.jwait f.a)
    | _ => none
  | 0x6B =>
    match f.minor.toNat with
    | 0 => some (.jpoll f.d f.a)
    | _ => none
  | 0x6C =>
    match f.minor.toNat with
    | 0 => some (.bar f.d (f.imm.extractLsb' 0 4))
    | 1 => some (.barv (f.imm.extractLsb' 0 4))
    | _ => none
  | 0x6D =>
    match f.minor.toNat with
    | 0 => some (.barcfg f.a (f.imm.extractLsb' 0 4))
    | _ => none
  | 0x70 =>
    match f.minor.toNat with
    | 0 => some (.vcdef (v4 f.d) f.a (CacheCfg.of f.ext32))
    | _ => none
  | 0x71 =>
    match f.minor.toNat with
    | 0 => if f.imm.getLsbD 10 = false then some (.vcbind (f.imm.extractLsb' 0 6) (f.imm.extractLsb' 6 4) f.a f.ext32) else some (.vcbindUnbind (f.imm.extractLsb' 0 6))
    | _ => none
  | 0x72 =>
    match f.minor.toNat with
    | 0 => some (.vcset f.d (f.imm.extractLsb' 0 4) f.a (CacheCfg.of f.ext32))
    | _ => none
  | 0x73 =>
    match f.minor.toNat with
    | 0 => some (.vcstat f.d (f.imm.extractLsb' 0 4) (f.imm.extractLsb' 4 3))
    | _ => none
  | 0x74 =>
    some (.spawn f.d f.a f.b f.c (f.minor.getLsbD 0) f.ext32)
  | 0x75 =>
    match f.minor.toNat with
    | 0 => some (.tdec f.a)
    | _ => none
  | 0x76 =>
    match f.minor.toNat with
    | 0 => some (.rfork f.a f.b f.c f.ext32)
    | _ => none
  | 0x77 =>
    match f.minor.toNat with
    | 0 => some (.rjoin f.a)
    | _ => none
  | 0x78 =>
    match f.minor.toNat with
    | 0 => some (.launch f.d f.a)
    | _ => none
  | 0x79 =>
    match f.minor.toNat with
    | 0 => some (.cancelLaunch f.a)
    | 1 => some (.cancelGraph f.a)
    | 2 => some (.cancelPhase f.a)
    | 3 => some (.cancelJob f.a)
    | _ => none
  | 0x7A =>
    match f.minor.toNat with
    | 0 => some (.lvwaitLaunch f.a f.b)
    | 1 => some (.lvwaitGraph f.a f.b)
    | 2 => some (.lvwaitPhase f.a f.b)
    | 3 => some (.lvwaitJob f.a f.b)
    | _ => none
  | 0x7B =>
    match f.minor.toNat with
    | 0 => some (.send f.a f.b (f.imm.extractLsb' 0 5))
    | 1 => some (.mcast f.a f.b (f.imm.extractLsb' 0 5))
    | 2 => some (.radd f.a f.b (f.imm.extractLsb' 0 5))
    | _ => none
  | 0x7C =>
    match f.minor.toNat with
    | 0 => some (.ntree f.a (f.imm.extractLsb' 0 4))
    | _ => none
  | 0x80 =>
    match f.minor.toNat with
    | 0 => some (.xpub f.a f.b f.scope)
    | _ => none
  | 0x81 =>
    match f.minor.toNat with
    | 0 => some (.bufpub f.a)
    | _ => none
  | 0x82 =>
    match f.minor.toNat with
    | 0 => if f.ext.getLsbD 12 = false then some (.tmoveDram f.d f.a (f.ext.extractLsb' 0 12)) else some (.tmoveHost f.d f.a)
    | _ => none
  | 0x83 =>
    match f.minor.toNat with
    | 0 =>
      match (f.imm.extractLsb' 2 2).toNat with
      | 0 => some (.rephintClear f.a)
      | 1 => some (.rephintPin f.a (f.imm.extractLsb' 0 2))
      | 2 => some (.rephintCap f.a (f.imm.extractLsb' 0 2))
      | _ => none
    | _ => none
  | 0x84 =>
    match f.minor.toNat with
    | 0 => some (.repstat f.d f.a (f.imm.extractLsb' 0 2))
    | _ => none
  | 0x85 =>
    match f.minor.toNat with
    | 0 => some (.plbinvOne f.a)
    | 1 => some .plbinvAll
    | _ => none
  | 0x86 =>
    match f.minor.toNat with
    | 0 => some (.tlbinvOne f.a)
    | 1 => some .tlbinvAll
    | _ => none
  | 0x87 =>
    match f.minor.toNat with
    | 0 => some (.ctxswap f.a f.b)
    | _ => none
  | _ => none

/-- Steps 3 and 5 to 8 of R51 on a word's fields. -/
def decodeFields (f : Fields) : Except DecodeError Instr :=
  if f.l = 3 then .error .lengthCode
  else match candidate f with
    | none => .error .noSuchMajorOrMinor
    | some i =>
      if fieldsOf i ≠ some f then .error .fieldNotZeroOrReserved
      else if i.wellFormed then .ok i else .error .operandRange

/-- The number that bytes make up, the first one lowest (R4). -/
def natOfBytes : List Byte → Nat
  | [] => 0
  | b :: bs => b.toNat + 256 * natOfBytes bs

/-- The `n` low bytes of a number, the lowest first (R4). -/
def bytesOfNat : Nat → Nat → List Byte
  | 0, _ => []
  | n + 1, w => BitVec.ofNat 8 w :: bytesOfNat n (w / 256)

/-- The length code in the first byte (R27). -/
def lengthCode (bs : List Byte) : Fin 4 := Fin.ofNat 4 (natOfBytes (bs.take 1))

/-- The decoder: the instruction at the head of the bytes and the bytes after it (R27, R51). -/
def decodeBytes (bs : List Byte) : Except DecodeError (Instr × List Byte) :=
  let n := wordBytes (lengthCode bs)
  if bs.length < n then .error .shortBytes
  else match decodeFields (Fields.unpack (natOfBytes (bs.take n))) with
    | .error e => .error e
    | .ok i => .ok (i, bs.drop n)

/-- The decoder on one word given as a number; bits beyond the length that L gives are not looked at. -/
def decodeWord (w : Nat) : Except DecodeError Instr :=
  decodeFields (Fields.unpack (w % 2 ^ (8 * wordBytes (Fin.ofNat 4 w))))

/-- The instruction the decoder reads from a table word (the host's question). -/
def decodeTableWord (nbits w : Nat) : Option Instr :=
  match decodeBytes (bytesOfNat 16 (w % 2 ^ nbits)) with
  | .ok (i, _) => some i
  | .error _ => none

end

/-- The word of an instruction, as a number. -/
def encode (i : Instr) : Option Nat := (fieldsOf i).map Fields.pack

/-- The bytes of an instruction, the lowest address first (R4). -/
def encodeBytes (i : Instr) : Option (List Byte) := (fieldsOf i).map fun f => bytesOfNat (wordBytes f.l) f.pack

/-- The length of an instruction's word in bytes (R27); an event has none. -/
def Instr.size (i : Instr) : Nat :=
  match fieldsOf i with
  | some f => wordBytes f.l
  | none => 0

end Sys2Proof
end

