-- ==== Sys2Proof/Config.lean ====
section
/-! DEFINITION. What one part fixes and the spec leaves open: the free values (opaque constants, no body) and the
choices that log entries name. -/
namespace Sys2Proof.Config

/-- FREE VALUE (log 6): the F32 result bits of `vrcp` for an operand whose result the bound of R73 does not fix. -/
opaque rcpF32 : BitVec 32 → BitVec 3 → BitVec 32
/-- FREE VALUE (log 6): the F32 result bits of `vrsq` where the bound of R73 does not fix them. -/
opaque rsqF32 : BitVec 32 → BitVec 3 → BitVec 32
/-- FREE VALUE (log 6): the result bits of `vexp2` (format code, operand, rounding mode) within the bound of R73. -/
opaque exp2 : BitVec 5 → BitVec 32 → BitVec 3 → BitVec 32
/-- FREE VALUE (log 6): the result bits of `vlog2` within the bound of R73. -/
opaque log2 : BitVec 5 → BitVec 32 → BitVec 3 → BitVec 32
/-- FREE VALUE (log 6): the result bits of `vtanh` within the bound of R73. -/
opaque tanh : BitVec 5 → BitVec 32 → BitVec 3 → BitVec 32
/-- FREE VALUE (log 7): what a line encrypted under the first key decrypts to under the second (R396): SM4 with the
line's tweak. Applied only where the two keys differ. -/
opaque recrypt : BitVec 128 → BitVec 128 → Nat → BitVec 512 → BitVec 512
/-- FREE VALUE (log 7): the SM2 decryption of a wrapped-key record (R396): the key slot and the key, or a refusal. -/
opaque unwrapKey : List (BitVec 8) → Option (Nat × BitVec 128)
/-- FREE VALUE (log 7): the SM3 hash of a firmware image, named by its number (R362, R397). -/
opaque imageHash : Nat → BitVec 256
/-- FREE VALUE (log 7): whether the SM2 signature of a firmware image checks (R362). -/
opaque imageSigned : Nat → Bool
/-- FREE VALUE (log 7): the SM2 signature of an attestation report's first 192 bytes (R397). -/
opaque attestSign : List (BitVec 8) → BitVec 512
/-- FREE VALUE (log 7): the debug request's layout is not given (R389): the address in the die window, and the value
written, if any. -/
opaque debugRequest : List (BitVec 8) → Nat × Option (BitVec 64)
/-- FREE VALUE (log 54): the broadcast delay of a cluster's counters; R259 fixes it for each cluster at 40 cycles or less. -/
opaque broadcastDelay : Nat → Nat
/-- FREE VALUE (log 86): the cycles of the memory read that fills an entry of a cluster's context cache before a swap, 0 where
the entry needs none (R153): by the cluster, the entry and the cycle. -/
opaque swapFill : Nat → Nat → Nat → Nat
/-- FREE VALUE (log 8): the frame of the page table's root, which the primary writes to PTROOT at bring-up (R341, R363). -/
opaque tableRoot : BitVec 26
/-- DESIGN CHOICE (log 3): what a byte of memory that nothing has written reads as. -/
def unwritten : BitVec 8 := 0

/-- DESIGN CHOICE (log 11): the DRAM channel of a physical address: 128 MiB a channel (R350), in order. -/
def channelOf (pa : Nat) : Nat := pa / 2 ^ 27 % 4096

/-- DESIGN CHOICE (log 11): the directory set of a physical line within its slice (R280). -/
def directorySet (pline : Nat) : Nat := pline % 1024

end Sys2Proof.Config
end

