-- ==== Sys2Proof/Machine/State.lean ====
section
/-! DEFINITION. The state of the package as plain data: the threads' contexts (04, 07), the cores, clusters and dies
(07, 09, 11, 14), the jobs (12, 15), the memory system (12, 13, 19), the package and the fabric (20, 23), and the
model's own bookkeeping of messages in flight. A sparse table is a list of (number, entry) pairs with rising numbers;
a number that is not listed has the entry that its reader names (its reset value). -/
namespace Sys2Proof.Machine

/-- Memory: (address, byte) pairs, addresses rising, no byte equal to `Config.unwritten`. One address space holds
every byte of the package (log 4): bonded DRAM at its physical address, host memory at 2^42 above its own, a local
store and a weight-layer region at their window addresses (R117). -/
abbrev Memory := List Host.Cell

/-- A sparse table, numbers rising. -/
abbrev Table (α : Type) := List (Nat × α)

/-! ## A thread's context (R79 to R90, R182 to R190) -/

/-- The register files with their per-register bits (R79). -/
structure Regs where
  g : Vector Word 32
  gPres : BitVec 32
  gTaint : BitVec 32
  v : Vector VReg 32
  vPres : BitVec 32
  p : Vector Word 8
  deriving DecidableEq, Repr

/-- The hardware loops (R79, R187). -/
structure Loops where
  lc : Vector (BitVec 32) 3
  lb : Vector Word 3
  le : Vector Word 3
  active : BitVec 3
  deriving DecidableEq, Repr

/-- The control registers that hold state of their own (R83 to R86); the others of R83 are views. -/
structure Ctrl where
  rmode : BitVec 5
  fflags : BitVec 5
  mode : BitVec 2
  pmode : BitVec 2
  wake : Bool
  rpta : Bool
  tepc : Word
  tcause : Word
  tval : Word
  tlanes : Word
  tdeleg : Word
  thandler : Word
  rptix : BitVec 10
  vlive : BitVec 32
  ptime : BitVec 24
  lease : BitVec 16
  retrylim : BitVec 16
  domain : BitVec 16
  deriving DecidableEq, Repr

/-- Why a context is away (R145). -/
inductive Reason
  | access | bank | page | fetch | storeQueue | fence | drain | flush | lookup | stream | timedMemory
  | presence | fullEmpty | allowance | wakeWait | jobWait | channelWait | counterWait | jobTable | channelQueue
  | matrixQueue | accumulator | barrier | remoteAtomic | round | timedMessage
  | longArith | swap
  deriving DecidableEq, Repr

/-- Ready since a cycle; away until a known cycle; away until an event (R143, R145). -/
inductive Wait
  | ready (since : Nat)
  | timed (r : Reason) (at_ : Nat)
  | away (r : Reason)
  deriving DecidableEq, Repr

/-- A line that a reply has brought for the latched access, used once (the model's own, log 4); `granted` says that its
words were registered to the L1. -/
structure Gathered where
  line : Nat
  mask : BitVec 64
  data : Line
  st : RepSt
  wts : Nat
  granted : Bool
  deriving DecidableEq, Repr

/-- A unit of a stream's buffer (R184, R185): `travels` is asked for by a message that reaches a far local store in a cycle,
`comes` one that a local store has read, which can be used from a cycle on; `raised` is a faulted one whose fault has been taken:
it is fetched again when an instruction would pop it. -/
inductive StreamUnit
  | asked
  | travels (at_ : Nat)
  | comes (x : Line) (at_ : Nat)
  | raised
  | data (x : Line)
  | faulted (cause : Nat) (addr : Word)
  | parked (va : Nat)
  deriving DecidableEq, Repr

/-- A bound stream (R182 to R185): `next` is the unit to pop or to push next, `buf` the units from there (read), or
the pushed units that have not left for memory (write); `got` the lines that have come and `pend` those that are asked for, each
with its request's number, of the unit being filled; `ids` and `sent` the store-queue entries of pushed units, and the cycle by which those sent as
messages have performed. -/
structure Stream where
  write : Bool
  zero : Bool
  base : Word
  c0 : BitVec 32
  c1 : BitVec 32
  c2 : BitVec 32
  tag : BitVec 5
  pol : Policy
  s0 : Word
  s1 : Word
  s2 : Word
  next : Nat
  buf : List StreamUnit
  got : List Gathered
  pend : List (Nat × Nat)
  ids : List Nat
  sent : Nat
  deriving DecidableEq, Repr

/-- What holds the unit that a context runs (R300, R302, R305, R308): a bind record with its last index, a task
record, or a chunk of another context's fork. -/
inductive Duty
  | record (entry : Word) (arg : Word) (index last : Nat) (resident : Bool)
  | task (rec : Nat)
  | chunk
  deriving DecidableEq, Repr

/-- The unit of a context: its launch, what holds it, the slot in which this context started (R159), the slot that
holds the unit (a forker's, for a recruit; R325), the innermost fork it is a chunk of, the number of its unit once it has
forked, and whether it is the unit's own context in that fork. In a reserved slot `due` is the cycle at which the slot's
next unit starts, if one does; in a context that is being swapped out, 1 where it waits on a full/empty word. -/
structure UnitInfo where
  lid : Nat
  duty : Duty
  start : Nat
  holder : Nat
  fork : Option Nat
  group : Option Nat
  own : Bool
  due : Option Nat
  deriving DecidableEq, Repr

/-- The attributes of a page: the leaf without its frame, and the page's state (R343, R346). -/
structure Attr where
  page : Nat
  big : Bool
  leaf : Word
  deriving DecidableEq, Repr

/-- A current fetch block of 32 bytes (R160); `once` says that it serves one fetch alone (R291). -/
structure FetchBlock where
  addr : Nat
  data : BitVec 256
  once : Bool
  deriving DecidableEq, Repr

/-- One hardware context. `inst` is false in a free slot (R143). The last group is the model's own (log 4);
`follow` is the word after an `rpt` in the latch and the cause of its decode fault, 0 for none (R53); `needG` and
`needV` the sources an absent-register wait is for (R81); `cls` a reason class that the debug host has written (R152, R254), 0 for
none, `absent` the addresses whose pages an absent-page wait is for (R149, R150); `served` the cycle by which the local stores have served every row of the latched access (R179, R200); `sent` the cycle by which every store sent as a message has performed,
`msgAt` the cycle by which every other message sent has arrived, `pkgAt` and `sysAt` the cycles by which every acknowledged store has
performed at package and at system scope (R353, R392), `ldcAt` the cycle of the last `ldc` (R95); `checked` what the page checks of the
latched access have found (R379), `lostStore` the address of an acknowledged store that has not performed, whose fault is pending
(R364, R372). -/
structure Ctx where
  inst : Bool
  regs : Regs
  loops : Loops
  ctl : Ctrl
  pc : Word
  latch : Option (BitVec 128)
  wait : Wait
  lastIssue : Option Nat
  attempts : Nat
  efaults : List Nat
  fblock : Option FetchBlock
  streams : Vector (Option Stream) 4
  job : Nat
  unit : UnitInfo
  cancelled : Bool
  skipWatch : Bool
  rep : Option (BitVec 10 × BitVec 3)
  follow : BitVec 128 × Nat
  gather : List Gathered
  asked : List Nat
  served : Nat
  needG : BitVec 32
  needV : BitVec 32
  sent : Nat
  msgAt : Nat
  pkgAt : Nat
  sysAt : Nat
  ldcAt : Nat
  putAt : Nat
  putG : BitVec 32
  putV : BitVec 32
  cls : BitVec 3
  absent : List Nat
  checked : List Attr
  lostStore : Option Word
  deriving DecidableEq, Repr

/-! ## A core (R142 to R161, R191, R195 to R200, R286, R346) -/

/-- A lease on words of a line (R286): its end in logical time and the cycle in which it was granted. -/
structure Lease where
  words : BitVec 16
  rts : BitVec 24
  granted : Nat
  deriving DecidableEq, Repr

/-- A line of an L1 (R197, R286): its words in each state, the leases that stand, the recorded parent (16 is home). -/
structure L1Line where
  job : Nat
  line : Nat
  way : Nat
  data : Line
  registered : BitVec 16
  untracked : BitVec 16
  leases : List Lease
  shared : BitVec 16
  wts : BitVec 24
  filled : Nat
  parent : Nat
  aliased : Bool
  deriving DecidableEq, Repr

/-- A fill in flight, and the probes that found it (R291): kind 0 brings a copy, 1 a registration, 2 is a fetch. An
invalidation makes it serve once, as an acquire does for the L1 alone. -/
structure Fill where
  id : Nat
  job : Nat
  line : Nat
  kind : Nat
  useOnce : Bool
  acquired : Bool
  held : List Probe
  deriving DecidableEq, Repr

/-- A line of an instruction cache (R160). -/
structure ILine where
  job : Nat
  line : Nat
  data : Line
  deriving DecidableEq, Repr

/-- A captured loop body (R161): its first and last instruction's addresses and its words by address. -/
structure LoopBody where
  lb : Nat
  le : Nat
  words : List (Nat × BitVec 128)
  deriving DecidableEq, Repr

/-- A rights entry of the protection lookaside buffer (R345, R346). -/
structure Rights where
  domain : BitVec 16
  rights : BitVec 2
  keyhi : BitVec 2
  deriving DecidableEq, Repr

/-- An entry of the store queue (R123): a request, the earlier entries that must be acknowledged before it leaves
(R92, R126), the scope at which a release is one (R290), whether it has left, and its page's ordering kind (R92). -/
structure SQEntry where
  id : Nat
  thread : Nat
  req : Req
  after : List Nat
  scope : Scope
  sent : Bool
  kind : Nat
  deriving DecidableEq, Repr

/-- A distribution table (R191). -/
structure DistTable where
  base : BitVec 32
  e : Nat
  b : Nat
  first : Nat
  count : Nat
  stride : BitVec 16
  deriving DecidableEq, Repr

/-- A migration packet (R155 to R158): the context, the address it left, what has been sent after it, each with its sender,
and when it came to the buffer. -/
structure Packet where
  src : Nat
  ctx : Ctx
  arrived : Nat
  held : List (Nat × Instr)
  deriving DecidableEq, Repr

/-- Event counters by code and sub-index (R255): (code * 32 + sub-index, count). -/
abbrev Counters := Table Nat

/-- A message that leaves once the store-queue entries that it waits for are acknowledged (R313, R329): its sender, the
entries, the cycle before which it does not leave, its time to its arrival, and its flits (R314). -/
structure Deferred where
  thread : Nat
  after : List Nat
  at_ : Nat
  time : Nat
  flits : Nat
  msg : Instr
  deriving DecidableEq, Repr

/-- A packet that a core puts on the request network: the cycle of its header flit, its flits, the cycle of its arrival, and
the message (R314, R316). -/
structure Worm where
  from_ : Nat
  flits : Nat
  due : Nat
  msg : Instr
  deriving DecidableEq, Repr

/-- A reply that a core's local store has begun to send: its first cycle, the cycle of its arrival, the thread it is for, and the
thread's context before the access (R316, R364). -/
structure Answer where
  from_ : Nat
  due : Nat
  thread : Nat
  before : Ctx
  deriving DecidableEq, Repr

/-- One core. `spent` counts the flits that it has sent or has to send on the request network and whose send allowances have
not come back (R314), `worms` its packets on their way and `answers` the replies of its local store on
theirs (R316, R364), `orphans` the far accesses on their way whose contexts have been stopped, each with the cycle of its arrival, its
thread's number and its context (R312, R316), `promos` lists the promotion probes that wait, by the thread that sent each, with the store-queue entries
each waits for (R135, R293), `ports` the banks whose access port is taken, by cycle (R199, R200), `outs` the cycle by which the last request to a slice has
been translated (R283, R347). -/
structure Core where
  job : Option Nat
  slices : Nat
  holders : Vector (Option Nat) 8
  l1 : List L1Line
  fills : List Fill
  icache : List ILine
  loopBuf : List LoopBody
  attrs : List Attr
  rights : List Rights
  queue : List SQEntry
  nextId : Nat
  promos : List (Nat × List Nat)
  deferred : List Deferred
  spent : Nat
  worms : List Worm
  answers : List Answer
  orphans : List (Nat × Nat × Ctx)
  tables : Vector (Option DistTable) 16
  runList : List Nat
  packets : List Packet
  forward : Table Nat
  reserved : Table UnitInfo
  ports : List (Nat × BitVec 16)
  outs : Table Nat
  counters : Counters
  deriving DecidableEq, Repr

/-! ## A cluster (R193 to R259) -/

/-- An accumulator (R205, R208, R365): its non-zero elements by row * 64 + column, version, poison. -/
structure Accum where
  data : Table (BitVec 32)
  version : BitVec 16
  poison : Bool
  deriving DecidableEq, Repr

/-- An enqueued matrix operation with its captured operands (R209, R223) and the first cycle it can start in (R206). -/
structure MatrixOp where
  acc : Nat
  clear : Bool
  n : Nat
  k : Nat
  cols : Nat
  rows : Nat
  ver : BitVec 16
  aMant : Nat
  aExp : Nat
  row : Nat
  jid : Option Nat
  thread : Nat
  at_ : Nat
  deriving DecidableEq, Repr

/-- An operation that has started, with the A tile's bytes as its start read them (R204, R206). -/
structure MatrixRun where
  op : MatrixOp
  start : Nat
  mant : List Byte
  exp : List Byte
  deriving DecidableEq, Repr

/-- A copy command as submitted (R230, R243): its kind (1 cpy, 2 btwalk, 3 btapp), extension word, resolved operands,
descriptor bytes, submitter with its job and PTIME, resume point with the place, the blocks and the earlier bytes of a
resumed `btapp`, and the store-queue entries and the cycle it waits for (R213). -/
structure CopyCmd where
  kind : Nat
  ext : BitVec 64
  a : Word
  b : Word
  c : Word
  desc : BitVec 256
  core : Nat
  thread : Nat
  job : Nat
  ptime : Nat
  jid : Nat
  resume : Nat
  sub : Nat
  blk : Nat
  old : Nat
  top : Nat
  after : List Nat
  at_ : Nat
  deriving DecidableEq, Repr

/-- A beat of a remote copy on its way, or the addition to its flag word: its fabric link, the cycle of its acknowledgement, the
place in the command (R395). -/
structure RemoteBeat where
  link : Nat
  ack : Nat
  pos : Nat
  off : Nat
  dst : Word
  deriving DecidableEq, Repr

/-- The running command of a channel: the span that it is at and the bytes done of it, the blocks that it works on, the
memory as it was when an overlapping copy began (R217), the lines asked for and come, the writes not acknowledged, and
how it ends: stopped by a cancel (R215), by a fault's kind and address, or by writes that failed, each by its line with
the fault's kind and address (R234). A `btapp` also has its row source as read before step 1, the place after the write
that is under way, and the bytes by which the channel's pointer moves at its end where it overlaps its source (R217, R237). A remote copy has its
beats in flight (R395). -/
structure CopyRun where
  cmd : CopyCmd
  pos : Nat
  off : Nat
  blk : Nat
  old : Nat
  top : Nat
  snap : Option Memory
  got : List Gathered
  pend : List Nat
  unacked : Nat
  stop : Bool
  fault : Option (Nat × Word)
  lost : List (Nat × Nat × Word)
  row : List Byte
  next : Option (Nat × Nat)
  owed : Nat
  beats : List RemoteBeat
  deriving DecidableEq, Repr

/-- A copy channel (R212, R216). -/
structure Channel where
  queue : List CopyCmd
  run : Option CopyRun
  chwp : BitVec 64
  deriving DecidableEq, Repr

/-- A job-table entry (R214, R215). State: 0 pending, 1 running, 2 done, 3 fault, 4 cancelled; `taken` is false in a
free entry, `engine` true for a copy or matrix command, `move` for a `tmove`; `heir` the unit, by its job and number, that
keeps the ended command of a context that has joined (R214, R325). -/
structure JobEntry where
  taken : Bool
  engine : Bool
  move : Bool
  gen : BitVec 10
  state : BitVec 3
  bytes : BitVec 32
  cflags : BitVec 5
  zrow : Bool
  clone : Bool
  fresh : Bool
  thread : Nat
  heir : Option (Nat × Nat)
  cmd : Option CopyCmd
  deriving DecidableEq, Repr

/-- A barrier (R246, R247). -/
structure Barrier where
  count : Nat
  arrivals : Nat
  flags : BitVec 5
  waiters : List (Nat × Nat)
  deriving DecidableEq, Repr

/-- The debug module's registers (R249, R250); `haltAt` is the cycle of the halt, `stopped` the cores that stopped in it
(R252), `countTo` the cycle before which the counters still count (R255). -/
structure Debug where
  dctl : BitVec 64
  index : BitVec 2
  slot : BitVec 4
  core : BitVec 3
  err : Bool
  halted : Bool
  cause : BitVec 3
  haltAt : Nat
  stopped : BitVec 8
  countTo : Nat
  dhpc : Word
  dhaddr : Word
  bpa : Vector Word 4
  bpc : Vector Word 4
  wpa : Vector Word 2
  wpc : Vector Word 2
  deriving DecidableEq, Repr

/-- One cluster. `cache` lists the saved contexts by entry with the slot each was saved from, `swaps` the slots whose
swap has begun, with the entry and the outgoing context (R153). `visited` counts the visits of each position that have been counted before `countFrom` (R256); `cleared` says that it
has been cleared since package reset (R195), `resetUntil` that replies owed to it are dropped before that cycle (R316). -/
structure Cluster where
  job : Option Nat
  clearing : Bool
  accs : Table Accum
  queues : Vector (List MatrixOp) 8
  credit : Vector Nat 8
  weight : Vector Nat 8
  last : Nat
  running : List MatrixRun
  channels : Vector Channel 16
  lastChannel : Nat
  copyAt : Nat
  jobs : Table JobEntry
  barriers : Table Barrier
  cache : Table (Nat × Ctx)
  swaps : Table (Nat × Option Ctx)
  dbg : Debug
  resetUntil : Nat
  counters : Counters
  visited : Vector Nat 8
  countFrom : Nat
  cleared : Bool
  deriving DecidableEq, Repr

/-! ## A die (R257, R280 to R316, R368) -/

/-- A sample that is being taken (R259): its cycle, its sequence number, whether a sampled cluster was halted during the
interval, the counter values captured so far, and, once the consumer index has been read, where its row goes (none for a dropped row). -/
structure SampleRow where
  time : Nat
  seq : BitVec 32
  halt : Bool
  vals : List (Option Nat)
  place : Option (Option (Nat × BitVec 32))
  deriving DecidableEq, Repr

/-- The Strainer's registers and position (R257 to R259): the rows produced, the sequence number, the flags of the next
row, the cycle of the next sample, the producer index last stored, the writes not yet acknowledged, and the samples being taken. -/
structure Strainer where
  sctl : BitVec 64
  sring : BitVec 64
  ssize : BitVec 64
  sdrop : BitVec 64
  ssel : Table (BitVec 32)
  produced : Nat
  seq : BitVec 32
  first : Bool
  dropFlag : Bool
  haltFlag : Bool
  next : Nat
  stored : Nat
  pend : Nat
  rows : List SampleRow
  deriving DecidableEq, Repr

/-- A launch descriptor's fields (R298). -/
structure LaunchDesc where
  pc : Word
  arg : Word
  units : Nat
  threads : Nat
  ls : Nat
  weight : Nat
  close : Bool
  graph : Nat
  phase : Nat
  mask : BitVec 8
  preds : List Nat
  report : Word
  deriving DecidableEq, Repr

/-- The state of a launch-table entry (R296, R299, R311). -/
inductive LaunchSt | held | queued | running | done
  deriving DecidableEq, Repr

/-- A launch-table entry: generation, job, descriptor, counter, gathered flags, first trap report; the predecessors that
it still waits for and whether one failed (R299); whether a cancel has reached it (R312) and its graph has counted it; the
units that each core holds of it, the children of its done tree (R309), the contexts recruited for it, its tasks that do not
run yet, each with its PTIME, the done messages on their way, the PTIME of its hand-offs (R313), and the cores into which
its images have been copied (R131). -/
structure Launch where
  gen : Nat
  job : Nat
  desc : LaunchDesc
  st : LaunchSt
  counter : BitVec 32
  flags : BitVec 32
  trap : Option UnitEnd
  preds : List Nat
  doomed : Bool
  cancelled : Bool
  counted : Bool
  kids : Table Nat
  helpers : Nat
  tasks : Table Nat
  flight : Nat
  ptime : Nat
  loaded : List Nat
  deriving DecidableEq, Repr

/-- A graph's or a phase's counter (R296): job, identifier, count, the phase of a graph, closed (phase), counted, and the
PTIME of what it has counted (R313). -/
structure Level where
  job : Nat
  id : Nat
  counter : BitVec 32
  phase : Nat
  closed : Bool
  counted : Bool
  ptime : Nat
  deriving DecidableEq, Repr

/-- An entry of a ready queue (R303): a launch's undispatched range, or a task by its record's address. -/
inductive ReadyItem
  | launch (lid : Nat) (lo hi : Nat)
  | task (rec job lid : Nat)
  deriving DecidableEq, Repr

/-- A fault-log or event-queue entry (R368). -/
structure LogEntry where
  cycle : BitVec 64
  kind : BitVec 16
  loc : BitVec 16
  count : BitVec 32
  addr : BitVec 64
  deriving DecidableEq, Repr

/-- One compute die; `turned` lists the launches that a full launch table has turned away and whose report is on its way
(R299), `errors` the slots for whose records an error event was raised (R302), `sourceReset` and
`poisoned` count what R316 drops. -/
structure Die where
  strainer : Strainer
  launches : Table Launch
  turned : List Launch
  graphs : List Level
  phases : List Level
  ready : List ReadyItem
  records : Table BindRec
  errors : List Nat
  log : List LogEntry
  overflow : BitVec 64
  sourceReset : Nat
  poisoned : Nat
  stealNext : Bool
  deriving DecidableEq, Repr

/-! ## Jobs (R83, R199, R265 to R279, R324 to R331, R345) -/

/-- A `vcset` in progress (R278): the new configuration, its job-table identifier and cluster, the sets that step 3 has
scanned once it has begun, the cycle by which what it has sent is acknowledged, the lines that it has removed, and the
requests held at the cache in arrival order. -/
structure VcsetRun where
  cfg : CacheCfg
  banks : List Nat
  cluster : Nat
  jid : Nat
  scan : Option Nat
  ends : Nat
  gone : List Nat
  held : List Req
  deriving DecidableEq, Repr

/-- A defined virtual cache with its counters 1 to 4 (R265, R276). -/
structure VCache where
  cfg : CacheCfg
  banks : List Nat
  hits : BitVec 64
  misses : BitVec 64
  fills : BitVec 64
  writebacks : BitVec 64
  set : List VcsetRun
  deriving DecidableEq, Repr

/-- A bound region (R268). -/
structure Region where
  base : Nat
  len : Nat
  vc : Nat
  deriving DecidableEq, Repr

/-- A multicast and reduction tree with its open round (R330, R331): contributions by member, the root's index, the PTIME
of the contributions. -/
structure Tree where
  members : List Nat
  contrib : Table VReg
  idx : Nat
  ptime : Nat
  deriving DecidableEq, Repr

/-- A fork (R324, R325): the fork that its forker is a chunk of, whether the forker is the unit's own context there, and
the PTIME of the arrivals. -/
structure Fork where
  parent : Option Nat
  own : Bool
  ptime : Nat
  deriving DecidableEq, Repr

/-- One job: what the command processor set in its context, its hierarchy, with the bindings that take effect from a cycle on
(R268), its trees, its forks and its units that have forked and are not reported, each with its forkers' slots (R325), its
counter (R296), and, while it ends, the cycle by which its writebacks are acknowledged (R264). -/
structure Job where
  rightsBase : Nat
  tdeleg : Word
  thandler : Word
  bankKey : BitVec 64
  vcs : Table VCache
  regions : Table Region
  binds : List (Nat × Nat × Option Region)
  ending : Option Nat
  trees : Table Tree
  forks : Table Fork
  units : Table (List Nat)
  nextFork : Nat
  counter : BitVec 32
  ptime : Nat
  deriving DecidableEq, Repr

/-! ## The memory system (R260 to R295, R341 to R359, R392, R396) -/

/-- A line of the bank pool (R260): `valid` its current words, `registered` the words that it alone holds for its tree's
root, `lease` the rts that home granted, and beside a lease the words that it holds untracked (R406). -/
structure BankLine where
  bank : Nat
  set : Nat
  way : Nat
  dirty : Bool
  job : Nat
  line : Nat
  alloc : Nat
  below : Bool
  data : Line
  valid : BitVec 16
  registered : BitVec 16
  shared : Bool
  lease : Option Nat
  untracked : BitVec 16
  wts : Nat
  deriving DecidableEq, Repr

/-- An open transaction on a line (R283, R287): the request, the probes not yet acknowledged, whether the host's
writeback is awaited (R392), whether the entry is evicted for the request, which is for another line (R289), and for words
that are forwarded the time of the way to the registrant and of its way to the requester (R288). -/
structure Txn where
  req : Req
  evict : Bool
  waiting : List (BitVec 32)
  words : BitVec 16
  merged : BitVec 16
  data : Line
  host : Bool
  away : Nat
  back : Nat
  deriving DecidableEq, Repr

/-- A home line entry (R280): registered words (their agent stands in memory, R282), timestamps, sharers, root
sharers, the overflow bit, the cycle of the last use, whether it takes a way of its set, which an open transaction alone does
not, the open transaction and the requests behind it. -/
structure HomeLine where
  registered : BitVec 16
  wts : BitVec 24
  rts : BitVec 24
  clusters : BitVec 64
  dies : BitVec 8
  roots : List (BitVec 16)
  overflow : Bool
  used : Nat
  stands : Bool
  txn : Option Txn
  queue : List Req
  deriving DecidableEq, Repr

/-- A 2 MiB region's replication state (R352, R353, R378): `order` has the base dies by their remote reads in the last window,
the most first. -/
structure RepRegion where
  degree : Nat
  pin : Option Nat
  cap : Option Nat
  reads : Vector Nat 4
  collapses : Nat
  order : List Nat
  hits : BitVec 64
  collapsed : BitVec 64
  changes : BitVec 64
  deriving DecidableEq, Repr

/-- A line of a replica area (R353): `ends` is the cycle in which the invalidation that home has sent reaches it. -/
structure RepLine where
  base : Nat
  region : Nat
  pline : Nat
  data : Line
  wts : BitVec 24
  rts : BitVec 24
  ends : Option Nat
  deriving DecidableEq, Repr

/-- A page whose requests home holds (R351, R355), by its frame: for a `tmove` the cluster and the job with the frame that
the page moves to, for a `bufpub` its thread and, once the registrations are revoked, the cycle in which it ends; and the requests. A move to or from
host memory has the port that it uses, what of its time is left in 840ths of a cycle alone, and the cycle and the number of
moves of the port since which that stands (R390). -/
structure PageHold where
  frame : Nat
  big : Bool
  cluster : Nat
  jid : Option Nat
  dest : Nat
  thread : Nat
  ends : Nat
  port : Option Nat
  left : Nat
  since : Nat
  share : Nat
  held : List Req
  deriving DecidableEq, Repr

/-- A translation-cache entry (R347): the base die of its unit, the level of the table entry that it holds, the part of an
address above that level's pages, the entry, and the cycle from which it serves. -/
structure XlatEntry where
  base : Nat
  level : Nat
  index : Nat
  entry : Word
  ready : Nat
  deriving DecidableEq, Repr

/-- A page whose leaf has been written as not mapped while lines of it may still be on their way or held: the attributes that
it had, and whether it has been flushed (R344). -/
structure Leaving where
  attr : Attr
  flushed : Bool
  deriving DecidableEq, Repr

/-- Which pages a frame is mapped by (R348): at most two. -/
abbrev FrameRec := List Nat

/-- The memory system's state. `walks` lists the walks under way by base die, each with the cycle of its end (R347), `filter` is the host line filter (R392), the line used last first; true is M; `backInvs` has the
lines whose back-invalidation is under way, each with the cycle of its acknowledgement. -/
structure MemSys where
  ptroot : Nat
  home : Table HomeLine
  floors : Table (BitVec 24)
  poison : List Nat
  empties : List Nat
  marks : List Nat
  lineKeys : Table (BitVec 128)
  keys : Table (BitVec 128)
  banks : List BankLine
  allot : Table (BitVec 16)
  xlat : List XlatEntry
  walks : List (Nat × Nat)
  leaving : List Leaving
  parked : List (Nat × Nat)
  frames : Table FrameRec
  faces : Table Bool
  freeFrames : List Nat
  holds : List PageHold
  regions : Table RepRegion
  replicas : List RepLine
  filter : List (Nat × Bool)
  backInvs : Table Nat
  deriving DecidableEq, Repr

/-! ## The package and the fabric (R360 to R372, R386 to R397) -/

/-- A host command queue (R388, R389): its registers, the tail, the entry taken and its stage (0 none, 1 the
command runs, 2 its effect is being written, 3 its completion is, 4 a scheduler is asked), the writes not acknowledged, and the cycle by which
those acknowledged have performed at system scope. -/
structure HostQueue where
  qctl : BitVec 64
  qbase : BitVec 64
  qsize : BitVec 64
  qhead : BitVec 32
  tail : BitVec 32
  entry : Line
  stage : Nat
  pend : Nat
  sysAt : Nat
  deriving DecidableEq, Repr

/-- What the loader copies for the launches of a kernel (R23, R131; log 93): the kernel's entry, the image of a local store, the image
of a weight layer. -/
structure KernelImage where
  entry : Word
  ls : List Byte
  weight : List Byte
  deriving DecidableEq, Repr

/-- A remote-table entry's four fields (R394). -/
structure RemoteEntry where
  word0 : BitVec 32
  job : BitVec 16
  mask : BitVec 32
  offset : BitVec 32
  deriving DecidableEq, Repr

/-- The package's state; `remoteOut` the beats sent to other devices, `pageIns` the pages asked for (R349), `readData` what
the last register read from outside returned (R5, R254, R389), `hostRead` the line that the last host read of device memory
returned, none where its data is lost (R391), `kernels` the images that the loader has been given. -/
structure Pkg where
  tbase : BitVec 64
  coreReady : List Nat
  clusterReady : List Nat
  channelReady : List Nat
  segmentReady : List Nat
  ringReady : BitVec 6
  fabReady : BitVec 32
  dmgrReady : BitVec 8
  cmdpReady : BitVec 4
  xlatReady : BitVec 4
  explored : Vector (BitVec 6) 4
  answers : Table (BitVec 6)
  bootAt : Table Nat
  primary : Option Nat
  routed : BitVec 6
  downLinks : BitVec 6
  bringUp : Bool
  fenced : List Nat
  image : Nat
  events : Vector (List LogEntry) 2
  eventRead : BitVec 256
  portUp : BitVec 2
  queues : Table HostQueue
  remote : Table RemoteEntry
  keySlots : Table Nat
  remoteOut : List (Nat × List (Nat × Byte))
  pageIns : List Nat
  readData : Word
  hostRead : Option (Nat × Line)
  kernels : List KernelImage
  deriving DecidableEq, Repr

/-! ## The whole machine -/

/-- The machine. `cur` is the thread whose context is `ctx`; the other contexts are in `ctxs`. `turn` says that the
next step runs `cur`'s instruction (R144), `kicks` lists the threads whose latched instruction is replayed now, `replays`
those whose full/empty attempt is replayed in this cycle, at their core's turn (R200),
`visitFrom` the lowest core whose visit of this cycle is still to come, `agenda` the messages in flight and the outside inputs with the
cycle each is due (log 4). -/
structure State where
  cycle : Nat
  turn : Bool
  cur : Nat
  ctx : Ctx
  ctxs : Table Ctx
  kicks : List Nat
  replays : List Nat
  visitFrom : Nat
  agenda : List (Nat × Instr)
  mem : Memory
  cores : Table Core
  clusters : Table Cluster
  dies : Table Die
  jobs : Table Job
  ms : MemSys
  pkg : Pkg
  deriving DecidableEq, Repr

/-! ## Stops -/

/-- How a step can stop with a fault. Every trap of R86 is a next state, not one of these. -/
inductive Fault
  /-- Raised by no meaning of this model: the spec names no stop of the machine. Kept so that the type has a name for
  a state that is broken; safe. -/
  | brokenState (what : String)
  deriving DecidableEq, Repr

/-- How a step can be refused. -/
inductive Refusal
  /-- An instruction without a meaning in this model, by its mnemonic; raised by `exec`; safe. -/
  | notModelled (mnemonic : String)
  deriving DecidableEq, Repr

/-! ## Reset (R80, R83, R195, R360; the values that logs 2 and 3 name) -/

/-- An empty v-register (R80). -/
def VReg.zero : VReg := { bits := 0, tag := 0, side := 0 }

/-- The registers of R80. -/
def Regs.reset : Regs :=
  { g := Vector.replicate 32 0, gPres := 0xFFFF_FFFF, gTaint := 0, v := Vector.replicate 32 VReg.zero,
    vPres := 0xFFFF_FFFF, p := Vector.replicate 8 0 }

def Loops.reset : Loops :=
  { lc := Vector.replicate 3 0, lb := Vector.replicate 3 0, le := Vector.replicate 3 0, active := 0 }

/-- The unit-start values of R83. -/
def Ctrl.reset : Ctrl :=
  { rmode := 0, fflags := 0, mode := 0, pmode := 0, wake := false, rpta := false, tepc := 0, tcause := 0, tval := 0,
    tlanes := 0, tdeleg := 0, thandler := 0, rptix := 0, vlive := 0xFFFF_FFFF, ptime := 0, lease := 10,
    retrylim := 64, domain := 0 }

def UnitInfo.none : UnitInfo := { lid := 0, duty := .chunk, start := 0, holder := 0, fork := .none, group := .none, own := true, due := .none }

/-- A free slot's context: the state of R80, no thread installed. -/
def Ctx.reset : Ctx :=
  { inst := false, regs := Regs.reset, loops := Loops.reset, ctl := Ctrl.reset, pc := 0, latch := none,
    wait := .ready 0, lastIssue := none, attempts := 0, efaults := [], fblock := none,
    streams := Vector.replicate 4 none, job := 0, unit := UnitInfo.none, cancelled := false, skipWatch := false,
    rep := none, follow := (0, 1), gather := [], asked := [], served := 0, needG := 0, needV := 0, sent := 0, msgAt := 0, pkgAt := 0, sysAt := 0, ldcAt := 0, putAt := 0, putG := 0, putV := 0, cls := 0, absent := [], checked := [],
    lostStore := none }

def Core.reset : Core :=
  { job := none, slices := 1, holders := Vector.replicate 8 none, l1 := [], fills := [], icache := [], loopBuf := [],
    attrs := [], rights := [], queue := [], nextId := 0, promos := [], deferred := [], spent := 0, worms := [], answers := [], orphans := [],
    tables := Vector.replicate 16 none, runList := [], packets := [], forward := [], reserved := [],
    ports := [], outs := [], counters := [] }

def Accum.reset : Accum := { data := [], version := 0, poison := false }
def Channel.reset : Channel := { queue := [], run := none, chwp := 0 }
def JobEntry.reset : JobEntry :=
  { taken := false, engine := true, move := false, gen := 0, state := 0, bytes := 0, cflags := 0, zrow := false, clone := false, fresh := false,
    thread := 0, heir := none, cmd := none }
/-- An unconfigured barrier has count 0 (R246). -/
def Barrier.reset : Barrier := { count := 0, arrivals := 0, flags := 0, waiters := [] }
/-- WPC resets with LEN 3 and KIND 1 (R250). -/
def Debug.reset : Debug :=
  { dctl := 0, index := 0, slot := 0, core := 0, err := false, halted := false, cause := 0, haltAt := 0, stopped := 0,
    countTo := 0, dhpc := 0,
    dhaddr := 0, bpa := Vector.replicate 4 0, bpc := Vector.replicate 4 0, wpa := Vector.replicate 2 0,
    wpc := Vector.replicate 2 0x1A }

def Cluster.reset : Cluster :=
  { job := none, clearing := false, accs := [], queues := Vector.replicate 8 [], credit := Vector.replicate 8 1,
    weight := Vector.replicate 8 1, last := 7, running := [], 
    channels := Vector.replicate 16 Channel.reset, lastChannel := 15, copyAt := 0, jobs := [], barriers := [], cache := [], swaps := [],
    dbg := Debug.reset, resetUntil := 0, counters := [],
    visited := Vector.replicate 8 0, countFrom := 0, cleared := false }

/-- INTERVAL resets to 256 (R257). -/
def Strainer.reset : Strainer :=
  { sctl := 0x100_0000_0000, sring := 0, ssize := 0, sdrop := 0, ssel := [], produced := 0, seq := 0, first := false,
    dropFlag := false, haltFlag := false, next := 0, stored := 0, pend := 0, rows := [] }

def Die.reset : Die :=
  { strainer := Strainer.reset, launches := [], turned := [], graphs := [], phases := [], ready := [], records := [], errors := [], log := [],
    overflow := 0, sourceReset := 0, poisoned := 0, stealNext := false }

def Job.reset : Job :=
  { rightsBase := 0, tdeleg := 0, thandler := 0, bankKey := 0, vcs := [], regions := [], binds := [], ending := none, trees := [], forks := [], units := [],
    nextFork := 0, counter := 0, ptime := 0 }

def HomeLine.reset : HomeLine :=
  { registered := 0, wts := 0, rts := 0, clusters := 0, dies := 0, roots := [], overflow := false, used := 0, stands := false,
    txn := none, queue := [] }

def RepRegion.reset : RepRegion :=
  { degree := 0, pin := none, cap := none, reads := Vector.replicate 4 0, collapses := 0, order := [0, 1, 2, 3], hits := 0,
    collapsed := 0, changes := 0 }

def MemSys.reset : MemSys :=
  { ptroot := 0, home := [], floors := [], poison := [], empties := [], marks := [], lineKeys := [], keys := [],
    banks := [], allot := [], xlat := [], walks := [], leaving := [], parked := [], frames := [], faces := [], freeFrames := [], holds := [],
    regions := [], replicas := [], filter := [], backInvs := [] }

def HostQueue.reset : HostQueue := { qctl := 0, qbase := 0, qsize := 0, qhead := 0, tail := 0, entry := 0, stage := 0, pend := 0, sysAt := 0 }

def Pkg.reset : Pkg :=
  { tbase := 0, coreReady := [], clusterReady := [], channelReady := [], segmentReady := [], ringReady := 0,
    fabReady := 0, dmgrReady := 0, cmdpReady := 0, xlatReady := 0, explored := Vector.replicate 4 0, answers := [],
    bootAt := [], primary := none, routed := 0, downLinks := 0,
    bringUp := false, fenced := [], image := 0, events := Vector.replicate 2 [], eventRead := 0, portUp := 3, queues := [],
    remote := [], keySlots := [], remoteOut := [], pageIns := [], readData := 0, hostRead := none, kernels := [] }

/-- The machine right after package reset: CYCLE 0, every readiness bit 0 (R360), no context installed. -/
def State.reset : State :=
  { cycle := 0, turn := false, cur := 0, ctx := Ctx.reset, ctxs := [], kicks := [], replays := [], visitFrom := 0, agenda := [],
    mem := [], cores := [], clusters := [], dies := [], jobs := [], ms := MemSys.reset, pkg := Pkg.reset }

end Sys2Proof.Machine
end

