-- ==== Sys2Proof/Machine/Ops.lean ====
section
/-! DEFINITION. The named operations over the state: tables, memory, contexts, messages, registers, the end of an
instruction, parking, the end of a unit, taking a trap and returning from one. -/
namespace Sys2Proof.Machine

section

/-- What a meaning answers. -/
abbrev Res := Host.Outcome State Fault Refusal

/-! ## Sparse tables -/

def Table.get? {α : Type} : Table α → Nat → Option α
  | [], _ => none
  | (x, a) :: m, n => if x = n then some a else Table.get? m n

def Table.getD {α : Type} (m : Table α) (n : Nat) (d : α) : α := (Table.get? m n).getD d

/-- Enters `a` at `n`, keeping the numbers rising. -/
def Table.set {α : Type} : Table α → Nat → α → Table α
  | [], n, a => [(n, a)]
  | (x, b) :: m, n, a =>
    if n < x then (n, a) :: (x, b) :: m else if n = x then (n, a) :: m else (x, b) :: Table.set m n a

def Table.del {α : Type} : Table α → Nat → Table α
  | [], _ => []
  | (x, b) :: m, n => if x = n then m else (x, b) :: Table.del m n

/-- A sorted set of numbers. -/
def NatSet.insert : List Nat → Nat → List Nat
  | [], n => [n]
  | x :: m, n => if n < x then n :: x :: m else if n = x then x :: m else x :: NatSet.insert m n

def NatSet.erase (m : List Nat) (n : Nat) : List Nat := m.filter (· ≠ n)

/-! ## Memory -/

/-- The byte at an address; one that is not listed reads as `Config.unwritten` (log 3). -/
def Memory.read : Memory → Nat → Byte
  | [], _ => Config.unwritten
  | (x, b) :: m, a => if x = a then b else Memory.read m a

/-- Writes one byte and keeps the canonical form. -/
def Memory.write : Memory → Nat → Byte → Memory
  | [], a, b => if b = Config.unwritten then [] else [(a, b)]
  | (x, c) :: m, a, b =>
    if a < x then (if b = Config.unwritten then (x, c) :: m else (a, b) :: (x, c) :: m)
    else if a = x then (if b = Config.unwritten then m else (a, b) :: m)
    else (x, c) :: Memory.write m a b

/-- The canonical form, from a lower bound on the addresses. -/
def Memory.wfFrom : Nat → Memory → Bool
  | _, [] => true
  | lo, (x, b) :: m => decide (lo ≤ x) && decide (b ≠ Config.unwritten) && Memory.wfFrom (x + 1) m

/-- Addresses rise and no byte listed is what an unlisted address reads as. -/
def Memory.wf (m : Memory) : Bool := Memory.wfFrom 0 m

/-- `n` bytes from an address up. -/
def Memory.readBytes (m : Memory) : Nat → Nat → List Byte
  | _, 0 => []
  | a, n + 1 => m.read a :: Memory.readBytes m (a + 1) n

/-- Bytes from an address up, the first one lowest (R4). -/
def Memory.writeBytes : Memory → Nat → List Byte → Memory
  | m, _, [] => m
  | m, a, b :: bs => Memory.writeBytes (m.write a b) (a + 1) bs

/-- The little-endian number of `n` bytes (R4). -/
def Memory.readNat (m : Memory) (a n : Nat) : Nat := natOfBytes (m.readBytes a n)

def Memory.writeNat (m : Memory) (a n v : Nat) : Memory := m.writeBytes a (bytesOfNat n v)

/-- Writes a list of (address, byte) pairs in order. -/
def Memory.writeCells (m : Memory) (cs : List Host.Cell) : Memory := cs.foldl (fun m c => m.write c.1 c.2) m

/-! ## Bits, lines and masks -/

def bit (i : Nat) {w : Nat} : BitVec w := BitVec.ofNat w (2 ^ i)
/-- A bit vector with bit `i` set to `b`. -/
def setBit {w : Nat} (x : BitVec w) (i : Nat) (b : Bool) : BitVec w := if b then x ||| bit i else x &&& ~~~(bit i)
/-- A mask of bits `lo` to `lo + n - 1`. -/
def maskBits {w : Nat} (lo n : Nat) : BitVec w := BitVec.ofNat w ((2 ^ n - 1) * 2 ^ lo)
/-- The number of bits set. -/
def popCount (x : Nat) : Nat → Nat
  | 0 => 0
  | n + 1 => (if x.testBit n then 1 else 0) + popCount x n
/-- Byte `i` of a line. -/
def lineByte (x : Line) (i : Nat) : Byte := x.extractLsb' (8 * i) 8
def lineOfBytes (bs : List Byte) : Line := BitVec.ofNat 512 (natOfBytes bs)
def bytesOfLine (x : Line) : List Byte := bytesOfNat 64 x.toNat
/-- A byte mask widened to the bits of a line. -/
def widen (mask : BitVec 64) : Line := natOfBits 64
where
  natOfBits : Nat → Line
    | 0 => 0
    | n + 1 => natOfBits n ||| (if mask.getLsbD n then BitVec.ofNat 512 (255 * 2 ^ (8 * n)) else 0)
/-- The bytes under the mask from `new`, the others from `old`. -/
def mergeLine (mask : BitVec 64) (new old : Line) : Line := (new &&& widen mask) ||| (old &&& ~~~(widen mask))
/-- The 4-byte words that a byte mask touches. -/
def wordsOf (mask : BitVec 64) : BitVec 16 := go 16
where
  go : Nat → BitVec 16
    | 0 => 0
    | n + 1 => go n ||| (if mask.extractLsb' (4 * n) 4 = 0 then 0 else bit n)
/-- The words that a byte mask covers wholly. -/
def wholeWords (mask : BitVec 64) : BitVec 16 := go 16
where
  go : Nat → BitVec 16
    | 0 => 0
    | n + 1 => go n ||| (if mask.extractLsb' (4 * n) 4 = 0xF then bit n else 0)
/-- The bytes of the words named. -/
def bytesOfWords (ws : BitVec 16) : BitVec 64 := go 16
where
  go : Nat → BitVec 64
    | 0 => 0
    | n + 1 => go n ||| (if ws.getLsbD n then BitVec.ofNat 64 (15 * 2 ^ (4 * n)) else 0)
/-- The byte mask of `n` bytes at offset `off` of a line. -/
def byteMask (off n : Nat) : BitVec 64 := maskBits off n
/-- The numbers 0 to n - 1. -/
def upTo (n : Nat) : List Nat := List.range n
/-- The set bits of a mask, lowest first. -/
def bitsOf {w : Nat} (x : BitVec w) : List Nat := (List.range w).filter fun i => x.getLsbD i

/-! ## Numbering (R113, R193) -/

def coreOf (t : Nat) : Nat := t / 16
def slotOf (t : Nat) : Nat := t % 16
def clusterOf (core : Nat) : Nat := core / 8
def dieOf (core : Nat) : Nat := core / 512
def baseOf (die : Nat) : Nat := die / 2
/-- Cycles of a message from core to core (R400). -/
def msgCycles (c d : Nat) : Nat :=
  if c / 8 = d / 8 then 4 else if c / 32 = d / 32 then 10 else if c / 128 = d / 128 then 13
  else if c / 512 = d / 512 then 16 else 30
/-- The place of a base die on the ring of six: I/O 0, base 0, base 1, I/O 1, base 2, base 3 (R360). -/
def ringPlace (b : Nat) : Nat := if b = 0 then 1 else if b = 1 then 2 else if b = 2 then 4 else 5
/-- Hops between two places along the shorter way (R261). -/
def ringHops (p q : Nat) : Nat := let d := (p + 6 - q) % 6; min d (6 - d)
def baseHops (b c : Nat) : Nat := ringHops (ringPlace b) (ringPlace c)

/-- The unified address of a local-store byte (R117, log 4). -/
def lsAddr (core off : Nat) : Nat := 0xFF00_0000_0000_0000 + core * 2 ^ 19 + off
/-- The unified address of a weight-layer byte (R202, log 4). -/
def weightAddr (c off : Nat) : Nat := 0xFE00_0000_0000_0000 + c * 2 ^ 22 + off
/-- The unified address of a byte of host memory (log 4). -/
def hostAddr (pa : Nat) : Nat := 2 ^ 42 + pa

/-! ## Parts of the state by number -/

def State.core (s : State) (k : Nat) : Core := Table.getD s.cores k Core.reset
def State.setCore (s : State) (k : Nat) (c : Core) : State := { s with cores := Table.set s.cores k c }
def State.modCore (s : State) (k : Nat) (f : Core → Core) : State := s.setCore k (f (s.core k))
def State.cluster (s : State) (c : Nat) : Cluster := Table.getD s.clusters c Cluster.reset
def State.setCluster (s : State) (c : Nat) (x : Cluster) : State := { s with clusters := Table.set s.clusters c x }
def State.modCluster (s : State) (c : Nat) (f : Cluster → Cluster) : State := s.setCluster c (f (s.cluster c))
def State.die (s : State) (d : Nat) : Die := Table.getD s.dies d Die.reset
def State.setDie (s : State) (d : Nat) (x : Die) : State := { s with dies := Table.set s.dies d x }
def State.modDie (s : State) (d : Nat) (f : Die → Die) : State := s.setDie d (f (s.die d))
def State.job (s : State) (j : Nat) : Job := Table.getD s.jobs j Job.reset
def State.setJob (s : State) (j : Nat) (x : Job) : State := { s with jobs := Table.set s.jobs j x }
def State.modJob (s : State) (j : Nat) (f : Job → Job) : State := s.setJob j (f (s.job j))
def State.modMS (s : State) (f : MemSys → MemSys) : State := { s with ms := f s.ms }
def State.modPkg (s : State) (f : Pkg → Pkg) : State := { s with pkg := f s.pkg }

/-- The context of any thread, wherever the state holds it. -/
def State.ctxAt (s : State) (t : Nat) : Ctx := if t = s.cur then s.ctx else Table.getD s.ctxs t Ctx.reset
def State.setCtxAt (s : State) (t : Nat) (c : Ctx) : State :=
  if t = s.cur then { s with ctx := c }
  else { s with ctxs := if c.inst then Table.set s.ctxs t c else Table.del s.ctxs t }
def State.modCtxAt (s : State) (t : Nat) (f : Ctx → Ctx) : State := s.setCtxAt t (f (s.ctxAt t))
def State.modCtx (s : State) (f : Ctx → Ctx) : State := { s with ctx := f s.ctx }
def State.modCtl (s : State) (f : Ctrl → Ctrl) : State := { s with ctx := { s.ctx with ctl := f s.ctx.ctl } }
def State.modRegs (s : State) (f : Regs → Regs) : State := { s with ctx := { s.ctx with regs := f s.ctx.regs } }

/-- Makes `t` the current thread; the other context goes back to its place. -/
def State.switch (s : State) (t : Nat) : State :=
  if t = s.cur then s
  else { s with
    cur := t, ctx := Table.getD s.ctxs t Ctx.reset,
    ctxs := if s.ctx.inst then Table.set (Table.del s.ctxs t) s.cur s.ctx else Table.del s.ctxs t }

/-- Runs `f` with `t` current, and makes the thread before it current again. -/
def State.withThread (s : State) (t : Nat) (f : State → State) : State :=
  if t = s.cur then f s else (f (s.switch t)).switch s.cur

def State.myCore (s : State) : Nat := coreOf s.cur
def State.myCluster (s : State) : Nat := clusterOf (coreOf s.cur)
def State.myDie (s : State) : Nat := dieOf (coreOf s.cur)

/-- The threads of a core that hold a context. -/
def State.threadsOf (s : State) (core : Nat) : List Nat :=
  ((List.range 16).map (core * 16 + ·)).filter fun t => (s.ctxAt t).inst

/-- Every thread that holds a context. -/
def State.allThreads (s : State) : List Nat :=
  (if s.ctx.inst then [s.cur] else []) ++ (s.ctxs.map (·.1)).filter (· ≠ s.cur)

/-- A core is bound to a job (R117 to R118). -/
def State.boundTo (s : State) (core job : Nat) : Bool := (s.core core).job = some job
/-- The size of a core's local store in bytes (R196). -/
def State.lsSize (s : State) (core : Nat) : Nat := (s.core core).slices * 16384

/-! ## Messages and replays -/

/-- The order of the events of one cycle (R148, R204): the matrix unit reads its tile first, or restarts and reads it, a thread's own late result
is written after every message; a probe for words comes last, behind the accesses that a grant of the cycle lets
complete once (R291). -/
def eventOrder : Instr → Nat
  | .matrixStart _ | .dcmdResume _ | .dcmdStep _ => 0
  | .dividerResult _ _ _ _ | .specialFunctionResult _ _ _ _ | .barrierRelease _ _ _ _ => 2
  | .forward _ | .revocation _ => 3
  | _ => 1

/-- Enters an event after every event that is due no later and does not come after it in its cycle. -/
def insertDue (c : Nat) (e : Instr) : List (Nat × Instr) → List (Nat × Instr)
  | [] => [(c, e)]
  | (d, x) :: m =>
    if c < d || (c = d && eventOrder e < eventOrder x) then (c, e) :: (d, x) :: m else (d, x) :: insertDue c e m

/-- An event `d` cycles from now. -/
def State.schedule (s : State) (d : Nat) (e : Instr) : State := { s with agenda := insertDue (s.cycle + d) e s.agenda }

/-- A core's send allowances: one for each free flit of the next buffer, which holds 8 (R314). -/
def Core.allowances (c : Core) : Nat := 8 - c.spent

/-- How long a packet of n flits waits at its core until the allowances for what fits into the buffer are there (R314). -/
def State.flitWait (s : State) (core n : Nat) : Nat :=
  let due := s.agenda.filterMap fun x => match x.2 with
    | .sendAllowanceReturn k => if k = core then some x.1 else none
    | _ => none
  match min n 8 + (s.core core).spent - 8 with
  | 0 => 0
  | j + 1 => due.getD j s.cycle - s.cycle

/-- A packet of n flits leaves a core after its wait: each flit spends an allowance, which the next buffer returns when it
frees the flit. The answer has the wait (R314). -/
def State.sendFlits (s : State) (core n : Nat) : State × Nat :=
  let w := s.flitWait core n
  if n = 0 then (s, w)
  else
    -- a packet that the network interface holds for 2^20 cycles resets its cluster (R367)
    let s := if w < 2 ^ 20 then s else s.schedule (2 ^ 20) (.clusterReset (clusterOf core))
    ((List.range n).foldl (fun s i => s.schedule (w + i + 2) (.sendAllowanceReturn core))
    (s.modCore core fun c => { c with spent := c.spent + n }), w)

/-- Flits of the packet have still to leave in a cycle. -/
def Worm.leaving (w : Worm) (cycle : Nat) : Bool := decide (cycle < w.from_ + w.flits)

/-- A packet on the request network: it leaves after its wait, and not before `after` cycles, and arrives `d` cycles later
(R314, R400). The answer has the cycles until it leaves. -/
def State.post (s : State) (core n after d : Nat) (msg : Instr) : State × Nat :=
  let (s, w) := s.sendFlits core n
  let w := max after w
  let s := s.modCore core fun c =>
    { c with worms := { from_ := s.cycle + w, flits := n, due := s.cycle + w + d, msg := msg } ::
        c.worms.filter fun x => decide (s.cycle ≤ x.due) }
  (s.schedule (w + d) msg, w)

/-- The latched instruction of `t` is replayed now (R87). -/
def State.kick (s : State) (t : Nat) : State := { s with kicks := s.kicks ++ [t] }

/-- Replays every thread of the list that waits for the reason. -/
def State.kickWaiting (s : State) (r : Reason) (ts : List Nat) : State :=
  { s with kicks := s.kicks ++ ts.filter fun t => decide ((s.ctxAt t).wait = .away r) }

/-- Every thread of the list that waits for the reason is ready again, and its latched instruction reissues at a visit
(R87, R150). -/
def State.readyWaiting (s : State) (r : Reason) (ts : List Nat) : State :=
  ts.foldl (fun s t => if (s.ctxAt t).wait = .away r then s.modCtxAt t fun c => { c with wait := .ready s.cycle } else s) s

/-- The swap of a slot waits in step 1 of R153: the slot is vacant, and its context issues nothing. -/
def State.vacating (s : State) (t : Nat) : Bool :=
  (s.ctxAt t).inst && (Table.get? (s.cluster (clusterOf (coreOf t))).swaps t).isSome

/-- The threads of a cluster. -/
def State.clusterThreads (s : State) (c : Nat) : List Nat := s.allThreads.filter fun t => t / 128 = c

/-- Bytes of one write into local stores or weight layers, at unified addresses: a word that they cover whole is no
longer poisoned (R365). -/
def State.writeLocal (s : State) (cs : List Host.Cell) : State :=
  let covered (w : Nat) : Bool := (List.range 4).all fun i => cs.any fun c => c.1 = 4 * w + i
  { s with mem := s.mem.writeCells cs,
           ms := { s.ms with poison := if s.ms.poison.isEmpty then [] else s.ms.poison.filter fun w => !(covered w) } }
/-- Bytes from a unified address up as such pairs. -/
def cellsFrom (a : Nat) (bs : List Byte) : List Host.Cell := (List.range bs.length).map fun i => (a + i, bs.getD i 0)

/-! ## Counters (R255) -/

def bumpBy (cs : Counters) (code sub n : Nat) : Counters :=
  Table.set cs (code * 32 + sub) ((Table.getD cs (code * 32 + sub) 0 + n) % 2 ^ 64)

/-- Nothing counts in a halted cluster. A halt that a visit triggers ends the counting with its cycle, in which other
cores have been visited already (R255, R256). -/
def Debug.frozen (d : Debug) (cycle : Nat) : Bool := d.halted && decide (d.countTo ≤ cycle)

/-- Counts at core scope. -/
def State.count (s : State) (core code sub : Nat) : State :=
  if (s.cluster (clusterOf core)).dbg.frozen s.cycle then s
  else s.modCore core fun c => { c with counters := bumpBy c.counters code sub 1 }

/-- Counts at cluster scope. -/
def State.countCluster (s : State) (c code sub n : Nat) : State :=
  if (s.cluster c).dbg.frozen s.cycle then s
  else s.modCluster c fun x => { x with counters := bumpBy x.counters code sub n }

/-! ## Registers (R79, R81, R82) -/

/-- A g-register's value; g0 reads zero. -/
def State.g (s : State) (r : GReg) : Word := if r = 0 then 0 else s.ctx.regs.g[r]
def State.taint (s : State) (r : GReg) : Bool := r ≠ 0 && s.ctx.regs.gTaint.getLsbD r.val
def State.v (s : State) (r : VIdx) : VReg := s.ctx.regs.v[r]
/-- A p-register's value; p0 reads all ones. -/
def State.p (s : State) (r : PReg) : Word := if r = 0 then BitVec.allOnes 64 else s.ctx.regs.p[r]

/-- Writes a result: the value, the presence bit, the taint bit; g0 ignores it. -/
def Regs.setG (x : Regs) (d : GReg) (v : Word) (taint : Bool) : Regs :=
  if d = 0 then x
  else { x with g := x.g.set d v, gPres := setBit x.gPres d.val true, gTaint := setBit x.gTaint d.val taint }
def Regs.setV (x : Regs) (d : VIdx) (v : VReg) : Regs :=
  { x with v := x.v.set d v, vPres := setBit x.vPres d.val true }
def Regs.setP (x : Regs) (d : PReg) (v : Word) : Regs := if d = 0 then x else { x with p := x.p.set d v }

def State.setG (s : State) (d : GReg) (v : Word) (taint : Bool) : State := s.modRegs fun x => x.setG d v taint
def State.setV (s : State) (d : VIdx) (v : VReg) : State := s.modRegs fun x => x.setV d v
def State.setP (s : State) (d : PReg) (v : Word) : State := s.modRegs fun x => x.setP d v

/-- ORs flags into FFLAGS (R65). -/
def State.raise (s : State) (f : BitVec 5) : State := s.modCtl fun c => { c with fflags := c.fflags ||| f }

/-- A write from another thread lands: the register, its presence bit, the wake-pending bit, and, for a clear of the
same cycle (R140, R148), which register it wrote when. -/
def Ctx.remoteG (c : Ctx) (cycle : Nat) (d : GReg) (v : Word) : Ctx :=
  { c with
    regs := c.regs.setG d v false, ctl := { c.ctl with wake := true }, putAt := cycle,
    putG := setBit (if c.putAt = cycle then c.putG else 0) d.val true, putV := if c.putAt = cycle then c.putV else 0 }
def Ctx.remoteV (c : Ctx) (cycle : Nat) (d : VIdx) (v : VReg) : Ctx :=
  { c with
    regs := c.regs.setV d v, ctl := { c.ctl with wake := true }, putAt := cycle,
    putV := setBit (if c.putAt = cycle then c.putV else 0) d.val true, putG := if c.putAt = cycle then c.putG else 0 }

/-! ## The end of an instruction (R188 to R190) -/

/-- The word that the latch holds: the step puts every word it decodes there (R87). -/
def State.word (s : State) : BitVec 128 := s.ctx.latch.getD 0
def State.word64 (s : State) : Word := s.word.extractLsb' 0 64

/-- Ready, since now if it was away; a known cycle stands. -/
def Wait.rejoin (w : Wait) (cycle : Nat) : Wait :=
  match w with
  | .ready c => .ready c
  | .timed r c => .timed r c
  | .away _ => .ready cycle

/-- The latch and what it gathered are empty, and the thread is ready. -/
def Ctx.settled (c : Ctx) (cycle : Nat) : Ctx :=
  { c with
    latch := none, wait := c.wait.rejoin cycle, attempts := 0, gather := [], asked := [], served := 0,
    skipWatch := false, cls := 0, absent := [], checked := [] }

/-- The loop-end test at the instruction of address `at_`, with the next address in sequence (R188). -/
def Loops.endTest (l : Loops) (at_ next : Word) : Loops × Word := go 3 l
where
  go : Nat → Loops → Loops × Word
    | 0, l => (l, next)
    | k + 1, l =>
      if l.active.getLsbD k && decide (l.le[k]! = at_) then
        let n := l.lc[k]! - 1
        let l' := { l with lc := l.lc.setIfInBounds k n }
        if n ≠ 0 then (l', l.lb[k]!) else go k { l' with active := setBit l'.active k false }
      else go k l

/-- An instruction of `n` bytes has completed without a taken branch: the PC passes it, or the next repetition
follows, or a loop returns. -/
def State.finish (s : State) (n : Nat) : State :=
  let c := s.ctx.settled s.cycle
  match c.rep with
  | some (count, _) =>
    if c.ctl.rptix.toNat + 1 < count.toNat then
      { s with ctx := { c with ctl := { c.ctl with rptix := c.ctl.rptix + 1 } } }
    else
      let at_ := c.pc + 8
      let (l, pc) := c.loops.endTest at_ (at_ + BitVec.ofNat 64 n)
      { s with ctx := { c with rep := none, loops := l, pc := pc, ctl := { c.ctl with rptix := 0, rpta := false } } }
  | none =>
    let (l, pc) := c.loops.endTest c.pc (c.pc + BitVec.ofNat 64 n)
    { s with ctx := { c with loops := l, pc := pc } }

/-- The mark in `asked` of a full/empty attempt that failed, before the cycle of the first one and its word (R133). -/
def fullEmptyMark : Nat := 2 ^ 60 + 2

/-- The first failed attempt of a thread's full/empty instruction, and its word. -/
def Ctx.firstAttempt (c : Ctx) : Option (Nat × Nat) :=
  match c.asked.dropWhile (· ≠ fullEmptyMark) with
  | [_, cycle, word] => some (cycle, word)
  | _ => none

/-- A taken branch (R105): the loop-end test is not made (R188). -/
def State.jump (s : State) (target : Word) : State := { s with ctx := { s.ctx.settled s.cycle with pc := target } }

/-- Not completed: the instruction stays in the latch and the thread is away until an event replays it. -/
def State.park (s : State) (r : Reason) : State := { s with ctx := { s.ctx with wait := .away r, cls := 0 } }

/-- The visit of this cycle counts in the class given instead of as issued (R146, R256): 0x02 memory, 0x03 message. -/
def State.unissue (s : State) (code : Nat) : State :=
  if s.ctx.lastIssue = some s.cycle then
    let s' := if (s.cluster s.myCluster).dbg.frozen s.cycle then s else s.modCore s.myCore fun c =>
      let p := s.cycle % 8
      let less (cs : Counters) (code sub : Nat) : Counters :=
        Table.set cs (code * 32 + sub) (Table.getD cs (code * 32 + sub) 0 - 1)
      { c with counters :=
          bumpBy (bumpBy (less (less c.counters 1 p) 5 (slotOf s.cur)) code p 1) (code + 4) (slotOf s.cur) 1 }
    { s' with ctx := { s'.ctx with lastIssue := none } }
  else s

/-! ## Contexts in the context cache (R152 to R154) -/

/-- The thread number of the queued stores and waiting messages of a context while it is in an entry of the context cache, or,
as of entry 256, on its way there. -/
def savedThread (t entry : Nat) : Nat := 2 ^ 17 * (entry + 1) + t

/-- Changes every context that has the slot `t` for its own: the installed one and those in the context cache. -/
def State.modSlot (s : State) (t : Nat) (f : Ctx → Ctx) : State :=
  let s := if (s.ctxAt t).inst then s.modCtxAt t f else s
  s.modCluster (clusterOf (coreOf t)) fun k => { k with
    cache := k.cache.map fun (e, slot, c) => (e, slot, if slot = t then f c else c)
    swaps := k.swaps.map fun (u, e, c) => (u, e, if u = t then c.map f else c) }

/-- The context behind the thread number of a queue entry. -/
def State.owner (s : State) (t : Nat) : Ctx :=
  if t < 2 ^ 17 then s.ctxAt t
  else
    let slot := t % 2 ^ 17
    let k := s.cluster (clusterOf (coreOf slot))
    if t = savedThread slot 256 then ((Table.get? k.swaps slot).bind (·.2)).getD Ctx.reset
    else ((Table.get? k.cache (t / 2 ^ 17 - 1)).map (·.2)).getD Ctx.reset
def State.modOwner (s : State) (t : Nat) (f : Ctx → Ctx) : State := if t < 2 ^ 17 then s.modCtxAt t f else s.modSlot (t % 2 ^ 17) f

/-- The queued stores and waiting messages of a thread number get another one. -/
def State.renumber (s : State) (core t u : Nat) : State :=
  s.modCore core fun c => { c with
    queue := c.queue.map fun e => if e.thread = t then { e with thread := u } else e
    deferred := c.deferred.map fun d => if d.thread = t then { d with thread := u } else d }

/-- A mask of register numbers. -/
def regMask (rs : List (Fin 32)) : BitVec 32 := rs.foldl (fun m r => setBit m r.val true) 0

/-- The instruction does not issue: a source register is absent (R81). -/
def State.parkAbsent (s : State) (gs vs : List (Fin 32)) : State :=
  ((s.unissue 0x03).park .presence).modCtx fun c => { c with needG := regMask gs, needV := regMask vs }

/-- Completed, but the thread is away until `d` cycles from now. -/
def State.rest (s : State) (r : Reason) (d : Nat) : State := { s with ctx := { s.ctx with wait := .timed r (s.cycle + d) } }

/-- A latched thread becomes ready: the instruction reissues at a visit (R81, R150). -/
def State.unpark (s : State) (t : Nat) : State := s.modCtxAt t fun c => { c with wait := .ready s.cycle }

/-- The registers that an absent-register wait is for are present. -/
def Ctx.hasNeeds (c : Ctx) : Bool :=
  c.needG &&& ~~~(bit 0) &&& ~~~c.regs.gPres = 0 && c.needV &&& ~~~c.regs.vPres = 0

/-- After a delivery: a `wait` whose bit is set ends (R112), and an instruction whose sources are present reissues
(R81). -/
def State.wakeUp (s : State) (t : Nat) : State :=
  let c := s.ctxAt t
  if c.wait = .away .wakeWait && c.ctl.wake then s.kick t
  else if c.wait = .away .presence && c.hasNeeds then s.unpark t
  else s

/-- A forwarding entry at or above this number names a core whose migration buffer holds the thread. -/
def inBuffer : Nat := 2 ^ 20

/-- The context of a thread that may have migrated, changed wherever it is now: in its slot, or in a packet (R158). -/
def State.modWherever (f : Ctx → Ctx) : Nat → Nat → State → State
  | 0, _, s => s
  | n + 1, t, s =>
    if (s.ctxAt t).inst then s.modSlot t f
    else match Table.get? (s.core (coreOf t)).forward t with
      | none => s.modSlot t f
      | some v =>
        if v < inBuffer then State.modWherever f n v s
        else s.modCore (v - inBuffer) fun k =>
          { k with packets := k.packets.map fun p => if p.src = t then { p with ctx := f p.ctx } else p }

/-- The same message for another thread address. -/
def readdress (t : Nat) : Instr → Instr
  | .wakeDelivery _ j => .wakeDelivery t j
  | .rputDelivery (r, _) j m => .rputDelivery (r, t) j m
  | .sendDelivery (r, _) j i v p => .sendDelivery (r, t) j i v p
  | .reductionDelivery j (tr, some (_, x)) => .reductionDelivery j (tr, some (t, x))
  | .engineFaultSignal _ j => .engineFaultSignal t j
  | e => e

/-- A message of a thread travels `d` cycles more (R116, R158). -/
def State.travels (s : State) (sender d : Nat) : State :=
  s.modWherever (fun c => { c with msgAt := max c.msgAt (s.cycle + d) }) 64 sender

/-- The address of a message that has been forwarded to the core whose migration buffer held the thread of address `t`. -/
def bufferAddr (core t : Nat) : Nat := 2 ^ 24 + core * 65536 + t

/-- A forwarded message leaves the core of the old address for another one: one more hop, and one more message that spends
that core's send allowances (R158, R314). -/
def State.hop (s : State) (sender t core flits : Nat) (msg : Instr) : State :=
  let d := msgCycles (coreOf t) core
  let (s, w) := s.post (coreOf t) flits 0 d msg
  s.travels sender (w + d)

/-- A message for the thread address `t` of a job, of so many flits: to the context installed there (R154), on along a
forwarding entry with the time of one more hop (R158), to the core whose migration buffer has the thread, where it is held with
the packet until the thread is installed, or dropped. -/
def State.deliver (s : State) (sender t job flits : Nat) (again : Nat → Instr) (f : Ctx → Ctx) (dropped : State → State) : State :=
  if t ≥ 2 ^ 24 then
    let old := t % 65536
    match Table.get? (s.core (coreOf old)).forward old with
    | some v =>
      if v < inBuffer then s.schedule 0 (again v)
      else s.modCore (v - inBuffer) fun k =>
        { k with packets := k.packets.map fun p =>
            if p.src = old && p.ctx.job = job then { p with held := p.held ++ [(sender, again old)] } else p }
    | none => s.schedule 0 (again old)
  else
    let c := s.ctxAt t
    if c.inst && c.job = job then (s.modCtxAt t f).wakeUp t
    else match Table.get? (s.core (coreOf t)).forward t with
      | none => dropped s
      | some v =>
        if v < inBuffer then s.hop sender t (coreOf v) flits (again v)
        else s.hop sender t (v - inBuffer) flits (again (bufferAddr (v - inBuffer) t))

/-- The wake-pending bit is set (R111). -/
def Ctx.setWake (c : Ctx) : Ctx := { c with ctl := { c.ctl with wake := true } }

/-! ## The launch of a thread's unit, and its end (R88, R116, R302, R309, R310, R325) -/

def lidDie (lid : Nat) : Nat := lid / 2 ^ 12 % 8
def lidEntry (lid : Nat) : Nat := lid % 2 ^ 12
def lidGen (lid : Nat) : Nat := lid / 2 ^ 16

def State.launch? (s : State) (lid : Nat) : Option Launch :=
  match Table.get? (s.die (lidDie lid)).launches (lidEntry lid) with
  | some l => if l.gen = lidGen lid && !lid.testBit 15 then some l else none
  | none => none
def State.modLaunch (s : State) (lid : Nat) (f : Launch → Launch) : State :=
  match s.launch? lid with
  | some l => s.modDie (lidDie lid) fun d => { d with launches := Table.set d.launches (lidEntry lid) (f l) }
  | none => s

def stFault : BitVec 32 := 0x0002_0000
def stCancel : BitVec 32 := 0x0004_0000
def stEflt : BitVec 32 := 0x0008_0000
def stPart : BitVec 32 := 0x0010_0000
def stRes : BitVec 32 := 0x0020_0000
def stTdx : BitVec 32 := 0x0040_0000
def stRst : BitVec 32 := 0x0080_0000

/-- Status words combine: flags OR, UNITS add (R310). -/
def combineStatus (a b : BitVec 32) : BitVec 32 :=
  (((a.extractLsb' 16 16) ||| (b.extractLsb' 16 16)) ++ (a.extractLsb' 0 16 + b.extractLsb' 0 16))

/-- A core takes work of a launch and is a child of its done tree (R309). -/
def Launch.addKid (l : Launch) (core n : Nat) : Launch :=
  { l with kids := Table.set l.kids core (Table.getD l.kids core 0 + n) }
/-- A core has ended work of a launch; with none left it deregisters. -/
def Launch.dropKid (l : Launch) (core n : Nat) : Launch :=
  let k := Table.getD l.kids core 0 - n
  { l with kids := if k = 0 then Table.del l.kids core else Table.set l.kids core k }

/-- A ready queue's entry is for a launch. -/
def ReadyItem.isFor (x : ReadyItem) (lid : Nat) : Bool :=
  match x with
  | .launch l _ _ => l = lid
  | .task _ _ l => l = lid

/-- The launch has no child left, no message on its way, and nothing of it is queued (R311). -/
def State.launchOver (s : State) (lid : Nat) (l : Launch) : Bool :=
  (l.st = .queued || l.st = .running) && l.kids.isEmpty && l.helpers = 0 && l.flight = 0 &&
    s.dies.all fun (_, d) => d.ready.all fun x => !x.isFor lid

/-- The root looks whether the launch is complete. -/
def State.launchCheck (s : State) (lid : Nat) : State :=
  match s.launch? lid with
  | some l => if s.launchOver lid l then s.schedule 0 (.launchComplete lid) else s
  | none => s

/-- Two done messages in one status word, with the first trap's report (R309, R310, R311). -/
def joinEnds (a b : UnitEnd) : UnitEnd :=
  let t := if a.cause ≠ 0 then a else b
  { t with lid := a.lid, status := combineStatus a.status b.status, ptime := if (b.ptime + 2 ^ 24 - a.ptime % 2 ^ 24) % 2 ^ 24 < 2 ^ 23 then b.ptime else a.ptime }

/-- A message that reaches the node in the same cycle and combines with this one. -/
def combineAt (c : Nat) (n : DoneNode) (e : UnitEnd) : List (Nat × Instr) → Option (List (Nat × Instr))
  | [] => none
  | (d, x) :: m =>
    match x with
    | .doneMessage n' e' =>
      if d = c && n' = n && e'.lid = e.lid && (e.status.toNat % 65536 + e'.status.toNat % 65536 < 65536) then
        some ((d, .doneMessage n (joinEnds e' e)) :: m)
      else (combineAt c n e m).map ((d, x) :: ·)
    | _ => (combineAt c n e m).map ((d, x) :: ·)

/-- A done message on its way to a node, in `d` cycles (R309). -/
def State.toNode (s : State) (d : Nat) (n : DoneNode) (e : UnitEnd) : State :=
  match combineAt (s.cycle + d) n e s.agenda with
  | some m => { s with agenda := m }.modLaunch e.lid fun l => { l with flight := l.flight - 1 }
  | none => s.schedule d (.doneMessage n e)

/-- A done message leaves a core, which has ended `units` of the launch: it reaches the cluster's node in the next
cycle (R309). -/
def State.sendDone (s : State) (core units : Nat) (e : UnitEnd) : State :=
  (s.modLaunch e.lid fun l => { l.dropKid core units with flight := l.flight + 1 }).toNode 1 (.cluster (clusterOf core)) e

/-- The compute die of a done node below the root. -/
def doneDie (n : DoneNode) : Nat :=
  match n with
  | .cluster c => c / 64
  | .group g => g / 16
  | .super k => k / 4
  | .die d => d
  | .root => 0

/-- n units discarded at a core or at a die's scheduler are counted done with flags, in words of at most 65,535
(R309, R312). -/
def State.discardUnits (s : State) (node : DoneNode) (lid n : Nat) (flags : BitVec 32) : State :=
  let e (k : Nat) : UnitEnd :=
    { lid := lid, status := flags ||| BitVec.ofNat 32 k, cause := 0, tval := 0, pc := 0, thread := 8192 * doneDie node,
      ptime := 0 }
  let ks := List.replicate (n / 65535) 65535 ++ (if n % 65535 = 0 then [] else [n % 65535])
  ks.foldl (fun s k => (s.modLaunch lid fun l => { l with flight := l.flight + 1 }).toNode 1 node (e k)) s

/-- A slot gives up its rotation position. -/
def State.dropPosition (s : State) (t : Nat) : State :=
  s.modCore (coreOf t) fun c => { c with holders := c.holders.map fun h => if h = some (slotOf t) then none else h }

/-- A slot of the core is free: the packets of its migration buffer look for one (R157), and the tasks of its run list
(R305). -/
def State.slotFree (s : State) (core : Nat) : State :=
  let c := s.core core
  let s := c.packets.foldl (fun s p => s.schedule 0 (.migrationArrival p.src)) s
  if c.runList.isEmpty then s else s.schedule 16 (.runListInstall (core, none))

/-- An event that belongs to the context in the slot `t` alone: a late result, or a replay. -/
def ownEvent (t : Nat) : Instr → Bool
  | .dividerResult u _ _ _ | .specialFunctionResult u _ _ _ | .bankConflictReplay u | .fullEmptyReplay u | .migrationRetry u =>
    u = t
  | _ => false

/-- A slot holds no context any more: positions and streams with it, and what was to come of its own (R98, R116, R186). A packet
of the core's migration buffer may take it (R157), and a task of its run list (R305). -/
def State.freeContext (s : State) (t : Nat) : State :=
  let s := { s with agenda := s.agenda.filter fun x => !ownEvent t x.2 }
  ((s.setCtxAt t Ctx.reset).dropPosition t).slotFree (coreOf t)

/-- A reserved slot, and the end of its reservation. -/
def State.reserve (s : State) (t : Nat) (u : UnitInfo) : State :=
  s.modCore (coreOf t) fun c => { c with reserved := Table.set c.reserved (slotOf t) u }
def State.unreserve (s : State) (t : Nat) : State :=
  (s.modCore (coreOf t) fun c => { c with reserved := Table.del c.reserved (slotOf t) }).slotFree (coreOf t)

/-- The bind record of a slot is empty (R301, R302). -/
def State.clearRecord (s : State) (t : Nat) : State :=
  s.modDie (dieOf (coreOf t)) fun d => { d with records := Table.del d.records (t % 8192) }

/-- What the holder's core does when the unit in `t`'s slot has ended (R116 step 3, R159, R302, R305): the report,
then the record's next index 8 cycles later, or the slot free. -/
def State.reportAt (s : State) (t : Nat) (u : UnitInfo) (e : UnitEnd) : State :=
  let core := coreOf t
  let s := s.sendDone core 1 e
  match u.duty with
  | .record entry arg index last res =>
    if index < last then
      (s.reserve t { lid := u.lid, duty := .record entry arg (index + 1) last res, start := t, holder := t, fork := none,
                     group := none, own := true, due := some (s.cycle + 8) }).schedule 8 (.unitRestart t)
    else (s.unreserve t).clearRecord t
  | .task rec => { s with mem := s.mem.write (rec + 18) 4 }.unreserve t
  | .chunk => s.unreserve t

/-- The cycles of a message along the forwarding entries from an address to the slot `t` (R158, R159), straight to it
where they do not lead there. -/
def State.pathCycles (s : State) (a t : Nat) : Nat := go 64 a 0
where
  go : Nat → Nat → Nat → Nat
    | 0, _, _ => msgCycles (coreOf a) (coreOf t)
    | n + 1, x, d =>
      if x = t then d
      else match Table.get? (s.core (coreOf x)).forward x with
        | some y => go n y (d + msgCycles (coreOf x) (coreOf y))
        | none => msgCycles (coreOf a) (coreOf t)

/-- The forwarding entries of a context that has ended go, and the slots that it passed through are free (R158, R159). -/
def State.dropForwards (s : State) : Nat → Nat → State
  | 0, _ => s
  | n + 1, x =>
    match Table.get? (s.core (coreOf x)).forward x with
    | some y =>
      let s := s.modCore (coreOf x) fun c => { c with forward := Table.del c.forward x }
      let s := if (Table.get? (s.core (coreOf y)).forward y).isSome then s.unreserve y else s
      State.dropForwards s n y
    | none => s

/-- The thread number of work whose unit has ended. -/
def noThread : Nat := 65536

/-- A job-table entry when its thread's unit ends: one that has ended is free (R214), one that runs on is nobody's. -/
def JobEntry.orphan (t : Nat) (e : JobEntry) : JobEntry :=
  if e.taken && e.thread = t then (if e.state ≥ 2 then { JobEntry.reset with gen := e.gen } else { e with thread := noThread })
  else e

/-- The mark in `asked` of an access that travels as a message to the core named after it. -/
def remoteMark : Nat := 2 ^ 60

/-- An access of a stopped context that is on its way to a far local store completes there without it (R312, R316). -/
def State.orphanAccess (s : State) (t : Nat) : State :=
  let c := s.ctxAt t
  match s.agenda.find? fun x => decide (x.2 = .remoteReadMessage t) with
  | some (due, _) =>
    if c.latch.isSome && c.asked.contains remoteMark then
      s.modCore (coreOf t) fun k => { k with orphans := k.orphans ++ [(due, t, c)] }
    else s
  | none => s

/-- The unit of a slot's thread ends: the stores it has queued and the engine commands that have not ended go on by
themselves (R88, R312), and its ended commands' entries are free. -/
def State.orphan (s : State) (t : Nat) : State :=
  let mine (x : Nat) : Nat := if x = t then noThread else x
  let cmd (x : CopyCmd) : CopyCmd := { x with thread := mine x.thread }
  let s := s.orphanAccess t
  let s := s.modCore (coreOf t) fun c => { c with
    queue := c.queue.map fun e =>
      if e.thread = t then { e with thread := noThread, req := { e.req with ptime := s.ctx.ctl.ptime.toNat } } else e
    deferred := c.deferred.map fun d => { d with thread := mine d.thread } }
  let s := s.modCluster (clusterOf (coreOf t)) fun c => { c with
    jobs := c.jobs.map fun (n, e) => (n, e.orphan t)
    queues := c.queues.map fun q => q.map fun o => { o with thread := mine o.thread }
    running := c.running.map fun r => { r with op := { r.op with thread := mine r.op.thread } }
    barriers := c.barriers.map fun (n, b) => (n, { b with waiters := b.waiters.filter fun w => w.1 ≠ t })
    channels := c.channels.map fun ch =>
      { ch with queue := ch.queue.map cmd, run := ch.run.map fun r => { r with cmd := cmd r.cmd } } }
  s.readyWaiting .jobTable (s.clusterThreads (clusterOf (coreOf t)))

/-- The engine commands of a cancelled unit end (R215, R225, R312): matrix operations that have not started and copy
commands that wait leave, a running copy stops after its beats in flight. -/
def State.cancelEngines (s : State) (t : Nat) : State :=
  let k := clusterOf (coreOf t)
  let c := s.cluster k
  let gone := (c.queues.toList.flatMap fun q => (q.filter fun o => o.thread = t).filterMap (·.jid)) ++
    c.channels.toList.flatMap fun ch => (ch.queue.filter fun x => x.thread = t).map (·.jid)
  let s := s.modCluster k fun c => { c with
    queues := c.queues.map fun q => q.filter fun o => o.thread ≠ t
    channels := c.channels.map fun ch =>
      { ch with queue := ch.queue.filter fun x => x.thread ≠ t,
                run := ch.run.map fun r => if r.cmd.thread = t then { r with stop := true } else r }
    jobs := c.jobs.map fun (n, e) =>
      (n, if e.taken && (gone.contains (n + 64 * e.gen.toNat) || (e.move && e.thread = t && e.state = 0)) then
           { e with state := 4 } else e) }
  let s := (List.range 16).foldl (fun s ch =>
    match (s.cluster k).channels.toList.getD ch Channel.reset |>.run with
    | some r => if r.stop then s.schedule 0 (.copyBeat k ch) else s
    | none => s) s
  let ts := s.clusterThreads k
  ((s.kickWaiting .jobWait ts).readyWaiting .channelQueue ts).readyWaiting .matrixQueue ts |>.schedule 1 (.matrixStart k)

/-- A recruited context ends: it is no help of its launch any more, and the slot that it started in is free, at once or,
where it has migrated, when the message of its end comes there (R159). -/
def State.endHelper (s : State) (t : Nat) (u : UnitInfo) : State :=
  match u.duty with
  | .chunk =>
    if u.start = t then (s.modLaunch u.lid fun l => { l with helpers := l.helpers - 1 }).launchCheck u.lid
    else s.schedule (s.pathCycles u.start t) (.migratedUnitStatus u.start
      { lid := u.lid, status := 0, cause := 0, tval := 0, pc := 0, thread := t, ptime := 0 })
  | .record _ _ _ _ _ | .task _ => s

/-- The unit is reported where it is held: at once in its own slot, else by its status's message (R159, R325). -/
def State.reportUnit (s : State) (t : Nat) (u : UnitInfo) (e : UnitEnd) : State :=
  if u.holder = t then s.reportAt t ((Table.get? (s.core (coreOf t)).reserved (slotOf t)).getD u) e
  else s.schedule (s.pathCycles u.holder t) (.migratedUnitStatus u.holder e)

/-- The ended commands of a context that joins stay with its unit (R214, R325). -/
def State.leaveFaults (s : State) (t job g : Nat) : State :=
  s.modCluster (clusterOf (coreOf t)) fun c => { c with jobs := c.jobs.map fun (n, e) =>
    (n, if e.taken && e.thread = t && decide (e.state ≥ 2) then { e with thread := noThread, heir := some (job, g) } else e) }
/-- The unit ends, and the entries of such commands are free: a submission that waits for one goes on. -/
def State.freeFaults (s : State) (job g : Nat) : State :=
  let mine (e : JobEntry) : Bool := e.heir = some (job, g)
  let hit := (s.clusters.filter fun (_, c) => c.jobs.any fun (_, e) => mine e).map (·.1)
  let s := { s with clusters := s.clusters.map fun (k, c) => (k, { c with jobs := c.jobs.map fun (n, e) =>
      (n, if mine e then { JobEntry.reset with gen := e.gen } else e) }) }
  hit.foldl (fun s k => s.readyWaiting .jobTable (s.clusterThreads k)) s

/-- A unit that has forked is reported once: it is open no more, and its forkers' slots are free (R325). -/
def State.closeUnit (s : State) (job g : Nat) (slots : List Nat) (holder : Nat) : State :=
  let s := s.freeFaults job g
  (slots.filter (· ≠ holder)).foldl State.unreserve (s.modJob job fun j => { j with units := Table.del j.units g })

/-- The unit of a context of slot `t` that is gone is reported (R88, R116, R311, R325); FFLAGS counts at an `exit` alone (R310). In
a fork the first abnormal end reports the unit; a later one, and a recruit's own `exit`, report flags alone. -/
def State.reportEnd (s : State) (t : Nat) (c : Ctx) (flags : BitVec 32) (cause tval : Word) (abnormal : Bool) : State :=
  let u := c.unit
  let fl : BitVec 32 := if abnormal then 0 else BitVec.ofNat 32 (c.ctl.fflags.toNat * 2 ^ 24)
  let st := flags ||| fl ||| (if c.efaults = [] then 0 else stEflt)
  let e : UnitEnd :=
    { lid := u.lid, status := st + 1, cause := cause, tval := tval, pc := c.pc, thread := t, ptime := c.ctl.ptime.toNat }
  let s := s.endHelper t u
  match u.group with
  | none => s.reportUnit t u e
  | some g =>
    match Table.get? (s.job c.job).units g with
    | some slots =>
      if u.own || abnormal then (s.closeUnit c.job g slots u.holder).reportUnit t u e
      else s.sendDone (coreOf t) 0 { e with status := st }
    | none => s.sendDone (coreOf t) 0 { e with status := st }

/-- The unit of the current thread ends with a status (R88, R116, R312). -/
def State.endUnit (s : State) (flags : BitVec 32) (cause tval : Word) (abnormal : Bool) : State :=
  ((s.orphan s.cur).freeContext s.cur).reportEnd s.cur s.ctx flags cause tval abnormal

/-! ## Taking a trap and returning from one (R86 to R90) -/

/-- The trap causes of R86. -/
def causeIllegal : Nat := 1
def causePrivilege : Nat := 2
def causeMisaligned : Nat := 3
def causePublication : Nat := 4
def causeFormat : Nat := 5
def causeLane : Nat := 6
def causeStream : Nat := 7
def causeRepeat : Nat := 8
def causeLoop : Nat := 9
def causeAddress : Nat := 10
def causeProtection : Nat := 11
def causeDataLost : Nat := 12
def causeRetry : Nat := 13
def causeEngine : Nat := 14
def causeBreak : Nat := 15
def causeSoftware : Nat := 16

/-- A trap of the current thread (R88): in U mode with the cause delegated the handler is entered, else the unit ends
with status FAULT. The latch is emptied (R87); TEPC is the instruction's PC, which during a repeat is the `rpt`'s
(R190). -/
def State.takeTrap (s : State) (cause : Nat) (value : Word) (async : Bool := false) : State :=
  let c := s.ctx.settled s.cycle
  if c.ctl.mode = 0 && c.ctl.tdeleg.getLsbD cause then
    { s with ctx := { c with
        rep := none, pc := c.ctl.thandler,
        ctl := { c.ctl with
          tepc := c.pc, tcause := BitVec.ofNat 64 (cause + if async then 32 else 0), tval := value, pmode := 0,
          mode := 1 } } }
  else s.endUnit stFault (BitVec.ofNat 64 (cause + if async then 32 else 0)) value true

/-- A trap as a meaning's answer. -/
def trapTo (s : State) (cause : Nat) (value : Word) : Res := .next (s.takeTrap cause value)

/-- The illegal-instruction fault of an operand value (R31, R52). -/
def illegal (s : State) : Res := trapTo s causeIllegal s.word64

/-- The privilege fault (R50). -/
def privileged (s : State) : Res := trapTo s causePrivilege s.word64

/-- The oldest pending engine fault is taken where the thread would issue in U mode (R89, R90). -/
def State.takeEngineFault (s : State) : State :=
  match s.ctx.efaults with
  | j :: js =>
    if s.ctx.ctl.mode = 0 && s.ctx.inst then
      ({ s with ctx := { s.ctx with efaults := js } }).takeTrap causeEngine (BitVec.ofNat 64 j) true
    else s
  | [] => s

/-- The return of R90: the PC, the mode of PMODE, no other register; a repeat restarts by its `rpt` (R190). -/
def State.trapReturn (s : State) (pc : Word) : State :=
  let c := s.ctx.settled s.cycle
  { s with ctx := { c with pc := pc, rep := none, ctl := { c.ctl with mode := c.ctl.pmode } } }

end

end Sys2Proof.Machine
end

