-- ==== Sys2Proof/Machine/Flags.lean ====
section
/-! DEFINITION. The sticky flags and rounding (03_numbers R57 to R78): exact values of every floating-point format,
rounding with its flags, the lane arithmetic, compares, conversions, block floating point, the special functions and
the scalar and integer-lane flag-free arithmetic. A lane's content is a number below 2 to its width. -/
namespace Sys2Proof.Machine

section

/-! ## Flags (R65) -/

def fNV : BitVec 5 := 16
def fDZ : BitVec 5 := 8
def fOF : BitVec 5 := 4
def fUF : BitVec 5 := 2
def fNX : BitVec 5 := 1
def flagIf (b : Bool) (f : BitVec 5) : BitVec 5 := if b then f else 0

/-- The rounding modes of R64. -/
inductive Rnd | rne | rtz | rup | rdn | rna
  deriving DecidableEq, Repr

def Rnd.of (x : BitVec 3) : Rnd :=
  if x = 1 then .rtz else if x = 2 then .rup else if x = 3 then .rdn else if x = 4 then .rna else .rne

/-- Mode, FTZ and SAT in effect for an instruction (R64). -/
structure RMode where
  rnd : Rnd
  ftz : Bool
  sat : Bool
  deriving DecidableEq, Repr

/-- RMODE with the instruction's override: code c selects mode c - 1 (R64). -/
def RMode.of (rmode : BitVec 5) (override : BitVec 3) : RMode :=
  { rnd := Rnd.of (if override = 0 then rmode.extractLsb' 0 3 else override - 1),
    ftz := rmode.getLsbD 4, sat := rmode.getLsbD 3 }

def RMode.rne : RMode := { rnd := .rne, ftz := false, sat := false }

/-! ## Formats (R54, R60, R61) -/

/-- The lane width of a tag (R54); 0 for NONE and BFP. -/
def laneWidth (tag : BitVec 5) : Nat :=
  match tag.toNat with
  | 1 => 8 | 2 => 16 | 3 => 32 | 4 => 64 | 8 => 32 | 9 => 16 | 10 => 16
  | 11 => 8 | 12 => 8 | 13 => 8 | 14 => 8 | 15 => 8 | _ => 0
def lanesOf (tag : BitVec 5) : Nat := if laneWidth tag = 0 then 0 else 512 / laneWidth tag
def intTag (t : BitVec 5) : Bool := 1 ≤ t && t ≤ 4
/-- F32, BF16, F16: the formats of lane arithmetic and FTZ. -/
def arithFloat (t : BitVec 5) : Bool := 8 ≤ t && t ≤ 10
def narrowFloat (t : BitVec 5) : Bool := 11 ≤ t && t ≤ 15
def floatTag (t : BitVec 5) : Bool := 8 ≤ t && t ≤ 15

/-- A floating-point format: bits used, mantissa bits, bias, largest finite code, infinity's code if any, canonical
NaN if any (R60, R63). -/
structure Fmt where
  bits : Nat
  man : Nat
  bias : Nat
  maxFin : Nat
  inf : Option Nat
  nan : Option Nat
  deriving DecidableEq, Repr

def Fmt.f32 : Fmt := { bits := 32, man := 23, bias := 127, maxFin := 0x7F7F_FFFF, inf := some 0x7F80_0000, nan := some 0x7FC0_0000 }
def Fmt.bf16 : Fmt := { bits := 16, man := 7, bias := 127, maxFin := 0x7F7F, inf := some 0x7F80, nan := some 0x7FC0 }
def Fmt.f16 : Fmt := { bits := 16, man := 10, bias := 15, maxFin := 0x7BFF, inf := some 0x7C00, nan := some 0x7E00 }
def Fmt.e4m3 : Fmt := { bits := 8, man := 3, bias := 7, maxFin := 0x7E, inf := none, nan := some 0x7F }
def Fmt.e5m2 : Fmt := { bits := 8, man := 2, bias := 15, maxFin := 0x7B, inf := some 0x7C, nan := some 0x7E }
def Fmt.e3m2 : Fmt := { bits := 6, man := 2, bias := 3, maxFin := 0x1F, inf := none, nan := none }
def Fmt.e2m3 : Fmt := { bits := 6, man := 3, bias := 1, maxFin := 0x1F, inf := none, nan := none }
def Fmt.e2m1 : Fmt := { bits := 4, man := 1, bias := 1, maxFin := 0x7, inf := none, nan := none }

def Fmt.of (tag : BitVec 5) : Fmt :=
  match tag.toNat with
  | 9 => .bf16 | 10 => .f16 | 11 => .e4m3 | 12 => .e5m2 | 13 => .e3m2 | 14 => .e2m3 | 15 => .e2m1 | _ => .f32

/-- The exact value of a code: a NaN, an infinity, or ± m × 2^e. -/
inductive FVal
  | nan (signalling : Bool)
  | inf (neg : Bool)
  | fin (neg : Bool) (m : Nat) (e : Int)
  deriving DecidableEq, Repr

def Fmt.signBit (f : Fmt) : Nat := 2 ^ (f.bits - 1)
/-- A code with a sign. -/
def Fmt.signed (f : Fmt) (neg : Bool) (mag : Nat) : Nat := if neg then f.signBit + mag else mag

/-- Whether the format's NaN can signal (R63): F32, BF16, F16. -/
def Fmt.canSignal (f : Fmt) : Bool := f.bits ≥ 16

/-- The value of a code (R60, R61). -/
def Fmt.decode (f : Fmt) (x : Nat) : FVal :=
  let x := x % 2 ^ f.bits
  let neg := decide (x ≥ f.signBit)
  let mag := x % f.signBit
  if mag > (f.inf.getD f.maxFin) then .nan (f.canSignal && !(mag.testBit (f.man - 1)))
  else if f.inf = some mag then .inf neg
  else
    let ex := mag / 2 ^ f.man
    let m := mag % 2 ^ f.man
    if ex = 0 then .fin neg m (1 - (f.bias : Int) - f.man)
    else .fin neg (m + 2 ^ f.man) ((ex : Int) - f.bias - f.man)

/-- A subnormal code. -/
def Fmt.subnormal (f : Fmt) (x : Nat) : Bool := x % f.signBit ≠ 0 && x % f.signBit < 2 ^ f.man

/-- The value of a code as lane arithmetic reads it: under FTZ a subnormal of F32, BF16 or F16 is zero (R64). -/
def Fmt.read (f : Fmt) (md : RMode) (x : Nat) : FVal :=
  if md.ftz && f.canSignal && f.subnormal (x % 2 ^ f.bits) then .fin (decide (x % 2 ^ f.bits ≥ f.signBit)) 0 0
  else f.decode x

/-- Whether a magnitude between `r` and `r + 1` rounds up: `twice` compares twice the rest with the unit. -/
def roundsUp (rnd : Rnd) (neg : Bool) (r : Nat) (twice : Ordering) (inexact : Bool) : Bool :=
  inexact && match rnd with
    | .rne => twice = .gt || (twice = .eq && r % 2 = 1)
    | .rtz => false
    | .rup => !neg
    | .rdn => neg
    | .rna => twice = .gt || twice = .eq

def bitLength (m : Nat) : Nat := if m = 0 then 0 else Nat.log2 m + 1

/-- m × 2^e with a sticky rest below one unit of m, divided by 2^q, as an integer rounded by the mode, and whether it
was inexact. -/
def roundInt (rnd : Rnd) (neg : Bool) (m : Nat) (e q : Int) (sticky : Bool) : Nat × Bool :=
  if e ≥ q then (m * 2 ^ (e - q).toNat, sticky)
  else
    let s := (q - e).toNat
    let r := m / 2 ^ s
    let rest := m % 2 ^ s
    let inexact := sticky || decide (rest ≠ 0)
    let twice : Ordering :=
      if 2 * rest > 2 ^ s then .gt else if 2 * rest = 2 ^ s then (if sticky then .gt else .eq) else .lt
    (if roundsUp rnd neg r twice inexact then r + 1 else r, inexact)

/-- The IEEE 754 overflow result of a mode (R66), as a magnitude. -/
def Fmt.overflow (f : Fmt) (rnd : Rnd) (neg : Bool) : Nat :=
  match f.inf with
  | none => f.maxFin
  | some i =>
    match rnd with
    | .rne | .rna => i
    | .rtz => f.maxFin
    | .rup => if neg then f.maxFin else i
    | .rdn => if neg then i else f.maxFin

/-- Rounds ± m × 2^e (with a sticky rest) into the format (R66, R67), with its flags. `ieee` takes tininess as IEEE
754 does for arithmetic, after rounding with an unbounded exponent; a conversion takes it from the result (R67). -/
def Fmt.round (f : Fmt) (md : RMode) (ieee neg : Bool) (m : Nat) (e : Int) (sticky : Bool) : Nat × BitVec 5 :=
  if m = 0 && !sticky then (f.signed neg 0, 0)
  else
    let top : Int := e + bitLength m - 1
    let emin : Int := 1 - (f.bias : Int)
    let q : Int := max (top - f.man) (emin - f.man)
    let (r, inexact) := roundInt md.rnd neg m e q sticky
    let mag : Nat := if r < 2 ^ f.man then r else ((q + f.man + f.bias).toNat) * 2 ^ f.man + (r - 2 ^ f.man)
    if mag > f.maxFin then (f.signed neg (f.overflow md.rnd neg), fOF ||| fNX)
    else
      let small : Bool :=
        if ieee then
          let (r', _) := roundInt md.rnd neg m e (top - f.man) sticky
          decide (top < emin) && !(decide (top + 1 = emin) && decide (r' = 2 ^ (f.man + 1)))
        else decide (mag < 2 ^ f.man)
      if md.ftz && f.canSignal && decide (mag ≠ 0) && decide (mag < 2 ^ f.man) then (f.signed neg 0, fUF ||| fNX)
      else (f.signed neg mag, flagIf inexact fNX ||| flagIf (inexact && small) fUF)

/-- The canonical NaN (R63). -/
def Fmt.canon (f : Fmt) : Nat := f.nan.getD f.maxFin

/-! ## Lane arithmetic (R66) -/

/-- NV if any operand signals. -/
def snanFlag (vs : List FVal) : BitVec 5 := flagIf (vs.any fun v => v = .nan true) fNV
def FVal.isNan : FVal → Bool
  | .nan _ => true
  | _ => false
def FVal.neg : FVal → FVal
  | .nan s => .nan s
  | .inf n => .inf (!n)
  | .fin n m e => .fin (!n) m e

/-- The exact sum of two finite values, with the sign of an exact zero by the mode. -/
def addExact (rnd : Rnd) (n₁ : Bool) (m₁ : Nat) (e₁ : Int) (n₂ : Bool) (m₂ : Nat) (e₂ : Int) : Bool × Nat × Int :=
  let e := min e₁ e₂
  let a : Int := (if n₁ then -1 else 1) * ((m₁ * 2 ^ (e₁ - e).toNat : Nat) : Int)
  let b : Int := (if n₂ then -1 else 1) * ((m₂ * 2 ^ (e₂ - e).toNat : Nat) : Int)
  let c := a + b
  if c = 0 then ((if n₁ = n₂ then n₁ else decide (rnd = .rdn)), 0, 0)
  else (decide (c < 0), c.natAbs, e)

/-- Adds two values (R66). -/
def Fmt.addV (f : Fmt) (md : RMode) (x y : FVal) : Nat × BitVec 5 :=
  match x, y with
  | .nan _, _ => (f.canon, snanFlag [x, y])
  | _, .nan _ => (f.canon, snanFlag [x, y])
  | .inf a, .inf b => if a = b then (f.signed a (f.inf.getD f.maxFin), 0) else (f.canon, fNV)
  | .inf a, .fin .. => (f.signed a (f.inf.getD f.maxFin), 0)
  | .fin .., .inf b => (f.signed b (f.inf.getD f.maxFin), 0)
  | .fin n₁ m₁ e₁, .fin n₂ m₂ e₂ =>
    let (n, m, e) := addExact md.rnd n₁ m₁ e₁ n₂ m₂ e₂
    f.round md true n m e false

def Fmt.add (f : Fmt) (md : RMode) (x y : Nat) : Nat × BitVec 5 := f.addV md (f.read md x) (f.read md y)
def Fmt.sub (f : Fmt) (md : RMode) (x y : Nat) : Nat × BitVec 5 := f.addV md (f.read md x) (f.read md y).neg

def Fmt.mul (f : Fmt) (md : RMode) (x y : Nat) : Nat × BitVec 5 :=
  let a := f.read md x
  let b := f.read md y
  match a, b with
  | .nan _, _ => (f.canon, snanFlag [a, b])
  | _, .nan _ => (f.canon, snanFlag [a, b])
  | .inf s, .inf t => (f.signed (s != t) (f.inf.getD f.maxFin), 0)
  | .inf s, .fin t m _ => if m = 0 then (f.canon, fNV) else (f.signed (s != t) (f.inf.getD f.maxFin), 0)
  | .fin t m _, .inf s => if m = 0 then (f.canon, fNV) else (f.signed (s != t) (f.inf.getD f.maxFin), 0)
  | .fin s m e, .fin t n g => f.round md true (s != t) (m * n) (e + g) false

/-- A quotient of magnitudes with 80 more bits than the integer quotient, and a sticky rest. -/
def quotient (m n : Nat) : Nat × Bool := (m * 2 ^ 80 / n, decide (m * 2 ^ 80 % n ≠ 0))

def Fmt.div (f : Fmt) (md : RMode) (x y : Nat) : Nat × BitVec 5 :=
  let a := f.read md x
  let b := f.read md y
  match a, b with
  | .nan _, _ => (f.canon, snanFlag [a, b])
  | _, .nan _ => (f.canon, snanFlag [a, b])
  | .inf _, .inf _ => (f.canon, fNV)
  | .inf s, .fin t _ _ => (f.signed (s != t) (f.inf.getD f.maxFin), 0)
  | .fin s _ _, .inf t => (f.signed (s != t) 0, 0)
  | .fin s m e, .fin t n g =>
    if n = 0 then (if m = 0 then (f.canon, fNV) else (f.signed (s != t) (f.inf.getD f.maxFin), fDZ))
    else
      let (q, r) := quotient m n
      f.round md true (s != t) q (e - g - 80) r

/-- ± x × y + z rounded once; an invalid product gives NV and the canonical NaN even with a NaN addend (R66). -/
def Fmt.fma (f : Fmt) (md : RMode) (negP negZ : Bool) (x y z : Nat) : Nat × BitVec 5 :=
  let a := if negP then (f.read md x).neg else f.read md x
  let b := f.read md y
  let c := if negZ then (f.read md z).neg else f.read md z
  let zero (v : FVal) : Bool := match v with | .fin _ m _ => m = 0 | _ => false
  let isInf (v : FVal) : Bool := match v with | .inf _ => true | _ => false
  if (isInf a && zero b) || (zero a && isInf b) then (f.canon, fNV)
  else match a, b with
    | .nan _, _ => (f.canon, snanFlag [a, b, c])
    | _, .nan _ => (f.canon, snanFlag [a, b, c])
    | .inf s, .inf t => match c with
      | .nan _ => (f.canon, snanFlag [c])
      | _ => f.addV md (.inf (s != t)) c
    | .inf s, .fin t _ _ => match c with
      | .nan _ => (f.canon, snanFlag [c])
      | _ => f.addV md (.inf (s != t)) c
    | .fin t _ _, .inf s => match c with
      | .nan _ => (f.canon, snanFlag [c])
      | _ => f.addV md (.inf (s != t)) c
    | .fin s m e, .fin t n g => f.addV md (.fin (s != t) (m * n) (e + g)) c

/-- The integer square root, bit by bit from bit `k - 1`. -/
def isqrtGo (x : Nat) : Nat → Nat → Nat
  | 0, r => r
  | k + 1, r => isqrtGo x k (if (r + 2 ^ k) * (r + 2 ^ k) ≤ x then r + 2 ^ k else r)

/-- The square root of m × 2^e as digits, exponent and sticky rest. -/
def sqrtExact (m : Nat) (e : Int) : Nat × Int × Bool :=
  let (m, e) := if e % 2 = 0 then (m, e) else (2 * m, e - 1)
  let x := m * 2 ^ 100
  let r := isqrtGo x 80 0
  (r, e / 2 - 50, decide (r * r ≠ x))

def Fmt.sqrt (f : Fmt) (md : RMode) (x : Nat) : Nat × BitVec 5 :=
  match f.read md x with
  | .nan s => (f.canon, flagIf s fNV)
  | .inf true => (f.canon, fNV)
  | .inf false => (f.inf.getD f.maxFin, 0)
  | .fin n m e =>
    if m = 0 then (f.signed n 0, 0) else if n then (f.canon, fNV)
    else
      let (r, g, st) := sqrtExact m e
      f.round md true false r g st

/-- The order of two values that are not NaN, -0 below +0 if `zeros`. -/
def FVal.lt (zeros : Bool) (x y : FVal) : Bool :=
  let key (v : FVal) : Int × Bool := match v with
    | .nan _ => (0, false)
    | .inf n => ((if n then -1 else 1) * ((2 ^ 600 : Nat) : Int), n)
    | .fin n m e => ((if n then -1 else 1) * ((m * 2 ^ (e + 300).toNat : Nat) : Int), n)
  let (a, na) := key x
  let (b, nb) := key y
  decide (a < b) || (zeros && decide (a = b) && na && !nb)
def FVal.eq (x y : FVal) : Bool := !(x.lt false y) && !(y.lt false x)

/-- `vmin`, `vmax` (R66). -/
def Fmt.minmax (f : Fmt) (md : RMode) (isMax : Bool) (x y : Nat) : Nat × BitVec 5 :=
  let a := f.read md x
  let b := f.read md y
  let flush (v : FVal) (c : Nat) : Nat := match v with | .fin n 0 _ => f.signed n 0 | _ => c
  let fl := snanFlag [a, b]
  if a.isNan && b.isNan then (f.canon, fl)
  else if a.isNan then (flush b y, fl)
  else if b.isNan then (flush a x, fl)
  else if (a.lt true b) != isMax then (flush a x, fl) else (flush b y, fl)

/-- The compares of R166 in the order eq, ne, lt, le, gt, ge. -/
inductive Cmp | eq | ne | lt | le | gt | ge
  deriving DecidableEq, Repr

def Fmt.cmp (f : Fmt) (md : RMode) (c : Cmp) (x y : Nat) : Bool × BitVec 5 :=
  let a := f.read md x
  let b := f.read md y
  let anyNan := a.isNan || b.isNan
  let fl := match c with
    | .eq | .ne => snanFlag [a, b]
    | _ => flagIf anyNan fNV
  let r := match c with
    | .eq => !anyNan && a.eq b
    | .ne => anyNan || !(a.eq b)
    | .lt => !anyNan && a.lt false b
    | .le => !anyNan && !(b.lt false a)
    | .gt => !anyNan && b.lt false a
    | .ge => !anyNan && !(a.lt false b)
  (r, fl)

/-! ## Conversions (R59, R67) -/

/-- To a floating-point format; `src` says whether FTZ reads the source's subnormals as zero (R67). -/
def Fmt.convert (f : Fmt) (md : RMode) (x : FVal) : Nat × BitVec 5 :=
  match x with
  | .nan s =>
    match f.nan with
    | some c => (c, flagIf s fNV)
    | none => (f.maxFin, fNV)
  | .inf n =>
    match f.inf with
    | some i => (f.signed n i, 0)
    | none => (f.signed n f.maxFin, fOF)
  | .fin n m e => f.round md false n m e false

/-- The sign of a NaN with no code in the target (R67): the largest finite carries it. -/
def Fmt.convertCode (src f : Fmt) (md : RMode) (x : Nat) : Nat × BitVec 5 :=
  let (r, fl) := f.convert md (src.read md x)
  if (src.decode x).isNan && f.nan = none then (f.signed (decide (x % 2 ^ src.bits ≥ src.signBit)) r, fl) else (r, fl)

/-- An integer source to a floating-point format (R67). -/
def Fmt.ofInt (f : Fmt) (md : RMode) (x : Int) : Nat × BitVec 5 := f.round md false (decide (x < 0)) x.natAbs 0 false

/-- Two's-complement reading of a lane. -/
def laneInt (w : Nat) (unsigned : Bool) (x : Nat) : Int :=
  if unsigned || x < 2 ^ (w - 1) then (x : Int) else (x : Int) - ((2 ^ w : Nat) : Int)
/-- The lane of an integer, modulo 2^w. -/
def intLane (w : Nat) (x : Int) : Nat := (x % ((2 ^ w : Nat) : Int)).toNat
def intMin (w : Nat) (unsigned : Bool) : Int := if unsigned then 0 else -((2 ^ (w - 1) : Nat) : Int)
def intMax (w : Nat) (unsigned : Bool) : Int :=
  if unsigned then ((2 ^ w : Nat) : Int) - 1 else ((2 ^ (w - 1) : Nat) : Int) - 1

/-- A floating-point value to an integer lane of width w (R59): rounded, saturated, NV outside the range. -/
def floatToInt (md : RMode) (w : Nat) (unsigned : Bool) (x : FVal) : Nat × BitVec 5 :=
  match x with
  | .nan _ => (0, fNV)
  | .inf n => (intLane w (if n then intMin w unsigned else intMax w unsigned), fNV)
  | .fin n m e =>
    let (r, inexact) := roundInt md.rnd n m e 0 false
    let y : Int := if n then -(r : Int) else r
    if y < intMin w unsigned then (intLane w (intMin w unsigned), fNV)
    else if y > intMax w unsigned then (intLane w (intMax w unsigned), fNV)
    else (intLane w y, flagIf inexact fNX)

/-- An integer lane to an integer lane (R59): the low bits, or saturated under SAT when narrowing. -/
def intToInt (md : RMode) (w v : Nat) (unsigned : Bool) (x : Nat) : Nat :=
  let y := laneInt w unsigned x
  if v < w && md.sat then intLane v (max (intMin v unsigned) (min (intMax v unsigned) y)) else intLane v y

/-! ## Block floating point (R68 to R72) -/

/-- Blocks of a BFPn register (R69). -/
def bfpBlocks (n : Nat) : Nat := 16 / n
/-- The mantissa's two's-complement value. -/
def bfpMant (n : Nat) (x : Nat) : Int := laneInt n false x

/-- The integer of a finite value scaled by 2^s, rounded by the mode. -/
def scaledInt (rnd : Rnd) (x : FVal) (s : Int) : Int :=
  match x with
  | .fin n m e => let (r, _) := roundInt rnd n m (e + s) 0 false
                  if n then -(r : Int) else r
  | _ => 0

/-- floor(log2) of the largest finite magnitude of the list; none if all are zero. -/
def maxLog (xs : List FVal) : Option Int :=
  xs.foldl (fun acc x => match x with
    | .fin _ m e => if m = 0 then acc else
        let t : Int := e + bitLength m - 1
        some (match acc with | none => t | some a => max a t)
    | _ => acc) none

/-- One BFPn block of 32 values (R71): exponent byte, mantissas, flags. -/
def toBfp (rnd : Rnd) (n : Nat) (xs : List FVal) : Nat × List Nat × BitVec 5 :=
  if xs.any FVal.isNan then (0xFF, xs.map fun _ => 0, snanFlag xs)
  else
    let anyInf := xs.any fun x => match x with | .inf _ => true | _ => false
    match maxLog xs, anyInf with
    | none, false => (0, xs.map fun _ => 0, 0)
    | a, _ =>
      let e₀ : Int := match a with | none => 127 | some t => max t (-127)
      let lim : Int := ((2 ^ (n - 1) : Nat) : Int)
      let mants (e : Int) : List Int := xs.map fun x => scaledInt rnd x ((n : Int) - 2 - e)
      let wider := (mants e₀).any fun m => decide (m > lim - 1)
      let e₁ := if wider then e₀ + 1 else e₀
      let top := decide (e₁ > 127)
      let e₂ : Int := if top then 127 else e₁
      let ms₁ := mants e₁
      let ms₂ := if top then ms₁.map fun m => max (-lim) (min (lim - 1) (2 * m)) else ms₁
      let ms := (xs.zip ms₂).map fun (x, m) => match x with
        | .inf neg => if neg then -lim else lim - 1
        | _ => m
      let exact (p : FVal × Int) : Bool := match p.1 with
        | .fin s m e =>
          let d : Int := e₂ - ((n : Int) - 2)
          let lo := min e d
          decide ((if s then -1 else 1) * ((m * 2 ^ (e - lo).toNat : Nat) : Int) = p.2 * ((2 ^ (d - lo).toNat : Nat) : Int))
        | _ => true
      let lost (p : FVal × Int) : Bool := match p.1 with
        | .fin _ m _ => decide (m ≠ 0) && decide (p.2 = 0)
        | _ => false
      let prs := xs.zip ms
      ((e₂ + 127).toNat, ms.map (intLane n),
        flagIf (top || anyInf) fOF ||| flagIf (prs.any fun p => !(exact p)) fNX ||| flagIf (prs.any lost) fUF)

/-- An element of a block as an exact value (R68). -/
def bfpValue (n E x : Nat) : FVal :=
  if E = 0xFF then .nan false
  else
    let m := bfpMant n x
    .fin (decide (m < 0)) m.natAbs ((E : Int) - 127 - ((n : Int) - 2))

/-- An element to F32 (R72): exact, but for -2^128, which becomes minus infinity with OF and NX. -/
def bfpToF32 (ftz : Bool) (n E x : Nat) : Nat × BitVec 5 :=
  match bfpValue n E x with
  | .fin neg m e =>
    let (r, fl) := Fmt.f32.round { rnd := .rne, ftz := ftz, sat := false } false neg m e false
    if m = 0 then (0, 0) else (r, fl)
  | v => Fmt.f32.convert RMode.rne v

/-! ## Special functions (R73, R74) -/

/-- 2^f for a fixed-point fraction f of 128 bits, with 128 fraction bits, by square roots of 2 for each bit. -/
def exp2Go (f : Nat) : Nat → Nat → Nat → Nat
  | 0, _, acc => acc
  | k + 1, root, acc =>
    let root := isqrtGo (root * 2 ^ 128) 130 0
    exp2Go f k root (if f.testBit k then acc * root / 2 ^ 128 else acc)

/-- 2^(f / 2^128) as a number with 128 fraction bits, in [1, 2]. The error is below 2^-100. -/
def exp2Frac (f : Nat) : Nat :=
  -- bit 127 of f stands for 2^(1/2): the root taken first
  exp2Go f 128 (2 ^ 129) (2 ^ 128)

/-- log2 of m / 2^128 in [1, 2), with 100 fraction bits, by repeated squaring. -/
def log2Go : Nat → Nat → Nat → Nat
  | 0, _, acc => acc
  | k + 1, m, acc =>
    let s := m * m / 2 ^ 128
    if s ≥ 2 ^ 129 then log2Go k (s / 2) (acc + 2 ^ k) else log2Go k s acc

/-- Keeps a free value where it lies within `ulps` of the inexact result a × 2^e (cut below its last digit), and
otherwise takes the correctly rounded result (R73). Overflow and underflow are those of rounding. -/
def Fmt.within (f : Fmt) (md : RMode) (neg : Bool) (a : Nat) (e : Int) (ulps : Nat) (free : Nat) : Nat × BitVec 5 :=
  let (r, fl) := f.round md true neg a e true
  let lo := f.round { md with rnd := .rtz, ftz := false } true neg a e true
  let t := lo.1 % f.signBit
  let c := free % 2 ^ f.bits
  let cm := c % f.signBit
  if fl &&& fOF ≠ 0 || cm > f.maxFin then (r, fl)
  else if decide (c ≥ f.signBit) = neg && decide (cm ≤ t + ulps) && decide (t < cm + ulps) then
    if md.ftz && f.canSignal && decide (cm < 2 ^ f.man) then (f.signed neg 0, fUF ||| fNX)
    else (f.signed neg cm, fNX ||| flagIf (decide (cm < 2 ^ f.man)) fUF)
  else (r, fl)

/-- 1 / x (R73, R74): correctly rounded for BF16 and F16; for F32 a free value within one unit in the last place. -/
def rcpLane (tag : BitVec 5) (md : RMode) (code : BitVec 3) (x : Nat) : Nat × BitVec 5 :=
  let f := Fmt.of tag
  match f.read md x with
  | .nan s => (f.canon, flagIf s fNV)
  | .inf n => (f.signed n 0, 0)
  | .fin n m e =>
    if m = 0 then (f.signed n (f.inf.getD f.maxFin), fDZ)
    else
      let (q, r) := quotient 1 m
      if tag = 8 && r then f.within md n q (-e - 80) 1 (Config.rcpF32 (BitVec.ofNat 32 x) code).toNat
      else f.round md true n q (-e - 80) r

/-- 1 / sqrt(x) (R73, R74). -/
def rsqLane (tag : BitVec 5) (md : RMode) (code : BitVec 3) (x : Nat) : Nat × BitVec 5 :=
  let f := Fmt.of tag
  match f.read md x with
  | .nan s => (f.canon, flagIf s fNV)
  | .inf true => (f.canon, fNV)
  | .inf false => (0, 0)
  | .fin n m e =>
    if m = 0 then (f.signed n (f.inf.getD f.maxFin), fDZ)
    else if n then (f.canon, fNV)
    else
      let (m, e) := if e % 2 = 0 then (m, e) else (2 * m, e - 1)
      let x₂ := 2 ^ 240 / m
      let r := isqrtGo x₂ 122 0
      let st := decide (r * r * m ≠ 2 ^ 240)
      if tag = 8 && st then f.within md false r (-(e / 2) - 120) 1 (Config.rsqF32 (BitVec.ofNat 32 x) code).toNat
      else f.round md true false r (-(e / 2) - 120) st

/-- 2^x (R73, R74). A result of at most half the smallest subnormal underflows to zero, in every mode. -/
def exp2Lane (tag : BitVec 5) (md : RMode) (code : BitVec 3) (x : Nat) : Nat × BitVec 5 :=
  let f := Fmt.of tag
  match f.read md x with
  | .nan s => (f.canon, flagIf s fNV)
  | .inf true => (0, 0)
  | .inf false => (f.inf.getD f.maxFin, 0)
  | .fin n m e =>
    if m = 0 then f.round md true false 1 0 false
    else
      -- x as a fixed-point number with 256 fraction bits: beyond 2^12 only overflow or underflow is left
      let big := decide (e + bitLength m > 12)
      let fx : Int := (if n then -1 else 1) * ((if e + 256 ≥ 0 then m * 2 ^ (e + 256).toNat else 1 : Nat) : Int)
      let ip : Int := if big then (if n then -4096 else 4096) else fx / ((2 ^ 256 : Nat) : Int)
      let fr : Nat := if big then 1 else (fx % ((2 ^ 256 : Nat) : Int)).toNat
      let least : Int := 1 - (f.bias : Int) - f.man
      if ip < least - 1 || (ip = least - 1 && fr = 0) then (0, fUF ||| fNX)
      else if fr = 0 then f.round md true false 1 ip false
      else
        f.within md false (exp2Frac (fr / 2 ^ 128)) (ip - 128) (if tag = 8 then 2 else 1)
          (Config.exp2 tag (BitVec.ofNat 32 x) code).toNat

/-- log2(x) (R73, R74). -/
def log2Lane (tag : BitVec 5) (md : RMode) (code : BitVec 3) (x : Nat) : Nat × BitVec 5 :=
  let f := Fmt.of tag
  match f.read md x with
  | .nan s => (f.canon, flagIf s fNV)
  | .inf true => (f.canon, fNV)
  | .inf false => (f.inf.getD f.maxFin, 0)
  | .fin n m e =>
    if m = 0 then (f.signed true (f.inf.getD f.maxFin), fDZ)
    else if n then (f.canon, fNV)
    else
      let l := bitLength m
      let ip : Int := e + l - 1
      if m = 2 ^ (l - 1) then (let r := f.ofInt md ip; (r.1, r.2))
      else
        let fr := log2Go 100 (m * 2 ^ (129 - l)) 0
        let v : Int := ip * ((2 ^ 100 : Nat) : Int) + fr
        f.within md (decide (v < 0)) v.natAbs (-100) (if tag = 8 then 2 else 1)
          (Config.log2 tag (BitVec.ofNat 32 x) code).toNat

/-- log2(e) with 128 fraction bits. -/
def log2e : Nat := 490923683258796565746369346286093237521

/-- tanh(x) (R73, R74). -/
def tanhLane (tag : BitVec 5) (md : RMode) (code : BitVec 3) (x : Nat) : Nat × BitVec 5 :=
  let f := Fmt.of tag
  match f.read md x with
  | .nan s => (f.canon, flagIf s fNV)
  | .inf n => f.round md true n 1 0 false
  | .fin n m e =>
    if m = 0 then (f.signed n 0, 0)
    else
      let free := (Config.tanh tag (BitVec.ofNat 32 x) code).toNat
      let ulps := if tag = 8 then 3 else 1
      let top : Int := e + bitLength m - 1
      if top ≥ 6 then f.within md n (2 ^ 128 - 1) (-128) ulps free
      else if top < -14 then
        -- x - x^3 / 3, the rest below 2^-60 of it
        let a := m * 2 ^ 100
        let c := m * m * m * 2 ^ 100 / 3 / 2 ^ (-(2 * e)).toNat
        f.within md n (a - c - 1) (e - 100) ulps free
      else
        -- y = 2 x log2(e) with 128 fraction bits; tanh = (2^y - 1) / (2^y + 1)
        let y := m * log2e * 2 / 2 ^ (-e).toNat
        let w := exp2Frac (y % 2 ^ 128) * 2 ^ (y / 2 ^ 128)
        f.within md n ((w - 2 ^ 128) * 2 ^ 128 / (w + 2 ^ 128)) (-128) ulps free

/-! ## Fixed orders of summation (R75 to R78) -/

/-- One level of the pairwise tree, flags gathered. -/
def treeLevel (op : Nat → Nat → Nat × BitVec 5) : List Nat → List Nat × BitVec 5
  | a :: b :: rest =>
    let (r, f) := op a b
    let (rs, g) := treeLevel op rest
    (r :: rs, f ||| g)
  | l => (l, 0)

/-- The pairwise tree of R75. -/
def treeSum (op : Nat → Nat → Nat × BitVec 5) : Nat → List Nat → Nat × BitVec 5
  | 0, l => (l.headD 0, 0)
  | k + 1, l =>
    match l with
    | [] => (0, 0)
    | [a] => (a, 0)
    | _ =>
      let (l', f) := treeLevel op l
      let (r, g) := treeSum op k l'
      (r, f ||| g)

/-- F32 addition, RNE, no flags (R77, R78). -/
def addF32 (x y : Nat) : Nat := (Fmt.f32.add RMode.rne x y).1

/-- An exact integer times a power of two to binary32, RNE, no flags (R77). -/
def scaleF32 (x : Int) (e : Int) : Nat := (Fmt.f32.round RMode.rne false (decide (x < 0)) x.natAbs e false).1

end

end Sys2Proof.Machine
end

