-- ==== Sys2Proof/Machine/Operands.lean ====
section
/-! DEFINITION. The operand forms: presence of sources (R81), immediates, addresses (R32, R117), guards and lanes
(R17, R79, R162), v-registers with the streams bound over them (R184, R185). -/
namespace Sys2Proof.Machine

section

/-! ## Scalar sources (R81) -/

def Regs.hasG (x : Regs) (r : GReg) : Bool := r = 0 || x.gPres.getLsbD r.val
def State.hasG (s : State) (rs : List GReg) : Bool := rs.all fun r => s.ctx.regs.hasG r
/-- Some source is tainted (R82). -/
def State.anyTaint (s : State) (rs : List GReg) : Bool := rs.any fun r => s.taint r

/-- An absent source parks the instruction, not ready on message (R81). -/
def withG (rs : List GReg) (s : State) (k : Res) : Res := if s.hasG rs then k else .next (s.parkAbsent rs [])

/-- A signed immediate widened to a register (R26). -/
def simm {w : Nat} (x : BitVec w) : Word := x.signExtend 64

/-- A displacement counted in 4-byte units (R13, R105). -/
def disp4 {w : Nat} (x : BitVec w) : Word := simm x * 4

/-- The effective address: base plus scaled index plus displacement; one of the last two is zero (R32). -/
def State.ea (s : State) (a b : GReg) (scale : BitVec 2) (disp : Word) : Word :=
  s.g a + (s.g b <<< scale.toNat) + disp

/-! ## What an address selects (R117) -/

inductive Target
  | global (va : Nat)
  | ls (core off : Nat)
  | weight (c off : Nat)
  | none
  deriving DecidableEq, Repr

/-- The target of an address formed on core `core` (R117, R340). -/
def targetOf (core : Nat) (a : Word) : Target :=
  let n := a.toNat
  if n < 2 ^ 55 then .global n
  else if n ≥ 0xFFFF_FFFF_FFF0_0000 then .ls core (n - 0xFFFF_FFFF_FFF0_0000)
  else if 0xFF00_0000_0000_0000 ≤ n && n < 0xFF00_0000_8000_0000 then
    .ls ((n - 0xFF00_0000_0000_0000) / 2 ^ 19) ((n - 0xFF00_0000_0000_0000) % 2 ^ 19)
  else if 0xFE00_0000_0000_0000 ≤ n && n < 0xFE00_0000_8000_0000 then
    .weight ((n - 0xFE00_0000_0000_0000) / 2 ^ 22) ((n - 0xFE00_0000_0000_0000) % 2 ^ 22)
  else .none

/-- `n` bytes in one local store bound to the job: the address and protection faults in the order of R118. -/
def State.localSpan (s : State) (a : Word) (n : Nat) : Except Nat (Nat × Nat) :=
  match targetOf s.myCore a with
  | .ls core off =>
    if off + n > s.lsSize core then .error causeAddress
    else if s.boundTo core s.ctx.job then .ok (core, off) else .error causeProtection
  | _ => .error causeAddress

/-! ## Lanes and guards (R54, R79, R162) -/

def laneAt (x : VReg) (w i : Nat) : Nat := x.bits.toNat / 2 ^ (w * i) % 2 ^ w
/-- The lanes of a register of lane width w. -/
def lanesIn (x : VReg) (w : Nat) : List Nat := (List.range (512 / w)).map fun i => laneAt x w i
/-- Lanes of width w, lane 0 lowest. -/
def packLanes (w : Nat) : List Nat → Nat
  | [] => 0
  | x :: xs => x % 2 ^ w + 2 ^ w * packLanes w xs
def lineOfLanes (w : Nat) (xs : List Nat) : Line := BitVec.ofNat 512 (packLanes w xs)

/-- Lane i is active under the guard and `.s` (R17, R79). -/
def State.active (s : State) (m : VMod) (i : Nat) : Bool := (s.p m.pg).getLsbD i && (!m.s || i = 0)

/-- Active lanes take the new value, the others keep what the destination holds there (R162). -/
def State.mergeLanes (s : State) (m : VMod) (d : VIdx) (w : Nat) (xs : List Nat) : Line :=
  lineOfLanes w ((List.range xs.length).map fun i => if s.active m i then xs.getD i 0 else laneAt (s.v d) w i)

/-! ## Streams over v28 to v31 (R182 to R185) -/

def streamNo (r : VIdx) : Option (Fin 4) := if r.val ≥ 28 then some ⟨(r.val - 28) % 4, by omega⟩ else none
/-- The stream bound at a register's number. -/
def State.streamAt (s : State) (r : VIdx) : Option (Fin 4 × Stream) :=
  match streamNo r with
  | none => none
  | some k => (s.ctx.streams[k]).map fun st => (k, st)
def Stream.units (st : Stream) : Nat := st.c0.toNat * st.c1.toNat * st.c2.toNat
/-- The address of unit u (R182). -/
def Stream.addr (st : Stream) (u : Nat) : Word :=
  let i0 := u % st.c0.toNat
  let i1 := u / st.c0.toNat % st.c1.toNat
  let i2 := u / (st.c0.toNat * st.c1.toNat)
  st.base + BitVec.ofNat 64 i0 * st.s0 + BitVec.ofNat 64 i1 * st.s1 + BitVec.ofNat 64 i2 * st.s2
def State.setStream (s : State) (k : Fin 4) (st : Option Stream) : State :=
  s.modCtx fun c => { c with streams := c.streams.set k st }

/-- A source v-register is present, or a stream stands over it (R184). -/
def State.hasV (s : State) (rs : List VIdx) : Bool :=
  rs.all fun r => (s.streamAt r).isSome || s.ctx.regs.vPres.getLsbD r.val

/-- Absent g- or v-sources park the instruction (R81). -/
def withGV (gs : List GReg) (vs : List VIdx) (s : State) (k : Res) : Res :=
  if s.hasG gs && s.hasV vs then k else .next (s.parkAbsent gs (vs.filter fun r => (s.streamAt r).isNone))

/-- The tag a source is read with. -/
def State.tagOf (s : State) (r : VIdx) : BitVec 5 :=
  match s.streamAt r with
  | some (_, st) => st.tag
  | none => (s.v r).tag

/-- TVAL of a format fault: the tags of A, B, C and of D or a result (R55). -/
def tagsVal (a b c d : BitVec 5) : Word :=
  BitVec.ofNat 64 (a.toNat + b.toNat * 2 ^ 8 + c.toNat * 2 ^ 16 + d.toNat * 2 ^ 24)

/-- What reading a v-source gives: a value, or what the instruction does instead (R184, R185). -/
inductive VGot
  | val (x : VReg)
  | stop (r : Res)

def State.readV (s : State) (r : VIdx) : VGot :=
  match s.streamAt r with
  | none => .val (s.v r)
  | some (k, st) =>
    if st.write then .stop (illegal s)
    else if st.next ≥ st.units then
      (if st.zero then .val { bits := 0, tag := st.tag, side := 0 }
       else .stop (trapTo s causeStream (BitVec.ofNat 64 k.val)))
    else match st.buf with
      | .data x :: _ => .val { bits := x, tag := st.tag, side := 0 }
      | .faulted c a :: _ => .stop (trapTo (s.setStream k (some { st with buf := [.raised], got := [], pend := [] })) c a)
      | .raised :: _ =>
        -- the reissue fetches the unit again (R185)
        .stop (.next (((s.setStream k (some { st with buf := [] })).park .stream).schedule 0 (.streamFill s.cur k)))
      | .parked a :: _ => .stop (.next ((s.park .page).modCtx fun c => { c with absent := [a] }))
      | .asked :: _ | .travels _ :: _ | .comes _ _ :: _ | [] => .stop (.next (s.park .stream))

/-- Every source's value in order. -/
def fetchV (s : State) : List VIdx → (List VReg → Res) → Res
  | [], k => k []
  | r :: rs, k =>
    match s.readV r with
    | .stop x => x
    | .val x => fetchV s rs fun xs => k (x :: xs)

/-- The streams read by a completed instruction lose their unit, once each (R184), and fetch ahead. -/
def State.popOne (s : State) (r : VIdx) : State :=
  match s.streamAt r with
  | some (k, st) =>
    if st.write || decide (st.next ≥ st.units) then s
    else (s.setStream k (some { st with next := st.next + 1, buf := st.buf.drop 1 })).schedule 1 (.streamFill s.cur k)
  | none => s
def State.popAll (s : State) (rs : List VIdx) : State := rs.eraseDups.foldl State.popOne s

end

end Sys2Proof.Machine
end

