-- ==== Sys2Proof/Machine/Translate.lean ====
section
/-! DEFINITION. Translation and rights (19_package R341 to R349), the physical place of a line (R280, R354, R396), and
the path of a request to home (R268, R269, R401). -/
namespace Sys2Proof.Machine

section

/-! ## Leaves (R342, R343) -/

def leafValid (l : Word) : Bool := l.getLsbD 0
def leafLeaf (l : Word) : Bool := l.getLsbD 1
def leafKind (l : Word) : Nat := (l.extractLsb' 2 2).toNat
def leafPolicy (l : Word) : BitVec 3 := l.extractLsb' 4 3
def leafCode (l : Word) : Bool := l.getLsbD 7
def leafTwin (l : Word) : Bool := l.getLsbD 8
def leafRepl (l : Word) : Bool := l.getLsbD 9
def leafTier (l : Word) : Nat := (l.extractLsb' 10 2).toNat
def leafKey (l : Word) : Nat := (l.extractLsb' 12 10).toNat
def leafDomain (l : Word) : BitVec 16 := l.extractLsb' 22 16
def leafFrame (l : Word) : Nat := (l.extractLsb' 38 26).toNat
def leafMapped (l : Word) : Bool := leafValid l && leafLeaf l
def leafAbsent (l : Word) : Bool := !leafValid l && leafLeaf l
def leafUnmapped (l : Word) : Bool := !leafValid l && !leafLeaf l

/-- A mapped leaf whose values fault every access (R343). -/
def leafBad (big : Bool) (l : Word) : Bool :=
  leafKind l = 3 || leafPolicy l = 0 || leafPolicy l = 6 || leafPolicy l = 7 || leafTier l ≥ 2 ||
    (leafTwin l && leafFrame l % 2 = 1) || (big && leafFrame l % 2 ^ 13 ≠ 0)

/-- A leaf value that stands for a walk ending in an address fault: mapped, with the reserved kind. -/
def faultLeaf : Word := 0xF
/-- A leaf value that stands for an unmapped page. -/
def noLeaf : Word := 0

/-- What a walk finds (R341), and how many levels it read. -/
structure Walk where
  attr : Attr
  levels : Nat
  deriving DecidableEq, Repr

def State.tableEntry (s : State) (table i : Nat) : Word := BitVec.ofNat 64 (s.mem.readNat (table + 8 * i) 8)

/-- A valid non-leaf entry with a reserved bit set faults (R342). -/
def pointerBad (e : Word) : Bool := e.extractLsb' 2 36 ≠ 0

/-- The walk of R341 for a global address. -/
def State.walk (s : State) (va : Nat) : Walk :=
  let small (l : Word) (n : Nat) : Walk := { attr := { page := va / 2 ^ 16, big := false, leaf := l }, levels := n }
  let e1 := s.tableEntry s.ms.ptroot (va / 2 ^ 42 % 8192)
  if !leafValid e1 then small noLeaf 1
  else if leafLeaf e1 || pointerBad e1 then small faultLeaf 1
  else
    let e2 := s.tableEntry (leafFrame e1 * 65536) (va / 2 ^ 29 % 8192)
    if leafLeaf e2 then { attr := { page := va / 2 ^ 29, big := true, leaf := e2 }, levels := 2 }
    else if !leafValid e2 then small noLeaf 2
    else if pointerBad e2 then small faultLeaf 2
    else
      let e3 := s.tableEntry (leafFrame e2 * 65536) (va / 2 ^ 16 % 8192)
      small (if leafValid e3 && !leafLeaf e3 then faultLeaf else e3) 3

def Attr.covers (a : Attr) (va : Nat) : Bool := if a.big then a.page = va / 2 ^ 29 else a.page = va / 2 ^ 16
def findAttr (as : List Attr) (va : Nat) : Option Attr := as.find? fun a => a.covers va
def findRights (rs : List Rights) (d : BitVec 16) : Option Rights := rs.find? fun r => r.domain = d

/-- The entry of a job's domain rights table (R345); domain 0 grants nothing. -/
def State.rightsEntry (s : State) (job : Nat) (d : BitVec 16) : Rights :=
  let e := BitVec.ofNat 16 (s.mem.readNat ((s.job job).rightsBase + 2 * d.toNat) 2)
  { domain := d, rights := if d = 0 then 0 else e.extractLsb' 0 2, keyhi := e.extractLsb' 2 2 }

/-! ## Physical places (R280, R354, R396) -/

/-- Where a virtual line lies: the line that names its directory entry, the line that holds its data (they differ
only in the front of a TWIN page), the leaf, and the key of its page. -/
structure Place where
  dir : Nat
  data : Nat
  back : Nat
  leaf : Word
  big : Bool
  key : BitVec 128
  deriving DecidableEq, Repr

/-- The unified line number of a byte of a tier (log 4). -/
def tierLine (tier pa : Nat) : Nat := (if tier = 1 then hostAddr pa else pa) / 64

/-- The place of a line under a leaf, for a job's keys. -/
def State.placeUnder (s : State) (job : Nat) (a : Attr) (line : Nat) : Place :=
  let span := if a.big then 2 ^ 29 else 2 ^ 16
  let off := line * 64 % span
  let f := leafFrame a.leaf * 65536
  let twin := if leafTwin a.leaf then span else 0
  let face := Table.getD s.ms.faces (if a.big then 2 ^ 50 + tierLine (leafTier a.leaf) f / 2 ^ 23 else tierLine (leafTier a.leaf) f / 1024) false
  let t := leafTier a.leaf
  let slot := (s.rightsEntry job (leafDomain a.leaf)).keyhi.toNat * 1024 + leafKey a.leaf
  { dir := tierLine t (f + off), data := tierLine t (f + (if face then twin else 0) + off),
    back := tierLine t (f + (if face then 0 else twin) + off), leaf := a.leaf, big := a.big,
    key := Table.getD s.ms.keys slot 0 }

/-- Where the front of a home line lies, without a page: the place that a probe's answer and an eviction use. The
key is the one that the line is written under. -/
def State.lineKey (s : State) (pline : Nat) : BitVec 128 := Table.getD s.ms.lineKeys pline 0
/-- The key in the slot of the page that maps a line's frame (R345, R348, R396); the slot's high bits stand in the rights table of
the first job that has rights in the page's domain (log 111). A line of no page: the key that it was written under last. -/
def State.pageKeyOf (s : State) (pline : Nat) : BitVec 128 :=
  match Table.getD s.ms.frames (pline / 1024) [] ++ Table.getD s.ms.frames (2 ^ 50 + pline / 2 ^ 23) [] with
  | [] => s.lineKey pline
  | p :: _ =>
    let l := (s.walk (p * 2 ^ 16)).attr.leaf
    let hi := (((s.jobs.map fun j => s.rightsEntry j.1 (leafDomain l)).find? fun r => r.rights ≠ 0).map (·.keyhi)).getD 0
    Table.getD s.ms.keys (hi.toNat * 1024 + leafKey l) 0
/-- The front line of a home line: for a TWIN page the face says which (R354). -/
def State.front (s : State) (dir : Nat) : Nat :=
  if Table.getD s.ms.faces (dir / 1024) false then dir + 1024
  else if Table.getD s.ms.faces (2 ^ 50 + dir / 2 ^ 23) false then dir + 2 ^ 23
  else dir

/-- A unified line lies in host memory. -/
def lineInHost (pline : Nat) : Bool := pline * 64 ≥ 2 ^ 42

/-- A line number at or above this one names a physical line: an access of the host, of a command processor or of a
sampler (R259, R389, R391, log 4). -/
def physBase : Nat := 2 ^ 49
/-- The place of a physical line: a TWIN page's front, under its page's key. -/
def State.physPlace (s : State) (pline : Nat) : Place :=
  let dir := if Table.getD s.ms.faces (pline / 1024 - 1) false then pline - 1024 else pline
  let f := s.front dir
  { dir := dir, data := f, back := f, leaf := if lineInHost pline then 0x403 else 3, big := false, key := s.pageKeyOf f }

/-- The place of a line under attributes, if they map it soundly. -/
def State.placeBy (s : State) (job : Nat) (a : Attr) (line : Nat) : Option Place :=
  if leafMapped a.leaf && !leafBad a.big a.leaf then some (s.placeUnder job a line) else none

/-- The place of a job's virtual line, if its page is mapped soundly, or is on its way out (R344, R347); or of a physical
line. -/
def State.place (s : State) (job line : Nat) : Option Place :=
  if line ≥ physBase then some (s.physPlace (line - physBase))
  else
    let a := (s.walk (line * 64)).attr
    if leafMapped a.leaf then s.placeBy job a line
    else (s.ms.leaving.find? fun x => x.attr.covers (line * 64)).bind fun x => s.placeBy job x.attr line

/-- The part of an address that a table level's entry covers (R341). -/
def levelIndex (level va : Nat) : Nat := va / 2 ^ (if level = 1 then 42 else if level = 2 then 29 else 16)
/-- The leaf that an entry of a translation cache holds. -/
def XlatEntry.attr (e : XlatEntry) : Attr := { page := e.index, big := e.level = 2, leaf := e.entry }
/-- It holds the leaf of an address's page. -/
def XlatEntry.covers (e : XlatEntry) (va : Nat) : Bool := leafLeaf e.entry && e.level ≠ 1 && e.index = levelIndex e.level va
/-- The leaf that a base die's translation unit holds for an address (R347). -/
def State.heldLeaf (s : State) (base va : Nat) : Option XlatEntry := s.ms.xlat.find? fun e => e.base = base && e.covers va

/-- The place to which a request goes: by the leaf that the translation unit of its base die holds, else by a walk (R347). -/
def State.placeFor (s : State) (r : Req) : Option Place :=
  if r.line ≥ physBase then s.place r.job r.line
  else match s.heldLeaf (baseOf (dieOf r.core)) (r.line * 64) with
    | some e => s.placeBy r.job e.attr r.line
    | none => s.place r.job r.line

/-- The home slice of a line (R280): 0 to 63 on the base dies, 64 and 65 on the I/O dies (R386). -/
def sliceOf (pline : Nat) : Nat :=
  if lineInHost pline then 64 + pline / 1024 % 2 else Config.channelOf (pline * 64) / 64
/-- The ring place of a slice. -/
def slicePlace (sl : Nat) : Nat := if sl = 64 then 0 else if sl = 65 then 3 else ringPlace (sl / 16)
/-- The compute die whose core owns the line's channel (R280). -/
def homeDie (pline : Nat) : Nat := Config.channelOf (pline * 64) / 512
/-- The whole time of an access at home (R390, R401). -/
def homeCycles (core pline : Nat) : Nat :=
  (if lineInHost pline then 560 else 80) + 10 * ringHops (ringPlace (baseOf (dieOf core))) (slicePlace (sliceOf pline))

/-- A line's bytes as the memory holds them, and under a page's key (R396). -/
def State.rawLine (s : State) (pline : Nat) : Line := BitVec.ofNat 512 (s.mem.readNat (pline * 64) 64)
def State.keyedLine (s : State) (pline : Nat) (key : BitVec 128) : Line :=
  let old := Table.getD s.ms.lineKeys pline 0
  if old = key then s.rawLine pline else Config.recrypt old key pline (s.rawLine pline)
/-- Writes the bytes under the mask; the whole line is then under the page's key. -/
def State.writeLine (s : State) (pline : Nat) (key : BitVec 128) (mask : BitVec 64) (x : Line) : State :=
  let merged := mergeLine mask x (s.keyedLine pline key)
  let mem :=
    if Table.getD s.ms.lineKeys pline 0 = key then
      s.mem.writeCells ((bitsOf mask).map fun i => (pline * 64 + i, lineByte x i))
    else s.mem.writeBytes (pline * 64) (bytesOfLine merged)
  { s with mem := mem, ms := { s.ms with lineKeys := if key = 0 then Table.del s.ms.lineKeys pline
                                                     else Table.set s.ms.lineKeys pline key } }

/-! ## The attribute cache and the protection lookaside buffer (R346) -/

/-- Enters an attribute answer: 64 entries, the oldest leaves (log 12). -/
def Core.addAttr (c : Core) (a : Attr) : Core :=
  { c with attrs := (a :: c.attrs.filter fun b => !(b.page = a.page && b.big = a.big)).take 64 }
def Core.addRights (c : Core) (r : Rights) : Core :=
  { c with rights := (r :: c.rights.filter fun b => b.domain ≠ r.domain).take 64 }

/-- What the checks 4 to 7 of R118 find for one page. -/
inductive PageChk
  | ok (a : Attr)
  | ask (cycles : Nat)
  | absent
  | fault (cause : Nat)
  deriving DecidableEq, Repr

/-- The kind of right an access needs (R118, R356). -/
inductive Need | read | write | fetch
  deriving DecidableEq, Repr

def Need.allows (n : Need) (rights : BitVec 2) : Bool :=
  match n with
  | .read => rights ≠ 0
  | .write => rights = 2
  | .fetch => rights = 3

/-! ## The translation units (R346, R347) -/

/-- The time of an access from a base die to the home of a line (R390, R401). -/
def homeTime (base pline : Nat) : Nat :=
  (if lineInHost pline then 560 else 80) + 10 * ringHops (ringPlace base) (slicePlace (sliceOf pline))

/-- The levels that a walk reads, from a table of a level, when it begins at cycle `t`: an entry that the unit holds takes no
time, another one the time of an uncached load at its table's home. The answer has what the unit then holds more, and the end. -/
def State.walkLevels (s : State) (base va : Nat) : Nat → Nat → Nat → Nat → List XlatEntry × Nat
  | 0, _, _, t => ([], t)
  | n + 1, level, table, t =>
    let i := levelIndex level va
    let held := s.ms.xlat.find? fun e => e.base = base && e.level = level && e.index = i
    let e := (held.map (·.entry)).getD (s.tableEntry table (i % 8192))
    let t := match held with
      | some x => max t x.ready
      | none => t + homeTime base ((table + 8 * (i % 8192)) / 64)
    let new : List XlatEntry := if held.isNone && leafValid e && !(level = 1 && leafLeaf e) then [{ base := base, level := level, index := i, entry := e, ready := t }] else []
    if level < 3 && leafValid e && !leafLeaf e && !pointerBad e then
      match State.walkLevels s base va n (level + 1) (leafFrame e * 65536) t with
      | (xs, t) => (new ++ xs, t)
    else (new, t)

/-- The cycle at which a unit's next walk begins: at once, or, with its 64 walkers busy, when the first of them is free for
it, in arrival order. -/
def State.walkStart (s : State) (base : Nat) : Nat :=
  let ends := (s.ms.walks.filter fun w => w.1 = base && decide (s.cycle < w.2)).map (·.2)
  let free (t : Nat) : Bool := decide ((ends.filter fun e => t < e).length < 64)
  if free s.cycle then s.cycle else (ends.filter free).foldl min (ends.foldl max 0)

/-- A base die's unit translates an address: the state in which it holds what it has read, at most 65,536 entries, the oldest
leaving (log 12), and the cycles that the translation takes more than a hit. -/
def State.translate (s : State) (base va : Nat) : State × Nat :=
  match s.heldLeaf base va with
  | some e => (s, e.ready - s.cycle)
  | none =>
    let (new, t) := s.walkLevels base va 3 1 s.ms.ptroot (s.walkStart base)
    (s.modMS fun m => { m with
      xlat := (new.reverse ++ m.xlat.filter fun e => e.base = base).take 65536 ++ m.xlat.filter fun e => e.base ≠ base
      walks := (base, t) :: m.walks.filter fun w => decide (s.cycle < w.2) }, t - s.cycle)

/-- Cycles until the translation unit answers a core (R346). -/
def State.answerCycles (s : State) (core va : Nat) : Nat := 14 + (s.translate (baseOf (dieOf core)) va).2

/-- Cycles until a core has read the rights entry of a page's domain, as an uncached load at its home (R346). -/
def State.rightsCycles (s : State) (core job : Nat) (d : BitVec 16) : Nat :=
  homeTime (baseOf (dieOf core)) (((s.job job).rightsBase + 2 * d.toNat) / 64)

/-- Checks 4 to 7 of R118 for a page, at the core's two caches. -/
def State.checkPage (s : State) (core va : Nat) (need : Need) : PageChk :=
  let c := s.core core
  match findAttr c.attrs va with
  | none => .ask (s.answerCycles core va)
  | some a =>
    if leafUnmapped a.leaf then .fault causeAddress
    else if leafAbsent a.leaf then .absent
    else if leafBad a.big a.leaf then .fault causeAddress
    else match findRights c.rights (leafDomain a.leaf) with
      | none => .ask (s.rightsCycles core (c.job.getD 0) (leafDomain a.leaf))
      | some r =>
        if need = .fetch && !leafCode a.leaf then .fault causeProtection
        else if need.allows r.rights then .ok a else .fault causeProtection

/-- An answer reaches the core (R346): where its attribute cache lacks the page, the translation unit's, by the leaf that the
unit holds or a walk; else the rights entry of the page's domain. -/
def State.answerPage (s : State) (t va : Nat) : State :=
  let core := coreOf t
  match findAttr (s.core core).attrs va with
  | none =>
    let a := match s.heldLeaf (baseOf (dieOf core)) va with
      | some e => e.attr
      | none => (s.walk va).attr
    s.modCore core fun c => c.addAttr a
  | some a =>
    if leafMapped a.leaf && !leafBad a.big a.leaf && (findRights (s.core core).rights (leafDomain a.leaf)).isNone then
      s.modCore core fun c => c.addRights (s.rightsEntry (s.ctxAt t).job (leafDomain a.leaf))
    else s

/-- An unmapped answer serves the fault once (log 12). -/
def State.dropUnmapped (s : State) (core va : Nat) : State :=
  s.modCore core fun c => { c with attrs := c.attrs.filter fun a => !(a.covers va && leafUnmapped a.leaf) }

/-- The current thread's core asks for a page's attributes, or for the rights of its domain. -/
def State.askAnswer (s : State) (va cycles : Nat) : State :=
  let s := if (findAttr (s.core s.myCore).attrs va).isNone then (s.translate (baseOf s.myDie) va).1 else s
  s.schedule cycles (.translationWalk s.cur va)
/-- The thread waits for a page's answer (R346). -/
def State.askPage (s : State) (r : Reason) (va cycles : Nat) : State := (s.park r).askAnswer va cycles

/-- The first 64 KiB of the page that holds an address, by which the translation unit knows it (R349). -/
def State.pageKey (s : State) (va : Nat) : Nat := if (s.walk va).attr.big then va / 2 ^ 29 * 8192 else va / 2 ^ 16

/-- The translation unit records a thread that waits for a page and asks once for the page, or wakes it where the leaf has
become valid since the core's answer (R149, R349). -/
def State.recordAbsent (s : State) (t va : Nat) : State :=
  let page := s.pageKey va
  if leafMapped (s.walk va).attr.leaf then s.schedule 64 (.residencyWake t)
  else
    let first := !(s.ms.parked.any fun p => p.1 = page)
    let s := s.modMS fun m =>
      { m with parked := if m.parked.any (fun p => p = (page, t)) then m.parked else m.parked ++ [(page, t)] }
    if first then s.schedule 0 (.pageInRequest va) else s

/-- The thread parks on pages that are not present, until all of them are resident (R149, R150). -/
def State.parkPages (s : State) (vas : List Nat) : State :=
  let s := (s.park .page).modCtx fun c => { c with absent := vas }
  vas.foldl (fun s va => s.recordAbsent s.cur va) s

def State.parkPage (s : State) (va : Nat) : State := s.parkPages [va]

/-- An access that is under way keeps what its checks have found: it completes by it, whatever a shootdown empties (R379). -/
def keepChecks (cur : Nat) (as : List Attr) : Res → Res
  | .next t => .next (if t.cur = cur && t.ctx.latch.isSome && !t.ctx.asked.isEmpty then
      t.modCtx fun c => { c with checked := as ++ c.checked.filter fun b => !as.contains b } else t)
  | x => x

/-- Runs `k` with every page that the `n` bytes at `va` touch checked, the lower one first (R93, R118). An access that finds
both of its pages absent waits for both (R150). `seen` is what stands between checks 5 and 6 (R251). -/
def withPages (s : State) (va n : Nat) (need : Need) (seen : Res → Res) (k : List Attr → Res) : Res :=
  let last := va + n - 1
  let other := last / 2 ^ 16 * 2 ^ 16
  let absent (a : Nat) : Bool := match s.checkPage s.myCore a need with | .absent => true | _ => false
  let ask (a c : Nat) : Res := .next (s.askPage .access a c)
  let chk (a : Nat) : PageChk :=
    match (if s.ctx.asked.isEmpty then none else findAttr s.ctx.checked a) with
    | some x => .ok x
    | none => s.checkPage s.myCore a need
  let one (a : Nat) (next : Attr → Res) (missing : Res) : Res :=
    match chk a with
    | .ok x => next x
    | .ask c => ask a c
    | .absent => missing
    | .fault c => trapTo (s.dropUnmapped s.myCore a) c (BitVec.ofNat 64 a)
  if va / 2 ^ 16 = last / 2 ^ 16 then one va (fun a => seen (keepChecks s.cur [a] (k [a]))) (seen (.next (s.parkPage va)))
  else one va (fun a => one other (fun b => seen (keepChecks s.cur [a, b] (k [a, b]))) (seen (.next (s.parkPage other))))
    (match s.checkPage s.myCore other need with
     | .ask c => ask other c
     | .fault c => trapTo (s.dropUnmapped s.myCore other) c (BitVec.ofNat 64 other)
     | .ok _ | .absent => seen (.next (s.parkPages (if absent other then [va, other] else [va]))))

/-! ## The path to home (R267 to R270, R401) -/

/-- A job's bindings in a cycle: its table, and what `vcbind`s have bound since (R268). -/
def Job.regionsAt (j : Job) (cycle : Nat) : Table Region :=
  (j.binds.filter fun b => decide (b.1 ≤ cycle)).foldl (fun t (_, slot, r) => match r with
    | some r => Table.set t slot r
    | none => Table.del t slot) j.regions
/-- A binding, or its end, that takes effect from a cycle on. -/
def Job.bindAt (j : Job) (cycle from_ slot : Nat) (r : Option Region) : Job :=
  { j with regions := j.regionsAt cycle, binds := (j.binds.filter fun b => decide (cycle < b.1)) ++ [(from_, slot, r)] }

/-- The virtual cache bound to a global address of a job, 16 for home (R268). -/
def State.boundCache (s : State) (job va : Nat) : Nat :=
  match ((s.job job).regionsAt s.cycle).find? fun r => decide (r.2.base ≤ va) && decide (va < r.2.base + r.2.len * 65536) with
  | some (_, r) => r.vc
  | none => 16

/-- Bank and set of a line in a virtual cache (R267). -/
def VCache.place (v : VCache) (line : Nat) : Nat × Nat :=
  let c := v.cfg.log.toNat
  (v.banks.getD (line / 2 ^ c % v.banks.length) 0, v.cfg.start.toNat + line % 2 ^ c)
/-- A bank lookup from a base die (R261). -/
def bankCycles (base bank : Nat) : Nat := 14 + 10 * baseHops base (bank / 2048)

/-- The 2 MiB region of a virtual line (R352). -/
def regionOf (line : Nat) : Nat := line / 2 ^ 15
def State.repRegion (s : State) (g : Nat) : RepRegion := Table.getD s.ms.regions g RepRegion.reset
/-- The base die of a line's home, 4 for a home on an I/O die. -/
def homeBase (pline : Nat) : Nat := if sliceOf pline < 64 then sliceOf pline / 16 else 4

/-- A base die holds replicas of a region's lines that are homed on another one (R352): the lines may be held on as many base
dies, other than the home's, as the degree says. -/
def RepRegion.serves (g : RepRegion) (home b : Nat) : Bool := ((g.order.filter (· ≠ home)).take g.degree).contains b

/-- The replica that serves a request (R353). -/
def State.replicaOf (s : State) (r : Req) : Option RepLine :=
  match s.placeFor r with
  | none => none
  | some p =>
    let b := baseOf (dieOf r.core)
    if leafRepl p.leaf && decide (homeBase p.dir ≠ b) && (s.repRegion (regionOf r.line)).serves (homeBase p.dir) b then
      (s.ms.replicas.find? fun x => x.base = b && x.pline = p.dir).filter fun x =>
        x.ends.all (fun n => decide (s.cycle < n)) && match r.kind with
        -- no fetch that home has to answer itself, nor one that a write under way would not find (R358, R384)
        | .fetch => x.ends.isNone && !(s.ms.marks.contains p.dir) &&
            (Table.get? s.ms.home p.dir).all fun h => h.txn.isNone && h.queue.isEmpty
        | .load => (r.pol = .wt && !r.acq) || (r.pol = .sis && decide ((x.rts.toNat + 2 ^ 24 - r.ptime) % 2 ^ 24 < 2 ^ 23))
        | _ => false
    else none

/-- A line of a core leaves the caches for home: its address is translated, in the cycles that a hit takes within R401's times
and a walk takes more (log 96), and nothing of the core passes it on its way to the same slice (R283, R347). -/
def State.leaveCaches (s : State) (core line : Nat) (dir : Option Nat) : State × Nat :=
  let (s, walk) := if line ≥ physBase then (s, 0) else s.translate (baseOf (dieOf core)) (line * 64)
  match dir with
  | none => (s, walk)
  | some d =>
    let out := max (s.cycle + walk) (Table.getD (s.core core).outs (sliceOf d) 0)
    if out = s.cycle then (s, 0)
    else (s.modCore core fun c => { c with outs := Table.set (c.outs.filter fun x => decide (s.cycle < x.2)) (sliceOf d) out }, out - s.cycle)

/-- A request goes on, after some cycles, to a cache of its job, to a replica on its base die, or to home when `vc` is 16. -/
def State.forwardReq (s : State) (vc : Nat) (r : Req) (after : Nat := 0) : State :=
  match (if vc < 16 then Table.get? (s.job r.job).vcs vc else none) with
  | some v => s.schedule (after + bankCycles (baseOf (dieOf r.core)) (v.place r.line).1) (.vcacheLookup r vc)
  | none =>
    let place := s.placeFor r
    let total := match s.replicaOf r, place with
      | some _, _ => 14
      | none, some p => homeCycles r.core p.dir
      | none, none => 80
    let (s, n) := s.leaveCaches r.core r.line (place.map (·.dir))
    s.schedule (max n after + total / 2) (.homeRequest r)

/-- The flits of a core's request on the request network (R314): a load's, and a store's for what carries data. DESIGN CHOICE
(log 117): the beats of the copy unit, 64 bytes wide (R212), are no packets of R314's table and spend no core's allowances. -/
def reqFlits (r : Req) : Nat :=
  match r.src, r.kind with
  | .copy _ _, _ | .report _, _ | .device _, _ | .host _, _ => 0
  | _, .load | _, .fetch | _, .hold | _, .publish | _, .move => 2
  | _, _ => 3

/-- A request leaves the core (R269): uncached loads, and atomics of that policy, pass every virtual cache, and so does every
access to the host tier (R390). -/
def State.sendReq (s : State) (r : Req) : State :=
  let vc := s.boundCache r.job (r.line * 64)
  let host := (s.placeFor r).any fun p => leafTier p.leaf = 1
  let code := (s.placeFor r).any fun p => leafCode p.leaf
  let direct := host || r.shadow || r.pol = .unc && (match r.kind with
    | .load | .hold | .free | .publish | .move => true
    | .amo _ | .cas => !code
    | .store | .reclaim | .fetch => false)
  let vc := if direct then 16 else vc
  if reqFlits r = 0 then s.forwardReq vc r
  else
    let (s, w) := s.sendFlits r.core (reqFlits r)
    let msg : Instr := if vc < 16 && (Table.get? (s.job r.job).vcs vc).isSome then .vcacheLookup r vc else .homeRequest r
    (s.modCore r.core fun c =>
      { c with worms := { from_ := s.cycle + w, flits := reqFlits r, due := s.cycle + w + reqFlits r, msg := msg } ::
          c.worms.filter fun x => decide (s.cycle ≤ x.due) }).forwardReq vc r w

end

end Sys2Proof.Machine
end

