-- ==== Sys2Proof/Machine/Fetch.lean ====
section
/-! DEFINITION. Fetching and decoding (02_encoding R27, R28, R51 to R53, R405; 07 R160, R161; 19 R340, R356), the
stepped register fields of a repeat (R189), and the breakpoints of R251. -/
namespace Sys2Proof.Machine

section

/-! ## Fetch blocks (R28, R160, R161) -/

/-- What fetching gives: a value with the state that has fetched, the state in which the thread waits, or a fault's
cause and TVAL. -/
inductive Got (α : Type)
  | ok (x : α) (s : State)
  | wait (s : State)
  | trap (cause : Nat) (value : Word) (s : State)

/-- Half of a 64-byte line. -/
def halfLine (x : Line) (hi : Bool) : BitVec 256 := x.extractLsb' (if hi then 256 else 0) 256

/-- Every word of the body from an address to its last one has been captured. -/
def LoopBody.wholeFrom (b : LoopBody) : Nat → Nat → Bool
  | 0, _ => false
  | n + 1, a =>
    match b.words.find? fun w => w.1 = a with
    | some (_, w) => a = b.le || LoopBody.wholeFrom b n (a + wordBytes (Fin.ofNat 4 w.toNat))
    | none => false

/-- The word of the loop buffer at an address, if a captured body holds it: one whose first pass has captured the whole of
it (R161). -/
def Core.loopWord (c : Core) (active : Bool) (a : Nat) : Option (BitVec 128) :=
  if active then
    (c.loopBuf.find? fun b => decide (b.lb ≤ a) && decide (a ≤ b.le) && (b.words.any fun w => w.1 = a) &&
        b.wholeFrom 257 b.lb).bind fun b =>
      (b.words.find? fun w => w.1 = a).map (·.2)
  else none

/-- Entries of the loop buffer in use: a word that lies in a body and in one within it takes one. -/
def loopEntries (bs : List LoopBody) : Nat := ((bs.flatMap fun b => b.words.map (·.1)).eraseDups).length

/-- Whole bodies leave, the least recently used first, until the buffer holds at most 256 words. -/
def fitBodies : Nat → List LoopBody → List LoopBody
  | 0, bs => bs
  | n + 1, bs => if loopEntries bs ≤ 256 then bs else fitBodies n bs.dropLast

/-- The loop buffer captures the word at `a` for every active level whose body holds it (R161); the body used last, of nested
ones the inner one, stands first, and one that does not fit leaves. -/
def State.capture (s : State) (a : Nat) (w : BitVec 128) : State :=
  let l := s.ctx.loops
  let inside (k : Fin 3) : Bool := l.active.getLsbD k.val && decide (l.lb[k].toNat ≤ a) && decide (a ≤ l.le[k].toNat)
  let file (c : Core) (k : Fin 3) : Core :=
    let same (b : LoopBody) : Bool := b.lb = l.lb[k].toNat && b.le = l.le[k].toNat
    let body := (c.loopBuf.find? same).getD { lb := l.lb[k].toNat, le := l.le[k].toNat, words := [] }
    let body := if body.words.any fun x => x.1 = a then body else { body with words := (a, w) :: body.words }
    { c with loopBuf := body :: c.loopBuf.filter fun b => !same b }
  match ([0, 1, 2] : List (Fin 3)).filter inside with
  | [] => s
  | ks => s.modCore s.myCore fun c =>
    let c := ks.foldl file c
    { c with loopBuf := fitBodies 300 c.loopBuf }

/-- The page checks of a fetch at `a` (R340, R356), each with TVAL the fetch address. -/
def State.fetchPage (s : State) (a : Word) : Got Attr :=
  match targetOf s.myCore a with
  | .global va =>
    match s.checkPage s.myCore va .fetch with
    | .ok x => .ok x s
    | .ask n => .wait ((s.unissue 0x02).askPage .fetch va n)
    | .absent => .wait ((s.unissue 0x02).parkPage va)
    | .fault c => .trap c a (s.dropUnmapped s.myCore va)
  | _ => .trap causeAddress a s

/-- The request of a fetch for a line. -/
def State.fetchReq (s : State) (src : Src) (line : Nat) : Req :=
  { src := src, kind := .fetch, pol := .wis, acq := false, core := s.myCore, job := s.ctx.job,
    line := line, mask := BitVec.allOnes 64, data := 0, data2 := 0, ptime := s.ctx.ctl.ptime.toNat,
    lease := s.ctx.ctl.lease.toNat, path := [], shadow := false }

/-- A move to another fetch block: the page checks, then the instruction cache; a miss asks for the line (R160). A
change of block moves DOMAIN (R356). -/
def State.fetchNew (s : State) (a : Word) (base : Nat) : Got FetchBlock :=
  match s.fetchPage a with
  | .wait s => .wait s
  | .trap c v s => .trap c v s
  | .ok at_ s =>
    let core := s.myCore
    let c := s.core core
    match c.icache.find? fun l => l.job = s.ctx.job && l.line = base / 64 with
    | some l =>
      let b : FetchBlock := { addr := base, data := halfLine l.data (base / 32 % 2 = 1), once := false }
      let s := s.setCore core { c with icache := l :: c.icache.filter (· ≠ l) }
      .ok b { s with ctx := { s.ctx with fblock := some b, ctl := { s.ctx.ctl with domain := leafDomain at_.leaf } } }
    | none =>
      let r := s.fetchReq (.fetch s.cur) (base / 64)
      let s := s.modCore core fun c =>
        { c with fills := c.fills ++ [{ id := c.nextId, job := r.job, line := r.line, kind := 2, useOnce := false, acquired := false, held := [] }],
                 nextId := c.nextId + 1 }
      .wait (((s.count core 0x14 0).unissue 0x02).park .fetch |>.sendReq r)

/-- The fetch block that holds an address: the thread's own, or a new one (R160). One whose line was invalidated on its way serves
the fetch that asked for it, and no later one (R291, R384). -/
def State.fetchBlock (s : State) (a : Word) : Got FetchBlock :=
  let base := a.toNat / 32 * 32
  match s.ctx.fblock with
  | some b =>
    if b.addr = base then .ok b (if b.once then { s with ctx := { s.ctx with fblock := none } } else s) else s.fetchNew a base
  | none => s.fetchNew a base

/-- The word at an address by steps 1 to 4 of R51: its number and its bytes. -/
def State.fetchWord (s : State) (a : Word) : Got (BitVec 128 × Nat) :=
  match (s.core s.myCore).loopWord (s.ctx.loops.active ≠ 0) a.toNat with
  | some w => .ok (w, wordBytes (Fin.ofNat 4 w.toNat)) s
  | none =>
    match s.fetchBlock a with
    | .wait s => .wait s
    | .trap c v s => .trap c v s
    | .ok b s =>
      let off := a.toNat % 32
      let w := b.data.toNat / 2 ^ (8 * off)
      let n := wordBytes (Fin.ofNat 4 w)
      let low : Word := BitVec.ofNat 64 (if off = 28 then w % 2 ^ 32 else w)
      if off % 4 ≠ 0 then .trap causeMisaligned a s
      else if w % 4 = 3 then .trap causeIllegal low s
      else if off + n > 32 then .trap causeMisaligned a s
      else .ok (BitVec.ofNat 128 (w % 2 ^ (8 * n)), n) s

/-- The first 4 bytes of a word that is not executed (R405), read as a fetch without the fetch-publication check. -/
def State.fetchHead (s : State) (a : Word) : Got Nat :=
  match s.fetchPage a with
  | .wait s => .wait s
  | .trap c v s => .trap c v s
  | .ok _ s =>
    let line := a.toNat / 64
    let head (x : Line) : Nat := x.toNat / 2 ^ (8 * (a.toNat % 64)) % 2 ^ 32
    if a.toNat % 4 ≠ 0 then .trap causeMisaligned a s
    else match (s.core s.myCore).icache.find? fun l => l.job = s.ctx.job && l.line = line with
      | some l => .ok (head l.data) s
      | none => match s.ctx.gather.find? fun x => x.line = line with
        | some x =>
          (match x.st with
           | .ok | .unpublished => .ok (head x.data) s
           | .dataLost => .trap causeDataLost (BitVec.ofNat 64 (line * 64 + x.wts)) s
           | .unmapped => .trap causeAddress a s
           | .notPresent => .wait ((s.modCtx fun c => { c with gather := [], asked := [] }).parkPage (line * 64)))
        | none =>
          let s := (s.park .fetch).modCtx fun c => { c with asked := c.asked ++ [line] }
          .wait (s.sendReq { s.fetchReq (.load s.cur) line with mask := byteMask (a.toNat % 64) 4 })

/-- The length that the head of a word gives (R405), and its major. -/
def headBytes (h : Nat) : Word := BitVec.ofNat 64 (wordBytes (Fin.ofNat 4 h))
def headMajor (h : Nat) : Nat := h / 4 % 256

/-! ## Decoding (R50, R51) -/

/-- The forms that only S mode runs (R50). -/
def needsS : Instr → Bool
  | .reclaimStore _ | .rephintClear _ | .rephintPin _ _ | .rephintCap _ _ | .plbinvOne _ | .plbinvAll | .tlbinvOne _
  | .tlbinvAll | .ctxswap _ _ => true
  | _ => false

/-- The privilege check of step 9 of R51. -/
def privilegeOk (mode : BitVec 2) (i : Instr) : Bool :=
  if needsS i then mode = 2
  else match i with
    | .rett | .rettSkip => mode ≠ 0
    | _ => true

/-- Steps 5 to 9 of R51 on a word: the instruction, or the cause. -/
noncomputable def decodeChecked (mode : BitVec 2) (w : BitVec 128) : Except Nat Instr :=
  match decodeFields (Fields.unpack w.toNat) with
  | .error _ => .error causeIllegal
  | .ok i => if privilegeOk mode i then .ok i else .error causePrivilege

/-! ## Stepped register fields (R189, R190) -/

/-- Which of the fields D, A, B, C are g-registers (first list) or v-registers (second list) of a 64-bit form that may
follow `rpt` (R39 to R49, R53). -/
def registerFields (f : Fields) : List Nat × List Nat :=
  let m := f.minor.toNat
  match f.op.val with
  | 0x01 => (if m = 0x16 then [0, 1, 2, 3] else if 0x11 ≤ m && m ≤ 0x15 then [0, 1] else [0, 1, 2], [])
  | 0x02 | 0x08 | 0x09 | 0x68 | 0x6B | 0x78 | 0x84 => ([0, 1], [])
  | 0x06 => (if f.mod.getLsbD 0 then [0, 1] else [0, 1, 2], [])
  | 0x07 | 0x23 => ([0, 1, 2, 3], [])
  | 0x0A | 0x20 | 0x21 | 0x22 | 0x25 | 0x26 | 0x27 => ([0, 1, 2], [])
  | 0x16 | 0x1D | 0x2B | 0x64 | 0x73 => ([0], [])
  | 0x17 | 0x19 | 0x29 | 0x58 | 0x63 | 0x69 | 0x6A | 0x6D | 0x75 | 0x77 | 0x79 | 0x7C | 0x81 | 0x83 | 0x85 | 0x86 => ([1], [])
  | 0x28 | 0x2A | 0x2E | 0x7A | 0x80 | 0x87 => ([1, 2], [])
  | 0x2D => if m = 0 then ([0], []) else ([], [0])
  | 0x40 | 0x44 | 0x4A => ([], [0, 1, 2])
  | 0x41 => ([], [0, 1, 2, 3])
  | 0x42 | 0x45 | 0x46 | 0x47 | 0x4B | 0x4C | 0x4D | 0x4E => ([], [0, 1])
  | 0x43 => ([], [1, 2])
  | 0x48 => if m = 0 then ([], [0, 1]) else ([1], [0])
  | 0x49 => if m = 0 then ([0], [1]) else ([1], [0])
  | 0x4F => (if m = 4 then [1] else if m = 5 || m = 6 then [0] else [], [])
  | 0x50 | 0x51 | 0x52 => ([1, 2], [0])
  | 0x53 | 0x54 => ([1], [0, 2])
  | 0x57 => if m = 0 then ([0, 1], []) else ([], [0, 1])
  | 0x61 => ([1], [0])
  | 0x6C => if m = 0 then ([0], []) else ([], [])
  | 0x7B => if m = 2 then ([1], [2]) else ([1, 2], [])
  | _ => ([], [])

def Fields.reg (f : Fields) (k : Nat) : Fin 32 := if k = 0 then f.d else if k = 1 then f.a else if k = 2 then f.b else f.c
def Fields.setReg (f : Fields) (k : Nat) (x : Fin 32) : Fields :=
  if k = 0 then { f with d := x } else if k = 1 then { f with a := x } else if k = 2 then { f with b := x } else { f with c := x }

/-- The fields that step: every v field, and every g field that does not name g0. -/
def steppedFields (f : Fields) : List Nat :=
  let (g, v) := registerFields f
  g.filter (fun k => Fields.reg f k ≠ 0) ++ v

/-- The word of repetition i. -/
def advance (w : BitVec 128) (i stride : Nat) : BitVec 128 :=
  let f := Fields.unpack w.toNat
  let f' := (steppedFields f).foldl (fun x k => Fields.setReg x k (Fin.ofNat 32 ((Fields.reg f k).val + i * stride))) f
  BitVec.ofNat 128 f'.pack

/-- The first repetition that would name a register past 31, if the last one does (R190). -/
def rangeBreak (w : BitVec 128) (count stride : Nat) : Option Nat :=
  let f := Fields.unpack w.toNat
  let top := ((steppedFields f).map fun k => (Fields.reg f k).val).foldl max 0
  if (steppedFields f).length ≠ 0 && count ≠ 0 && stride ≠ 0 && top + (count - 1) * stride > 31 then
    some ((31 - top) / stride + 1)
  else none

/-- A word that may not follow `rpt` (R53). -/
def notAfterRpt (w : BitVec 128) (n : Nat) : Bool :=
  let op := (Fields.unpack w.toNat).op.val
  n ≠ 8 || op = 0x1E || op = 0x1F || (0x10 ≤ op && op ≤ 0x15) || op = 0x1B

/-! ## Breakpoints (R251) -/

/-- The visits of each position that have been counted up to a cycle (R256). -/
def Cluster.visits (c : Cluster) (cycle : Nat) : Vector Nat 8 :=
  if c.dbg.halted then c.visited
  else Vector.ofFn fun p => c.visited[p] + ((cycle + 7 - p.val) / 8 - (c.countFrom + 7 - p.val) / 8)

/-- The array cycles of a running operation since the counting last began, up to a cycle: n of them, from two cycles after its
start (R206, R255). -/
def Cluster.busyOf (c : Cluster) (cycle : Nat) (r : MatrixRun) : Nat :=
  min cycle (r.start + 2 + r.op.n) - max (r.start + 2) c.countFrom

/-- Cycles in which the array was busy that the counter does not hold yet. -/
def Cluster.busyNow (c : Cluster) (cycle : Nat) : Nat :=
  if c.dbg.halted then 0 else (c.running.map (c.busyOf cycle)).sum

/-- Halts the cluster in this cycle, in which its counters count on `more` cycles (R252, R255); the other clusters follow by
the cross-trigger. -/
def State.halt (s : State) (c more : Nat) (f : Debug → Debug) : State :=
  let s := s.modCluster c fun x =>
    { x with
      dbg := f { x.dbg with halted := true, haltAt := s.cycle, countTo := s.cycle + more, stopped := 0 }
      visited := x.visits (s.cycle + more), counters := bumpBy x.counters 0x22 0 (x.busyNow (s.cycle + more)) }
  if (s.cluster c).dbg.dctl.getLsbD 7 then s.schedule 40 (.crossTriggerHalt c) else s

/-- A halt that the current thread's instruction triggers: its core stops at once. Where the cluster has halted in this same
cycle the core stops too, and a breakpoint stands before a watchpoint, a lower number before a higher one (R251); where it
has halted before, the halt stands as it is. -/
def State.hitHalt (s : State) (cause : BitVec 3) (index : Nat) (f : Debug → Debug) : State :=
  let c := s.myCluster
  let d := (s.cluster c).dbg
  let named (d : Debug) : Debug := f { d with
    cause := cause, index := BitVec.ofNat 2 index, core := BitVec.ofNat 3 (s.myCore % 8), slot := BitVec.ofNat 4 (slotOf s.cur),
    dhpc := s.ctx.pc }
  let stop (d : Debug) : Debug := { d with stopped := setBit d.stopped (s.myCore % 8) true }
  if !d.halted then s.halt c 1 fun d => stop (named d)
  else if d.haltAt = s.cycle && d.countTo = s.cycle + 1 then
    let first : Bool := cause.toNat < d.cause.toNat || (cause = d.cause && decide (index < d.index.toNat))
    s.modCluster c fun x => { x with dbg := stop (if first then named x.dbg else x.dbg) }
  else s

/-! ## Watchpoints (R251) -/

/-- The lowest enabled watchpoint that an access touches, and the address matched. -/
def State.watchHit (s : State) (spans : List (Nat × Nat)) (rd wr : Bool) : Option (Nat × Nat) :=
  let d := (s.cluster s.myCluster).dbg
  (List.range 2).findSome? fun i =>
    let c := d.wpc[i]!
    let len := 2 ^ (c.extractLsb' 3 5).toNat
    let lo := (d.wpa[i]!).toNat / len * len
    let kinds := (c.getLsbD 1 && rd) || (c.getLsbD 2 && wr)
    if c.getLsbD 0 && kinds && c.getLsbD (8 + s.myCore % 8) then
      (spans.find? fun p => decide (p.1 < lo + len) && decide (lo < p.1 + p.2)).map fun p => (i, max p.1 lo)
    else none

/-- The check that follows check 5 of R118: the cluster halts and the instruction stays in its latch; its reissue skips the
check once (R251, R253). -/
def watch (spans : List (Nat × Nat)) (rd wr : Bool) (s : State) (k : Res) : Res :=
  if s.ctx.skipWatch then k
  else match s.watchHit spans rd wr with
    | none => k
    | some (i, a) =>
      let s := s.hitHalt 3 i fun d => { d with dhaddr := BitVec.ofNat 64 a }
      .next { s with ctx := { s.ctx with skipWatch := true, wait := .ready s.cycle } }

/-- The lowest enabled breakpoint that the thread's next instruction hits. -/
def State.breakHit (s : State) : Option Nat :=
  let d := (s.cluster s.myCluster).dbg
  (List.range 4).find? fun i =>
    let c := d.bpc[i]!
    c.getLsbD 0 && c.getLsbD (4 + s.myCore % 8) && c.getLsbD (1 + s.ctx.ctl.mode.toNat) &&
      decide (d.bpa[i]!.extractLsb' 2 62 = s.ctx.pc.extractLsb' 2 62)

def State.breakHalt (s : State) (i : Nat) : State :=
  s.hitHalt 2 i id

/-! ## The instruction of a turn -/

/-- A fault of fetching or decoding the instruction at `pc`: TEPC is that PC. -/
def State.trapAt (s : State) (pc : Word) (cause : Nat) (value : Word) : State :=
  ({ s with ctx := { s.ctx with pc := pc } }).takeTrap cause value

/-- A fault of the word after an `rpt`: TEPC is that word's PC, and RPTIX := 0 (R53). -/
def State.trapAfterRpt (s : State) (cause : Nat) (value : Word) : State :=
  ((s.modCtl fun c => { c with rptix := 0, rpta := false }).trapAt (s.ctx.pc + 8) cause value)

/-- With an `rpt` in the latch: the word after it is fetched and decoded (R53), and kept for its meaning with the
cause of its decode fault, 0 for none. -/
noncomputable def State.lookPast (s : State) : Got Unit :=
  match s.fetchWord (s.ctx.pc + 8) with
  | .wait s => .wait { s with ctx := { s.ctx with latch := none } }
  | .trap c v s => .trap c v s
  | .ok (w, _) s =>
    let cause := match decodeChecked s.ctx.ctl.mode w with
      | .ok _ => 0
      | .error c => c
    .ok () { s with ctx := { s.ctx with follow := (w, cause) } }

/-- What the current thread does at its turn: an instruction, or what happens instead. -/
inductive Turn
  | instr (i : Instr) (s : State)
  | other (s : State)

/-- The instruction that the current thread issues: from the latch, or fetched at the PC (during a repeat the word
after the `rpt`, with its fields stepped), decoded and put into the latch. -/
noncomputable def State.nextInstr (s : State) : Turn :=
  match s.ctx.latch with
  | some w =>
    match decodeChecked s.ctx.ctl.mode w with
    | .ok i => .instr i s
    | .error c => .other (s.takeTrap c (w.extractLsb' 0 64))
  | none =>
    let a := if s.ctx.rep.isSome then s.ctx.pc + 8 else s.ctx.pc
    match s.fetchWord a with
    | .wait s => .other s
    | .trap c v s => .other (s.takeTrap c v)
    | .ok (w, _) s =>
      let s := s.capture a.toNat w
      let w := match s.ctx.rep with
        | some (_, stride) => advance w s.ctx.ctl.rptix.toNat stride.toNat
        | none => w
      match decodeChecked s.ctx.ctl.mode w with
      | .error c => .other (s.takeTrap c (w.extractLsb' 0 64))
      | .ok i =>
        let s := { s with ctx := { s.ctx with latch := some w } }
        match i with
        | .rpt _ _ =>
          match s.lookPast with
          | .ok _ s => .instr i s
          | .wait s => .other s
          | .trap c v s => .other (s.trapAfterRpt c v)
        | _ => .instr i s

end

end Sys2Proof.Machine
end

