-- ==== Sys2Proof/Machine/Barrel.lean ====
section
/-! DEFINITION. The barrel core (07_core R142 to R151): the visit of a position, the order of work within a cycle, and
what one step does next. -/
namespace Sys2Proof.Machine

section

/-! ## Readiness (R143 to R147) -/

/-- Ready at a cycle: the cycle it became ready, or none. -/
def Wait.readyAt (w : Wait) (cycle : Nat) : Option Nat :=
  match w with
  | .ready c => if c ≤ cycle then some c else none
  | .timed _ c => if c ≤ cycle then some c else none
  | .away _ => none

/-- The class of a reason: 2 memory, 3 message, 4 vacant (R145). -/
def Reason.cls (r : Reason) : Nat :=
  match r with
  | .access | .bank | .page | .fetch | .storeQueue | .fence | .drain | .flush | .lookup | .stream | .timedMemory => 2
  | .presence | .fullEmpty | .allowance | .wakeWait | .jobWait | .channelWait | .counterWait | .jobTable
  | .channelQueue | .matrixQueue | .accumulator | .barrier | .remoteAtomic | .round | .timedMessage => 3
  | .longArith | .swap => 4

/-- The class of a wait; a thread that a residency wake has reached is ready from the next cycle (R150). -/
def Wait.cls (w : Wait) (cycle : Nat) : Nat :=
  match w with
  | .ready c => if c ≤ cycle then 4 else 2
  | .timed r c => if c ≤ cycle then 4 else r.cls
  | .away r => r.cls

/-- The class of an away context: what a debug host has written into its image stands for the rest of that wait (R254). -/
def Ctx.waitCls (c : Ctx) (cycle : Nat) : Nat := if c.cls = 0 then c.wait.cls cycle else c.cls.toNat

/-- The context is in steps 1 and 2 of `exit`: its position is not passed on before step 3 (R116, log 82). -/
def Ctx.exiting (c : Ctx) : Bool := c.inst && c.latch.any fun w => w.extractLsb' 2 8 = 0x1B

/-- A context issued in one of the cycles c - 7 to c - 1 (R144). -/
def Ctx.issuedLately (c : Ctx) (cycle : Nat) : Bool :=
  match c.lastIssue with
  | some l => decide (l < cycle) && decide (cycle < l + 8)
  | none => false

/-- The slots of a core that hold a ready context, with the cycle each became ready; a slot that is being swapped is vacant
(R153). -/
def State.readySlots (s : State) (core : Nat) : List (Nat × Nat) :=
  (List.range 16).filterMap fun i =>
    let c := s.ctxAt (core * 16 + i)
    if c.inst && !s.vacating (core * 16 + i) then (c.wait.readyAt s.cycle).map fun r => (i, r) else none

/-- The oldest waiting context, the lower slot first on a tie (R144). -/
def oldest : List (Nat × Nat) → Option Nat
  | [] => none
  | (i, r) :: rest =>
    match rest.foldl (fun (b : Nat × Nat) x => if x.2 < b.2 then x else b) (i, r) with
    | (j, _) => some j

/-- Which slot the visit of position p selects (R144). -/
def State.selects (s : State) (core p : Nat) : Option Nat :=
  let c := s.core core
  let ready := s.readySlots core
  let fresh (i : Nat) : Bool := !(s.ctxAt (core * 16 + i)).issuedLately s.cycle
  match c.holders[p]! with
  | some h =>
    if (ready.any fun x => x.1 = h) && fresh h then some h
    else if (s.ctxAt (core * 16 + h)).exiting then none
    else oldest (ready.filter fun x => !(c.holders.toList.contains (some x.1)) && fresh x.1)
  | none => oldest (ready.filter fun x => !(c.holders.toList.contains (some x.1)) && fresh x.1)

/-- The context that a visit selects holds the position, and issues now. -/
def State.issue (s : State) (core p slot : Nat) : State :=
  let s := s.modCore core fun c => { c with holders := c.holders.setIfInBounds p (some slot) }
  let s := s.switch (core * 16 + slot)
  let s := { s with ctx := { s.ctx with
    lastIssue := some s.cycle, wait := .ready ((s.ctx.wait.readyAt s.cycle).getD s.cycle) } }
  { (s.count core 1 p).count core 5 slot with turn := true }

/-- A cancelled unit of the core is stopped where its position is visited, or at any visit if it holds none
(R312). -/
def State.stopCancelled (s : State) (core p : Nat) : State :=
  (List.range 16).foldl (fun s i =>
    let t := core * 16 + i
    let c := s.ctxAt t
    if c.inst && c.cancelled &&
        ((s.core core).holders[p]! = some i || !((s.core core).holders.toList.contains (some i))) then
      s.withThread t fun s => (s.cancelEngines t).endUnit stCancel 0 0 true
    else s) s

/-- A core of a halted cluster issues nothing: the triggering core from the halt, every core of a cross-trigger or of
a step's end at once, every other core 6 cycles later (R252, R253). -/
def State.coreHalted (s : State) (core : Nat) : Bool :=
  let d := (s.cluster (clusterOf core)).dbg
  d.halted && (d.cause = 5 || d.cause = 6 || d.stopped.getLsbD (core % 8) || decide (d.haltAt + 6 ≤ s.cycle))

/-- The barrier that the latched `bar` of an away context waits at. -/
def Ctx.barOf (c : Ctx) : Option Nat :=
  match c.wait with
  | .ready _ => none
  | .away _ | .timed _ _ => c.latch.bind fun w =>
    let f := Fields.unpack w.toNat
    if f.op.val = 0x6C && f.minor = 0 then some (f.imm.toNat % 16) else none

/-- The cycles that a core's matrix queue head, its submissions and its threads in `bar` wait (R255). -/
def State.countWaits (s : State) (core : Nat) : State :=
  let c := clusterOf core
  let k := s.cluster c
  let s := if (k.queues.toList.getD (core % 8) []).isEmpty then s else s.count core 0x13 0
  let full := ((s.threadsOf core).filter fun t => decide ((s.ctxAt t).wait = .away .jobTable)).length
  let s := if full = 0 then s else s.countCluster c 0x21 0 full
  (s.threadsOf core).foldl (fun s t => match (s.ctxAt t).barOf with
    | some b => s.countCluster c 0x25 b 1
    | none => s) s

/-- The pending fault of a lost store, and the pending engine fault, that the selected thread takes before it issues (R89, R364,
R372). -/
def State.selectThread (s : State) (core slot : Nat) : State :=
  let s := s.switch (core * 16 + slot)
  let s := match s.ctx.lostStore with
    | some a => { s with ctx := { s.ctx with lostStore := none } }.takeTrap causeDataLost a
    | none => s
  if s.ctx.efaults ≠ [] && s.ctx.ctl.mode = 0 then s.takeEngineFault else s

/-- ROTATION_VISIT: the histogram, the selection, and before the issue the pending engine fault and then the breakpoints
(R89, R144 to R147, R251). -/
def execRotationVisit (core : Nat) (s : State) : Res :=
  if s.coreHalted core then .next s
  else
    let p := s.cycle % 8
    let s := s.stopCancelled core p
    let n := (s.readySlots core).length
    let s := (if n = 0 then s else s.count core 8 n).countWaits core
    match s.selects core p with
    | none =>
      match (s.core core).holders[p]! with
      | none => .next s
      | some h =>
        let k := (s.ctxAt (core * 16 + h)).waitCls s.cycle
        .next (if k = 2 || k = 3 then (s.count core k p).count core (k + 4) h else s)
    | some slot =>
      let s := s.selectThread core slot
      if s.ctx.inst then
        match s.breakHit with
        | some i => .next (s.breakHalt i)
        | none => .next (s.issue core p slot)
      else .next s

/-! ## What a step does (R148; the order within a cycle, log 4) -/

/-- A step runs one instruction or event, or moves the machine on. -/
inductive Action
  | run (i : Instr) (s : State)
  | done (s : State)

/-- The current thread's instruction. -/
noncomputable def State.runThread (s : State) : Action :=
  if s.ctx.inst then
    match s.nextInstr with
    | .instr i s => .run i s
    | .other s => .done s
  else .done s

/-- The next core to visit in this cycle: the lowest one not passed yet that holds a context, one that has come in this
cycle included (R142). -/
def State.nextVisit (s : State) : Option Nat :=
  s.allThreads.foldl (fun b t =>
    let k := coreOf t
    if s.visitFrom ≤ k && (b.all fun x => k < x) then some k else b) none

/-- The replay that a bank serves in place of a thread's: that of the oldest waiter on the same word (R133). -/
def State.replayFirst (s : State) (t : Nat) : Nat :=
  match (s.ctxAt t).firstAttempt with
  | none => t
  | some (c, w) => (s.replays.foldl (fun (b : Nat × Nat) u =>
      match (s.ctxAt u).firstAttempt with
      | some (d, x) => if x = w && d < b.1 then (d, u) else b
      | none => b) (c, t)).2

def State.replayNow (s : State) (t : Nat) : State :=
  let t := s.replayFirst t
  { s with replays := NatSet.erase s.replays t, kicks := [t] }

/-- The next cycle: a latched instruction whose time has come goes on by itself (R87). -/
def State.toCycle (s : State) (c : Nat) : State :=
  let due (t : Nat) : Bool := (s.ctxAt t).latch.isSome && match (s.ctxAt t).wait with
    | .timed _ x => decide (x ≤ c)
    | _ => false
  { s with cycle := c, visitFrom := 0, kicks := s.allThreads.filter due }

/-- The visits of this cycle in rising core order, each after the full/empty replays of its core and of lower ones
(R200), then the next cycle. -/
def State.visitNext (s : State) : Action :=
  match s.replays, s.nextVisit with
  | t :: _, none => .done (s.replayNow t)
  | t :: _, some k =>
    if coreOf t ≤ k then .done (s.replayNow t)
    else .run (.rotationVisit k) { s with visitFrom := k + 1 }
  | [], some k => .run (.rotationVisit k) { s with visitFrom := k + 1 }
  | [], none => .done (s.toCycle (s.cycle + 1))

/-- Of the latched instructions that go on in a cycle, the one that issued first goes first, among those of one cycle the
one of the lowest core (R200). -/
def State.nextKick (s : State) : Option Nat :=
  let issued (t : Nat) : Nat := ((s.ctxAt t).lastIssue).getD 0
  s.kicks.foldl (fun b t => match b with
    | none => some t
    | some u => if issued t < issued u || (issued t = issued u && t < u) then some t else b) none

/-- The latched instructions that go on now, then the visits of this cycle. -/
noncomputable def State.kicksThenVisits (s : State) : Action :=
  match s.nextKick with
  | some t =>
    let s := ({ s with kicks := s.kicks.erase t }).switch t
    if s.ctx.latch.isSome then s.runThread else .done s
  | none => s.visitNext

/-- An issue that a visit decided, then the messages that are due, then the latched instructions that go on, whose results
are the threads' own (R148), then the probes that are due (R291), then the visits of this cycle, then the next cycle. -/
noncomputable def State.nextAction (s : State) : Action :=
  if s.turn then State.runThread { s with turn := false }
  else match s.agenda with
    | (c, e) :: rest =>
      if c ≤ s.cycle && (s.kicks.isEmpty || decide (eventOrder e < 3)) then .run e { s with agenda := rest }
      else s.kicksThenVisits
    | [] => s.kicksThenVisits

/-- The slot's bytes for `withFetchWord`: the current thread is installed and about to run the word, which stands at
the start of its fetch block (log 5). -/
def State.placeWord (s : State) (w : Nat) : State :=
  let base := s.ctx.pc.toNat / 32 * 32
  let s := s.modCore s.myCore fun c => { c with loopBuf := [] }
  { s with
    turn := true
    ctx := { s.ctx with
      inst := true, latch := none, rep := none, wait := .ready s.cycle, pc := BitVec.ofNat 64 base,
      fblock := some { addr := base, data := BitVec.ofNat 256 w, once := false } } }

end

end Sys2Proof.Machine
end

