-- ==== Sys2Proof/Machine/Integer.lean ====
section
/-! DEFINITION. Integer instructions (05_core_ops R96 to R104): arithmetic and logic, division, constants, compares,
select, bit fields and addresses. -/
namespace Sys2Proof.Machine

/-! ## The functions of R97, R58, R101 and R103 -/

/-- High 64 bits of the signed product. -/
def mulhS (x y : Word) : Word := BitVec.ofInt 64 (x.toInt * y.toInt / 2 ^ 64)
/-- High 64 bits of the unsigned product. -/
def mulhU (x y : Word) : Word := BitVec.ofNat 64 (x.toNat * y.toNat / 2 ^ 64)
/-- The shift amount of the register form: bits 5 to 0 (R97). An immediate amount lies in 0 to 63. -/
def shamt (y : Word) : Nat := y.toNat % 64
def shlW (x y : Word) : Word := x <<< shamt y
def shrW (x y : Word) : Word := x >>> shamt y
def sarW (x y : Word) : Word := x.sshiftRight (shamt y)
def rotrW (x y : Word) : Word := x.rotateRight (shamt y)
def minS (x y : Word) : Word := if x.toInt ≤ y.toInt then x else y
def maxS (x y : Word) : Word := if x.toInt ≤ y.toInt then y else x
def minU (x y : Word) : Word := if x.toNat ≤ y.toNat then x else y
def maxU (x y : Word) : Word := if x.toNat ≤ y.toNat then y else x
/-- Bits of the number: 0 for 0, else one more than the place of the highest one bit. -/
def clzW (x : Word) : Word := BitVec.ofNat 64 (64 - bitLength x.toNat)
/-- The place of the lowest one bit, from place `i` up, or 64. -/
def ctzFrom (x : Nat) : Nat → Nat → Nat
  | 0, _ => 64
  | n + 1, i => if x.testBit i then i else ctzFrom x n (i + 1)
def ctzW (x : Word) : Word := BitVec.ofNat 64 (ctzFrom x.toNat 64 0)
def popcW (x : Word) : Word := BitVec.ofNat 64 (popCount x.toNat 64)
def srcBits : SrcWidth → Nat
  | .b => 8 | .h => 16 | .w => 32
def sextW (sw : SrcWidth) (x : Word) : Word := (x.extractLsb' 0 (srcBits sw)).signExtend 64
def zextW (sw : SrcWidth) (x : Word) : Word := (x.extractLsb' 0 (srcBits sw)).zeroExtend 64

/-- The four divisions with the edge cases of R58. -/
def divS (x y : Word) : Word := if y = 0 then BitVec.allOnes 64 else BitVec.ofInt 64 (x.toInt.tdiv y.toInt)
def divU (x y : Word) : Word := if y = 0 then BitVec.allOnes 64 else BitVec.ofNat 64 (x.toNat / y.toNat)
def remS (x y : Word) : Word := if y = 0 then x else BitVec.ofInt 64 (x.toInt.tmod y.toInt)
def remU (x y : Word) : Word := if y = 0 then x else BitVec.ofNat 64 (x.toNat % y.toNat)

/-- The conditions of R101. -/
inductive Cond | eq | ne | lt | ge | ltu | geu
  deriving DecidableEq, Repr
def Cond.holds (c : Cond) (x y : Word) : Bool :=
  match c with
  | .eq => x = y
  | .ne => x ≠ y
  | .lt => x.toInt < y.toInt
  | .ge => y.toInt ≤ x.toInt
  | .ltu => x.toNat < y.toNat
  | .geu => y.toNat ≤ x.toNat

/-! ## Shared forms -/

/-- Two g-sources, one g-result, 8 bytes (R97). -/
def intReg (f : Word → Word → Word) (d a b : GReg) (s : State) : Res :=
  withG [a, b] s (.next ((s.setG d (f (s.g a) (s.g b)) (s.anyTaint [a, b])).finish 8))
/-- One g-source and an immediate, `n` bytes. -/
def intImm (f : Word → Word → Word) (d a : GReg) (y : Word) (n : Nat) (s : State) : Res :=
  withG [a] s (.next ((s.setG d (f (s.g a) y) (s.taint a)).finish n))
/-- One g-source. -/
def intUnary (f : Word → Word) (d a : GReg) (s : State) : Res :=
  withG [a] s (.next ((s.setG d (f (s.g a)) (s.taint a)).finish 8))
/-- A division: the PC passes it, and the divider writes D 22 cycles after the issue (R98). -/
def State.divide (s : State) (d : GReg) (v : Word) (taint : Bool) (n : Nat) : State :=
  ((s.finish n).park .longArith).schedule 22 (.dividerResult s.cur d v taint)
def divReg (f : Word → Word → Word) (d a b : GReg) (s : State) : Res :=
  withG [a, b] s (.next (s.divide d (f (s.g a) (s.g b)) (s.anyTaint [a, b]) 8))
def divImm (f : Word → Word → Word) (d a : GReg) (y : Word) (n : Nat) (s : State) : Res :=
  withG [a] s (.next (s.divide d (f (s.g a) y) (s.taint a) n))
/-- A compare writes 1 or 0 (R101). -/
def condW (c : Cond) (x y : Word) : Word := if c.holds x y then 1 else 0

/-! ## The meanings (R97, R98) -/

def execAddReg (d a b : GReg) (s : State) : Res := intReg (fun x y => x + y) d a b s
def execAddImm (d a : GReg) (imm : BitVec 17) (s : State) : Res := intImm (fun x y => x + y) d a (simm imm) 8 s
def execAddImm32 (d a : GReg) (imm : BitVec 32) (s : State) : Res := intImm (fun x y => x + y) d a (simm imm) 12 s
def execSubReg (d a b : GReg) (s : State) : Res := intReg (fun x y => x - y) d a b s
def execSubImm (d a : GReg) (imm : BitVec 17) (s : State) : Res := intImm (fun x y => x - y) d a (simm imm) 8 s
def execSubImm32 (d a : GReg) (imm : BitVec 32) (s : State) : Res := intImm (fun x y => x - y) d a (simm imm) 12 s
def execMulReg (d a b : GReg) (s : State) : Res := intReg (fun x y => x * y) d a b s
def execMulImm (d a : GReg) (imm : BitVec 17) (s : State) : Res := intImm (fun x y => x * y) d a (simm imm) 8 s
def execMulImm32 (d a : GReg) (imm : BitVec 32) (s : State) : Res := intImm (fun x y => x * y) d a (simm imm) 12 s
def execMulhReg (d a b : GReg) (s : State) : Res := intReg mulhS d a b s
def execMulhImm (d a : GReg) (imm : BitVec 17) (s : State) : Res := intImm mulhS d a (simm imm) 8 s
def execMulhImm32 (d a : GReg) (imm : BitVec 32) (s : State) : Res := intImm mulhS d a (simm imm) 12 s
def execMulhuReg (d a b : GReg) (s : State) : Res := intReg mulhU d a b s
def execMulhuImm (d a : GReg) (imm : BitVec 17) (s : State) : Res := intImm mulhU d a (simm imm) 8 s
def execMulhuImm32 (d a : GReg) (imm : BitVec 32) (s : State) : Res := intImm mulhU d a (simm imm) 12 s
def execAndReg (d a b : GReg) (s : State) : Res := intReg (fun x y => x &&& y) d a b s
def execAndImm (d a : GReg) (imm : BitVec 17) (s : State) : Res := intImm (fun x y => x &&& y) d a (simm imm) 8 s
def execAndImm32 (d a : GReg) (imm : BitVec 32) (s : State) : Res := intImm (fun x y => x &&& y) d a (simm imm) 12 s
def execOrReg (d a b : GReg) (s : State) : Res := intReg (fun x y => x ||| y) d a b s
def execOrImm (d a : GReg) (imm : BitVec 17) (s : State) : Res := intImm (fun x y => x ||| y) d a (simm imm) 8 s
def execOrImm32 (d a : GReg) (imm : BitVec 32) (s : State) : Res := intImm (fun x y => x ||| y) d a (simm imm) 12 s
def execXorReg (d a b : GReg) (s : State) : Res := intReg (fun x y => x ^^^ y) d a b s
def execXorImm (d a : GReg) (imm : BitVec 17) (s : State) : Res := intImm (fun x y => x ^^^ y) d a (simm imm) 8 s
def execXorImm32 (d a : GReg) (imm : BitVec 32) (s : State) : Res := intImm (fun x y => x ^^^ y) d a (simm imm) 12 s
def execAndnReg (d a b : GReg) (s : State) : Res := intReg (fun x y => x &&& ~~~y) d a b s
def execAndnImm (d a : GReg) (imm : BitVec 17) (s : State) : Res := intImm (fun x y => x &&& ~~~y) d a (simm imm) 8 s
def execAndnImm32 (d a : GReg) (imm : BitVec 32) (s : State) : Res := intImm (fun x y => x &&& ~~~y) d a (simm imm) 12 s
def execShlReg (d a b : GReg) (s : State) : Res := intReg shlW d a b s
def execShlImm (d a : GReg) (imm : BitVec 17) (s : State) : Res := intImm shlW d a (simm imm) 8 s
def execShlImm32 (d a : GReg) (imm : BitVec 32) (s : State) : Res := intImm shlW d a (simm imm) 12 s
def execShrReg (d a b : GReg) (s : State) : Res := intReg shrW d a b s
def execShrImm (d a : GReg) (imm : BitVec 17) (s : State) : Res := intImm shrW d a (simm imm) 8 s
def execShrImm32 (d a : GReg) (imm : BitVec 32) (s : State) : Res := intImm shrW d a (simm imm) 12 s
def execSarReg (d a b : GReg) (s : State) : Res := intReg sarW d a b s
def execSarImm (d a : GReg) (imm : BitVec 17) (s : State) : Res := intImm sarW d a (simm imm) 8 s
def execSarImm32 (d a : GReg) (imm : BitVec 32) (s : State) : Res := intImm sarW d a (simm imm) 12 s
def execRotrReg (d a b : GReg) (s : State) : Res := intReg rotrW d a b s
def execRotrImm (d a : GReg) (imm : BitVec 17) (s : State) : Res := intImm rotrW d a (simm imm) 8 s
def execRotrImm32 (d a : GReg) (imm : BitVec 32) (s : State) : Res := intImm rotrW d a (simm imm) 12 s
def execMinReg (d a b : GReg) (s : State) : Res := intReg minS d a b s
def execMinImm (d a : GReg) (imm : BitVec 17) (s : State) : Res := intImm minS d a (simm imm) 8 s
def execMinImm32 (d a : GReg) (imm : BitVec 32) (s : State) : Res := intImm minS d a (simm imm) 12 s
def execMaxReg (d a b : GReg) (s : State) : Res := intReg maxS d a b s
def execMaxImm (d a : GReg) (imm : BitVec 17) (s : State) : Res := intImm maxS d a (simm imm) 8 s
def execMaxImm32 (d a : GReg) (imm : BitVec 32) (s : State) : Res := intImm maxS d a (simm imm) 12 s
def execMinuReg (d a b : GReg) (s : State) : Res := intReg minU d a b s
def execMinuImm (d a : GReg) (imm : BitVec 17) (s : State) : Res := intImm minU d a (simm imm) 8 s
def execMinuImm32 (d a : GReg) (imm : BitVec 32) (s : State) : Res := intImm minU d a (simm imm) 12 s
def execMaxuReg (d a b : GReg) (s : State) : Res := intReg maxU d a b s
def execMaxuImm (d a : GReg) (imm : BitVec 17) (s : State) : Res := intImm maxU d a (simm imm) 8 s
def execMaxuImm32 (d a : GReg) (imm : BitVec 32) (s : State) : Res := intImm maxU d a (simm imm) 12 s
def execDivReg (d a b : GReg) (s : State) : Res := divReg divS d a b s
def execDivImm (d a : GReg) (imm : BitVec 17) (s : State) : Res := divImm divS d a (simm imm) 8 s
def execDivImm32 (d a : GReg) (imm : BitVec 32) (s : State) : Res := divImm divS d a (simm imm) 12 s
def execDivuReg (d a b : GReg) (s : State) : Res := divReg divU d a b s
def execDivuImm (d a : GReg) (imm : BitVec 17) (s : State) : Res := divImm divU d a (simm imm) 8 s
def execDivuImm32 (d a : GReg) (imm : BitVec 32) (s : State) : Res := divImm divU d a (simm imm) 12 s
def execRemReg (d a b : GReg) (s : State) : Res := divReg remS d a b s
def execRemImm (d a : GReg) (imm : BitVec 17) (s : State) : Res := divImm remS d a (simm imm) 8 s
def execRemImm32 (d a : GReg) (imm : BitVec 32) (s : State) : Res := divImm remS d a (simm imm) 12 s
def execRemuReg (d a b : GReg) (s : State) : Res := divReg remU d a b s
def execRemuImm (d a : GReg) (imm : BitVec 17) (s : State) : Res := divImm remU d a (simm imm) 8 s
def execRemuImm32 (d a : GReg) (imm : BitVec 32) (s : State) : Res := divImm remU d a (simm imm) 12 s
def execClz (d a : GReg) (s : State) : Res := intUnary clzW d a s
def execCtz (d a : GReg) (s : State) : Res := intUnary ctzW d a s
def execPopc (d a : GReg) (s : State) : Res := intUnary popcW d a s
def execSext (d a : GReg) (sw : SrcWidth) (s : State) : Res := intUnary (sextW sw) d a s
def execZext (d a : GReg) (sw : SrcWidth) (s : State) : Res := intUnary (zextW sw) d a s
/-- Low 64 bits of gA × gB + gC. -/
def execMadd (d a b c : GReg) (s : State) : Res :=
  withG [a, b, c] s (.next ((s.setG d (s.g a * s.g b + s.g c) (s.anyTaint [a, b, c])).finish 8))

/-- DIVIDER_RESULT: the divider writes D, and the thread is ready (R98). -/
def execDividerResult (t : Nat) (d : GReg) (v : Word) (taint : Bool) (s : State) : Res :=
  if (s.ctxAt t).wait = .away .longArith then
    .next (s.modCtxAt t fun c => { c with regs := c.regs.setG d v taint, wait := .ready s.cycle })
  else .next s

/-! ## Constants, compares, select, bit fields, addresses (R99 to R104) -/

def execMovi (d : GReg) (v : BitVec 64) (s : State) : Res := .next ((s.setG d v false).finish 16)
def execNop (s : State) : Res := .next (s.finish 8)
def execNopl (s : State) : Res := .next (s.finish 12)
def execCmpEqReg (d a b : GReg) (s : State) : Res := intReg (condW .eq) d a b s
def execCmpEqImm (d a : GReg) (imm : BitVec 17) (s : State) : Res := intImm (condW .eq) d a (simm imm) 8 s
def execCmpNeReg (d a b : GReg) (s : State) : Res := intReg (condW .ne) d a b s
def execCmpNeImm (d a : GReg) (imm : BitVec 17) (s : State) : Res := intImm (condW .ne) d a (simm imm) 8 s
def execCmpLtReg (d a b : GReg) (s : State) : Res := intReg (condW .lt) d a b s
def execCmpLtImm (d a : GReg) (imm : BitVec 17) (s : State) : Res := intImm (condW .lt) d a (simm imm) 8 s
def execCmpGeReg (d a b : GReg) (s : State) : Res := intReg (condW .ge) d a b s
def execCmpGeImm (d a : GReg) (imm : BitVec 17) (s : State) : Res := intImm (condW .ge) d a (simm imm) 8 s
def execCmpLtuReg (d a b : GReg) (s : State) : Res := intReg (condW .ltu) d a b s
def execCmpLtuImm (d a : GReg) (imm : BitVec 17) (s : State) : Res := intImm (condW .ltu) d a (simm imm) 8 s
def execCmpGeuReg (d a b : GReg) (s : State) : Res := intReg (condW .geu) d a b s
def execCmpGeuImm (d a : GReg) (imm : BitVec 17) (s : State) : Res := intImm (condW .geu) d a (simm imm) 8 s
/-- D := gA when gC ≠ 0, else gB; all three are read (R102). -/
def execSel (d a b c : GReg) (s : State) : Res :=
  withG [a, b, c] s (.next ((s.setG d (if s.g c ≠ 0 then s.g a else s.g b) (s.anyTaint [a, b, c])).finish 8))
/-- gA[pos + len - 1 : pos] zero-extended (R103). -/
def execBfxUnsigned (d a : GReg) (pos : BitVec 6) (len : BitVec 7) (s : State) : Res :=
  intUnary (fun x => (x.extractLsb' pos.toNat len.toNat).zeroExtend 64) d a s
/-- The same field sign-extended (R103). -/
def execBfxSigned (d a : GReg) (pos : BitVec 6) (len : BitVec 7) (s : State) : Res :=
  intUnary (fun x => (x.extractLsb' pos.toNat len.toNat).signExtend 64) d a s
/-- gD with bits [pos + len - 1 : pos] from gA[len - 1 : 0] (R103). -/
def insertField (old x : Word) (pos len : Nat) : Word :=
  (old &&& ~~~(maskBits pos len)) ||| ((x <<< pos) &&& maskBits pos len)
/-- D is a source as well (R103). -/
def execBfi (d a : GReg) (pos : BitVec 6) (len : BitVec 7) (s : State) : Res :=
  withG [d, a] s (.next ((s.setG d (insertField (s.g d) (s.g a) pos.toNat len.toNat) (s.anyTaint [d, a])).finish 8))
/-- gA + (gB << scale) + disp; no address check (R104). -/
def execLea (d a b : GReg) (scale : BitVec 2) (disp : BitVec 17) (s : State) : Res :=
  withG [a, b] s (.next ((s.setG d (s.ea a b scale (simm disp)) (s.anyTaint [a, b])).finish 8))

end Sys2Proof.Machine
end

