-- ==== Sys2Proof/Machine/Control.lean ====
section
/-! DEFINITION. Control and system instructions (05_core_ops R105 to R116, 04_thread R83 to R90), the hardware loops
and the repeat prefix (08_core R187 to R190). -/
namespace Sys2Proof.Machine

/-! ## Branches and calls (R105) -/

/-- The address of the current instruction plus `n`. -/
def State.pcPlus (s : State) (n : Word) : Word := s.ctx.pc + n

def execBr (disp : BitVec 17) (s : State) : Res := .next (s.jump (s.pcPlus (disp4 disp)))
/-- The branch is taken when the condition holds; else the next instruction follows. -/
def branchIf (c : Cond) (a b : GReg) (disp : BitVec 17) (s : State) : Res :=
  withG [a, b] s (.next (if c.holds (s.g a) (s.g b) then s.jump (s.pcPlus (disp4 disp)) else s.finish 8))
def execBcmpEq (a b : GReg) (disp : BitVec 17) (s : State) : Res := branchIf .eq a b disp s
def execBcmpNe (a b : GReg) (disp : BitVec 17) (s : State) : Res := branchIf .ne a b disp s
def execBcmpLt (a b : GReg) (disp : BitVec 17) (s : State) : Res := branchIf .lt a b disp s
def execBcmpGe (a b : GReg) (disp : BitVec 17) (s : State) : Res := branchIf .ge a b disp s
def execBcmpLtu (a b : GReg) (disp : BitVec 17) (s : State) : Res := branchIf .ltu a b disp s
def execBcmpGeu (a b : GReg) (disp : BitVec 17) (s : State) : Res := branchIf .geu a b disp s
/-- The link is the address of the next instruction, untainted. -/
def execJal (d : GReg) (disp : BitVec 32) (s : State) : Res :=
  .next ((s.setG d (s.pcPlus 12) false).jump (s.pcPlus (disp4 disp)))
/-- The target is computed before the link is written; its displacement counts bytes. -/
def execJr (d a : GReg) (disp : BitVec 17) (s : State) : Res :=
  withG [a] s (.next ((s.setG d (s.pcPlus 8) false).jump (s.g a + simm disp)))

/-! ## Traps, breakpoints and return (R90, R107, R108, R405) -/

def execTrap (code : BitVec 16) (s : State) : Res := trapTo s causeSoftware (code.zeroExtend 64)

/-- A captured `brk` halts the cluster; the context continues 8 bytes after it (R107, R251, R253). -/
def State.brkHalt (s : State) : State :=
  let pc := s.ctx.pc
  let s := s.hitHalt 4 (s.cluster s.myCluster).dbg.index.toNat id
  { s with ctx := { s.ctx.settled s.cycle with pc := pc + 8, rep := none } }
def execBrk (code : BitVec 16) (s : State) : Res :=
  if (s.cluster s.myCluster).dbg.dctl.getLsbD 5 && s.ctx.ctl.mode ≠ 2 then .next s.brkHalt
  else trapTo s causeBreak (code.zeroExtend 64)

def execRett (s : State) : Res :=
  if s.ctx.ctl.mode = 0 then privileged s
  else if s.ctx.ctl.pmode = 3 then illegal s
  else .next (s.trapReturn s.ctx.ctl.tepc)

/-- The head of an `rpt`: a 64-bit word with its OP. DESIGN CHOICE (log 42): one that its other fields make illegal counts as
one too. -/
def isRepeat (h : Nat) : Bool := h % 4 = 0 && headMajor h = 0x1E

/-- The word at TEPC is passed by its length; at an `rpt` the word after it too, and RPTIX := 0 (R190). -/
def execRettSkip (s : State) : Res :=
  let tepc := s.ctx.ctl.tepc
  if s.ctx.ctl.mode = 0 then privileged s
  else if s.ctx.ctl.pmode = 3 then illegal s
  else match s.fetchHead tepc with
    | .wait s => .next s
    | .trap c v s => trapTo s c v
    | .ok h s =>
      if isRepeat h then
        match s.fetchHead (tepc + 8) with
        | .wait s => .next s
        | .trap c v s => trapTo s c v
        | .ok h' s =>
          .next ((s.modCtl fun c => { c with rptix := 0, rpta := false }).trapReturn (tepc + 8 + headBytes h'))
      else .next (s.trapReturn (tepc + headBytes h))

/-! ## Control registers (R83 to R86, R109) -/

/-- The access of a mode to a control register: 0 none, 1 read, 2 read and write (R83). -/
def crAccess (mode : BitVec 2) (idx : Nat) : Nat :=
  if idx = 0x000 || idx = 0x001 || idx = 0x00A || idx = 0x00C || idx = 0x00D then 2
  else if idx = 0x011 || idx = 0x012 || idx = 0x013 || 0x020 ≤ idx then 1
  else if mode = 2 then 2
  else if idx = 0x007 then 0
  else if mode = 1 && (idx = 0x003 || idx = 0x004 || idx = 0x005 || idx = 0x006 || idx = 0x009 || idx = 0x00E) then 2
  else 1

/-- TSTAT as read (R84). -/
def State.tstat (s : State) : Word :=
  let c := s.ctx.ctl
  let b (x : Bool) (i : Nat) : Nat := if x then 2 ^ i else 0
  BitVec.ofNat 64 (c.mode.toNat + 4 * c.pmode.toNat + b c.wake 5 + b c.rpta 6 + b (s.ctx.efaults ≠ []) 7)

/-- The value of a control register. -/
def State.readCR (s : State) (idx : Nat) : Word :=
  let c := s.ctx.ctl
  match idx with
  | 0x000 => c.rmode.zeroExtend 64
  | 0x001 => c.fflags.zeroExtend 64
  | 0x002 => s.tstat
  | 0x003 => c.tepc
  | 0x004 => c.tcause
  | 0x005 => c.tval
  | 0x006 => c.tlanes
  | 0x007 => c.tdeleg
  | 0x008 => c.thandler
  | 0x009 => c.rptix.zeroExtend 64
  | 0x00A => c.vlive.zeroExtend 64
  | 0x00B => c.ptime.zeroExtend 64
  | 0x00C => c.lease.zeroExtend 64
  | 0x00D => c.retrylim.zeroExtend 64
  | 0x00E => (s.ctx.regs.gTaint &&& ~~~1#32).zeroExtend 64
  | 0x00F => (s.ctx.regs.gPres ||| 1#32).zeroExtend 64
  | 0x010 => s.ctx.regs.vPres.zeroExtend 64
  | 0x011 => BitVec.ofNat 64 s.cur
  | 0x012 => BitVec.ofNat 64 s.ctx.job
  | 0x013 => BitVec.ofNat 64 s.cycle
  | 0x014 => c.domain.zeroExtend 64
  | n => (s.cluster s.myCluster).channels.toList.getD (n - 0x020) Channel.reset |>.chwp

/-- A value within the range of a control register (R6, R64, R65, R83 to R86). DEDUCED (log 84): a CAUSE of 17 to 31 in
TCAUSE is within the field's range; R86 gives it no code and does not mark it reserved. -/
def crRangeOk (idx : Nat) (x : Word) : Bool :=
  let n := x.toNat
  match idx with
  | 0x000 => n < 32 && n % 8 ≤ 4
  | 0x001 => n < 32
  | 0x002 => n < 256 && !x.getLsbD 4 && n % 4 ≠ 3
  | 0x003 | 0x008 => n % 4 = 0
  | 0x004 => n < 64
  | 0x007 => !x.getLsbD 0 && n < 2 ^ 17
  | 0x009 => n < 1024
  | 0x00A | 0x00E | 0x00F | 0x010 => n < 2 ^ 32
  | 0x00B => n < 2 ^ 24
  | 0x00C | 0x00D => 1 ≤ n && n < 65536
  | 0x014 => n < 65536
  | _ => true

/-- A control register replaced (R109); bit 0 of TAINT is ignored and of PRES stays 1. -/
def State.writeCR (s : State) (idx : Nat) (x : Word) : State :=
  match idx with
  | 0x000 => s.modCtl fun c => { c with rmode := x.extractLsb' 0 5 }
  | 0x001 => s.modCtl fun c => { c with fflags := x.extractLsb' 0 5 }
  | 0x002 => s.modCtl fun c => { c with mode := x.extractLsb' 0 2, pmode := x.extractLsb' 2 2 }
  | 0x003 => s.modCtl fun c => { c with tepc := x }
  | 0x004 => s.modCtl fun c => { c with tcause := x }
  | 0x005 => s.modCtl fun c => { c with tval := x }
  | 0x006 => s.modCtl fun c => { c with tlanes := x }
  | 0x007 => s.modCtl fun c => { c with tdeleg := x }
  | 0x008 => s.modCtl fun c => { c with thandler := x }
  | 0x009 => s.modCtl fun c => { c with rptix := x.extractLsb' 0 10 }
  | 0x00A => s.modCtl fun c => { c with vlive := x.extractLsb' 0 32 }
  | 0x00B => s.modCtl fun c => { c with ptime := x.extractLsb' 0 24 }
  | 0x00C => s.modCtl fun c => { c with lease := x.extractLsb' 0 16 }
  | 0x00D => s.modCtl fun c => { c with retrylim := x.extractLsb' 0 16 }
  | 0x00E => s.modRegs fun r => { r with gTaint := x.extractLsb' 0 32 &&& ~~~1#32 }
  | 0x00F => s.modRegs fun r => { r with gPres := x.extractLsb' 0 32 ||| 1#32 }
  | 0x010 => s.modRegs fun r => { r with vPres := x.extractLsb' 0 32 }
  | 0x014 => s.modCtl fun c => { c with domain := x.extractLsb' 0 16 }
  | _ => s

def execRdcr (d : GReg) (idx : BitVec 12) (s : State) : Res :=
  if crAccess s.ctx.ctl.mode idx.toNat = 0 then privileged s
  else .next ((s.setG d (s.readCR idx.toNat) false).finish 8)

/-- The source is present first (R81), then the right, then the range (R109). -/
def execWrcr (a : GReg) (idx : BitVec 12) (s : State) : Res :=
  withG [a] s
    (if crAccess s.ctx.ctl.mode idx.toNat ≠ 2 then privileged s
     else if crRangeOk idx.toNat (s.g a) then .next ((s.writeCR idx.toNat (s.g a)).finish 8)
     else illegal s)

/-- The package time: TBASE + CYCLE / 3 (R110). -/
def execRdtime (d : GReg) (s : State) : Res :=
  .next ((s.setG d (s.pkg.tbase + BitVec.ofNat 64 (s.cycle / 3)) false).finish 8)

/-! ## Waiting, waking, yielding and ending (R111 to R116) -/

def execWait (s : State) : Res :=
  if s.ctx.ctl.wake then .next ((s.modCtl fun c => { c with wake := false }).finish 8)
  else .next (s.park .wakeWait)

/-- The slot holds a thread of the job, or the thread that held it has moved on (R113, R158). -/
def State.holdsThread (s : State) (t job : Nat) : Bool :=
  ((s.ctxAt t).inst && (s.ctxAt t).job = job) || (Table.get? (s.core (coreOf t)).forward t).isSome

def execWake (a : GReg) (s : State) : Res :=
  withG [a] s
    (let t := (s.g a).toNat
     if t ≥ 65536 then trapTo s causeAddress (s.g a)
     else if !s.boundTo (coreOf t) s.ctx.job then trapTo s causeProtection (s.g a)
     else
       let s := s.finish 8
       if t = s.cur then .next (s.modCtx Ctx.setWake)
       else if s.holdsThread t s.ctx.job then
         .next (s.post s.myCore 1 0 (msgCycles s.myCore (coreOf t)) (.wakeDelivery t s.ctx.job)).1
       else .next s)

/-- WAKE_DELIVERY: the bit is set, and a waiting thread goes on (R111, R112). -/
def execWakeDelivery (t job : Nat) (s : State) : Res :=
  .next (s.deliver noThread t job 1 (fun t' => .wakeDelivery t' job) Ctx.setWake id)

/-- Another ready context of the core waits for a position. -/
def State.othersWait (s : State) : Bool :=
  let c := s.core s.myCore
  (List.range 16).any fun i =>
    let x := s.ctxAt (s.myCore * 16 + i)
    i ≠ slotOf s.cur && x.inst && !(c.holders.toList.contains (some i)) && !s.vacating (s.myCore * 16 + i) &&
      (match x.wait with | .ready r => decide (r ≤ s.cycle) | .timed _ r => decide (r ≤ s.cycle) | .away _ => false)

/-- The position is offered to a waiting context; with none the thread goes on as after a `nop` (R115). DEDUCED (log 83):
the yielding thread counts as ready from the next cycle, so every context that waited at the `yield` is older. -/
def execYield (s : State) : Res :=
  let s' := s.finish 8
  if s.othersWait then
    .next { (s'.modCore s'.myCore fun c =>
        { c with holders := c.holders.map fun h => if h = some (slotOf s'.cur) then none else h })
      with ctx := { s'.ctx with wait := .ready (s'.cycle + 1) } }
  else .next s'

/-- Every earlier store, atomic and write-through of a thread has performed (R116 step 1, R185). -/
def State.storesDone (s : State) (t : Nat) : Bool :=
  let k := s.core (coreOf t)
  (k.queue.all fun e => e.thread ≠ t) && decide ((s.ctxAt t).sent ≤ s.cycle) &&
    ((s.ctxAt t).streams.toList.all fun x => match x with
      | some st => !st.write || st.buf.isEmpty
      | none => true)
/-- Where a thread that sent from an address is now, if it has migrated since. -/
def State.movedTo (s : State) : Nat → Nat → Nat
  | 0, t => t
  | n + 1, t =>
    if (s.ctxAt t).inst then t
    else match Table.get? (s.core (coreOf t)).forward t with
      | some v => if v < inBuffer then State.movedTo s n v else t
      | none => t
/-- Every `rput`, send and other message of a thread has arrived and has been applied, one that is held with a packet too
(R116 step 1, R158). -/
def State.messagesDone (s : State) (t : Nat) : Bool :=
  decide ((s.ctxAt t).msgAt ≤ s.cycle) && ((s.core (coreOf t)).deferred.all fun d => d.thread ≠ t) &&
    s.cores.all fun (_, c) => c.packets.all fun p => p.held.all fun h => s.movedTo 64 h.1 ≠ t
/-- Every copy and matrix command of a thread has ended, and the signal of a fault has come (R116 step 2). -/
def State.enginesDone (s : State) (t : Nat) : Bool :=
  (s.clusters.all fun (_, c) =>
    (c.jobs.all fun (_, e) => !(e.taken && e.engine && e.thread = t && e.state ≤ 1)) &&
      (c.queues.toList.all fun q => q.all fun o => o.thread ≠ t) && (c.running.all fun r => r.op.thread ≠ t)) &&
  !(s.agenda.any fun x => match x.2 with | .engineFaultSignal u _ => decide (u = t) | _ => false)

/-- Steps 1 and 2 of R116, then `k`. Messages on their way are awaited by their time, everything else by the event that
ends it. -/
def afterDrain (s : State) (k : Res) : Res :=
  let upTo := max (max s.ctx.sent s.ctx.pkgAt) s.ctx.msgAt
  if upTo > s.cycle then .next (s.rest .drain (upTo - s.cycle))
  else if s.storesDone s.cur && s.messagesDone s.cur && s.enginesDone s.cur then k
  else .next (s.park .drain)

/-- Steps 1 to 4 of R116. The position stays the thread's own through steps 1 and 2 (`Ctx.exiting`; DEDUCED, log 82). -/
def execExit (s : State) : Res := afterDrain s (.next (s.endUnit 0 0 0 false))

/-! ## Hardware loops and the repeat prefix (R187 to R190, R53) -/

/-- An enclosing active level's body ends before `le` (R187). -/
def Loops.tooLong (l : Loops) (k : Fin 3) (le : Word) : Bool :=
  ([0, 1, 2] : List (Fin 3)).any fun j => decide (j < k) && l.active.getLsbD j.val && decide (l.le[j].toNat < le.toNat)

def State.setLoop (s : State) (k : Fin 3) (count : BitVec 32) (le : Word) : State :=
  s.modCtx fun c => { c with loops := { c.loops with
    lc := c.loops.lc.set k count, lb := c.loops.lb.set k (s.pcPlus 8), le := c.loops.le.set k le,
    active := setBit c.loops.active k.val (count ≠ 0) } }

def execLpset (k : Fin 3) (a : GReg) (disp : BitVec 17) (s : State) : Res :=
  withG [a] s
    (let count := s.g a
     let le := s.pcPlus (disp4 disp)
     if count.toNat ≥ 2 ^ 32 then illegal s
     else if s.ctx.loops.tooLong k le then trapTo s causeLoop (simm disp)
     else if count = 0 then
       match s.fetchHead le with
       | .wait s => .next s
       | .trap c v s => trapTo s c v
       | .ok h s => .next ((s.setLoop k 0 le).jump (le + headBytes h))
     else .next ((s.setLoop k (count.extractLsb' 0 32) le).finish 8))

/-- An `rpt` that has passed its checks: the repetitions start at RPTIX. -/
def State.startRepeat (s : State) (count : BitVec 10) (stride : BitVec 3) : State :=
  { s with ctx := { s.ctx.settled s.cycle with
      rep := some (count, stride), ctl := { s.ctx.ctl with rpta := true } } }

/-- The next instruction is passed unexecuted, with the loop-end test at it (R189). -/
def State.passRepeated (s : State) : State :=
  ({ s with ctx := { s.ctx with pc := s.ctx.pc + 8, ctl := { s.ctx.ctl with rptix := 0, rpta := false } } }).finish 8

/-- `rpt` looks at the word after it, which the latch step has fetched and decoded into `follow` (R53, R189, R190);
a start index past the last repetition repeats nothing. -/
def execRpt (count : BitVec 10) (stride : BitVec 3) (s : State) : Res :=
  let (w, cause) := s.ctx.follow
  if cause ≠ 0 then .next (s.trapAfterRpt cause (w.extractLsb' 0 64))
  else if notAfterRpt w (wordBytes (Fin.ofNat 4 w.toNat)) then .next (s.trapAfterRpt causeIllegal (w.extractLsb' 0 64))
  else if count = 0 then .next s.passRepeated
  else match rangeBreak w count.toNat stride.toNat with
    | some i => trapTo s causeRepeat (BitVec.ofNat 64 i)
    | none => if s.ctx.ctl.rptix < count then .next (s.startRepeat count stride) else .next s.passRepeated

/-! ## Presence and taint (R137, R140) -/

/-- The presence bit is cleared, unless a remote write reached the register in this cycle (R140, R148). -/
def execPclrG (d : GReg) (s : State) : Res :=
  if d = 0 then illegal s
  else
    let kept := s.ctx.putAt = s.cycle && s.ctx.putG.getLsbD d.val
    .next ((s.modRegs fun r => { r with gPres := setBit r.gPres d.val (kept && r.gPres.getLsbD d.val) }).finish 8)
def execPclrV (d : VIdx) (s : State) : Res :=
  let kept := s.ctx.putAt = s.cycle && s.ctx.putV.getLsbD d.val
  .next ((s.modRegs fun r => { r with vPres := setBit r.vPres d.val (kept && r.vPres.getLsbD d.val) }).finish 8)
def execUntaint (d : GReg) (s : State) : Res :=
  .next ((s.modRegs fun r => { r with gTaint := setBit r.gTaint d.val false }).finish 8)

end Sys2Proof.Machine
end

