-- ==== Sys2Proof/Machine/Access.lean ====
section
/-! DEFINITION. How an access reaches memory: local-store banks (09 R199, R200), watchpoints (11 R251), migration of the
thread (07 R155 to R158), the L1 (09 R197, 13 R286), loads that gather lines (06 R118 to R126), and the store queue
(06 R123). -/
namespace Sys2Proof.Machine

/-! ## Logical time (R284) -/

/-- a precedes or equals b. -/
def tsLe (a b : Nat) : Bool := (b + 2 ^ 24 - a % 2 ^ 24) % 2 ^ 24 < 2 ^ 23
def tsMax (a b : Nat) : Nat := if tsLe a b then b % 2 ^ 24 else a % 2 ^ 24
/-- b plus n, modulo 2^24. -/
def tsAdd (b n : Nat) : Nat := (b + n) % 2 ^ 24
def ts24 (n : Nat) : BitVec 24 := BitVec.ofNat 24 n

/-- PTIME := max(PTIME, t) in a context (R285). -/
def Ctx.seeTime (c : Ctx) (t : Nat) : Ctx :=
  { c with ctl := { c.ctl with ptime := ts24 (tsMax c.ctl.ptime.toNat t) } }
/-- PTIME := the floor that a reply returned (R284). -/
def Ctx.correctTime (c : Ctx) (floor : Option Nat) : Ctx :=
  match floor with
  | some f => { c with ctl := { c.ctl with ptime := ts24 f } }
  | none => c

/-! ## Local stores (R117, R118, R199, R200) -/

def parity (x : Nat) : Nat → Bool
  | 0 => false
  | n + 1 => (x.testBit n) != parity x n

/-- The bank of a local-store offset under a job's key. -/
def bankOf (off : Nat) (key : BitVec 64) : Nat :=
  let h := off / 32
  let x := h / 16
  let s (j : Nat) : Nat := if parity (x &&& (key.extractLsb' (16 * j) 10).toNat) 10 then 2 ^ j else 0
  (h % 16) ^^^ (s 0 + s 1 + s 2 + s 3)

/-- The bank of each 32-byte row that n bytes touch. -/
def rowBanks (off n : Nat) (key : BitVec 64) : List Nat :=
  (List.range ((off + n - 1) / 32 - off / 32 + 1)).map fun i => bankOf ((off / 32 + i) * 32) key
/-- The banks of the 32-byte rows that n bytes touch. -/
def banksOf (off n : Nat) (key : BitVec 64) : BitVec 16 := (rowBanks off n key).foldl (fun m b => setBit m b true) 0

/-- The access ports of a core that are taken in a cycle. -/
def Core.portsAt (c : Core) (cycle : Nat) : BitVec 16 := Table.getD c.ports cycle 0
def State.portsNow (s : State) (core : Nat) : BitVec 16 := (s.core core).portsAt s.cycle

/-- The first cycle from `t` on in which a bank's port is free. -/
def Core.portFree (c : Core) (b : Nat) : Nat → Nat → Nat
  | 0, t => t
  | n + 1, t => if (c.portsAt t).getLsbD b then Core.portFree c b n (t + 1) else t

/-- A bank's port is taken in a cycle; what lies more than a cycle back is forgotten. -/
def Core.takePort (c : Core) (now t b : Nat) : Core :=
  { c with ports := Table.set (c.ports.filter fun x => decide (now ≤ x.1 + 1)) t (setBit (c.portsAt t) b true) }

/-- The rows of one access, each by its bank: rows of one bank are served in consecutive cycles. The answer has the cycles
that the last row came later than the first (R200). -/
def Core.serveRows (c : Core) (now : Nat) (bs : List Nat) : Core × Nat :=
  bs.foldl (fun (c, last) b =>
    let t := c.portFree b 4096 now
    (c.takePort now t b, max last (t - now))) (c, 0)

/-- The rows of one request, by core and bank, take their ports; a port that is taken in this cycle is a bank conflict.
The answer has, for each core, how many cycles its last row came later (R200). -/
def State.claimRows (s : State) (rows : List (Nat × Nat)) : Option (State × List (Nat × Nat)) :=
  if rows.any fun x => (s.portsNow x.1).getLsbD x.2 then none
  else
    some (((rows.map (·.1)).eraseDups).foldl (fun (s, ls) k =>
      let (c, last) := (s.core k).serveRows s.cycle ((rows.filter fun x => x.1 = k).map (·.2))
      (s.setCore k c, ls ++ [(k, last)])) (s, []))

/-- Cycles from a core of the super-group until a result of a local store can be used (R119). -/
def nearCycles (a b : Nat) : Nat := if a / 8 = b / 8 then 1 else if a / 32 = b / 32 then 3 else 5

/-- An access that goes on from the latch takes its time from then (R119, R147). -/
def Wait.served (w : Wait) (cycle : Nat) : Wait :=
  match w with
  | .away r => .timed r cycle
  | .timed r _ => .timed r cycle
  | .ready c => .ready c

/-- The rows of n bytes of a local store, by core and bank. -/
def State.rowsOf (s : State) (core off n : Nat) : List (Nat × Nat) :=
  (rowBanks off n (s.job s.ctx.job).bankKey).map fun b => (core, b)

/-- A beat takes its banks' ports after the threads of the cycle before: none where one of them is taken (R200). -/
def State.beatPorts (s : State) (rows : List (Nat × Nat)) : Option State :=
  let t := s.cycle - 1
  let want := rows.eraseDups
  if want.any fun x => ((s.core x.1).portsAt t).getLsbD x.2 then none
  else some (want.foldl (fun s x => s.modCore x.1 fun c => c.takePort s.cycle t x.2) s)

/-- A claimed request's results can be used after the time of the farthest core and its rows (R119, R200). -/
def State.serveTime (s : State) (ls : List (Nat × Nat)) : Nat :=
  ls.foldl (fun t x => max t (nearCycles s.myCore x.1 + x.2)) 0

/-- The ports for n bytes, unless one of them is taken; an atomic takes `extra` cycles more (R119, R130). -/
def State.claim (s : State) (core off n : Nat) (extra : Nat := 0) : Option State :=
  (s.claimRows (s.rowsOf core off n)).map fun (s', ls) =>
    s'.modCtx fun c => { c with wait := c.wait.served (s.cycle + s.serveTime ls + extra) }

/-- A bank conflict: replayed from the latch 8 cycles later (R119, R200); a full/empty replay is replayed as such
(R133). -/
def State.conflict (s : State) : State :=
  let s := s.count s.myCore 0x0A 0
  if s.ctx.asked.contains fullEmptyMark then (s.park .fullEmpty).schedule 8 (.fullEmptyReplay s.cur)
  else (s.park .bank).schedule 8 (.bankConflictReplay s.cur)

/-- BANK_CONFLICT_REPLAY. -/
def execBankConflictReplay (t : Nat) (s : State) : Res :=
  if (s.ctxAt t).wait = .away .bank then .next (s.kick t) else .next s

/-- The word of a unified byte address, as the poison and full/empty lists number words. -/
def wordNo (a : Nat) : Nat := a / 4
/-- The first byte of the range that lies in a poisoned word. -/
def State.poisonIn (s : State) (a n : Nat) : Option Nat := (List.range n).find? fun i => s.ms.poison.contains (wordNo (a + i))

/-- Checks 2 and 3 of R118 for n bytes of a local store, with the first failing address. -/
def State.localCheck (s : State) (a : Word) (core off n : Nat) : Except (Nat × Word) (Nat × Nat) :=
  if off + n > s.lsSize core then .error (causeAddress, if off < s.lsSize core then a + BitVec.ofNat 64 (s.lsSize core - off) else a)
  else if s.boundTo core s.ctx.job then .ok (core, off) else .error (causeProtection, a)

/-- Within the super-group: an access travels and the thread keeps its position (R119). -/
def near (a b : Nat) : Bool := a / 128 = b / 128

/-! ## Remote accesses and migration (R119, R155 to R158, R186, R245) -/

/-- The mark of an access whose reply came poisoned (R316). -/
def lostMark : Nat := 2 ^ 60 + 1

/-- How long the flits of a reply that carries data take to leave (R314's reply network). -/
def answerFlits : Nat := 3
/-- A far local store begins to send a thread's reply in this cycle, which arrives d cycles later (R316, R364). -/
def State.answered (s : State) (core t d : Nat) (before : Ctx) : State :=
  s.modCore core fun c =>
    { c with answers := { from_ := s.cycle, due := s.cycle + d, thread := t, before := before } ::
        c.answers.filter fun x => decide (s.cycle ≤ x.due) }

/-- A store that a thread has sent to a far local store has not landed there (R91). -/
def State.storeComing (s : State) (t core : Nat) : Bool :=
  s.agenda.any fun x => match x.2 with
    | .remoteStoreMessage u cells => u = t && cells.any fun c => decide (lsAddr core 0 ≤ c.1) && decide (c.1 < lsAddr (core + 1) 0)
    | _ => false

/-- A thread's access to a far local store, as the request that a timeout names: one of no byte. -/
def farReq (t : Nat) : Req :=
  { src := .load t, kind := .load, pol := .unc, acq := false, core := coreOf t, job := 0, line := 0, mask := 0, data := 0,
    data2 := 0, ptime := 0, lease := 0, path := [], shadow := false }

/-- An access to a far local store as a message: it reaches the store after `d` cycles, takes the ports of its rows there,
`k` performs it, and the thread goes on after `d` more. An attempt that fails stays at the bank (R133). The message has so
many flits (R314). -/
def viaMessage (r : Reason) (a : Word) (core : Nat) (rows : List (Nat × Nat)) (flits : Nat) (s : State) (k : State → Res) : Res :=
  let d := msgCycles s.myCore core
  if s.ctx.asked.contains lostMark then trapTo s causeDataLost a else
  if s.ctx.asked.contains remoteMark then
    if s.storeComing s.cur core then .next ((s.park r).schedule 1 (.remoteReadMessage s.cur)) else
    match s.claimRows rows with
    | none => .next s.conflict
    | some (s, ls) =>
      match k s with
      | .next s' =>
        let s' := s'.answered core s.cur d s.ctx
        let home := d + ls.foldl (fun t x => max t x.2) 0
        -- a time that the instruction takes is counted from its issue, `d` cycles ago
        .next (if s'.ctx.inst && s'.ctx.latch.isNone then
          (match s'.ctx.wait with
           | .timed q at_ => s'.rest q (max (at_ - d - s.cycle) home)
           | _ => s'.rest r home)
        else s')
      | x => x
  else
    let s := s.park r
    .next ({ s with ctx := { s.ctx with asked := [remoteMark, core] } }.post s.myCore flits 0 d (.remoteReadMessage s.cur)).1

/-- A thread with engine work, an unread fault or a pending engine fault (R245). -/
def State.engineBusy (s : State) (t : Nat) : Bool :=
  !s.enginesDone t || (s.ctxAt t).efaults ≠ [] ||
    s.clusters.any fun (_, c) => c.jobs.any fun (_, e) => e.taken && e.engine && e.thread = t && e.state = 3

/-- The thread migrates instead of the access travelling. -/
def State.mayMigrate (s : State) : Bool :=
  (s.ctx.streams.toList.all fun x => x.isNone) && !s.engineBusy s.cur && decide ((s.core s.myCore).forward.length < 64)

/-- The packet's time to the value in place (R156). -/
def migrationCycles (vlive : BitVec 32) (src dst : Nat) : Nat :=
  let bytes := 640 + 72 * popCount vlive.toNat 32
  (if dieOf src = dieOf dst then 20 else 50) + (bytes + 31) / 32

/-- The packet leaves once every earlier store has performed; the position has no holder from here (R145, R156). -/
def State.migrate (s : State) (core : Nat) : State :=
  let s := s.dropPosition s.cur
  if !s.storesDone s.cur then s.park .drain
  else
    let s := { s.park .access with ctx := { (s.park .access).ctx with asked := [core] } }
    s.schedule (migrationCycles s.ctx.ctl.vlive s.myCore core) (.migrationArrival s.cur)

/-- A load from a far local store: the thread migrates, or the access travels (R155, R157). -/
def farLoad (a : Word) (core : Nat) (rows : List (Nat × Nat)) (s : State) (k : State → Res) : Res :=
  if s.ctx.asked.contains remoteMark || s.ctx.asked.contains lostMark then viaMessage .access a core rows 2 s k
  else if s.mayMigrate then .next (s.migrate core)
  else if !s.storesDone s.cur then .next (s.park .drain)
  else viaMessage .access a core rows 2 s k

/-- The context as the packet carries it: v-registers that VLIVE does not name arrive empty (R155). -/
def Ctx.packed (c : Ctx) : Ctx :=
  let v := (List.range 32).foldl (fun (x : Regs) i =>
    if c.ctl.vlive.getLsbD i then x else x.setV (Fin.ofNat 32 i) VReg.zero) c.regs
  { c with regs := v, asked := [], gather := [], lastIssue := none, fblock := none, skipWatch := false }

/-- A free slot of a core that no unit has reserved (R157, R159). -/
def State.freeSlot (s : State) (core : Nat) : Option Nat :=
  (List.range 16).find? fun i =>
    !(s.ctxAt (core * 16 + i)).inst && (Table.get? (s.core core).reserved i).isNone

/-- The messages that were held with a packet are applied in this cycle to the thread, which is at `t'` now; a sender that waits
for one looks again. -/
def State.applyHeld (s : State) (t' : Nat) (held : List (Nat × Instr)) : State :=
  held.foldl (fun s e =>
    let u := s.movedTo 64 e.1
    let s := s.schedule 0 (readdress t' e.2)
    if (s.ctxAt u).wait = .away .drain && (s.ctxAt u).latch.isSome then s.kick u else s) s

/-- A packet takes the free slot `t'`: the messages held with it are applied, and the context runs there and performs its
latched load (R156, R158). -/
def State.installPacket (s : State) (src t' : Nat) (c : Ctx) (held : List (Nat × Instr)) : State :=
  let s := s.setCtxAt t' { c with inst := true, wait := .away .access }
  let s := s.modCore (coreOf src) fun k => { k with forward := Table.set k.forward src t' }
  (s.applyHeld t' held).kick t'

/-- A context that comes to a core which a cancel of its launch has reached is stopped there (R312). -/
def State.marked (s : State) (core : Nat) (c : Ctx) : Ctx :=
  let coming := s.agenda.any fun x => x.2 = .cancelArrival core c.unit.lid
  if ((s.launch? c.unit.lid).any fun l => l.cancelled) && !coming then { c with cancelled := true } else c

/-- The packet of a thread that is on its way to `core`: refused by a full buffer, installed, or held (R157). The slot that
it leaves stays reserved until the unit ends: the first one with the unit, a later one with no work of its own (R158, R159). -/
def State.acceptPacket (s : State) (t core : Nat) : State :=
  let c := s.marked core (s.ctxAt t).packed
  if (s.core core).packets.length ≥ 4 then (s.count core 0x0F 0).schedule 8 (.migrationRetry t)
  else
    let s := (s.count (coreOf t) 0x0D 0).count core 0x0E 0
    let s := (s.freeContext t).modCore (coreOf t) fun k => { k with
      reserved := Table.set k.reserved (slotOf t) (if c.unit.start = t then c.unit else UnitInfo.none) }
    match s.freeSlot core with
    | some i => s.installPacket t (core * 16 + i) c []
    | none =>
      let s := s.modCore (coreOf t) fun k => { k with forward := Table.set k.forward t (inBuffer + core) }
      (s.modCore core fun k =>
        { k with packets := k.packets ++ [{ src := t, ctx := c, arrived := s.cycle, held := [] }] }).schedule 4096
          (.migrationTimeout t)

/-- MIGRATION_ARRIVAL: a packet reaches its target, or a slot for a held packet has come free. -/
def execMigrationArrival (t : Nat) (s : State) : Res :=
  let c := s.ctxAt t
  if c.inst then
    match c.asked with
    | [core] => if core < 4096 && c.wait = .away .access then .next (s.acceptPacket t core) else .next s
    | _ => .next s
  else match Table.get? (s.core (coreOf t)).forward t with
    | some v =>
      if v < inBuffer then .next s
      else
        let core := v - inBuffer
        match (s.core core).packets.find? fun p => p.src = t, s.freeSlot core with
        | some p, some i =>
          .next ((s.modCore core fun k => { k with packets := k.packets.filter fun q => q.src ≠ t }).installPacket t
            (core * 16 + i) p.ctx p.held)
        | _, _ => .next s
    | none => .next s

/-- MIGRATION_RETRY: the source offers a refused packet again. -/
def execMigrationRetry (t : Nat) (s : State) : Res :=
  match (s.ctxAt t).asked with
  | [core] =>
    if (s.ctxAt t).inst && core < 4096 && (s.ctxAt t).wait = .away .access then .next (s.acceptPacket t core)
    else .next s
  | _ => .next s

/-- MIGRATION_TIMEOUT: a packet that found no slot returns, and its thread reads by a message (R157). DESIGN CHOICE (log 105): the
way back takes no time of its own, since the spec gives none; the remote read's way is counted. -/
def execMigrationTimeout (t : Nat) (s : State) : Res :=
  match Table.get? (s.core (coreOf t)).forward t with
  | none => .next s
  | some v =>
    if v < inBuffer then .next s
    else match (s.core (v - inBuffer)).packets.find? fun p => p.src = t with
      | none => .next s
      | some p =>
        if s.cycle < p.arrived + 4096 then .next s else
        let s := s.modCore (v - inBuffer) fun k => { k with packets := k.packets.filter fun q => q.src ≠ t }
        let s := s.modCore (coreOf t) fun k =>
          { k with forward := Table.del k.forward t, reserved := Table.del k.reserved (slotOf t) }
        let s := s.setCtxAt t { p.ctx with inst := true, wait := .away .access, asked := [remoteMark] }
        .next ((s.applyHeld t p.held).schedule (msgCycles (v - inBuffer) (coreOf t)) (.remoteReadMessage t))

/-! ## Policies and kinds (R92, R93, R124, R125, R357, R390) -/

/-- The ordering kind of an access: the stronger of its pages'. -/
def kindOf (as : List Attr) : Nat := (as.map fun a => leafKind a.leaf).foldl min 2

/-- The policy in effect on a page: its default for code 0; uncached on the host tier, but for the loads that a
replica may serve. -/
def loadPol (p : Policy) (a : Attr) : Policy :=
  let q := match p with | .pd => Policy.of (leafPolicy a.leaf) | q => q
  if leafTier a.leaf = 1 && !(leafRepl a.leaf && (q = .wt || q = .sis)) then .unc else q
/-- A store to a page with CODE performs at home as a wt store does (R357): with the row of R287 that wt and uncached stores share,
in no L1 or tree, even where an own load has registered its words there. -/
def storePol (p : Policy) (a : Attr) : Policy :=
  if leafTier a.leaf = 1 || leafCode a.leaf then .unc else loadPol p a

/-- The attributes of the page of a line among those checked. -/
def attrOf (as : List Attr) (line : Nat) : Attr :=
  (as.find? fun a => a.covers (line * 64)).getD { page := 0, big := false, leaf := noLeaf }

/-- The lines that n bytes at `va` touch, with the bytes of each. -/
def linesOf (va n : Nat) : List (Nat × BitVec 64) :=
  (List.range ((va + n - 1) / 64 - va / 64 + 1)).map fun i =>
    let line := va / 64 + i
    let lo := max va (line * 64)
    (line, byteMask (lo - line * 64) (min (va + n) (line * 64 + 64) - lo))

/-! ## The L1 (R197, R286) -/

def Core.l1Find (c : Core) (job line : Nat) : Option L1Line := c.l1.find? fun x => x.job = job && x.line = line
/-- A line put back, the most recently used first. -/
def Core.l1Put (c : Core) (x : L1Line) : Core :=
  { c with l1 := x :: c.l1.filter fun y => !(y.job = x.job && y.line = x.line) }
/-- A line changed in place. -/
def Core.l1Mod (c : Core) (job line : Nat) (f : L1Line → L1Line) : Core :=
  { c with l1 := c.l1.map fun x => if x.job = job && x.line = line then f x else x }
/-- The line is the most recently used of its set (R197). -/
def Core.l1Touch (c : Core) (job line : Nat) : Core :=
  match c.l1Find job line with | some x => c.l1Put x | none => c
def Core.l1Drop (c : Core) (job line : Nat) : Core :=
  { c with l1 := c.l1.filter fun y => !(y.job = job && y.line = line) }

/-- The words that the line holds under leases. -/
def L1Line.leased (x : L1Line) : BitVec 16 := x.leases.foldl (fun m l => m ||| l.words) 0
/-- The words that the line holds in some state. -/
def L1Line.held (x : L1Line) : BitVec 16 := x.registered ||| x.untracked ||| x.leased ||| x.shared

/-- A lease serves while PTIME precedes or equals rts, for 2^20 cycles. -/
def Lease.ok (l : Lease) (ptime cycle : Nat) : Bool := tsLe ptime l.rts.toNat && decide (cycle < l.granted + 2 ^ 20)
/-- The words whose lease serves. -/
def L1Line.leaseOk (x : L1Line) (ptime cycle : Nat) : BitVec 16 :=
  (x.leases.filter fun l => l.ok ptime cycle).foldl (fun m l => m ||| l.words) 0
/-- Some words are leased no more. -/
def L1Line.unlease (x : L1Line) (ws : BitVec 16) : List Lease :=
  (x.leases.map fun l => { l with words := l.words &&& ~~~ws }).filter fun l => l.words ≠ 0

/-- The words that serve a load of the policy (R286); an own load of an aliased line acts as a wis load (R294), and an acquire
load under wt reads at home. `after` keeps copies read before an `ldc` from a tainted load (R95). -/
def L1Line.serving (x : L1Line) (pol : Policy) (acq : Bool) (ptime cycle after : Nat) : BitVec 16 :=
  let fresh := decide (x.filled ≥ after)
  match pol with
  | .own => x.registered ||| (if x.aliased then x.shared else 0)
  | .wis => x.registered ||| x.shared
  | .sis => x.registered ||| x.shared ||| (if fresh then x.leaseOk ptime cycle else 0)
  | .wt => x.registered ||| x.shared ||| (if fresh && !acq then x.leaseOk ptime cycle ||| x.untracked else 0)
  | .pd | .unc => 0

/-- The agent identifiers of R281. -/
def coreAgent (core : Nat) : BitVec 32 := BitVec.ofNat 32 core
def rootAgent (job vc : Nat) : BitVec 32 := BitVec.ofNat 32 (2 ^ 30 + job % 4096 * 2 ^ 16 + vc)
def agentIsRoot (a : BitVec 32) : Bool := a.getLsbD 30
def agentCore (a : BitVec 32) : Nat := a.toNat % 4096
def agentJob (a : BitVec 32) : Nat := a.toNat / 2 ^ 16 % 4096
def agentVc (a : BitVec 32) : Nat := a.toNat % 16

/-- The root above a virtual cache: the last one of its chain of parents (R274). -/
def State.rootOf (s : State) (job : Nat) : Nat → Nat → Nat
  | 0, vc => vc
  | n + 1, vc =>
    match Table.get? (s.job job).vcs vc with
    | some v => if v.cfg.parent.toNat < 16 then State.rootOf s job n v.cfg.parent.toNat else vc
    | none => vc
/-- The agent that home sees behind a core's L1 whose line has the parent `vc`. -/
def State.agentOf (s : State) (job core vc : Nat) : BitVec 32 :=
  if vc < 16 then rootAgent job (s.rootOf job 16 vc) else coreAgent core

/-- An L1 line as it is written back: its other words go with the registered ones (R272). -/
def L1Line.wb (x : L1Line) (agent : BitVec 32) : Wb :=
  { agent := agent, job := x.job, line := x.line, words := x.registered, held := x.held, data := x.data,
    shared := x.shared ≠ 0 && x.held &&& ~~~(x.registered ||| x.shared) = 0, lease := none, wts := x.wts.toNat, ack := none }

/-- A line with registered words leaves an L1 for a cache, its parent, or for home with 16 (R136, R272, R287). It passes no packet
that waits for allowances; its own flits, which R314's table does not list, spend none. -/
def State.sendWb (s : State) (core : Nat) (x : L1Line) (dest : Nat) (waits : Option AckTo) : State :=
  let w := x.wb (s.agentOf x.job core x.parent)
  let after := s.flitWait core 1
  match (if dest < 16 then Table.get? (s.job x.job).vcs dest else none) with
  | some v =>
    let d := bankCycles (baseOf (dieOf core)) (v.place x.line).1
    s.schedule (after + d) (.vcacheWriteback { w with ack := waits.map fun a => (a, d) } dest)
  | none =>
    let place := s.place x.job x.line
    let (s, n) := s.leaveCaches core x.line (place.map (·.dir))
    let d := match place with | some p => homeCycles core p.dir | none => 80
    s.schedule (max n after + d / 2) (.homeWriteback { w with ack := waits.map fun a => (a, d - d / 2) })

/-- A line leaves an L1: its registered words go to its parent. -/
def State.l1Evict (s : State) (core : Nat) (x : L1Line) (waits : Option AckTo := none) : State :=
  let s := s.modCore core fun c => c.l1Drop x.job x.line
  if x.registered = 0 then s else s.sendWb core x x.parent waits

/-- The way of a new line in its set, and the line that leaves for it (R197). -/
def Core.l1Way (c : Core) (line : Nat) : Nat × Option L1Line :=
  let mates := c.l1.filter fun x => x.line % 64 = line % 64
  let ways := 4 * (20 - c.slices)
  match (List.range ways).find? fun w => mates.all fun x => x.way ≠ w with
  | some w => (w, none)
  | none => match mates.getLast? with
    | some x => (x.way, some x)
    | none => (0, none)

/-- A reply's line enters the L1 in the state that it names (R286, R287); registered words keep their own data. -/
def State.l1Install (s : State) (core : Nat) (r : Req) (p : Reply) : State :=
  if p.inst = .none then s
  else
    let parent := ((r.path.getLast?).map (· % 16)).getD 16
    let s := match (s.core core).l1Find r.job r.line with
      | some x => if x.parent = parent then s else s.l1Evict core x
      | none => s
    let c := s.core core
    let (old, s) : Option L1Line × State := match c.l1Find r.job r.line with
      | some x => (some x, s)
      | none =>
        match (c.l1Way r.line).2 with
        | some v => (none, s.l1Evict core v)
        | none => (none, s)
    let x : L1Line := old.getD
      { job := r.job, line := r.line, way := (c.l1Way r.line).1, data := 0, registered := 0, untracked := 0,
        leases := [], shared := 0, wts := 0, filled := 0, parent := 16, aliased := false }
    let fresh := p.keep &&& ~~~x.registered
    let reg := match p.inst with | .registered ws => ws ||| x.registered | _ => x.registered
    let rest := fresh &&& ~~~reg
    let x : L1Line := { x with
      data := mergeLine (bytesOfWords fresh) p.data x.data
      registered := reg
      shared := (x.shared &&& ~~~reg) ||| (if p.inst = .shared then rest else 0)
      -- only its end, an acquire fence or an eviction ends a lease: a new one takes the words that it brings (R286)
      leases := if p.inst = .leased && rest &&& ~~~x.shared ≠ 0 then
          { words := rest &&& ~~~x.shared, rts := ts24 p.rts, granted := s.cycle } :: x.unlease (rest ||| reg)
        else x.unlease reg
      untracked := (x.untracked &&& ~~~reg) |||
        (match p.inst with | .untracked | .registered _ => rest &&& ~~~x.shared | _ => 0)
      wts := ts24 p.wts
      filled := if (x.untracked ||| x.leased) &&& ~~~(rest ||| reg) = 0 then s.cycle else x.filled
      parent := parent, aliased := p.aliased }
    let s := s.modCore core fun c => c.l1Put x
    if p.inst = .leased then s.schedule (2 ^ 20) (.leaseTimeout core r.job r.line s.cycle) else s

/-- An acquire drops the untracked copies of a core's L1, an acquire fence its leased copies too (R126, R134); a fill
that is on its way serves only the access that asked for it. -/
def Core.acquire (c : Core) (fence : Bool) : Core :=
  { c with
    l1 := (c.l1.map fun x => { x with untracked := 0, leases := if fence then [] else x.leases }).filter fun x => x.held ≠ 0
    fills := c.fills.map fun f => if f.kind = 0 then { f with acquired := true } else f }

/-- The units that the current thread's read streams have fetched and not popped are fetched again (R185). -/
def State.refetch (s : State) : State :=
  ([0, 1, 2, 3] : List (Fin 4)).foldl (fun s k =>
    match s.ctx.streams[k] with
    | some st => if st.write then s
                 else (s.setStream k (some { st with buf := [], got := [], pend := [] })).schedule 1 (.streamFill s.cur k)
    | none => s) s

/-- The acquire of the current thread. -/
def State.acquireNow (s : State) (fence : Bool) : State := (s.modCore s.myCore fun c => c.acquire fence).refetch

/-! ## Requests -/

/-- A request of the current thread for a line. -/
def State.newReq (s : State) (src : Src) (kind : ReqKind) (pol : Policy) (acq : Bool) (line : Nat) (mask : BitVec 64) : Req :=
  { src := src, kind := kind, pol := pol, acq := acq, core := s.myCore, job := s.ctx.job, line := line, mask := mask,
    data := 0, data2 := 0, ptime := s.ctx.ctl.ptime.toNat, lease := s.ctx.ctl.lease.toNat, path := [], shadow := false }

/-- What the fill of a request brings: 1 a registration. -/
def fillKind (r : Req) : Nat := match r.kind with | .fetch => 2 | _ => if r.pol = .own then 1 else 0

/-- A fill is in flight. -/
def Core.addFill (c : Core) (job line kind : Nat) : Core :=
  { c with fills := c.fills ++ [{ id := c.nextId, job := job, line := line, kind := kind, useOnce := false, acquired := false, held := [] }],
           nextId := c.nextId + 1 }
/-- A request leaves a core, and its fill is in flight (R291). -/
def State.ask (s : State) (r : Req) : State := (s.modCore r.core fun c => c.addFill r.job r.line (fillKind r)).sendReq r

/-- The bytes of a line that the L1 holds registered: every access but an uncached one takes them there (R287). -/
def Core.ownReg (c : Core) (job line : Nat) (pol : Policy) : BitVec 64 :=
  if pol = .unc then 0 else bytesOfWords (((c.l1Find job line).map (·.registered)).getD 0)

/-! ## The store queue (R91, R123, R126) -/

/-- The bytes of a line that the thread's queued stores hold, with their data. -/
def Core.ownBytes (c : Core) (t job line : Nat) : BitVec 64 × Line :=
  c.queue.foldl (fun (m, x) e =>
    if e.thread = t && e.req.job = job && e.req.line = line && (match e.req.kind with | .store => true | _ => false) then
      (m ||| e.req.mask, mergeLine e.req.mask e.req.data x)
    else (m, x)) (0, 0)

/-- An entry may leave: what it waits for is acknowledged, and no earlier entry of its thread for its line waits. -/
def SQEntry.mayLeave (e : SQEntry) (before : List SQEntry) : Bool :=
  !e.sent && e.after.isEmpty &&
    before.all fun f => f.sent || !(f.thread = e.thread && f.req.line = e.req.line && f.req.job = e.req.job)

/-- The first entry that may leave. -/
def firstToLeave : List SQEntry → List SQEntry → Option SQEntry
  | _, [] => none
  | before, e :: rest => if e.mayLeave before then some e else firstToLeave (before ++ [e]) rest

/-- The L1 holds every word of the store registered: it performs there (R124, R285). -/
def Core.storesHere (c : Core) (r : Req) : Bool :=
  r.pol ≠ .unc && match c.l1Find r.job r.line with
    | some x => wordsOf r.mask &&& ~~~x.registered = 0
    | none => false

/-- A store's bytes into the words of an own copy that are held. -/
def Core.l1Write (c : Core) (r : Req) : Core :=
  c.l1Mod r.job r.line fun x => { x with data := mergeLine (r.mask &&& bytesOfWords x.held) r.data x.data }


/-- The cycle by which every acknowledged store of a thread has performed at a scope (R290). -/
def Ctx.scopeAt (c : Ctx) (scope : Scope) : Nat :=
  match scope with
  | .core | .clu | .die => 0
  | .pkg => c.pkgAt
  | .sys => max c.pkgAt c.sysAt
/-- And those sent as messages. -/
def Ctx.doneAt (c : Ctx) (scope : Scope) : Nat := max c.sent (c.scopeAt scope)

/-- The entries of the thread that a release covers, all of them with `all` (R126, R134). -/
def State.covered (s : State) (t : Nat) (all : Bool) : List Nat :=
  ((s.core (coreOf t)).queue.filter fun e => e.thread = t && (all || e.kind < 2)).map (·.id)

/-- The mark in `asked` of a thread that has completed an sc store and waits until it has performed at its scope, with the
scope (R126). -/
def scMark : Nat := 2 ^ 60 + 5
def scAsked : Scope → List Nat
  | .core | .clu | .die => [scMark, 0]
  | .pkg => [scMark, 1]
  | .sys => [scMark, 2]
def Ctx.scScope (c : Ctx) : Scope := if c.asked = scAsked .sys then .sys else if c.asked = scAsked .pkg then .pkg else .die

/-- The mark in `asked` of a thread whose flush is not acknowledged yet, before the latest cycle in which an acknowledgement that is
on its way arrives (R136). -/
def flushMark : Nat := 2 ^ 60 + 6

/-- A thread behind an sc store goes on when its stores are acknowledged and have performed at the store's scope (R126). -/
def State.scMoved (s : State) (t : Nat) : State :=
  let c := s.ctxAt t
  if c.asked.contains flushMark || !(s.covered t false).isEmpty then s
  else
    let at_ := c.doneAt c.scScope
    s.modCtxAt t fun c => { c with asked := [], wait := if s.cycle < at_ then .timed .drain at_ else .ready s.cycle }

/-- Threads that wait for entries of the core's queue look again: a store that found it full reissues (R123), a latched
instruction goes on, and a thread behind an sc store when it has performed. -/
def State.queueMoved (s : State) (core : Nat) : State :=
  (s.threadsOf core).foldl (fun s t =>
    let c := s.ctxAt t
    match c.wait with
    | .away .storeQueue => s.unpark t
    | .away .drain | .away .fence | .away .flush => if c.latch.isSome then s.kick t else s.scMoved t
    | _ => s) s

/-- An entry is gone: later entries no longer wait for it. -/
def Core.dropEntry (c : Core) (id : Nat) : Core :=
  { c with queue := (c.queue.filter fun e => e.id ≠ id).map fun e => { e with after := e.after.filter (· ≠ id) } }

/-- Every entry that may leave leaves: into the L1, or as a request that carries the thread's PTIME as it stands
(R124, R285). A release at package or system scope waits until what it follows has performed there (R290). -/
def State.pump (s : State) (core : Nat) : Nat → State
  | 0 => s
  | n + 1 =>
    let held (e : SQEntry) : SQEntry :=
      if e.after.isEmpty && e.scope ≠ .core && decide (s.cycle < (s.owner e.thread).scopeAt e.scope) then { e with after := [e.id] } else e
    match firstToLeave [] ((s.core core).queue.map held) with
    | none => s
    | some e =>
      if (s.core core).storesHere e.req then
        State.pump (s.modCore core fun c => ((c.l1Write e.req).l1Touch e.req.job e.req.line).dropEntry e.id) core n
      else
        -- an own store asks for the words that its L1 lacks, and is written there once it has them all (R94, R285, R287)
        let r := { e.req with ptime := if e.thread = noThread then e.req.ptime else (s.owner e.thread).ctl.ptime.toNat }
        let s := s.modCore core fun c =>
          { c with queue := c.queue.map fun f => if f.id = e.id then { f with sent := true, req := r } else f }
        let mine := if r.pol = .own then (s.core core).ownReg r.job r.line r.pol else 0
        State.pump (s.ask { r with mask := r.mask &&& ~~~mine }) core n

/-- A store of the current thread in one line. -/
structure LineStore where
  line : Nat
  mask : BitVec 64
  data : Line
  pol : Policy
  kind : Nat

/-- The unit addresses that write streams of the current thread have pushed and that have not left for memory. -/
def State.pushed (s : State) : List Word :=
  s.ctx.streams.toList.flatMap fun x => match x with
    | some st => if st.write then (List.range st.buf.length).map fun i => st.addr (st.next - st.buf.length + i) else []
    | none => []

/-- One number for a byte's place, whichever address names it (R117). -/
def placeOf (core : Nat) (a : Word) : Nat :=
  match targetOf core a with
  | .ls k off => lsAddr k off
  | .global va => va
  | .weight _ _ | .none => a.toNat

/-- An access of n bytes at some addresses waits behind a pushed unit that holds one of its bytes (R91). -/
def State.behindPush (s : State) (spans : List (Word × Nat)) : Bool :=
  s.pushed.any fun u =>
    let p := placeOf s.myCore u
    spans.any fun x => let q := placeOf s.myCore x.1; decide (q < p + 64) && decide (p < q + x.2)

/-- The store-queue entries of pushed units that are still in the queue. -/
def State.pushIds (s : State) : List Nat :=
  s.ctx.streams.toList.flatMap fun x => match x with
    | some st => st.ids.filter fun i => (s.core s.myCore).queue.any fun e => e.id = i
    | none => []

/-- The units that write streams have pushed have performed at a scope (R185, R290). -/
def State.pushesDone (s : State) (scope : Scope) : Bool :=
  s.ctx.streams.toList.all fun x => match x with
    | some st => !st.write || (st.buf.isEmpty && (scope = .core ||
        (decide (st.sent ≤ s.cycle) && st.ids.all fun i => (s.core s.myCore).queue.all fun e => e.id ≠ i)))
    | none => true

/-- Every earlier access of the thread has performed at a scope (R290): at core scope only pushed units may be left. -/
def State.performed (s : State) (scope : Scope) (all : Bool) : Bool :=
  s.pushesDone scope && (scope = .core || ((s.covered s.cur all).isEmpty && decide (s.ctx.doneAt scope ≤ s.cycle)))

/-- Waits until every earlier access has performed: by its time where it is known, else until the queue moves. -/
def State.awaitPerformed (s : State) (r : Reason) (scope : Scope) : State :=
  let upTo := s.ctx.doneAt scope
  if upTo > s.cycle then s.rest r (upTo - s.cycle) else s.park r

/-- A message of a thread leaves: it arrives in its time. -/
def State.leave (s : State) (d : Deferred) : State :=
  let after := max d.at_ (if d.thread = noThread then 0 else (s.owner d.thread).pkgAt) - s.cycle
  if d.thread = noThread then s.schedule (after + d.time) d.msg
  else
    let (s, wait) := s.post (coreOf (d.thread % 2 ^ 17)) d.flits after d.time d.msg
    s.modOwner d.thread fun c => { c with msgAt := max c.msgAt (s.cycle + wait + d.time) }

/-- A message that is a release at package scope (R313, R329): it leaves once every earlier access has performed, and the
thread goes on. -/
def releaseMsg (time flits : Nat) (msg : Instr) (s : State) (k : State → Res) : Res :=
  if s.pushesDone .core then
    let d : Deferred :=
      { thread := s.cur, after := s.covered s.cur false ++ s.pushIds, at_ := max s.cycle s.ctx.sent, time := time, flits := flits,
        msg := msg }
    k (if d.after.isEmpty then s.leave d else s.modCore s.myCore fun c => { c with deferred := c.deferred ++ [d] })
  else .next (s.park .drain)

/-- The entries of a list that the core's queue still holds. -/
def Core.still (c : Core) (ids : List Nat) : List Nat := ids.filter fun i => c.queue.any fun e => e.id = i

/-- Entries have left the queue: the messages that wait for none any more leave. -/
def State.deferredAcked (s : State) (core : Nat) : State :=
  let ds := (s.core core).deferred.map fun d => { d with after := (s.core core).still d.after }
  let s := s.modCore core fun c => { c with deferred := ds.filter fun d => !d.after.isEmpty }
  (ds.filter fun d => d.after.isEmpty).foldl State.leave s

/-- The stores of one instruction enter the queue, in order (R123), uncached ones too (log 91); a full queue parks the thread. A release or a
strongly ordered store waits for the entries it follows; after an sc store the thread waits (R92, R126). -/
def queueStores (xs : List LineStore) (ord : MemOrd) (scope : Scope) (s : State) (k : State → Res) : Res :=
  let core := s.myCore
  let needs (x : LineStore) : Req := { s.newReq (.queue core 0) .store x.pol false x.line x.mask with data := x.data }
  let earlier : List Nat := if ord ≠ .plain && scope ≠ .core then s.covered s.cur false ++ s.pushIds else []
  let after (s : State) (x : LineStore) : List Nat :=
    earlier ++
      (if x.kind = 0 then ((s.core core).queue.filter fun e => e.thread = s.cur && e.kind = 0).map (·.id) else [])
  let strong := xs.any fun x => x.kind = 0
  if (ord ≠ .plain || strong) && !s.pushesDone .core then .next (s.park .drain)
  else if ord ≠ .plain && scope ≠ .core && decide (s.cycle < s.ctx.doneAt scope) then
    .next (s.awaitPerformed .drain scope)
  else if (s.core core).queue.length + (xs.filter fun x => !((s.core core).storesHere (needs x))).length > 64 then
    .next (s.park .storeQueue)
  else
    let s := xs.foldl (fun s x =>
      s.modCore core fun c =>
        let e : SQEntry := { id := c.nextId, thread := s.cur, req := { needs x with src := .queue core c.nextId },
                             after := after s x, scope := if ord = .plain then .core else scope, sent := false, kind := x.kind }
        { c with queue := c.queue ++ [e], nextId := c.nextId + 1 }) s
    match k (s.pump core 65) with
    | .next s' =>
      if ord = .sc && scope ≠ .core && s'.ctx.inst && !s'.performed scope false then
        .next (({ s'.park .drain with ctx := { (s'.park .drain).ctx with asked := scAsked scope } }).scMoved s'.cur)
      else .next s'
    | x => x

/-! ## Loads (R118, R119, R126, R285) -/

/-- A line that a load needs: its bytes, and the policy of its page. -/
structure Want where
  line : Nat
  mask : BitVec 64
  pol : Policy

/-- What a load finds of a line: its data, with the line's wts and whether an L1 copy gave it, or an access that
failed. -/
inductive Seen
  | got (x : Line) (wts : Nat) (l1 : Bool)
  | bad (st : RepSt) (off : Nat)
  | miss

/-- The request of a load for a line: for the words that its L1 does not hold registered (R287). -/
def State.loadReq (s : State) (src : Src) (w : Want) (acq : Bool) : Req :=
  s.newReq src .load w.pol acq w.line (w.mask &&& ~~~(s.core s.myCore).ownReg s.ctx.job w.line w.pol)

/-- A line for the current thread: its own queued bytes over what a reply brought, all of it as it stood when the reply was made
(R94), and the words that the L1 alone has, or over what the L1 serves. -/
def State.look (s : State) (gs : List Gathered) (w : Want) (acq : Bool) (after : Nat) : Seen :=
  let (own, mine) := (s.core s.myCore).ownBytes s.cur s.ctx.job w.line
  let reg := (s.core s.myCore).ownReg s.ctx.job w.line w.pol
  match gs.find? fun x => x.line = w.line && w.mask &&& ~~~(x.mask ||| reg) = 0 with
  | some x =>
    let there := ((s.core s.myCore).l1Find s.ctx.job w.line).map (·.data)
    if x.st = .ok then .got (mergeLine own mine (mergeLine (reg &&& ~~~x.mask) (there.getD 0) x.data)) x.wts false else .bad x.st x.wts
  | none =>
    if w.mask &&& ~~~own = 0 && !acq && w.pol ≠ .own then .got mine s.ctx.ctl.ptime.toNat false
    else match (s.core s.myCore).l1Find s.ctx.job w.line with
      | none => .miss
      | some x =>
        if wordsOf w.mask &&& ~~~(x.serving w.pol acq s.ctx.ctl.ptime.toNat s.cycle after) = 0 then
          .got (mergeLine own mine x.data) x.wts.toNat true
        else .miss

/-- The failure of a line ends the access: data-lost with the poisoned address, an unmapped page's address fault, or
the page's wait (R118 checks 6 to 8). -/
def State.badLine (s : State) (line : Nat) (st : RepSt) (off : Nat) : Res :=
  match st with
  | .dataLost => trapTo s causeDataLost (BitVec.ofNat 64 (line * 64 + off))
  | .unmapped => trapTo s causeAddress (BitVec.ofNat 64 (line * 64))
  | _ => .next ((s.modCtx fun c => { c with gather := [], asked := [], checked := [] }).parkPage (line * 64))

/-- What a load's lines do to the thread's time and to the L1's order of use (R285, R197). -/
def State.tookLines (s : State) (seen : List (Want × Seen)) (acq : Bool) : State :=
  let s := seen.foldl (fun s (w, x) => match x with
    | .got _ wts _ => if acq || w.pol = .sis then s.modCtx fun c => c.seeTime wts else s
    | _ => s) s
  let polled := seen.any fun (w, x) => w.pol = .sis && match x with | .got _ _ l1 => l1 | _ => false
  let s := if polled then s.modCtl fun c => { c with ptime := c.ptime + 1 } else s
  s.modCore s.myCore fun c => seen.foldl (fun c (w, _) => c.l1Touch s.ctx.job w.line) c

/-- The data of the lines that a load has found. -/
def seenData (seen : List (Want × Seen)) (line : Nat) : Line :=
  match seen.find? fun (w, _) => w.line = line with
  | some (_, .got x _ _) => x
  | _ => 0

/-- Every line of a load, or the thread waits for those that miss; then the acquire and the logical time of R285. `lost` is a
poisoned byte of a local store that the same access reads: the fault changes nothing (R178). -/
def loadLines (ws : List Want) (acq : Bool) (after : Nat) (lost : Option Word) (s : State) (k : (Nat → Line) → State → Res) : Res :=
  let seen := ws.map fun w => (w, s.look s.ctx.gather w acq after)
  match seen.findSome? fun (w, x) => match x with | .bad st off => some (w.line, st, off) | _ => none with
  | some (line, st, off) => s.badLine line st off
  | none =>
    let misses := (seen.filter fun (_, x) => match x with | .miss => true | _ => false).map (·.1)
    if let (true, some a) := (misses.isEmpty, lost) then trapTo s causeDataLost a
    else if misses.isEmpty then
      let aliased := (seen.any fun (w, x) => match x with
        | .got _ _ true => (((s.core s.myCore).l1Find s.ctx.job w.line).map (·.aliased)).getD false
        | _ => false)
      if aliased && !(s.covered s.cur true).isEmpty then .next (s.park .drain)
      else
        let s := if s.ctx.asked.isEmpty && (seen.any fun (_, x) => match x with | .got _ _ true => true | _ => false) then
          s.count s.myCore 0x0C 0 else s
        let s := s.tookLines seen acq
        k (seenData seen) (if acq then s.acquireNow false else s)
    else
      -- a reply that no longer covers the access, because a registered word has left, is asked for again
      let short (w : Want) : Bool := s.ctx.gather.any fun x => x.line = w.line
      let new := misses.filter fun w => !(s.ctx.asked.contains w.line) || short w
      let s := s.modCtx fun c => { c with gather := c.gather.filter fun x => !(misses.any fun w => w.line = x.line) }
      let expired (w : Want) : Bool := decide (w.pol = .sis) && ((s.core s.myCore).l1Find s.ctx.job w.line).any fun x =>
        decide (wordsOf w.mask &&& x.leased &&& ~~~x.leaseOk s.ctx.ctl.ptime.toNat s.cycle ≠ 0)
      let s := if new.any expired then s.count s.myCore 0x10 0 else s
      let s := if s.ctx.asked.isEmpty then s.count s.myCore 0x0B 0 else s
      let s := new.foldl (fun s w =>
        ({ s with ctx := { s.ctx with asked := s.ctx.asked ++ [w.line] } }).ask (s.loadReq (.load s.cur) w acq)) s
      .next (s.park .access)

/-- Bytes of lines as a little-endian number. -/
def bytesAt (data : Nat → Line) (va n : Nat) : List Byte :=
  (List.range n).map fun i => lineByte (data ((va + i) / 64)) ((va + i) % 64)

/-- The strongly ordered and sc rules that hold a load back (R92, R126). -/
def State.loadWaits (s : State) (kind : Nat) (ord : MemOrd) (scope : Scope) : Bool :=
  (kind = 0 && (!s.pushesDone .core || (s.core s.myCore).queue.any fun e => e.thread = s.cur && e.kind = 0)) ||
    (ord = .sc && !s.performed scope false)

/-- A load of n bytes: `k` gets the bytes with the state in which the access has performed. `moves` says that a far
local store is reached by migration (R155), else by a message (R179). -/
def loadBytes (a : Word) (n : Nat) (pol : Policy) (ord : MemOrd) (scope : Scope) (tainted moves : Bool) (s : State)
    (k : List Byte → State → Res) : Res :=
  if s.behindPush [(a, n)] then .next (s.park .drain) else
  match targetOf s.myCore a with
  | .none | .weight _ _ => trapTo s causeAddress a
  | .ls core off =>
    match s.localCheck a core off n with
    | .error (c, v) => trapTo s c v
    | .ok (core, off) =>
      watch [(a.toNat, n)] true false s
        (let here (s : State) : Res :=
          match s.poisonIn (lsAddr core off) n with
          | some i => trapTo s causeDataLost (a + BitVec.ofNat 64 i)
          | none => k (s.mem.readBytes (lsAddr core off) n) (if ord ≠ .plain then s.acquireNow false else s)
         if ord = .sc && !s.performed scope false then .next (s.awaitPerformed .drain scope)
         else if near s.myCore core then
           match s.claim core off n with
           | none => .next s.conflict
           | some s => here s
         else if moves then farLoad a core (s.rowsOf core off n) s here
         else viaMessage .access a core (s.rowsOf core off n) 2 s here)
  | .global va =>
    if va + n > 2 ^ 55 then trapTo s causeAddress (BitVec.ofNat 64 (2 ^ 55))
    else withPages s va n .read (watch [(va, n)] true false s) fun as =>
        (if s.loadWaits (kindOf as) ord scope then .next (s.awaitPerformed .drain scope)
         else loadLines ((linesOf va n).map fun (l, m) => { line := l, mask := m, pol := loadPol pol (attrOf as l) })
           (ord ≠ .plain) (if tainted then s.ctx.ldcAt else 0) none s fun data s => k (bytesAt data va n) s)

/-- A load whose length its first bytes give: one access to a local store, whose bytes it sees where it performs, or the lines of
a global descriptor. `size` answers none for a head that breaks its rule. -/
def loadSized (a : Word) (head : Nat) (size : List Byte → Option Nat) (tainted : Bool) (s : State) (bad : State → Res)
    (k : List Byte → State → Res) : Res :=
  let whole (n : Nat) : Res := loadBytes a n .pd .plain .core tainted false s k
  let first (next : List Byte → State → Res) : Res := loadBytes a head .pd .plain .core tainted false s next
  match targetOf s.myCore a with
  | .ls core off =>
    match s.localCheck a core off head with
    | .error _ => first k
    | .ok _ => match size (s.mem.readBytes (lsAddr core off) head) with
      | some n => whole n
      | none => first fun _ s => bad s
  | _ => first fun bs s' => match size bs with
    | some n => whole n
    | none => bad s'

/-! ## Stores (R119, R121) -/

/-- The bytes of one line that a list of (address, byte) pairs writes; later pairs stand over earlier ones. -/
def lineStore (cells : List (Nat × Byte)) (line : Nat) : BitVec 64 × Line :=
  cells.foldl (fun (m, x) c =>
    if c.1 / 64 = line then
      (setBit m (c.1 % 64) true, mergeLine (bit (c.1 % 64)) (BitVec.ofNat 512 (c.2.toNat * 2 ^ (8 * (c.1 % 64)))) x)
    else (m, x)) (0, 0)

/-- The lines of a list of global cells, each once, in order of first use. -/
def cellLines (cells : List (Nat × Byte)) : List Nat := (cells.map fun c => c.1 / 64).eraseDups

/-- Bytes to local stores: near ones perform now, far ones travel as one message for each core (R119). -/
def State.storeLocal (s : State) (cells : List (Nat × Nat × Byte)) : State :=
  let nearCells := cells.filter fun c => near s.myCore c.1
  let far := cells.filter fun c => !near s.myCore c.1
  let s := s.writeLocal (nearCells.map fun c => (lsAddr c.1 c.2.1, c.2.2))
  ((far.map (·.1)).eraseDups).foldl (fun s core =>
    let d := msgCycles s.myCore core
    let mine := (far.filter fun c => c.1 = core).map fun c => (lsAddr core c.2.1, c.2.2)
    let (s, w) := s.post s.myCore 3 0 d (.remoteStoreMessage s.cur mine)
    { s with ctx := { s.ctx with sent := max s.ctx.sent (s.cycle + w + d) } }) s

/-- The rows of some bytes of local stores at unified addresses, by core and bank. -/
def State.cellRows (s : State) (job : Nat) (as : List Nat) : List (Nat × Nat) :=
  ((as.map fun a => ((a - lsAddr 0 0) / 2 ^ 19, (a - lsAddr 0 0) % 2 ^ 19 / 32)).eraseDups).map fun x =>
    (x.1, bankOf (x.2 * 32) (s.job job).bankKey)

/-- Commands of a thread that were to start in this cycle start in the next one, behind a store that a port has delayed (R213). -/
def State.commandsLate (s : State) (t : Nat) : State :=
  let late (x : CopyCmd) : CopyCmd := if x.thread = t && x.at_ = s.cycle then { x with at_ := s.cycle + 1 } else x
  s.modCluster (clusterOf (coreOf t)) fun k =>
    if k.channels.any fun ch => ch.queue.any fun x => late x ≠ x then
      { k with channels := k.channels.map fun ch => { ch with queue := ch.queue.map late } }
    else k

/-- REMOTE_STORE_MESSAGE: the bytes land (R119), or wait a cycle for a port (R199). -/
def execRemoteStoreMessage (t : Nat) (cells : List (Nat × Byte)) (s : State) : Res :=
  match s.claimRows (s.cellRows (s.ctxAt t).job (cells.map (·.1))) with
  | some (s, _) => .next ((s.writeLocal cells).queueMoved (coreOf t))
  | none =>
    let late (st : Stream) : Stream := if st.sent = s.cycle then { st with sent := s.cycle + 1 } else st
    .next ((s.modCtxAt t fun c => if c.inst then
      { c with sent := max c.sent (s.cycle + 1), streams := c.streams.map fun x => x.map late } else c) |>.commandsLate t |>.schedule 1
        (.remoteStoreMessage t cells))

/-- A store of bytes at an address: checks, then the bytes, then `k`. -/
def storeBytes (a : Word) (bs : List Byte) (pol : Policy) (ord : MemOrd) (scope : Scope) (s : State)
    (k : State → Res) : Res :=
  let n := bs.length
  if s.behindPush [(a, n)] then .next (s.park .drain) else
  match targetOf s.myCore a with
  | .none | .weight _ _ => trapTo s causeAddress a
  | .ls core off =>
    match s.localCheck a core off n with
    | .error (c, v) => trapTo s c v
    | .ok (core, off) =>
      watch [(a.toNat, n)] false true s
        (let go (s : State) : Res :=
          k (s.storeLocal ((List.range n).map fun i => (core, off + i, bs.getD i 0)))
         if ord ≠ .plain && !s.performed scope false then .next (s.awaitPerformed .drain scope)
         else if near s.myCore core then
           match s.claim core off n with
           | none => .next s.conflict
           | some s => go s
         else match go s with
           | .next s' => if ord = .sc && scope ≠ .core && s'.ctx.inst then .next (s'.rest .drain (msgCycles s.myCore core))
                         else .next s'
           | x => x)
  | .global va =>
    if va + n > 2 ^ 55 then trapTo s causeAddress (BitVec.ofNat 64 (2 ^ 55))
    else withPages s va n .write (watch [(va, n)] false true s) fun as =>
        (let cells := (List.range n).map fun i => (va + i, bs.getD i 0)
         queueStores ((cellLines cells).map fun l =>
             let (m, x) := lineStore cells l
             { line := l, mask := m, data := x, pol := storePol pol (attrOf as l), kind := kindOf as })
           ord scope s k)

end Sys2Proof.Machine
end

