-- ==== Sys2Proof/Machine/Banks.lean ====
section
/-! DEFINITION. The bank pool and the virtual caches (12 R260 to R279), and a tree of them as one agent (R274, R406):
what a subtree holds, how a cache resolves a request as home would, writebacks, allotments. -/
namespace Sys2Proof.Machine

/-! ## Lines in banks (R260, R267, R271) -/

def State.cacheOf (s : State) (job vc : Nat) : Option VCache := if vc < 16 then Table.get? (s.job job).vcs vc else none
def State.modCache (s : State) (job vc : Nat) (f : VCache → VCache) : State :=
  match s.cacheOf job vc with
  | some v => s.modJob job fun j => { j with vcs := Table.set j.vcs vc (f v) }
  | none => s

/-- The line of a job in a bank's set. -/
def BankLine.isAt (b : BankLine) (bank set job line : Nat) : Bool :=
  b.bank = bank && b.set = set && b.job = job && b.line = line
def BankLine.same (b c : BankLine) : Bool := b.isAt c.bank c.set c.job c.line

/-- The copy that a lookup in a virtual cache finds. -/
def State.copyIn (s : State) (job vc line : Nat) : Option BankLine :=
  (s.cacheOf job vc).bind fun v =>
    let (bank, set) := v.place line
    s.ms.banks.find? fun b => b.isAt bank set job line

/-- A line put back, most recently used. -/
def State.bankPut (s : State) (b : BankLine) : State :=
  s.modMS fun m => { m with banks := b :: m.banks.filter fun c => !c.same b }
def State.bankDrop (s : State) (b : BankLine) : State :=
  s.modMS fun m => { m with banks := m.banks.filter fun c => !c.same b }

/-- The root of a job's tree as an agent. -/
def State.treeAgent (s : State) (job vc : Nat) : BitVec 32 := rootAgent job (s.rootOf job 16 vc)
/-- Half of an access from a base die to a line's home (R401). -/
def homeHalf (base pline : Nat) : Nat :=
  ((if lineInHost pline then 560 else 80) + 10 * ringHops (ringPlace base) (slicePlace (sliceOf pline))) / 2

/-- The way from a base die to a cache of the job, or to home, for a line. -/
def State.upCycles (s : State) (base job line parent : Nat) : Nat :=
  match s.cacheOf job parent with
  | some v => bankCycles base (v.place line).1
  | none => match s.place job line with | some p => homeHalf base p.dir | none => 40
/-- A line goes from a base die to a cache of the job, or to home (R272), after some cycles; its acknowledgement may be waited
for. -/
def State.sendUp (s : State) (base : Nat) (w : Wb) (parent : Nat) (after : Nat := 0) (waits : Option AckTo := none) : State :=
  let d := s.upCycles base w.job w.line parent
  let w := { w with ack := waits.map fun a => (a, d) }
  if (s.cacheOf w.job parent).isSome then s.schedule (after + d) (.vcacheWriteback w parent)
  else
    let (s, n) := s.translate base (w.line * 64)
    s.schedule (after + d + n) (.homeWriteback w)

/-- A writeback that someone waits for is on its way. -/
def State.ackComing (s : State) (a : AckTo) : Bool :=
  s.agenda.any fun x => match x.2 with
    | .vcacheWriteback w _ | .homeWriteback w => w.ack.any fun y => y.1 = a
    | _ => false

/-- The running `vcset` of a cache changed. -/
def State.modVcset (s : State) (job vc : Nat) (f : VcsetRun → VcsetRun) : State :=
  s.modCache job vc fun v => { v with set := match v.set with | u :: us => f u :: us | [] => [] }

/-- A writeback is acknowledged by where it has arrived: a flushing thread goes on with the last one (R136), a `vcset` and the end
of a job end no earlier (R264, R278). -/
def State.wbAcked (s : State) (w : Wb) : State :=
  match w.ack with
  | none => s
  | some (a, d) =>
    let at_ := s.cycle + d
    match a with
    | .flush t =>
      match (s.ctxAt t).asked with
      | [m, n] =>
        if m ≠ flushMark then s
        else if s.ackComing a then s.modCtxAt t fun c => { c with asked := [m, max n at_] }
        else s.modCtxAt t fun c => { c with asked := [], wait := .timed .flush (max n at_) }
      | _ => s
    | .vcset job vc => s.modVcset job vc fun u => { u with ends := max u.ends at_ }
    | .ending job => s.modJob job fun j => { j with ending := some (max (j.ending.getD 0) at_) }

/-- The parent of a cache, 16 for home. -/
def State.parentOf (s : State) (job vc : Nat) : Nat :=
  match s.cacheOf job vc with
  | some v => if v.cfg.parent.toNat < 16 then v.cfg.parent.toNat else 16
  | none => 16

/-- A bank line as it is written back, for a tree. -/
def BankLine.wb (b : BankLine) (agent : BitVec 32) : Wb :=
  { agent := agent, job := b.job, line := b.line, words := b.registered, held := b.valid, data := b.data, shared := b.shared,
    lease := b.lease, wts := b.wts, ack := none }
/-- A cache counts a line that it allocated and that goes to its parent dirty (R276). -/
def State.countWb (s : State) (b : BankLine) : State :=
  s.modCache b.job b.alloc fun v => { v with writebacks := v.writebacks + 1 }

/-- A line leaves its bank: a dirty one is written back to the parent of its allocating cache and counted there
(R272, R276). -/
def State.bankEvict (s : State) (b : BankLine) : State :=
  let s := s.bankDrop b
  if b.dirty || b.registered ≠ 0 then
    (s.countWb b).sendUp (b.bank / 2048) (b.wb (s.treeAgent b.job b.alloc)) (s.parentOf b.job b.alloc)
  else s

/-- The job to which a way of a bank is allotted (R262). -/
def State.allotted (s : State) (bank way : Nat) : Option Nat :=
  let e := Table.getD s.ms.allot (bank * 16 + way) 0
  if e.getLsbD 15 then some (e.extractLsb' 0 12).toNat else none

/-- The change moves the mapping (R277). -/
def VcsetRun.changes (u : VcsetRun) (v : VCache) : Bool :=
  !(u.banks = v.banks && u.cfg.start = v.cfg.start && u.cfg.log = v.cfg.log && u.cfg.parent = v.cfg.parent)
/-- Step 3 has scanned the set of a line. -/
def VcsetRun.passed (u : VcsetRun) (v : VCache) (line : Nat) : Bool :=
  u.scan.any fun k => decide (line % 2 ^ v.cfg.log.toNat < k)
/-- The ways that a fill of a line may take: those that a running `vcset` has emptied are left (R271, R278). -/
def VCache.ways (v : VCache) (line : Nat) : BitVec 16 :=
  match v.set with
  | u :: _ => if u.passed v line then v.cfg.mask &&& u.cfg.mask else v.cfg.mask
  | [] => v.cfg.mask

/-- The way a fill takes, with the line that leaves (R271). -/
def State.bankWay (s : State) (v : VCache) (job line : Nat) : Option (Nat × Option BankLine) :=
  let (bank, set) := v.place line
  let ways := (List.range 16).filter fun w => (v.ways line).getLsbD w && decide (s.allotted bank w = some job)
  let mates := s.ms.banks.filter fun b => b.bank = bank && b.set = set
  match ways.find? fun w => mates.all fun b => b.way ≠ w with
  | some w => some (w, none)
  | none => (mates.reverse.find? fun b => ways.contains b.way).map fun b => (b.way, some b)

/-- A line enters a virtual cache: the copy that the set holds is updated, or a way is taken; `f` makes the new copy
of the old one. False: no way qualifies, and nothing is allocated. -/
def State.fillBank (s : State) (job vc line : Nat) (f : BankLine → BankLine) : State × Bool :=
  match s.cacheOf job vc with
  | none => (s, false)
  | some v =>
    match s.copyIn job vc line with
    | some b => (s.bankPut (f b), true)
    | none =>
      let (bank, set) := v.place line
      match s.bankWay v job line with
      | none => (s, false)
      | some (w, old) =>
        let s := match old with | some b => s.bankEvict b | none => s
        let s := s.modCache job vc fun v => { v with fills := v.fills + 1 }
        (s.bankPut (f { bank := bank, set := set, way := w, dirty := false, job := job, line := line, alloc := vc,
                        below := false, data := 0, valid := 0, registered := 0, shared := false, lease := none, untracked := 0,
                        wts := 0 }),
          true)

/-- A line that is written back enters a copy: its registered words are the newest, and the copy is dirty. Its other words
enter where the copy has none of its own, in their state (R272, R406). -/
def BankLine.takeWords (b : BankLine) (w : Wb) : BankLine :=
  let new := b.valid = 0
  let rest := if new || !(b.shared || b.lease.isSome) then w.held &&& ~~~b.valid else 0
  { b with dirty := true, registered := b.registered ||| w.words, valid := b.valid ||| w.words ||| rest,
           data := mergeLine (bytesOfWords (w.words ||| rest)) w.data b.data,
           shared := if new then w.shared else b.shared, lease := if new then w.lease else b.lease,
           wts := if new then w.wts else tsMax b.wts w.wts }

/-- A reply fills a copy in the state that home gave the tree (R406); a lease stands until another one or the line's end takes its
place. Words that it registers below keep what home had of them, and are not valid in the copy (R337). -/
def BankLine.takeReply (b : BankLine) (p : Reply) (below : Bool) : BankLine :=
  let granted : BitVec 16 := match p.inst with | .registered ws => ws | _ => 0
  let words := p.keep &&& ~~~granted &&& ~~~b.registered
  let stays := match p.inst with | .shared | .leased => words | _ => b.valid ||| words
  { b with
    data := mergeLine (bytesOfWords ((p.keep ||| granted) &&& ~~~b.registered)) p.data b.data
    valid := (stays &&& ~~~granted) ||| b.registered
    shared := if p.inst = .shared then true else b.shared && decide (words &&& ~~~b.valid = 0)
    lease := if p.inst = .leased then some p.rts else if p.inst = .shared then none else b.lease
    untracked := if p.inst = .leased then b.untracked &&& ~~~words else b.untracked ||| words
    wts := if b.valid = 0 then p.wts else tsMax b.wts p.wts, below := b.below || below }

/-- A reply on its way down allocates the line in every cache that missed (R269); a fill toward a lower cache sets
Below (R275). -/
def State.fillPath (s : State) (r : Req) (p : Reply) : State :=
  if p.inst = .none || p.st ≠ .ok then s
  else
    let low := r.path.getLast?
    r.path.foldl (fun s vc => (s.fillBank r.job vc r.line fun b => b.takeReply p (decide (some vc ≠ low))).1) s

/-! ## What a subtree holds (R274) -/

/-- A cache is `vc` or below it. -/
def State.within (s : State) (job vc : Nat) : Nat → Nat → Bool
  | 0, c => c = vc
  | n + 1, c => c = vc || (decide (s.parentOf job c < 16) && State.within s job vc n (s.parentOf job c))

/-- The L1 lines of the job below a cache that hold the line, with their cores. -/
def State.l1Below (s : State) (job vc line : Nat) : List (Nat × L1Line) :=
  s.cores.filterMap fun (k, c) =>
    ((c.l1Find job line).filter fun x => decide (x.parent < 16) && s.within job vc 16 x.parent).map fun x => (k, x)
/-- The caches of a job at and below one. -/
def State.cachesBelow (s : State) (job vc : Nat) : List Nat :=
  ((s.job job).vcs.map (·.1)).filter fun c => s.within job vc 16 c
/-- Their copies of a line. -/
def State.copiesBelow (s : State) (job vc line : Nat) : List BankLine :=
  ((s.cachesBelow job vc).filterMap fun c => s.copyIn job c line).eraseDups

/-- The registered words of a line in the subtree, with their data. -/
def State.treeHeld (s : State) (job vc line : Nat) : BitVec 16 × Line :=
  let a := (s.l1Below job vc line).foldl (fun (m, x) (_, l) =>
    (m ||| l.registered, mergeLine (bytesOfWords l.registered) l.data x)) ((0 : BitVec 16), (0 : Line))
  (s.copiesBelow job vc line).foldl (fun (m, x) b =>
    (m ||| b.registered, mergeLine (bytesOfWords b.registered) b.data x)) a

/-- The subtree's registrations of the words end, everywhere in it; the data is the caller's. -/
def State.treeRelease (s : State) (job vc line : Nat) (words : BitVec 16) : State :=
  let s := (s.l1Below job vc line).foldl (fun s (k, _) => s.modCore k fun c =>
    c.l1Mod job line fun x => { x with registered := x.registered &&& ~~~words }) s
  (s.copiesBelow job vc line).foldl (fun s b =>
    let reg := b.registered &&& ~~~words
    let x := { b with registered := reg, valid := b.valid &&& ~~~(b.registered &&& words), dirty := b.dirty && decide (reg ≠ 0) }
    if x.valid = 0 then s.bankDrop b
    else s.modMS fun m => { m with banks := m.banks.map fun c => if c.same b then x else c }) s

/-- The lines of code that a core holds: in its instruction cache, its fetch blocks and its loop buffer. -/
def State.codeLines (s : State) (core : Nat) : List (Nat × Nat) :=
  let c := s.core core
  let blocks := (s.threadsOf core).filterMap fun t => (s.ctxAt t).fblock.map fun b => ((s.ctxAt t).job, b.addr / 64)
  let bodies := c.loopBuf.flatMap fun b => (List.range (b.le / 64 - b.lb / 64 + 1)).map fun i => (c.job.getD 0, b.lb / 64 + i)
  (c.icache.map fun l => (l.job, l.line)) ++ blocks ++ bodies

/-- A captured body lies in a line. -/
def LoopBody.inLine (b : LoopBody) (line : Nat) : Bool := decide (b.lb / 64 ≤ line) && decide (line ≤ b.le / 64)

/-- A core's instruction cache loses a line, with the fetch blocks that lie in it and, where a captured body lies in it, all of
its loop buffer (R160, R161). -/
def State.fetchDrop (s : State) (core job line : Nat) : State :=
  let s := s.modCore core fun c =>
    { c with icache := c.icache.filter fun l => !(l.job = job && l.line = line)
             loopBuf := if c.job = some job && (c.loopBuf.any fun b => b.inLine line) then [] else c.loopBuf }
  (s.threadsOf core).foldl (fun s t => s.modCtxAt t fun c =>
    match c.fblock with
    | some b => if c.job = job && b.addr / 64 = line then { c with fblock := none } else c
    | none => c) s

/-- The cores bound to a job. -/
def State.coresOf (s : State) (job : Nat) : List Nat := (s.cores.filter fun c => c.2.job = some job).map (·.1)

/-- The caches that a probe of a line visits, from one down: none below a copy with Below clear (R275). -/
def State.probed (s : State) (job line : Nat) : Nat → Nat → List Nat
  | 0, _ => []
  | n + 1, vc =>
    let kids := ((s.job job).vcs.map (·.1)).filter fun c => s.parentOf job c = vc
    let kids := if (s.copyIn job vc line).any fun x => !x.below then [] else kids
    vc :: kids.flatMap fun c => State.probed s job line n c

/-- A bank line changed in place. -/
def State.bankMod (s : State) (b : BankLine) (f : BankLine → BankLine) : State :=
  s.modMS fun m => { m with banks := m.banks.map fun c => if c.same b then f c else c }

/-- An invalidation goes down a tree: shared copies end in the caches that it visits and in their L1s, and with `all` every
copy that is not registered (R275, R286, R355); instruction caches lose the line (R160). -/
def State.treeDrop (s : State) (job vc line : Nat) (all : Bool) : State :=
  let cs := s.probed job line 17 vc
  let end1 (x : L1Line) : L1Line :=
    if x.job = job && x.line = line && cs.contains x.parent then
      { x with untracked := if all then 0 else x.untracked, leases := if all then [] else x.leases, shared := 0 }
    else x
  let s := (s.l1Below job vc line).foldl (fun s (k, _) => s.modCore k fun c =>
    { c with l1 := (c.l1.map end1).filter fun x => x.held ≠ 0 }) s
  let bound := s.boundCache job (line * 64)
  let s := if cs.contains bound || !s.within job vc 16 bound then (s.coresOf job).foldl (fun s k => s.fetchDrop k job line) s
    else s
  ((cs.filterMap fun c => s.copyIn job c line).eraseDups).foldl (fun s b =>
    if !(all || b.shared) then s.bankMod b fun x => { x with below := false }
    else if b.registered = 0 then s.bankDrop b
    else s.bankMod b fun x => { x with valid := x.registered, shared := false, lease := none, untracked := 0, below := false }) s

/-- The subtree's registered words of a line gather in the copy of the cache at its top; false if it can hold none. -/
def State.pull (s : State) (job vc line : Nat) (words : BitVec 16) : State × Bool :=
  let (held, x) := s.treeHeld job vc line
  let ws := held &&& words
  let w : Wb := { agent := 0, job := job, line := line, words := ws, held := 0, data := x, shared := false, lease := none, wts := 0,
                  ack := none }
  let (s', ok) := (s.treeRelease job vc line ws).fillBank job vc line fun b =>
    { b.takeWords w with wts := b.wts }
  if ok then (s', true) else (s, false)

/-! ## Times in a tree (R274, R275, R285, R288) -/

/-- The round trip from a ring place to a core (R288). -/
def coreTrip (place core : Nat) : Nat := 16 + 20 * ringHops place (ringPlace (baseOf (dieOf core)))

/-- The round trip of a probe from a cache to what lies below it (R275): its children's, and its L1s' where the line's
region is bound to it. -/
def State.treeBelow (s : State) (job line : Nat) : Nat → Nat → Nat
  | 0, _ => 0
  | n + 1, vc =>
    match s.cacheOf job vc with
    | none => 0
    | some v =>
      let here := ringPlace ((v.place line).1 / 2048)
      let kids := ((s.job job).vcs.map (·.1)).filter fun c => s.parentOf job c = vc
      let kids := if (s.copyIn job vc line).any fun x => !x.below then [] else kids
      let bound := s.boundCache job (line * 64) = vc || (s.l1Below job vc line).any fun x => x.2.parent = vc
      let l1 := if bound then ((s.coresOf job).map fun k => coreTrip here k).foldl max 0 else 0
      max l1 ((kids.map fun c => match s.cacheOf job c with
        | some w => 14 + 10 * ringHops here (ringPlace ((w.place line).1 / 2048)) + State.treeBelow s job line n c
        | none => 0).foldl max 0)

/-- The time to words that the subtree holds registered below a cache, for a core: a forward's way goes on to the core, a
revocation's comes back (R274, R288). -/
def State.holdTrip (s : State) (job vc line : Nat) (words : BitVec 16) (forward : Option Nat) : Nat :=
  match s.cacheOf job vc with
  | none => 0
  | some v =>
    let here := ringPlace ((v.place line).1 / 2048)
    let l1 := ((s.l1Below job vc line).filter fun x => x.2.registered &&& words ≠ 0).map fun x =>
      match forward with
      | some k => coreTrip here x.1 / 2 + coreTrip (ringPlace (baseOf (dieOf x.1))) k / 2
      | none => coreTrip here x.1
    let below := (s.copiesBelow job vc line).filter fun b => b.registered &&& words ≠ 0 &&
      (s.copyIn job vc line).all fun c => !c.same b
    (l1 ++ below.map fun b => 14 + 10 * ringHops here (ringPlace (b.bank / 2048))).foldl max 0

/-- The time of the invalidations that a write sends down the tree: none where no shared copy lies below. -/
def State.dropTrip (s : State) (job vc line : Nat) : Nat :=
  let sharer := ((s.l1Below job vc line).any fun x => x.2.shared ≠ 0) ||
    (s.copiesBelow job vc line).any fun b => b.shared && (s.copyIn job vc line).all fun c => !c.same b
  if sharer then s.treeBelow job line 17 vc else 0

/-- The latest timestamp of a line in the subtree. -/
def State.treeTime (s : State) (job vc line : Nat) : Option Nat :=
  ((s.l1Below job vc line).map (·.2.wts.toNat) ++
    (s.copiesBelow job vc line).flatMap fun b => b.wts :: b.lease.toList).foldl (fun o t =>
      match o with | some m => some (tsMax m t) | none => some t) none
/-- The latest write timestamp of a line in the subtree. -/
def State.treeWts (s : State) (job vc line : Nat) : Option Nat :=
  ((s.l1Below job vc line).map (·.2.wts.toNat) ++ (s.copiesBelow job vc line).map (·.wts)).foldl (fun o t =>
    match o with | some m => some (tsMax m t) | none => some t) none
/-- R285 in a tree: what the line's wts becomes. -/
def State.treeJump (s : State) (job vc line ptime : Nat) : Nat :=
  match s.treeTime job vc line with
  | some t => tsMax ptime (tsAdd t 1)
  | none => ptime
/-- The cache's own copy has the new wts. -/
def State.treeStamp (s : State) (job vc line wts : Nat) : State :=
  match s.copyIn job vc line with
  | some b => s.bankMod b fun x => { x with wts := wts }
  | none => s

/-! ## The lookup (R269, R273, R274, R406) -/

/-- An atomic's or a `cas`'s new value for w bytes (R129). -/
def amoNew (op : BitVec 4) (w old x : Nat) : Nat :=
  let m := 2 ^ (8 * w)
  let x := x % m
  let sg (n : Nat) : Int := if n < m / 2 then (n : Int) else (n : Int) - (m : Int)
  match op.toNat with
  | 0 => (old + x) % m
  | 1 => old &&& x
  | 2 => old ||| x
  | 3 => old ^^^ x
  | 4 => if sg old ≤ sg x then old else x
  | 5 => if sg old ≤ sg x then x else old
  | 6 => if old ≤ x then old else x
  | 7 => if old ≤ x then x else old
  | _ => x

/-- The offset and the width of an atomic's word. -/
def amoPlace (mask : BitVec 64) : Nat × Nat := (((bitsOf mask).head?).getD 0, popCount mask.toNat 64)
/-- A number in a line at a byte offset. -/
def lineAt (off n : Nat) : Line := BitVec.ofNat 512 (n * 2 ^ (8 * off))
def lineNat (x : Line) (off w : Nat) : Nat := x.toNat / 2 ^ (8 * off) % 2 ^ (8 * w)

/-- What a store or an atomic writes into a line that holds `x`: the bytes' mask and data (R121, R129). -/
def reqWrites (r : Req) (x : Line) : BitVec 64 × Line :=
  let (off, w) := amoPlace r.mask
  match r.kind with
  | .store | .reclaim | .free => (r.mask, r.data)
  | .amo op => (r.mask, lineAt off (amoNew op w (lineNat x off w) r.data.toNat))
  | .cas => if lineNat x off w = r.data.toNat % 2 ^ (8 * w) then (r.mask, lineAt off (r.data2.toNat % 2 ^ (8 * w))) else (0, 0)
  | .load | .fetch | .hold | .publish | .move => (0, 0)

/-- An ordinary reply. -/
def replyOf (x : Line) (words : BitVec 16) (wts : Nat) (i : Install) : Reply :=
  { st := .ok, data := x, words := words, keep := words, wts := wts, rts := wts, inst := i, floor := none, aliased := false, pkgAt := 0, sysAt := 0 }

/-- A reply reaches the unit that waits for it in `d` cycles. -/
def State.replyTo (s : State) (r : Req) (p : Reply) (d : Nat) : State :=
  s.schedule d (match r.src with
    | .queue _ _ => .storeQueueAck r p
    | .fetch _ => .instructionCacheFill r p
    | _ => .memoryReply r p)

/-- What a cache does with a request (R274): it answers it, or passes it on. -/
inductive Looked
  | answer (s : State) (p : Reply) (d : Nat)
  | miss

/-- The copy's state serves a load, or the registered words below it do (R406); an own request takes them as home would give
them (R274), and an own load of words that are only shared is served as they are. -/
def State.lookRead (s : State) (r : Req) (vc : Nat) : Looked :=
  let need := wordsOf r.mask
  let (reg, x) := s.treeHeld r.job vc r.line
  let copy := s.copyIn r.job vc r.line
  let here : BitVec 16 := (copy.map (·.registered)).getD 0
  let away := need &&& reg &&& ~~~here
  let sharedWords : BitVec 16 := match copy with | some b => if b.shared then b.valid else 0 | none => 0
  let data := mergeLine (bytesOfWords reg) x ((copy.map (·.data)).getD 0)
  let wts := (s.treeWts r.job vc r.line).getD r.ptime
  -- beside a lease only what a later fill has brought untracked serves a wt load
  let free : BitVec 16 := match copy with | some b => if b.lease.isNone then b.valid else b.untracked &&& b.valid | none => 0
  -- a line whose code is not published is home's to answer (R358)
  if r.kind = .fetch && (s.placeFor r).any (fun p => s.ms.marks.contains p.dir) then .miss
  else if r.pol = .own && need &&& ~~~reg = 0 then
    let w := s.treeJump r.job vc r.line r.ptime
    let d := max (s.holdTrip r.job vc r.line away (some r.core)) (s.dropTrip r.job vc r.line)
    let s := ((s.treeDrop r.job vc r.line false).treeRelease r.job vc r.line need).treeStamp r.job vc r.line w
    .answer s (replyOf data need w (.registered need)) d
  else if r.pol = .own && r.kind ≠ .load then .miss
  else if need &&& ~~~(reg ||| sharedWords) = 0 then
    if r.pol = .wis || r.pol = .own || r.kind = .fetch then
      if away = 0 then .answer s (replyOf data (here ||| sharedWords) wts .shared) 0
      else match s.pull r.job vc r.line (need &&& reg) with
        | (s', true) => .answer s' (replyOf data ((need &&& reg) ||| here ||| sharedWords) wts .shared)
            (s.holdTrip r.job vc r.line away none)
        | (_, false) => .miss
    else
      let words := reg ||| sharedWords ||| (if r.acq then 0 else free)
      .answer s (replyOf data words wts (if r.pol = .sis then .none else .untracked))
        (s.holdTrip r.job vc r.line away (some r.core))
  else if r.pol = .wt && !r.acq && need &&& ~~~(reg ||| sharedWords ||| free) = 0 then
    .answer s (replyOf data (reg ||| sharedWords ||| free) wts .untracked) (s.holdTrip r.job vc r.line away (some r.core))
  else match copy.bind fun b => b.lease.map fun rts => (b, rts) with
    | some (b, rts) =>
      if r.pol = .sis && tsLe r.ptime rts && need &&& ~~~b.valid = 0 then
        .answer s { replyOf b.data b.valid b.wts .leased with rts := rts } 0
      else .miss
    | none => .miss

/-- A store or an atomic on words that the subtree holds registered performs at the lowest cache that can gather
them, as at home (R274, R285); an uncached store performs at home (R269). -/
def State.lookWrite (s : State) (r : Req) (vc : Nat) : Looked :=
  let need := wordsOf r.mask
  let (reg, x) := s.treeHeld r.job vc r.line
  if r.pol ≠ .unc && need &&& ~~~reg = 0 then
    match s.pull r.job vc r.line need with
    | (s', true) =>
      let here : BitVec 16 := ((s.copyIn r.job vc r.line).map (·.registered)).getD 0
      let d := max (s.holdTrip r.job vc r.line (need &&& ~~~here) none) (s.dropTrip r.job vc r.line)
      let w := s.treeJump r.job vc r.line r.ptime
      let (m, y) := reqWrites r x
      let s' := s'.treeDrop r.job vc r.line false
      let s' := (s'.fillBank r.job vc r.line fun b => { b with data := mergeLine m y b.data, wts := w }).1
      .answer s' (replyOf x need w .none) d
    | (_, false) => .miss
  else .miss

/-- A write on its way to home updates the copies that are present, which are the most recently used (R269, R271, R273). -/
def State.updateCopy (s : State) (job vc line : Nat) (mask : BitVec 64) (x : Line) : State :=
  match s.copyIn job vc line with
  | none => s
  | some b =>
    s.bankPut { b with data := mergeLine (mask &&& bytesOfWords (b.valid &&& ~~~b.registered)) x b.data }

/-- A frame mapped by two pages is aliased (R294, R348). -/
def State.aliased (s : State) (dir : Nat) : Bool :=
  (Table.getD s.ms.frames (dir / 1024) []).length + (Table.getD s.ms.frames (2 ^ 50 + dir / 2 ^ 23) []).length ≥ 2

/-- VCACHE_LOOKUP: a request reaches a cache; a frozen one holds it (R278). -/
def execVcacheLookup (r : Req) (vc : Nat) (s : State) : Res :=
  match s.cacheOf r.job vc with
  | none => .next (s.forwardReq 16 r)
  | some v =>
    match v.set with
    | u :: us => .next (s.modCache r.job vc fun v => { v with set := { u with held := u.held ++ [r] } :: us })
    | [] =>
      let up := s.parentOf r.job vc
      let reads : Bool := match r.kind with | .load | .fetch => true | _ => decide (r.pol = .own)
      match (if reads then s.lookRead r vc else s.lookWrite r vc) with
      | .answer s p d =>
        let s := s.modCache r.job vc fun v => { v with hits := v.hits + 1 }
        let s := match s.copyIn r.job vc r.line with
          | some b => s.bankPut { b with below := b.below || (reads && !r.path.isEmpty) }
          | none => s
        let p := { p with aliased := (s.placeFor r).any fun pl => s.aliased pl.dir }
        .next (s.replyTo (if r.path.isEmpty || !reads then { r with path := [16 + vc] } else r) p d)
      | .miss =>
        -- a write that finds a copy hits it (R273, R276)
        let found := !reads && (s.copyIn r.job vc r.line).isSome
        let s := s.modCache r.job vc fun v =>
          if found then { v with hits := v.hits + 1 } else { v with misses := v.misses + 1 }
        let s := match r.kind with
          | .store | .reclaim => if reads then s else s.updateCopy r.job vc r.line r.mask r.data
          | _ => s
        .next (s.forwardReq up { r with path := vc :: r.path })

/-- VCACHE_WRITEBACK: a line of a child or an L1 allocates at the cache and is dirty there (R272), counted once as a fill
(R336). While a `vcset` runs it enters under the old configuration, unless step 3 has removed the line or its place, and then,
as where no way qualifies, it passes to the parent (R279). -/
def execVcacheWriteback (w : Wb) (vc : Nat) (s : State) : Res :=
  let onward (s : State) : State :=
    let base := match s.cacheOf w.job vc with | some v => (v.place w.line).1 / 2048 | none => 0
    s.sendUp base w (s.parentOf w.job vc)
  let s := s.wbAcked w
  match s.cacheOf w.job vc with
  | none => .next (onward s)
  | some v =>
    let removed := match v.set with
      | u :: _ => u.gone.contains w.line || (u.changes v && u.passed v w.line)
      | [] => false
    if removed then .next (onward s)
    else match s.fillBank w.job vc w.line fun b => b.takeWords w with
      | (s', true) => .next (if (s.copyIn w.job vc w.line).isSome then
          s'.modCache w.job vc fun v => { v with fills := v.fills + 1 } else s')
      | (_, false) => .next (onward s)

/-! ## Allotments (R262 to R264) -/

/-- ALLOTMENT_CHANGE: the command processor writes an allotment entry; no data moves. A bank whose readiness bit is clear is
never allotted (R262). -/
def execAllotmentChange (bank way : Nat) (entry : BitVec 16) (s : State) : Res :=
  let e := entry &&& 0xCFFF
  let unready := e.getLsbD 15 && !s.pkg.segmentReady.contains (bank / 16)
  if bank ≥ 8192 || way ≥ 16 || (e.getLsbD 15 && e.getLsbD 14) || unready then .next s
  else .next (s.modMS fun m => { m with allot := if e = 0 then Table.del m.allot (bank * 16 + way)
                                                 else Table.set m.allot (bank * 16 + way) e })

/-- A line of an ending job leaves its bank for home. -/
def State.endLine (s : State) (b : BankLine) : State :=
  let s := s.bankDrop b
  if b.registered = 0 then s
  else (s.countWb b).sendUp (b.bank / 2048) (b.wb (s.treeAgent b.job b.alloc)) 16 0 (some (.ending b.job))

/-- The job of a launch whose job has ended: no job's identifier. -/
def noJob : Nat := 65536

/-- What ends with a job: its caches and bindings (R266), its trees and their open rounds (R330, R331), its graphs and phases,
its counter and its launches' (R296): an identifier that is taken again starts anew. L1 lines that it leaves behind go to home as the root's. -/
def State.dropJob (s : State) (job : Nat) : State :=
  let s := { s with cores := s.cores.map fun (x : Nat × Core) => (x.1, { x.2 with l1 := x.2.l1.map fun (y : L1Line) =>
    if y.job = job && y.parent < 16 then { y with parent := s.rootOf job 16 y.parent } else y }) }
  let s := s.modJob job fun j => { j with vcs := [], regions := [], binds := [], trees := [], counter := 0, ptime := 0 }
  let s := { s with dies := s.dies.map fun (x : Nat × Die) => (x.1, { x.2 with
    graphs := x.2.graphs.filter fun g => g.job ≠ job, phases := x.2.phases.filter fun g => g.job ≠ job
    launches := x.2.launches.map fun ((i, l) : Nat × Launch) => (i, if l.job = job then { l with job := noJob } else l) }) }
  s.modMS fun m => { m with allot := m.allot.filter fun (_, e) => !(e.getLsbD 15 && (e.extractLsb' 0 12).toNat = job) }

/-- A writeback of the job is on its way. -/
def State.wbComing (s : State) (job : Nat) : Bool :=
  s.agenda.any fun (_, e) => match e with
    | .vcacheWriteback w _ | .homeWriteback w => w.job = job
    | _ => false

/-- JOB_END_BANK_SCAN: the command processor scans one set a cycle, in every bank: the job's dirty lines go to home and its
lines are invalid; then its allotments clear, and what it defined ends. The identifier is free once the last writeback is
acknowledged (R264). -/
def execJobEndBankScan (scan : Nat × Nat) (s : State) : Res :=
  let job := scan.1
  let set := scan.2
  if set < 128 then
    let s := if set = 0 then s.modJob job fun j => { j with ending := some s.cycle } else s
    let s := (s.ms.banks.filter fun b => b.job = job && b.set = set).foldl State.endLine s
    .next ((if set = 127 then s.dropJob job else s).schedule 1 (.jobEndBankScan (job, set + 1)))
  else if s.wbComing job then .next (s.schedule 1 (.jobEndBankScan (job, set)))
  else match (s.job job).ending with
    | some t => .next (if s.cycle < t then s.schedule (t - s.cycle) (.jobEndBankScan (job, set))
                       else s.modJob job fun j => { j with ending := none })
    | none => .next s

end Sys2Proof.Machine
end

