-- ==== Sys2Proof/Machine/Home.lean ====
section
/-! DEFINITION. The home directory (13 R280 to R295): line entries, logical time, probes and their acknowledgements,
the transition table of R287, writebacks, eviction, and the replicas that home fills and collapses (19 R352, R353). -/
namespace Sys2Proof.Machine

/-! ## Entries (R280, R284, R289) -/

def State.floorOf (s : State) (slice : Nat) : Nat := (Table.getD s.ms.floors slice 0).toNat
/-- A timestamp lies 2^22 or more behind a floor. -/
def farBehind (f t : Nat) : Bool :=
  let d := (f + 2 ^ 24 - t % 2 ^ 24) % 2 ^ 24
  decide (2 ^ 22 ≤ d) && decide (d < 2 ^ 23)
/-- The floor rises to a timestamp (R284). Entries that then lie too far behind meet the slice's sweep, set n in the cycles
that leave n modulo 1,024 (log 95). -/
def State.raiseFloor (s : State) (slice t : Nat) : State :=
  let f := tsMax (s.floorOf slice) t
  let s := s.modMS fun m => { m with floors := Table.set m.floors slice (ts24 f) }
  if s.ms.home.any fun (d, h) => sliceOf d = slice && (farBehind f h.wts.toNat || farBehind f h.rts.toNat) then
    { s with agenda := s.agenda.filter fun x => match x.2 with | .sliceSweep (k, _) => k ≠ slice | _ => true }.schedule 1
      (.sliceSweep (slice, 1024))
  else s
/-- A line without an entry has both timestamps at the floor, and no sharers. -/
def State.homeLine (s : State) (dir : Nat) : HomeLine :=
  match Table.get? s.ms.home dir with
  | some h => h
  | none => { HomeLine.reset with wts := ts24 (s.floorOf (sliceOf dir)), rts := ts24 (s.floorOf (sliceOf dir)) }
def HomeLine.noSharers (h : HomeLine) : Bool := h.clusters = 0 && h.dies = 0 && h.roots = [] && !h.overflow
/-- An entry that says more than its absence: it has taken a way of its set, and keeps it until it is evicted (R289). -/
def HomeLine.says (h : HomeLine) (floor : Nat) : Bool :=
  h.stands || h.registered ≠ 0 || !h.noSharers || h.wts.toNat ≠ floor || h.rts.toNat ≠ floor
def State.setHome (s : State) (dir : Nat) (h : HomeLine) : State :=
  let h := { h with stands := h.says (s.floorOf (sliceOf dir)) }
  s.modMS fun m => { m with home :=
    if !h.stands && h.txn.isNone && h.queue.isEmpty then Table.del m.home dir else Table.set m.home dir h }
/-- An entry put back as used in this cycle (R289). -/
def State.putHome (s : State) (dir : Nat) (h : HomeLine) : State := s.setHome dir { h with used := s.cycle }

/-- The poisoned words of a line (R282, R295). -/
def State.poisonWords (s : State) (pline : Nat) : BitVec 16 :=
  (List.range 16).foldl (fun m i => setBit m i (s.ms.poison.contains (pline * 16 + i))) 0
def State.setPoison (s : State) (pline : Nat) (ws : BitVec 16) (b : Bool) : State :=
  s.modMS fun m => { m with poison := (bitsOf ws).foldl (fun l i =>
    if b then NatSet.insert l (pline * 16 + i) else NatSet.erase l (pline * 16 + i)) m.poison }

/-- The agents that hold words of a line registered, each with its words (R282). -/
def State.registrants (s : State) (dir : Nat) (ws : BitVec 16) : List (BitVec 32 × BitVec 16) :=
  let f := s.front dir
  let x := s.keyedLine f (s.lineKey f)
  (bitsOf (ws &&& (s.homeLine dir).registered)).foldl (fun l i =>
    let a : BitVec 32 := x.extractLsb' (32 * i) 32
    if l.any fun y => y.1 = a then l.map fun y => if y.1 = a then (a, setBit y.2 i true) else y
    else l ++ [(a, setBit 0 i true)]) []

/-- Words that are registered no more hold data again. -/
def State.putWords (s : State) (dir : Nat) (ws : BitVec 16) (x : Line) : State :=
  let f := s.front dir
  let s := s.writeLine f (s.pageKeyOf f) (bytesOfWords ws) x
  s.modMS fun m => { m with home := match Table.get? m.home dir with
    | some h => Table.set m.home dir { h with registered := h.registered &&& ~~~ws }
    | none => m.home }

/-! ## Probes (R275, R281, R288, R294) -/

/-- Names of sharers as probe targets: the L1s of a cluster, and of a die. -/
def clusterTarget (c : Nat) : BitVec 32 := BitVec.ofNat 32 (2 ^ 31 + c)
def dieTarget (d : Nat) : BitVec 32 := BitVec.ofNat 32 (2 ^ 31 + 2 ^ 30 + d)

/-- The name of a root as a sharer, apart from its name as a registrant. -/
def rootTarget (a : BitVec 32) : BitVec 32 := a ||| bit 29

/-- Who is probed to invalidate a line's sharers (R288). -/
def State.sharerTargets (s : State) (dir : Nat) (h : HomeLine) : List (BitVec 32) :=
  (bitsOf h.clusters).map (fun b => clusterTarget (homeDie dir * 64 + b)) ++ (bitsOf h.dies).map dieTarget ++
    (if h.overflow then
      s.jobs.flatMap fun (j, x) => (x.vcs.filter fun v => v.2.cfg.parent.toNat ≥ 16).map fun v => rootTarget (rootAgent j v.1)
     else h.roots.map fun r => rootTarget (rootAgent (r.toNat / 16) (r.toNat % 16)))

/-- Enrols an agent as a sharer (R280, R287). -/
def HomeLine.enrol (h : HomeLine) (dir : Nat) (a : BitVec 32) : HomeLine :=
  if agentIsRoot a then
    let r := BitVec.ofNat 16 (agentJob a * 16 + agentVc a)
    if h.roots.contains r then h
    else if h.roots.length < 4 then { h with roots := h.roots ++ [r] } else { h with overflow := true }
  else
    let k := agentCore a
    if dieOf k = homeDie dir then { h with clusters := setBit h.clusters (clusterOf k % 64) true }
    else { h with dies := setBit h.dies (dieOf k) true }

/-- The virtual lines of a job whose copies lie on a home line (R348). -/
def State.vlinesOf (s : State) (job dir : Nat) : List Nat :=
  let l1 := s.cores.flatMap fun (_, c) => (c.l1.filter fun x => x.job = job).map (·.line) ++ (c.fills.filter fun f => f.job = job).map (·.line)
  let code := (s.coresOf job).flatMap fun k => ((s.codeLines k).filter fun x => x.1 = job).map (·.2)
  let banks := (s.ms.banks.filter fun b => b.job = job).map (·.line)
  ((l1 ++ code ++ banks).eraseDups).filter fun l => (s.place job l).any fun p => p.dir = dir

/-- The virtual lines that a probe of a home line carries (R294): the copies', else the mappings' of its frame, else the
line of the request that it is for. -/
def State.probeLines (s : State) (job dir : Nat) : List Nat :=
  match s.vlinesOf job dir with
  | [] =>
    let small := (Table.getD s.ms.frames (dir / 1024) []).map fun p => p * 1024 + dir % 1024
    let big := (Table.getD s.ms.frames (2 ^ 50 + dir / 2 ^ 23) []).map fun p => p * 1024 + dir % 2 ^ 23
    let asked := match (s.homeLine dir).txn with
      | some t => if t.req.line < physBase && (s.place t.req.job t.req.line).any fun p => p.dir = dir then [t.req.line] else []
      | none => []
    small ++ big ++ asked
  | l => l

/-- The round trip of a probe to a tree: its root's lookup, and what lies below (R275, R288). -/
def State.treeTrip (s : State) (job line place vc : Nat) : Nat :=
  match s.cacheOf job vc with
  | none => 0
  | some v => 14 + 10 * ringHops place (ringPlace ((v.place line).1 / 2048)) + s.treeBelow job line 17 vc

/-- The round trip of a probe to an agent or to a sharer's name. -/
def State.probeTrip (s : State) (dir : Nat) (a : BitVec 32) : Nat :=
  let place := slicePlace (sliceOf dir)
  if a.getLsbD 31 then
    (if a.getLsbD 30 then coreTrip place (a.toNat % 8 * 512) else coreTrip place (a.toNat % 512 * 8))
  else if agentIsRoot a then
    ((s.probeLines (agentJob a) dir).map fun l => s.treeTrip (agentJob a) l place (agentVc a)).foldl max 0
  else coreTrip place (agentCore a)

/-- The second part of a forward's way: from an agent to a core (R288). -/
def State.forwardTrip (s : State) (dir : Nat) (a : BitVec 32) (core : Nat) : Nat :=
  let base := if agentIsRoot a then
      (match s.cacheOf (agentJob a) (agentVc a), s.probeLines (agentJob a) dir with
       | some v, l :: _ => (v.place l).1 / 2048
       | _, _ => 0)
    else baseOf (dieOf (agentCore a))
  coreTrip (ringPlace base) core / 2

/-! ## The transition table (R287) -/

/-- The policy that a request is served under: an aliased frame registers nothing (R294), and host memory is served
uncached (R390). -/
def State.homePol (s : State) (r : Req) (pl : Place) : Policy :=
  if leafTier pl.leaf = 1 then .unc
  else if r.pol = .own && s.aliased pl.dir then (match r.kind with | .load => .wis | _ => .wt)
  else r.pol

/-- The agent of a request (R281): its tree's root, or its L1. -/
def reqAgent (r : Req) : BitVec 32 := match r.path with | vc :: _ => rootAgent r.job vc | [] => coreAgent r.core
/-- The request comes from a thread of its core, so that a registration of the core's L1 is the requester's own; what an
engine, a stream's copy, the host or the device sends is another agent's access (R213, R287). -/
def reqByThread (r : Req) : Bool := match r.src with | .copy _ _ | .host _ | .report _ | .device _ => false | _ => true
/-- An access that only revokes what is registered: nobody reads its words (R294, R344, R355). -/
def sweeps (r : Req) : Bool := match r.src, r.kind with | .report _, .load => true | _, _ => false
def reqIsLoad (r : Req) : Bool := match r.kind with | .load | .fetch => true | _ => false
/-- The request reads the words before it answers. -/
def reqIsRead (r : Req) : Bool := match r.kind with | .load | .fetch | .amo _ | .cas | .hold | .publish => true | _ => false

/-- The PTIME that a request is served with, and the floor that its reply returns (R284). -/
def State.reqTime (s : State) (r : Req) (dir : Nat) : Nat × Option Nat :=
  let f := s.floorOf (sliceOf dir)
  if farBehind f r.ptime then (f, some f) else (r.ptime % 2 ^ 24, none)

/-- R285 on an entry. -/
def HomeLine.jump (h : HomeLine) (ptime : Nat) : HomeLine :=
  let w := ts24 (tsMax ptime (tsAdd h.rts.toNat 1))
  { h with wts := w, rts := w }

/-- The end of the replication window of this cycle is due (R352). -/
def State.windowEnds (s : State) : State :=
  if s.agenda.any fun x => x.2 = .replicaWindow then s else s.schedule (65536 - s.cycle % 65536) .replicaWindow

/-- The round trip of the invalidation of a line's replicas on a base die (R288, R353). -/
def replicaTrip (dir b : Nat) : Nat := 16 + 20 * ringHops (slicePlace (sliceOf dir)) (ringPlace b)
/-- The time until the last replica of a line has acknowledged its invalidation. -/
def State.collapseTrip (s : State) (dir : Nat) : Nat :=
  ((s.ms.replicas.filter fun x => x.pline = dir && x.ends.isNone).map fun x => replicaTrip dir x.base).foldl max 0

/-- Home invalidates every replica of a line, and its region counts a collapse (R352, R353, R378). -/
def State.collapse (s : State) (dir : Nat) : State :=
  match s.ms.replicas.find? fun x => x.pline = dir && x.ends.isNone with
  | some x =>
    s.windowEnds.modMS fun m =>
      let g := Table.getD m.regions x.region RepRegion.reset
      let ended (x : RepLine) : RepLine :=
        if x.pline = dir && x.ends.isNone then { x with ends := some (s.cycle + replicaTrip dir x.base / 2) } else x
      { m with replicas := (m.replicas.filter fun x => x.ends.all fun n => decide (s.cycle < n)).map ended,
               regions := Table.set m.regions x.region { g with collapses := g.collapses + 1, collapsed := g.collapsed + 1 } }
  | none => s

/-- The second part of a request's time (R401). -/
def replyCycles (r : Req) (dir : Nat) : Nat := let t := homeCycles r.core dir; t - t / 2

/-- A request under a cached policy is served from the requester's own words, which stay registered (R285, R287): a load's from
its L1 or its tree, a store's and an atomic's from its L1. -/
def servedByOwn (r : Req) (pol : Policy) : Bool :=
  reqByThread r && match r.kind with
    | .load => pol = .wt || pol = .sis || pol = .wis
    | .fetch => true
    | .store | .amo _ | .cas => r.path.isEmpty && (pol = .wt || pol = .sis || pol = .wis)
    | _ => false
/-- The words of its line that the requester holds registered, with their data. -/
def State.ownWords (s : State) (r : Req) (pl : Place) : BitVec 16 × Line :=
  if servedByOwn r (s.homePol r pl) then
    let (held, x) := match r.path with
      | vc :: _ => s.treeHeld r.job (s.rootOf r.job 16 vc) r.line
      | [] => match (s.core r.core).l1Find r.job r.line with
        | some l => (l.registered, l.data)
        | none => (0, 0)
    let mine := ((s.registrants pl.dir 0xFFFF).filter fun y => y.1 = reqAgent r).foldl (fun m y => m ||| y.2) (0 : BitVec 16)
    (held &&& mine, x)
  else (0, 0)
/-- A write stands, in the cycle in which home performs it, in the words that the requester's L1 has registered too, and in its
other copies there: what it covers changes at once (R94). A copy that is on its way does not enter the L1. -/
def State.ownWrite (s : State) (r : Req) (m : BitVec 64) (x : Line) : State :=
  s.modCore r.core fun c =>
    let c := c.l1Mod r.job r.line fun l => { l with data := mergeLine (m &&& bytesOfWords l.held) x l.data }
    { c with fills := c.fills.map fun f => if f.job = r.job && f.line = r.line && f.kind = 0 then { f with acquired := true } else f }

/-- The first byte that a request covers in some words. -/
def firstByte (mask : BitVec 64) (ws : BitVec 16) : Nat := ((bitsOf (mask &&& bytesOfWords ws)).head?).getD 0

/-- A request on poisoned words that reads them ends its access (R118, R287). -/
def State.replyLost (s : State) (r : Req) (dir : Nat) (ws : BitVec 16) : State :=
  s.replyTo r { replyOf 0 0 (firstByte r.mask ws) .none with st := .dataLost, floor := (s.reqTime r dir).2 } (replyCycles r dir)

/-- The home of a line lies in a fenced half: what reaches it, or waits there, is answered data-lost (R372). -/
def State.homeFenced (s : State) (dir : Nat) : Bool := s.pkg.fenced.contains (slicePlace (sliceOf dir))
def State.replyFenced (s : State) (r : Req) (dir : Nat) : State :=
  s.replyTo r { replyOf 0 0 (firstByte r.mask 0xFFFF) .none with st := .dataLost } (replyCycles r dir)

/-- A region's remote read (R352): a read from another base die. -/
def State.countRemote (s : State) (r : Req) (pl : Place) : State :=
  let b := baseOf (dieOf r.core)
  if reqIsLoad r && !sweeps r && decide (r.line < physBase) && decide (homeBase pl.dir ≠ b) then
    s.windowEnds.modMS fun m =>
      let g := Table.getD m.regions (regionOf r.line) RepRegion.reset
      { m with regions := Table.set m.regions (regionOf r.line) { g with reads := g.reads.setIfInBounds b (g.reads[b]! + 1) } }
  else s

/-- A read that also fills a replica on its base die (R353). -/
def State.fillsReplica (s : State) (r : Req) (pl : Place) : Bool :=
  let b := baseOf (dieOf r.core)
  leafRepl pl.leaf && decide (homeBase pl.dir ≠ b) && (s.repRegion (regionOf r.line)).serves (homeBase pl.dir) b &&
    (match r.kind with | .fetch => true | .load => r.pol = .sis || (r.pol = .wt && !r.acq) | _ => false)

/-- What the transaction of a free stack's head waits for: the write that ends the engine's operation (R221). -/
def lockTarget : BitVec 32 := BitVec.allOnes 32

/-- The I/O die whose filter serves a line (R392): die 0 the homes on base dies 0 and 3, die 1 those on 1 and 2. -/
def filterOf (dir : Nat) : Nat := let b := homeBase dir; if b = 0 || b = 3 then 0 else 1
/-- A back-invalidation of a line leaves for the host: it is acknowledged 1,200 cycles later (R392). -/
def State.backInvalidate (s : State) (dir : Nat) : State :=
  s.modMS fun m => { m with backInvs := Table.set (m.backInvs.filter fun x => decide (s.cycle < x.2)) dir (s.cycle + 1200) }
/-- The cycle in which the host acknowledges the back-invalidation of a line that is under way, else 0. -/
def State.backInvAt (s : State) (dir : Nat) : Nat :=
  match Table.get? s.ms.backInvs dir with
  | some n => if s.cycle < n then n else 0
  | none => 0
/-- A host access enters its line in the filter, M with ownership; the line used longest ago is back-invalidated out of a full
filter, one that the host holds modified once its bytes have come (R391, R392). -/
def State.track (s : State) (dir : Nat) (own : Bool) : State :=
  let rest := Table.del s.ms.filter dir
  let mates := rest.filter fun x => filterOf x.1 = filterOf dir && (x.2 = false || s.backInvAt x.1 = 0)
  let (s, rest) := if mates.length < 2 ^ 21 then (s, rest)
    else match mates.getLast? with
      | some (d, m) => (s.backInvalidate d, if m then rest else Table.del rest d)
      | none => (s, rest)
  s.modMS fun m => { m with filter := (dir, own) :: rest }

/-- While the port of a host line's I/O die is down, its home reaches host memory through the other I/O die's, three hops
away on the ring (R386, log 98). -/
def State.portDetour (s : State) (dir : Nat) : Nat :=
  if lineInHost dir && !s.pkg.portUp.getLsbD (sliceOf dir % 2) then 30 else 0

/-- The request performs: every probe it needed is acknowledged. `got` are the words that forwards have returned,
with their data, `away` and `back` the times of the ways there and from there, which stand for the way from home (R288). -/
def State.homePerform (s : State) (r : Req) (pl : Place) (got : BitVec 16) (gotData : Line) (away back : Nat) : State :=
  let h := { s.homeLine pl.dir with txn := none }
  let pol := s.homePol r pl
  let need := wordsOf r.mask
  let lost := s.poisonWords pl.data
  let (ptime, floor) := s.reqTime r pl.dir
  let (own, mine) := s.ownWords r pl
  let x := mergeLine (bytesOfWords own) mine (mergeLine (bytesOfWords got) gotData (s.keyedLine pl.data pl.key))
  let plain := ~~~h.registered &&& ~~~lost
  let collapses := s.collapseTrip pl.dir
  -- what an engine, the host or the device writes is acknowledged at package scope (R213, R393)
  let fin := replyCycles r pl.dir + s.portDetour pl.dir + back - away + (if reqByThread r || reqIsLoad r then 0 else collapses)
  let rep (h : HomeLine) (words : BitVec 16) (i : Install) (sysAt : Nat) (pkgAt : Nat := 0) : Reply :=
    { st := .ok, data := x, words := words ||| own, keep := words, wts := h.wts.toNat, rts := h.rts.toNat, inst := i, floor := floor,
      aliased := s.aliased pl.dir, pkgAt := pkgAt, sysAt := sysAt }
  let done (s : State) (h : HomeLine) (p : Reply) : State :=
    match r.src with
    | .host own => ((s.putHome pl.dir h).track pl.dir own).modPkg fun k =>
        { k with hostRead := if reqIsLoad r then some (r.line - physBase, x) else none }
    | _ => (s.putHome pl.dir h).replyTo r p fin
  -- writes: S lines of the host are back-invalidated (R392), replicas collapse (R353), code lines are marked (R357)
  let inS := (Table.get? s.ms.filter pl.dir).isSome
  let sysAt := if inS then s.cycle + 1200 else s.backInvAt pl.dir
  let pkgAt := if collapses = 0 then 0 else s.cycle + collapses
  let wrote (s : State) : State :=
    let s := (s.collapse pl.dir).modMS fun m => { m with filter := Table.del m.filter pl.dir }
    if inS then s.backInvalidate pl.dir else s
  let marked (s : State) : State :=
    if leafCode pl.leaf then s.modMS fun m => { m with marks := NatSet.insert m.marks pl.dir } else s
  -- an own request registers its words (R287)
  let register (ws : BitVec 16) (s : State) : State :=
    let a := reqAgent r
    let ids : Line := BitVec.ofNat 512 ((List.range 16).foldl (fun n i => n + a.toNat * 2 ^ (32 * i)) 0)
    let s := (wrote s).writeLine pl.data pl.key (bytesOfWords ws) ids
    let h := h.jump ptime
    done s { h with registered := h.registered ||| ws } (rep h (plain ||| got ||| ws) (.registered ws) sysAt pkgAt)
  match r.kind with
  | .load | .fetch =>
    let head := (match r.kind, r.src with | .fetch, .load _ => true | _, _ => false)
    let unpublished := r.kind = .fetch && !head && s.ms.marks.contains pl.dir
    let fills := s.fillsReplica r pl && !head && !unpublished
    let lease := tsMax h.rts.toNat (tsAdd ptime r.lease)
    let leased := { h with rts := ts24 lease }
    let h' := if fills then leased else h
    let s := if fills then s.schedule fin (.replicaFill r (rep h' plain .leased 0)) else s
    if unpublished then
      done s h' { rep h' 0 .none 0 with st := .unpublished }
    else if pol = .unc || head then done s h' (rep h' (plain ||| got) .none 0)
    else if pol = .own then register need s
    else if pol = .sis then
      -- each word by its own row: forwarded ones have a lease of length zero
      if need &&& (plain ||| own) &&& ~~~own = 0 then done s h (rep h (plain ||| got) .none 0)
      else done s leased { rep leased (plain ||| got) .leased 0 with keep := plain }
    else if pol = .wis || r.kind = .fetch then
      let h := h'.enrol pl.dir (reqAgent r)
      done s h (rep h plain .shared 0)
    else done s h' (rep h' (plain ||| got) .untracked 0)
  | .hold =>
    let t : Txn := { req := r, evict := false, waiting := [lockTarget], words := 0, merged := 0, data := 0, host := false,
                     away := 0, back := 0 }
    ((wrote s).putHome pl.dir { h with txn := some t }).replyTo r (rep h (plain ||| got) .none sysAt pkgAt) fin
  | .publish | .move => s
  | .store | .reclaim | .amo _ | .cas | .free =>
    if pol = .own && need &&& ~~~lost ≠ 0 then
      -- a poisoned word is written as by a wt store (R287)
      let s := s.writeLine pl.data pl.key (r.mask &&& bytesOfWords lost) r.data
      register (need &&& ~~~lost) s
    else
      let (m, y) := reqWrites r x
      let s := marked ((wrote s).writeLine (if r.shadow then pl.back else pl.data) pl.key (m &&& ~~~bytesOfWords own) y)
      let s := if own &&& need = 0 then s else s.ownWrite r m y
      let s := if r.kind = .reclaim then s.setPoison pl.data (wholeWords r.mask) false else s
      let h := h.jump ptime
      done s h (rep h (plain ||| got) .none sysAt pkgAt)

/-- A request whose page is not mapped: a load learns it (R118, R347), a store is offered again. -/
def State.homeUnmapped (s : State) (r : Req) : State :=
  let w := s.walk (r.line * 64)
  if reqIsRead r then
    s.replyTo r { replyOf 0 0 0 .none with st := if leafAbsent w.attr.leaf then .notPresent else .unmapped } 40
  else s.schedule 64 (.homeRequest r)

/-- Requests that have waited are served before what arrives in this cycle, in their order (R283). -/
def State.runFirst (s : State) (rs : List Req) : State :=
  { s with agenda := (rs.map fun r => (s.cycle, Instr.homeRequest r)) ++ s.agenda }

/-- A transaction whose probes and writeback have come performs, or ends the eviction it is (R289). -/
def State.tryPerform (s : State) (dir : Nat) : State :=
  let h := s.homeLine dir
  match h.txn with
  | none => s
  | some t =>
    if !t.waiting.isEmpty || t.host then s
    else if t.evict then
      let s := s.modMS fun m => { m with home := Table.del m.home dir }
      (s.raiseFloor (sliceOf dir) h.rts.toNat).runFirst (t.req :: h.queue)
    else
      let closed := s.putHome dir { h with txn := none }
      if s.homeFenced dir then closed.replyFenced t.req dir
      else match s.placeFor t.req with
      | some pl =>
        -- words of the requester's own that it has sent back meanwhile are waited for (R292)
        let left := wordsOf t.req.mask &&& ~~~t.words &&& h.registered &&& ~~~(s.ownWords t.req pl).1
        if pl.dir = dir && (left = 0 || !servedByOwn t.req (s.homePol t.req pl)) then
          s.homePerform t.req pl t.merged t.data t.away t.back
        else closed.runFirst [t.req]
      | none => closed.homeUnmapped t.req

/-- The probes of a transaction leave: to each registrant for its words, and to each sharer. -/
def State.sendProbes (s : State) (dir : Nat) (regs : List (BitVec 32 × BitVec 16)) (drop fwd : Bool)
    (sharers : List (BitVec 32)) : State :=
  let s := regs.foldl (fun s (a, ws) =>
    let p : Probe := { agent := a, pline := dir, words := ws, drop := drop }
    s.schedule (s.probeTrip dir a / 2) (if fwd then .forward p else .revocation p)) s
  sharers.foldl (fun s a =>
    s.schedule (s.probeTrip dir a / 2) (.invalidation { agent := a, pline := dir, words := 0xFFFF, drop := true })) s

/-- A request is served by each word's state (R287): it performs, or opens a transaction. -/
def State.homeStart (s : State) (r : Req) (pl : Place) : State :=
  let h := s.homeLine pl.dir
  -- a host's read for ownership writes nothing, and every word is revoked for it (R391)
  let need := if r.kind = .store && r.mask = 0 then 0xFFFF else wordsOf r.mask
  let lost := if sweeps r then 0 else need &&& s.poisonWords pl.data
  let pol := s.homePol r pl
  if reqIsRead r && lost ≠ 0 then
    (match r.src with
     | .host own => (s.track pl.dir own).modPkg fun k => { k with hostRead := none }
     | _ => s).replyLost r pl.dir lost
  else
    let s := s.countRemote r pl
    let keeps := (match r.kind with | .load => pol = .wt || pol = .sis | _ => false)
    let (own, _) := s.ownWords r pl
    let regs := ((s.registrants pl.dir need).map fun x => if x.1 = reqAgent r then (x.1, x.2 &&& ~~~own) else x).filter fun x => x.2 ≠ 0
    let writes := !(reqIsLoad r) || pol = .own
    let sharers := if writes then s.sharerTargets pl.dir h else []
    let byHost : Bool := match r.src with | .host _ => true | _ => false
    let host := !byHost && (Table.get? s.ms.filter pl.dir) = some true
    let owns (a : BitVec 32) : Bool := reqByThread r && a = reqAgent r
    let forwards := keeps || pol = .own
    let ys := if forwards then (regs.map (·.1)).filter fun a => !owns a else []
    let t : Txn := { req := r, evict := false, waiting := regs.map (·.1) ++ sharers,
                     words := need &&& h.registered &&& ~~~own, merged := 0, data := 0, host := host,
                     away := (ys.map fun a => (let n := s.probeTrip pl.dir a; n - n / 2)).foldl max 0,
                     back := (ys.map fun a => s.forwardTrip pl.dir a r.core).foldl max 0 }
    let h := { h with txn := some t }
    let h := if writes then { h with clusters := 0, dies := 0, roots := [], overflow := false } else h
    let s := if host && s.backInvAt pl.dir = 0 then s.backInvalidate pl.dir else s
    let s := (s.putHome pl.dir h).sendProbes pl.dir (regs.filter fun x => owns x.1) true false []
    (s.sendProbes pl.dir (regs.filter fun x => !owns x.1) (!keeps) forwards sharers).tryPerform pl.dir

/-- A request is for the line of an entry. -/
def State.isFor (s : State) (dir : Nat) (r : Req) : Bool := (s.placeFor r).any fun p => p.dir = dir

/-- The other entries of a line's set (R280). -/
def State.mates (s : State) (dir : Nat) : Table HomeLine :=
  s.ms.home.filter fun (d, _) => d ≠ dir && sliceOf d = sliceOf dir && decide (Config.directorySet d = Config.directorySet dir)

/-- The entry that leaves a full set (R289): without an open transaction, all words H and no sharers preferred, then
the least recently used; where every one has a transaction open, the one that is waited for. -/
def State.victim (s : State) (mates : Table HomeLine) : Option (Nat × HomeLine) :=
  let free := mates.filter fun (_, h) => h.txn.isNone
  let clean := free.filter fun (d, h) => h.registered = 0 && h.noSharers && s.poisonWords (s.front d) = 0
  let pick (l : Table HomeLine) : Option (Nat × HomeLine) := l.foldl (fun b x =>
    match b with | none => some x | some y => if x.2.used < y.2.used then some x else b) none
  if !clean.isEmpty then pick clean else if !free.isEmpty then pick free else pick mates

/-- An entry is evicted for a request that waits for it. -/
def State.homeEvict (s : State) (dir : Nat) (h : HomeLine) (r : Req) : State :=
  let regs := s.registrants dir 0xFFFF
  let sharers := s.sharerTargets dir h
  let t : Txn := { req := r, evict := true, waiting := regs.map (·.1) ++ sharers, words := h.registered, merged := 0,
                   data := 0, host := false, away := 0, back := 0 }
  ((s.putHome dir { h with txn := some t, clusters := 0, dies := 0, roots := [], overflow := false }).sendProbes dir regs
    true false sharers).tryPerform dir

/-- A request that leaves no mark on its line: it takes no entry. -/
def State.leavesNone (s : State) (r : Req) (pl : Place) : Bool :=
  (match r.kind with | .load => s.homePol r pl = .unc || s.homePol r pl = .wt | _ => false) && !s.fillsReplica r pl

/-- A request for a line that has no entry waits where its set is full: behind an earlier one for the line, else, where it leaves a
mark on the line, for the eviction of an entry (R283, R289). -/
def State.needsEntry (s : State) (pl : Place) (r : Req) : Option State :=
  let dir := pl.dir
  let mates := (s.mates dir).filter fun x => x.2.stands
  if (Table.get? s.ms.home dir).any (·.stands) || mates.length < 16 then none
  else
    let behind (x : Nat × HomeLine) : Bool := (x.2.txn.any fun t => t.evict && s.isFor dir t.req) || x.2.queue.any (s.isFor dir)
    match mates.find? behind with
    | some (d, h) => some (s.setHome d { h with queue := h.queue ++ [r] })
    | none => if s.leavesNone r pl then none else (s.victim mates).map fun (d, h) =>
      if h.txn.isSome then s.setHome d { h with queue := h.queue ++ [r] } else s.homeEvict d h r

/-- The requests that wait behind a closed transaction are served in arrival order (R283). -/
def State.homeDrain (s : State) (dir : Nat) : Nat → State
  | 0 => s
  | n + 1 =>
    let h := s.homeLine dir
    match h.txn, h.queue with
    | none, r :: rs =>
      let s' := s.putHome dir { h with queue := rs }
      if s.homeFenced dir then (s'.replyFenced r dir).homeDrain dir n
      else match s.placeFor r with
      | some pl =>
        if pl.dir ≠ dir then (s'.runFirst [r]).homeDrain dir n
        else match ((s.putHome dir { h with queue := [] }).runFirst rs).needsEntry pl r with
          | some s => s
          | none => (s'.homeStart r pl).homeDrain dir n
      | none => (s'.runFirst [r]).homeDrain dir n
    | _, _ => s

/-- The requests behind an entry that is free go on: those of its line, and first those that wait for its place. -/
def State.homeNext (s : State) (dir : Nat) : State :=
  let h := s.homeLine dir
  if h.txn.isSome || h.queue.isEmpty then s
  else
    let (mine, others) := (h.queue.filter (s.isFor dir), h.queue.filter fun r => !s.isFor dir r)
    ((s.putHome dir { h with queue := mine }).homeDrain dir (mine.length + 1)).runFirst others


/-- The page of a home line is held (R351, R355). -/
def PageHold.covers (p : PageHold) (dir : Nat) : Bool :=
  if p.big then dir / 2 ^ 23 = p.frame / 8192 else dir / 1024 = p.frame

/-- The write that ends an engine's operation on a free stack's head: it performs in the transaction that the read left
open, and closes it (R221). -/
def State.homeFree (s : State) (r : Req) (pl : Place) : State :=
  let h := s.homeLine pl.dir
  match h.txn with
  | some t =>
    if t.waiting = [lockTarget] then
      ((s.putHome pl.dir { h with txn := none }).homePerform r pl 0 0 0 0).homeNext pl.dir
    else s
  | none => s

/-- HOME_WRITEBACK: the words that the sender still has registered become the memory's (R287, R292); a transaction
that waits for them goes on. -/
def execHomeWriteback (w : Wb) (s : State) : Res :=
  match s.place w.job w.line with
  | none => .next (s.schedule 64 (.homeWriteback w))
  | some pl =>
    let s := s.wbAcked w
    -- a cache of a tree returns what its root has registered
    let sender (a : BitVec 32) : Bool :=
      a = w.agent || (agentIsRoot a && agentIsRoot w.agent && decide (agentJob a = agentJob w.agent))
    match (s.registrants pl.dir w.words).find? fun x => sender x.1 with
    | none => .next s
    | some (a, ws) =>
      let s := s.putWords pl.dir ws w.data
      let h := s.homeLine pl.dir
      let left (t : Txn) : Bool := (s.registrants pl.dir (t.words &&& ~~~t.merged)).any fun x => x.1 = a
      let h := { h with
        txn := h.txn.map fun t => if left t then t else { t with waiting := t.waiting.filter (· ≠ a) } }
      .next (((s.putHome pl.dir h).tryPerform pl.dir).homeNext pl.dir)

/-- PROBE_ACKNOWLEDGEMENT: the words that come with it merge, or become the memory's where the agent has dropped
them; an agent that has none left to return is waited for no more (R287, R292). -/
def execProbeAcknowledgement (a : ProbeAck) (s : State) : Res :=
  let h := s.homeLine a.pline
  match h.txn with
  | none => .next s
  | some t =>
    if !(t.waiting.contains a.agent) then .next s
    else
      let t := { t with merged := t.merged ||| a.words, data := mergeLine (bytesOfWords a.words) a.data t.data }
      let s := s.putHome a.pline { h with txn := some t }
      let s := if a.drop then s.putWords a.pline a.words a.data else s
      let h := s.homeLine a.pline
      let left := (s.registrants a.pline (t.words &&& ~~~t.merged)).any fun x => x.1 = a.agent
      let h := if left then h else { h with txn := some { t with waiting := t.waiting.filter (· ≠ a.agent) } }
      .next (((s.putHome a.pline h).tryPerform a.pline).homeNext a.pline)

/-! ## Probes at the agents (R275, R287, R291, R292) -/

/-- The acknowledgement of a probe, half a round trip later. -/
def State.ackProbe (s : State) (p : Probe) (ws : BitVec 16) (x : Line) : State :=
  let t := s.probeTrip p.pline p.agent
  s.schedule (t - t / 2) (.probeAcknowledgement { agent := p.agent, pline := p.pline, words := ws, data := x, drop := p.drop })

/-- A registration grant for a core is in flight. -/
def State.grantComing (s : State) (core job line : Nat) : Bool :=
  let grants (r : Req) (p : Reply) : Bool :=
    r.core = core && r.job = job && r.line = line && (match p.inst with | .registered _ => true | _ => false)
  s.agenda.any fun (_, e) => match e with
    | .memoryReply r p | .storeQueueAck r p => grants r p
    | _ => false

/-- The fill of a line's first registration request holds a probe. -/
def holdFirst (p : Probe) (job line : Nat) : List Fill → List Fill
  | [] => []
  | f :: fs =>
    if f.job = job && f.line = line && f.kind = 1 then { f with held := f.held ++ [p] } :: fs
    else f :: holdFirst p job line fs

/-- A grant of the line on its way to a core holds the probe (R291). -/
def State.holdProbe (s : State) (p : Probe) (job line : Nat) (cores : List Nat) : Option State :=
  match cores.find? fun k => s.grantComing k job line with
  | some k => some (s.modCore k fun c => { c with fills := holdFirst p job line c.fills })
  | none => none

/-- A writeback of the line is still on its way up the tree. -/
def State.risingWb (s : State) (job line : Nat) : Bool :=
  s.agenda.any fun (_, e) => match e with
    | .vcacheWriteback w _ => w.job = job && w.line = line
    | _ => false

/-- A forward or a revocation reaches its agent: words held here are returned, words whose grant is on its way hold
the probe, and words already sent back are answered released. -/
def State.serveProbe (s : State) (p : Probe) (again : Instr) : State :=
  if agentIsRoot p.agent then
    let job := agentJob p.agent
    let vc := agentVc p.agent
    match s.vlinesOf job p.pline with
    | [] => s.ackProbe p 0 0
    | lines =>
      if lines.any fun l => s.risingWb job l then s.schedule 1 again
      else
        let got := lines.foldl (fun (m, x) l =>
          let (n, y) := s.treeHeld job vc l
          (m ||| n, mergeLine (bytesOfWords n) y x)) ((0 : BitVec 16), (0 : Line))
        let missing := p.words &&& ~~~got.1
        match (if missing = 0 then none else lines.findSome? fun l => s.holdProbe p job l (s.coresOf job)) with
        | some s => s
        | none =>
          let ws := p.words &&& got.1
          let s := if p.drop then lines.foldl (fun s l => s.treeRelease job vc l ws) s else s
          s.ackProbe p ws got.2
  else
    let k := agentCore p.agent
    let mine := (s.core k).l1.filter fun x => (s.place x.job x.line).any fun q => q.dir = p.pline
    let reg := mine.foldl (fun m x => m ||| x.registered) (0 : BitVec 16)
    let x := mine.foldl (fun y l => mergeLine (bytesOfWords l.registered) l.data y) (0 : Line)
    let missing := p.words &&& ~~~reg
    let fills := ((s.core k).fills.filter fun f => (s.place f.job f.line).any fun q => q.dir = p.pline)
    match (if missing = 0 then none else fills.findSome? fun f => s.holdProbe p f.job f.line [k]) with
    | some s => s
    | none =>
      let ws := p.words &&& reg
      let s := if p.drop then
          let off (l y : L1Line) : L1Line :=
            if y.job = l.job && y.line = l.line then { y with registered := y.registered &&& ~~~ws } else y
          mine.foldl (fun s l => s.modCore k fun c =>
            { c with l1 := (c.l1.map (off l)).filter fun y => y.held ≠ 0 }) s
        else s
      s.ackProbe p ws x

/-- FORWARD: the registrant sends the words; it keeps them, or drops its registration (R287). -/
def execForward (p : Probe) (s : State) : Res := .next (s.serveProbe p (.forward p))

/-- REVOCATION: the registrant returns the words and drops them. -/
def execRevocation (p : Probe) (s : State) : Res :=
  let s := if agentIsRoot p.agent then s else s.count (agentCore p.agent) 0x12 0
  .next (s.serveProbe p (.revocation p))

/-- A core's copies of the lines that a test picks end, the shared ones, and with `all` every one that is not registered
(R286, R355); its instruction cache loses the lines, and a fill on its way serves once (R291). -/
def State.dropCopies (s : State) (core : Nat) (hit : Nat → Bool) (all : Bool) : State :=
  let here (job line : Nat) : Bool := (s.place job line).any fun q => hit q.dir
  let code := (s.codeLines core).filter fun x => here x.1 x.2
  let s := s.modCore core fun c =>
    { c with
      l1 := (c.l1.map fun x => if here x.job x.line then
          { x with untracked := if all then 0 else x.untracked, leases := if all then [] else x.leases, shared := 0 } else x).filter
        fun x => x.held ≠ 0
      fills := c.fills.map fun f => if here f.job f.line then { f with useOnce := true } else f }
  code.foldl (fun s x => s.fetchDrop core x.1 x.2) s

/-- An invalidation goes down a tree for one of its lines; the fills of its cores serve once. -/
def State.treeInvalidate (s : State) (job vc line : Nat) (all : Bool) : State :=
  (s.coresOf job).foldl (fun s k => s.modCore k fun c =>
    { c with fills := c.fills.map fun f => if f.job = job && f.line = line then { f with useOnce := true } else f })
    (s.treeDrop job vc line all)

/-- INVALIDATION: an L1's, a cluster's, a die's or a tree's shared copies of the line end (R275, R286, R288). -/
def execInvalidation (p : Probe) (s : State) : Res :=
  let a := p.agent
  let t := s.probeTrip p.pline a
  let s' := if a.getLsbD 31 then
      ((s.cores.map (·.1)).filter fun k => if a.getLsbD 30 then dieOf k = a.toNat % 8 else clusterOf k = a.toNat % 512).foldl
        (fun s k => s.dropCopies k (· = p.pline) false) s
    else (s.vlinesOf (agentJob a) p.pline).foldl (fun s l => s.treeInvalidate (agentJob a) (agentVc a) l false) s
  .next (s'.schedule (t - t / 2) (.probeAcknowledgement { agent := a, pline := p.pline, words := 0, data := 0, drop := true }))

/-! ## Sweeps, leases, lost agents (R284, R286, R295, R366) -/

/-- SLICE_SWEEP: the slice sweeps one set a cycle, until it has swept them all since its floor rose: a timestamp that lies
2^22 or more behind the floor is set to the floor. -/
def execSliceSweep (sweep : Nat × Nat) (s : State) : Res :=
  let slice := sweep.1
  let left := sweep.2
  let f := s.floorOf slice
  let aged (t : BitVec 24) : BitVec 24 := if farBehind f t.toNat then ts24 f else t
  let s := s.modMS fun m =>
    { m with home := m.home.map fun (d, h) =>
        if sliceOf d = slice && Config.directorySet d = s.cycle % 1024 then (d, { h with wts := aged h.wts, rts := aged h.rts }) else (d, h) }
  .next (if left ≤ 1 then s else s.schedule 1 (.sliceSweep (slice, left - 1)))

/-- LEASE_TIMEOUT: a leased copy ends 2^20 cycles after its lease was granted. -/
def execLeaseTimeout (core job line granted : Nat) (s : State) : Res :=
  if granted + 2 ^ 20 ≤ s.cycle then
    .next (s.modCore core fun c =>
      let l1 := c.l1.map fun x => if x.job = job && x.line = line then { x with leases := x.leases.filter (·.granted ≠ granted) } else x
      { c with l1 := l1.filter fun x => x.held ≠ 0 })
  else .next s

/-- The entry without the enrolments of a lost agent: a root's, or an L1's cluster, which is lost as a whole, and its die,
where the die is fenced (R295). -/
def State.unenrol (s : State) (dir : Nat) (agent : BitVec 32) (h : HomeLine) : HomeLine :=
  if agentIsRoot agent then { h with roots := h.roots.filter fun r => rootAgent (r.toNat / 16) (r.toNat % 16) ≠ agent }
  else
    let k := agentCore agent
    if dieOf k = homeDie dir then { h with clusters := setBit h.clusters (clusterOf k % 64) false }
    else if s.pkg.fenced.contains (ringPlace (baseOf (dieOf k))) then { h with dies := setBit h.dies (dieOf k) false }
    else h

/-- When the last packet that an agent had sent home for a line arrives: it is delivered although the agent is lost (R316). -/
def State.lastWords (s : State) (agent : BitVec 32) (dir : Nat) : Option Nat :=
  (s.agenda.filterMap fun (n, e) => match e with
    | .probeAcknowledgement a => if a.agent = agent && a.pline = dir then some n else none
    | .homeWriteback w => if w.agent = agent && (s.place w.job w.line).any fun q => q.dir = dir then some n else none
    | _ => none).getLast?

/-- When the last registration request that an agent had sent, and that home has not served yet, may have been served (R295, R316):
it comes from an agent that is lost. -/
def State.lastRequests (s : State) (agent : BitVec 32) : Option Nat :=
  let mine (r : Req) : Bool := r.pol = .own && if agentIsRoot agent then r.job = agentJob agent && (match r.path with
      | vc :: _ => s.rootOf r.job 16 vc = agentVc agent
      | [] => false) else reqAgent r = agent
  let coming := s.agenda.filterMap fun (n, e) => match e with
    | .homeRequest r | .vcacheLookup r _ => if mine r then some (max n (s.cycle + 1)) else none
    | _ => none
  let waiting := (s.ms.home.any fun (_, h) => h.queue.any mine || h.txn.any fun t => mine t.req) || s.ms.holds.any fun h => h.held.any mine
  coming.foldl (fun o n => some (max n (o.getD 0))) (if waiting then some (s.cycle + 1) else none)

/-- AGENT_LOST_SCAN: every word registered to the agent is poisoned, its enrolments end, and what waits for it goes
on. A line for which a packet of the agent is still on its way is scanned again after that, and every line after the last of its
registration requests: what home has registered to it since is poisoned too. -/
def execAgentLostScan (agent : BitVec 32) (s : State) : Res :=
  let s := match s.lastRequests agent with
    | some n => s.schedule (n - s.cycle) (.agentLostScan agent)
    | none => s
  .next ((s.ms.home.map (·.1)).foldl (fun s d =>
    match s.lastWords agent d with
    | some n => s.schedule (n - s.cycle) (.agentLostScan agent)
    | none =>
    let ws := (((s.registrants d 0xFFFF).find? fun x => x.1 = agent).map (·.2)).getD 0
    let s := if ws = 0 then s else (s.putWords d ws 0).setPoison (s.front d) ws true
    let h := s.unenrol d agent (s.homeLine d)
    let s := s.setHome d h
    match h.txn with
    | some t =>
      if !t.waiting.contains agent then s
      else
        let t := { t with waiting := t.waiting.filter (· ≠ agent) }
        (if !t.evict && t.waiting.isEmpty && reqIsRead t.req && wordsOf t.req.mask &&& ws ≠ 0 then
          (s.putHome d { h with txn := none }).replyLost t.req d (wordsOf t.req.mask &&& ws)
        else (s.putHome d { h with txn := some t }).tryPerform d).homeNext d
    | none => s) s)

/-! ## Replicas (R352, R353) -/

/-- How many lines a base die's replica area holds (R352): the sets of the ways that the allotments give it. -/
def State.replicaRoom (s : State) (b : Nat) : Nat :=
  128 * (s.ms.allot.filter fun (n, e) => n / 16 / 2048 = b && e.getLsbD 14).length

/-- REPLICA_FILL: the line enters the replica area of the requester's base die, unless the line has been written since
home read it; the line filled longest ago leaves a full area (log 11). -/
def execReplicaFill (r : Req) (p : Reply) (s : State) : Res :=
  let b := baseOf (dieOf r.core)
  match s.placeFor r with
  | none => .next s
  | some pl =>
    let room := s.replicaRoom b
    if !(s.fillsReplica r pl) || (s.homeLine pl.dir).wts.toNat ≠ p.wts || p.words ≠ 0xFFFF || room = 0 then .next s
    else
      let x : RepLine := { base := b, region := regionOf r.line, pline := pl.dir, data := p.data, wts := ts24 p.wts, rts := ts24 p.rts,
                           ends := none }
      .next (s.modMS fun m =>
        let mine := (x :: m.replicas.filter fun y => y.base = b && y.pline ≠ pl.dir).take room
        { m with replicas := mine ++ m.replicas.filter fun y => y.base ≠ b })

/-- A region's degree, whose changes are counted (R352, R378). -/
def RepRegion.setDegree (g : RepRegion) (d : Nat) : RepRegion :=
  { g with degree := d, changes := if d = g.degree then g.changes else g.changes + 1 }

/-- The base dies by their remote reads in the window that ends, the most first, the lower one on a tie. -/
def RepRegion.ranked (g : RepRegion) : RepRegion :=
  let before (b c : Nat) : Bool := g.reads[c]! < g.reads[b]! || (g.reads[c]! = g.reads[b]! && b < c)
  let rank (b : Nat) : Nat := ((List.range 4).filter fun c => before c b).length
  { g with order := (List.range 4).filterMap fun i => (List.range 4).find? fun b => rank b = i }

/-- Replicas of a region on base dies that do not serve it any more are dropped. -/
def State.trimReplicas (s : State) (region : Nat) : State :=
  let g := s.repRegion region
  s.modMS fun m => { m with replicas := m.replicas.filter fun x => x.region ≠ region || g.serves (homeBase x.pline) x.base }

/-- REPLICA_WINDOW: the end of a window of 65,536 cycles sets every region's degree. After a window without reads, which leaves
degree 0 and the order of the numbers everywhere, nothing changes until the next read. -/
def execReplicaWindow (s : State) : Res :=
  let next (g : RepRegion) : RepRegion :=
    let readers := ((List.range 4).filter fun b => g.reads[b]! ≥ 256).length
    let d := if g.collapses ≥ 64 then g.degree - 1 else min 3 readers
    let d := match g.pin, g.cap with | some p, _ => p | none, some c => min d c | none, none => d
    { (g.setDegree d).ranked with reads := Vector.replicate 4 0, collapses := 0 }
  let s' := s.modMS fun m => { m with regions := m.regions.map fun (n, g) => (n, next g) }
  .next ((s.ms.regions.map (·.1)).foldl (fun x n => x.trimReplicas n)
      (if s'.ms.regions.any fun (_, g) => g.degree ≠ 0 || g.order ≠ [0, 1, 2, 3] then s'.schedule 65536 .replicaWindow else s'))

end Sys2Proof.Machine
end

