-- ==== Sys2Proof/Machine/Scalar.lean ====
section
/-! DEFINITION. The scalar memory instructions (06_thread_memory R117 to R141): loads, stores, atomics, full/empty words,
fences, cache lines, page residency, and writes of another thread's registers; with the events that belong to them. -/
namespace Sys2Proof.Machine

/-! ## Loads and stores (R121) -/

/-- A value of w bytes widened to a register. -/
def widenVal (width : Width) (sx : Bool) (n : Nat) : Word :=
  let bits := 8 * width.bytes
  if sx then (BitVec.ofNat bits n).signExtend 64 else BitVec.ofNat 64 n

/-- `ld` and `ldc`; `ldc` taints its result and marks the point for tainted accesses (R95). DESIGN CHOICE (log 106): a load that
keeps its position writes its result in its issue cycle, before the cycle in which the result can first be used. -/
def loadG (m : MemArgs) (marks : Bool) (s : State) : Res :=
  withG [m.a, m.b] s
    (let taint := s.anyTaint [m.a, m.b]
     loadBytes (s.ea m.a m.b m.scale (simm m.disp)) m.width.bytes m.pol m.ord m.scope taint true s fun bs s =>
       let s := if marks then s.modCtx fun c => { c with ldcAt := s.cycle } else s
       .next ((s.setG m.d (widenVal m.width m.sx (natOfBytes bs)) (taint || marks)).finish 8))
def execLd (m : MemArgs) (s : State) : Res := loadG m false s
def execLdc (m : MemArgs) (s : State) : Res := loadG m true s

def execSt (m : MemArgs) (s : State) : Res :=
  withG [m.d, m.a, m.b] s
    (storeBytes (s.ea m.a m.b m.scale (simm m.disp)) (bytesOfNat m.width.bytes (s.g m.d).toNat) m.pol m.ord m.scope s
      fun s => .next (s.finish 8))

/-- An sc access that has been acknowledged: later accesses wait until it has performed at its scope (R126). -/
def State.afterSc (s : State) (ord : MemOrd) (scope : Scope) : State :=
  if ord = .sc && s.ctx.inst && decide (s.cycle < s.ctx.scopeAt scope) then s.rest .drain (s.ctx.scopeAt scope - s.cycle) else s

/-- The thread's queued stores that lie in some lines. -/
def State.queuedOn (s : State) (lines : List Nat) : Bool :=
  (s.core s.myCore).queue.any fun e => e.thread = s.cur && e.req.job = s.ctx.job && lines.contains e.req.line

/-- The reclaim store (R122): its bytes are written at home, and the thread goes on when home has acknowledged. -/
def execReclaimStore (m : MemArgs) (s : State) : Res :=
  withG [m.d, m.a, m.b] s
    (let a := s.ea m.a m.b m.scale (simm m.disp)
     let n := m.width.bytes
     let bs := bytesOfNat n (s.g m.d).toNat
     if s.behindPush [(a, n)] then .next (s.park .drain) else
     match targetOf s.myCore a with
     | .none | .weight _ _ => trapTo s causeAddress a
     | .ls core off =>
       match s.localCheck a core off n with
       | .error (c, v) => trapTo s c v
       | .ok (core, off) =>
         watch [(a.toNat, n)] false true s
           (let here (s : State) : Res :=
              .next ((s.writeLocal (cellsFrom (lsAddr core off) bs)).finish 8)
            if m.ord ≠ .plain && !s.performed m.scope false then .next (s.awaitPerformed .drain m.scope)
            else if near s.myCore core then
              match s.claim core off n with
              | none => .next s.conflict
              | some s => here s
            else viaMessage .access a core (s.rowsOf core off n) 2 s here)
     | .global va =>
       if va + n > 2 ^ 55 then trapTo s causeAddress (BitVec.ofNat 64 (2 ^ 55))
       else withPages s va n .write (watch [(va, n)] false true s) fun as =>
           (let cells := (List.range n).map fun i => (va + i, bs.getD i 0)
            let lines := cellLines cells
            if (kindOf as = 0 || m.ord ≠ .plain) && !s.performed (if m.ord = .plain then .die else m.scope) false then
              .next (s.awaitPerformed .drain m.scope)
            else if s.queuedOn lines then .next (s.park .drain)
            else if lines.all fun l => s.ctx.gather.any fun x => x.line = l then
              let s := s.ctx.gather.foldl (fun s x => s.modCtx fun c => c.seeTime x.wts) s
              .next ((s.finish 8).afterSc m.ord m.scope)
            else
              .next ((lines.foldl (fun s l =>
                if s.ctx.asked.contains l then s
                else
                  let (mask, x) := lineStore cells l
                  ({ s with ctx := { s.ctx with asked := s.ctx.asked ++ [l] } }).ask
                    { s.newReq (.load s.cur) .reclaim .unc false l mask with data := x }) s).park .access)))

/-! ## Atomics (R129, R130) -/

/-- What an atomic does to its word: the new value, or none where it writes nothing. -/
abbrev AmoFun := Nat → Option Nat
def amoFun (op : BitVec 4) (w : Nat) (x : Word) : AmoFun := fun old => some (amoNew op w old (x.toNat % 2 ^ (8 * w)))
def casFun (w : Nat) (exp new : Word) : AmoFun := fun old =>
  if old = exp.toNat % 2 ^ (8 * w) then some (new.toNat % 2 ^ (8 * w)) else none

/-- `cas` is a 96-bit instruction, `amo` a 64-bit one. -/
def amoBytes (k : ReqKind) : Nat := match k with | .cas => 12 | _ => 8

/-- The atomic at a global address: in the L1 on registered words, else by a request (R130). -/
def amoGlobal (m : AmoArgs) (kind : ReqKind) (x y : Word) (f : AmoFun) (va : Nat) (taint : Bool) (as : List Attr)
    (s : State) : Res :=
  let w := m.width.bytes
  let line := va / 64
  let off := va % 64
  let mask := byteMask off w
  let pol := storePol m.pol (attrOf as line)
  let acq := decide (m.ord ≠ .plain)
  let fin (old : Nat) (s : State) : Res :=
    .next ((((if acq then s.acquireNow false else s).setG m.d (BitVec.ofNat 64 old) taint).finish (amoBytes kind)).afterSc
      m.ord m.scope)
  if s.ctx.gather.isEmpty && s.ctx.asked.isEmpty &&
      (s.loadWaits (kindOf as) (if acq then .sc else .plain) m.scope) then .next (s.awaitPerformed .drain m.scope)
  else if s.ctx.asked.isEmpty && s.queuedOn [line] then .next (s.park .drain)
  else
    let here := (s.core s.myCore).l1Find s.ctx.job line |>.filter fun l =>
      pol ≠ .unc && decide (wordsOf mask &&& ~~~l.registered = 0)
    let reply := s.ctx.gather.find? fun g => g.line = line && !g.granted
    match reply, here with
    | some g, _ =>
      if g.st ≠ .ok then s.badLine line g.st g.wts
      else fin (lineNat g.data off w) (s.modCtx fun c => c.seeTime g.wts)
    | none, some l =>
      let old := lineNat l.data off w
      let s := if s.ctx.asked.isEmpty then s.count s.myCore 0x0C 0 else s
      let s := match f old with
        | some v => s.modCore s.myCore fun c => c.l1Mod s.ctx.job line fun l => { l with data := mergeLine mask (lineAt off v) l.data }
        | none => s
      let s := s.modCore s.myCore fun c => c.l1Touch s.ctx.job line
      fin old (if acq then s.modCtx fun c => c.seeTime l.wts.toNat else s)
    | none, none =>
      if s.ctx.asked.contains line && s.ctx.gather.isEmpty then .next (s.park .access)
      else
        let s := if s.ctx.asked.isEmpty then s.count s.myCore 0x0B 0 else s
        let s := s.modCtx fun c => { c with asked := [line], gather := [] }
        .next ((s.ask { s.newReq (.load s.cur) kind pol acq line mask with
          data := BitVec.ofNat 512 x.toNat, data2 := BitVec.ofNat 512 y.toNat }).park .access)

/-- An atomic of w bytes at an address. -/
def atomic (m : AmoArgs) (a : Word) (kind : ReqKind) (x y : Word) (f : AmoFun) (taint : Bool) (s : State) : Res :=
  let w := m.width.bytes
  if s.behindPush [(a, w)] then .next (s.park .drain) else
  match targetOf s.myCore a with
  | .none | .weight _ _ => trapTo s causeAddress a
  | .ls core off =>
    match s.localCheck a core off w with
    | .error (c, v) => trapTo s c v
    | .ok (core, off) =>
      if off % w ≠ 0 then trapTo s causeAddress a
      else watch [(a.toNat, w)] true true s
        (let here (s : State) : Res :=
          match s.poisonIn (lsAddr core off) w with
          | some i => trapTo s causeDataLost (a + BitVec.ofNat 64 i)
          | none =>
            let old := s.mem.readNat (lsAddr core off) w
            let s := match f old with | some v => { s with mem := s.mem.writeNat (lsAddr core off) w v } | none => s
            .next (((if m.ord ≠ .plain then s.acquireNow false else s).setG m.d (BitVec.ofNat 64 old) taint).finish (amoBytes kind))
         if m.ord ≠ .plain && !s.performed m.scope false then .next (s.awaitPerformed .drain m.scope)
         else if near s.myCore core then
           match s.claim core off w 1 with
           | none => .next s.conflict
           | some s => here s
         else viaMessage .remoteAtomic a core (s.rowsOf core off w) 3 s here)
  | .global va =>
    if va % w ≠ 0 then trapTo s causeAddress a
    else withPages s va w .write (watch [(va, w)] true true s) fun as => amoGlobal m kind x y f va taint as s

/-- `amo` (R129). -/
def doAmo (op : BitVec 4) (m : AmoArgs) (s : State) : Res :=
  withG [m.a, m.b, m.c] s
    (atomic m (s.ea m.a m.b m.scale 0) (.amo op) (s.g m.c) 0 (amoFun op m.width.bytes (s.g m.c))
      (s.anyTaint [m.a, m.b, m.c]) s)
def execAmoAdd (m : AmoArgs) (s : State) : Res := doAmo 0 m s
def execAmoAnd (m : AmoArgs) (s : State) : Res := doAmo 1 m s
def execAmoOr (m : AmoArgs) (s : State) : Res := doAmo 2 m s
def execAmoXor (m : AmoArgs) (s : State) : Res := doAmo 3 m s
def execAmoMin (m : AmoArgs) (s : State) : Res := doAmo 4 m s
def execAmoMax (m : AmoArgs) (s : State) : Res := doAmo 5 m s
def execAmoMinu (m : AmoArgs) (s : State) : Res := doAmo 6 m s
def execAmoMaxu (m : AmoArgs) (s : State) : Res := doAmo 7 m s
def execAmoSwap (m : AmoArgs) (s : State) : Res := doAmo 8 m s
def execCas (m : AmoArgs) (disp : BitVec 32) (s : State) : Res :=
  withG [m.a, m.b, m.c] s
    (atomic m (s.g m.a + simm disp) .cas (s.g m.b) (s.g m.c) (casFun m.width.bytes (s.g m.b) (s.g m.c))
      (s.anyTaint [m.a, m.b, m.c]) s)

/-! ## Full/empty words (R131 to R133) -/

inductive FeOp | ldfe | stfe | ldff | feset (full : Bool)
  deriving DecidableEq, Repr

/-- The words of a local-store range, numbered as `ms.empties` numbers them. -/
def feWords (core off w : Nat) : List Nat := (List.range (w / 4)).map fun i => wordNo (lsAddr core off) + i
/-- The words become full or empty. -/
def State.setFull (s : State) (ws : List Nat) (full : Bool) : State :=
  s.modMS fun m => { m with empties := ws.foldl (fun l w => if full then NatSet.erase l w else NatSet.insert l w) m.empties }
/-- Every word is in the state that the instruction asks for. -/
def State.feReady (s : State) (op : FeOp) (ws : List Nat) : Bool :=
  match op with
  | .ldfe | .ldff => ws.all fun w => !(s.ms.empties.contains w)
  | .stfe => ws.all fun w => s.ms.empties.contains w
  | .feset _ => true

/-- One attempt at the bank (R132, R133). -/
def feTry (op : FeOp) (m : MemArgs) (a : Word) (core off : Nat) (s : State) : Res :=
  let w := m.width.bytes
  let ws := feWords core off w
  let reads := (match op with | .ldfe | .ldff => true | _ => false)
  match (if reads then s.poisonIn (lsAddr core off) w else none) with
  | some i => trapTo s causeDataLost (a + BitVec.ofNat 64 i)
  | none =>
    if s.feReady op ws then
      let v := widenVal m.width (m.sx && op ≠ .ldfe) (s.mem.readNat (lsAddr core off) w)
      let taint := s.anyTaint [m.a, m.b]
      let s := match op with
        | .ldfe => (s.setFull ws false).setG m.d v taint
        | .ldff => s.setG m.d v taint
        | .stfe => (s.writeLocal (cellsFrom (lsAddr core off) (bytesOfNat w (s.g m.d).toNat))).setFull ws true
        | .feset full => s.setFull ws full
      .next ((if reads && m.ord ≠ .plain then s.acquireNow false else s).finish 8)
    else
      let n := s.ctx.attempts + 1
      if n ≥ s.ctx.ctl.retrylim.toNat then trapTo s causeRetry a
      else
        let s := s.park .fullEmpty
        let asked := if s.ctx.asked.contains fullEmptyMark then s.ctx.asked
          else s.ctx.asked ++ [fullEmptyMark, s.cycle, wordNo (lsAddr core off)]
        .next ({ s with ctx := { s.ctx with attempts := n, asked := asked } }.schedule 8 (.fullEmptyReplay s.cur))

/-- FULL_EMPTY_REPLAY: the bank replays a latched attempt (one that finds the bank taken is replayed again), which counts
as issued now: it takes its turn among the cores of this cycle (R200). While the thread's cluster or the bank's is halted
the replays are suspended (R252). -/
def execFullEmptyReplay (t : Nat) (s : State) : Res :=
  let bank := match (s.ctxAt t).firstAttempt with
    | some (_, w) => (w * 4 - lsAddr 0 0) / 2 ^ 19
    | none => coreOf t
  if (s.cluster (clusterOf (coreOf t))).dbg.halted || (s.cluster (clusterOf bank)).dbg.halted then .next (s.schedule 8 (.fullEmptyReplay t))
  else if (s.ctxAt t).wait = .away .fullEmpty then .next { s with replays := NatSet.insert s.replays t } else .next s

def fullEmpty (op : FeOp) (m : MemArgs) (s : State) : Res :=
  let srcs := match op with | .stfe => [m.d, m.a, m.b] | _ => [m.a, m.b]
  withG srcs s
    (let a := s.ea m.a m.b m.scale (simm m.disp)
     let w := m.width.bytes
     let wr := (match op with | .stfe | .feset _ => true | _ => false)
     if s.behindPush [(a, w)] then .next (s.park .drain) else
     match targetOf s.myCore a with
     | .none | .weight _ _ | .global _ => trapTo s causeAddress a
     | .ls core off =>
       match s.localCheck a core off w with
       | .error (c, v) => trapTo s c v
       | .ok (core, off) =>
         if off % w ≠ 0 then trapTo s causeAddress a
         else watch [(a.toNat, w)] (!wr) wr s
           (let waits := if wr then m.ord ≠ .plain else m.ord = .sc
            if waits && !s.performed m.scope false then .next (s.awaitPerformed .drain m.scope)
            else if near s.myCore core then
              match s.claim core off w with
              | none => .next s.conflict
              | some s => feTry op m a core off s
            else if wr then viaMessage .fullEmpty a core (s.rowsOf core off w) 3 s (feTry op m a core off)
            else farLoad a core (s.rowsOf core off w) s (feTry op m a core off)))

def execLdfe (m : MemArgs) (s : State) : Res := fullEmpty .ldfe m s
def execStfe (m : MemArgs) (s : State) : Res := fullEmpty .stfe m s
def execLdff (m : MemArgs) (s : State) : Res := fullEmpty .ldff m s
def execFeset (m : MemArgs) (full : Bool) (s : State) : Res := fullEmpty (.feset full) m s

/-! ## Fences (R134, R135, R293) -/

/-- The round trip of a promotion probe (R135). -/
def promoteTrip (c d : Nat) : Nat :=
  if c / 8 = d / 8 then 8 else if c / 32 = d / 32 then 20 else if c / 128 = d / 128 then 26
  else if c / 512 = d / 512 then 32 else 60

/-- A releaser lies in the scope (R135). -/
def inScope (scope : Scope) (wide : Bool) (c d : Nat) : Bool :=
  match scope with
  | .core => c = d && !wide
  | .clu => c / 8 = d / 8
  | .die => c / 512 = d / 512
  | .pkg | .sys => true

/-- `fence.acq`, and the promotion of `fence.acq.pr` (R126, R135, R293). DESIGN CHOICE (log 112): with gA[16] = 1 the name is
accepted when any core of the cluster is bound to the job. -/
def execFenceAcq (scope : Scope) (pr : Bool) (a : GReg) (s : State) : Res :=
  if !pr then .next ((s.acquireNow true).finish 8)
  else withG [a] s
    (let v := (s.g a).toNat
     let core := v / 16 % 4096
     let wide := v / 2 ^ 16 % 2 = 1
     let bound := if wide then (List.range 8).any fun i => s.boundTo (core / 8 * 8 + i) s.ctx.job else s.boundTo core s.ctx.job
     if v ≥ 2 ^ 17 || !inScope scope wide s.myCore core then trapTo s causeAddress (s.g a)
     else if !bound then trapTo s causeProtection (s.g a)
     else if s.ctx.asked = [2] then .next ((s.acquireNow true).finish 8)
     else if s.ctx.asked = [1] then .next (s.park .fence)
     else
       let s := s.park .fence
       .next ({ s with ctx := { s.ctx with asked := [1] } }.schedule (promoteTrip s.myCore core / 2)
         (.promotionProbe s.cur core wide)))

/-- The releaser has acknowledged: the fence goes on after the second half of the round trip. -/
def State.promoted (s : State) (t core : Nat) : State :=
  s.modCtxAt t fun c =>
    if c.asked = [1] then
      { c with asked := [2], wait := .timed .fence (s.cycle + promoteTrip (coreOf t) core - promoteTrip (coreOf t) core / 2) }
    else c

/-- PROMOTION_PROBE: the entries of the releaser's store queue, and the registration requests of its loads and atomics, at
this cycle must be acknowledged first (R293). -/
def execPromotionProbe (t core : Nat) (wide : Bool) (s : State) : Res :=
  let cores := if wide then (List.range 8).map (core / 8 * 8 + ·) else [core]
  let s := cores.foldl (fun s k =>
    let ids := (s.core k).queue.map (·.id) ++ ((s.core k).fills.filter fun f => f.kind = 1).map (·.id)
    if ids.isEmpty then s else s.modCore k fun c => { c with promos := c.promos ++ [(t, ids)] }) s
  if cores.all fun k => (s.core k).promos.all fun x => x.1 ≠ t then .next (s.promoted t core) else .next s

/-- Entries have left the queue, or a registration has come: the promotion probes that wait for none any more are
answered. -/
def State.entryAcked (s : State) (core : Nat) : State :=
  let c := s.core core
  let out (i : Nat) : Bool := (c.queue.any fun e => e.id = i) || c.fills.any fun f => f.id = i
  let ps := c.promos.map fun (t, ids) => (t, ids.filter out)
  let s := s.modCore core fun c => { c with promos := ps.filter fun x => !x.2.isEmpty }
  (ps.filter fun x => x.2.isEmpty).foldl (fun s x =>
    if s.cores.any fun (k, c) => k / 8 = core / 8 && c.promos.any fun y => y.1 = x.1 then s else s.promoted x.1 core) s

/-- A release fence waits until every earlier access has performed. -/
def execFenceRel (scope : Scope) (all : Bool) (s : State) : Res :=
  if s.performed scope all then .next (s.finish 8) else .next (s.awaitPerformed .fence scope)
/-- A full fence releases, always over unordered pages too, and acquires. -/
def execFenceFull (scope : Scope) (_all : Bool) (s : State) : Res :=
  if s.performed scope true then .next ((s.acquireNow true).finish 8) else .next (s.awaitPerformed .fence scope)

/-! ## Cache lines and residency (R136, R138, R149) -/

/-- The caches of the line's region from the bound one to the root. -/
def State.pathCaches (s : State) (job : Nat) : Nat → Nat → List Nat
  | 0, _ => []
  | n + 1, vc => if vc < 16 then vc :: State.pathCaches s job n (s.parentOf job vc) else []

/-- The line leaves the L1 and every cache on its path, and what they hold registered goes to home (R136), behind what the core has
sent there (R283). With the cycles after which home acknowledges a flush that has nothing to bring. -/
def State.flushWide (s : State) (line : Nat) : State × Nat :=
  let job := s.ctx.job
  let core := s.myCore
  let place := s.place job line
  let x := (s.core core).l1Find job line
  let s := s.modCore core fun c => c.l1Drop job line
  let s := match x with
    | some x => if x.registered = 0 then s else s.sendWb core x 16 (some (.flush s.cur))
    | none => s
  let (s, n) := s.leaveCaches core line (place.map (·.dir))
  let after := max n (s.flitWait core 1)
  let s := (s.pathCaches job 16 (s.boundCache job (line * 64))).foldl (fun s vc =>
    match s.copyIn job vc line with
    | some b =>
      let s := s.bankDrop b
      if b.registered = 0 then s
      else (s.countWb b).sendUp (b.bank / 2048) (b.wb (s.treeAgent job b.alloc)) 16 after (some (.flush s.cur))
    | none => s) s
  (s, after + (match place with | some p => homeCycles core p.dir | none => 80))

/-- A flush has left: the thread rests at least `least` cycles, and until the last writeback is acknowledged (R136). -/
def State.awaitFlush (s : State) (least : Nat) : State :=
  if s.ackComing (.flush s.cur) then
    let s := s.park .flush
    { s with ctx := { s.ctx with asked := [flushMark, s.cycle + least] } }
  else if least = 0 then s
  else s.rest .flush least

/-- `cflush` follows the thread's own queued stores to the line (R91, R337). What it writes back is waited for until its parent, or
home, has acknowledged it. -/
def execCflush (a b : GReg) (scope : Scope) (scale : BitVec 2) (disp : BitVec 17) (s : State) : Res :=
  withG [a, b] s
    (let addr := s.ea a b scale (simm disp)
     match targetOf s.myCore addr with
     | .none | .weight _ _ => trapTo s causeAddress addr
     | .ls core off =>
       match s.localCheck addr core off 1 with
       | .error (c, v) => trapTo s c v
       | .ok _ => .next (s.finish 8)
     | .global va => withPages s va 1 .read id fun _ =>
       let line := va / 64
       let core := s.myCore
       if s.queuedOn [line] then .next (s.park .flush)
       else if scope = .core then
         match (s.core core).l1Find s.ctx.job line with
         | none => .next (s.finish 8)
         | some x => .next (((s.l1Evict core x (some (.flush s.cur))).finish 8).awaitFlush 0)
       else
         let (s, n) := s.flushWide line
         .next ((s.finish 8).awaitFlush n))

/-- The translation of the page becomes resident in the translation unit that serves the address (R138). -/
def execPtouch (a b : GReg) (scale : BitVec 2) (disp : BitVec 17) (s : State) : Res :=
  withG [a, b] s
    (let addr := s.ea a b scale (simm disp)
     match targetOf s.myCore addr with
     | .none | .weight _ _ => trapTo s causeAddress addr
     | .ls core off =>
       match s.localCheck addr core off 1 with
       | .error (c, v) => trapTo s c v
       | .ok _ => .next (s.finish 8)
     | .global va => withPages s va 1 .read id fun _ =>
       let (s, n) := s.translate (baseOf s.myDie) va
       .next ((s.finish 8).rest .timedMemory (14 + n)))

/-- TRANSLATION_WALK: the answer for a page reaches the core, and the thread that waits for it looks again (R346,
R347). -/
def execTranslationWalk (t va : Nat) (s : State) : Res :=
  let s := if (s.ctxAt t).inst then s.answerPage t va else s
  let c := s.ctxAt t
  match c.wait with
  | .away .access => .next (s.kick t)
  | .away .fetch => .next (if c.latch.isSome then s.kick t else s.unpark t)
  | _ => .next s

/-- RESIDENCY_WAKE: the thread reissues from the next cycle and sees the new leaf: its core's answers of not present are
gone (R349), once every page that it waits for is resident; a stream's parked unit is asked for again (R149, R150, R185). -/
def execResidencyWake (t : Nat) (s : State) : Res :=
  let again (st : Stream) : Stream :=
    if st.buf.any fun u => (match u with | .parked _ => true | _ => false) then
      (if st.write then st else { st with buf := st.buf.takeWhile fun u => (match u with | .parked _ => false | _ => true) })
    else st
  let c := s.ctxAt t
  if !c.inst then .next s
  else
    let s := (s.modCore (coreOf t) fun k => { k with attrs := k.attrs.filter fun a => !leafAbsent a.leaf }).setCtxAt t { c with
      streams := c.streams.map fun x => x.map again
      wait := if c.wait = .away .page && c.absent.all fun a => leafMapped (s.walk a).attr.leaf then .ready (s.cycle + 1) else c.wait }
    .next (([0, 1, 2, 3] : List (Fin 4)).foldl (fun s k =>
      match (s.ctxAt t).streams[k] with
      | some st => s.schedule 1 (if st.write then .streamPushPerform t k else .streamFill t k)
      | none => s) s)

/-- PAGE_IN_REQUEST: the translation unit asks the command processor for the page; what its firmware does next is an
outside input, LEAF_WRITE_VALID (R349, log 8). -/
def execPageInRequest (va : Nat) (s : State) : Res :=
  let page := s.pageKey va
  if s.ms.parked.any fun p => p.1 = page then
    .next (s.modPkg fun p => { p with pageIns := if p.pageIns.contains page then p.pageIns else p.pageIns ++ [page] })
  else .next s

/-- The frame number under which `ms.frames` lists the pages of a leaf. -/
def frameKey (leaf : Word) (big : Bool) : Nat :=
  let f := tierLine (leafTier leaf) (leafFrame leaf * 65536) / 1024
  if big then 2 ^ 50 + f / 8192 else f

/-- The entries of `ms.frames` for a leaf: its frame's, and that of a TWIN page's second frame (R348, R354). -/
def frameKeys (leaf : Word) (big : Bool) : List Nat :=
  if leafTwin leaf then [frameKey leaf big, frameKey leaf big + 1] else [frameKey leaf big]

/-- The address of the level-3 entry, or the level-2 entry of a 512 MiB page, that maps an address (R341). -/
def State.leafAddr (s : State) (va : Nat) : Option (Nat × Bool) :=
  let e1 := s.tableEntry s.ms.ptroot (va / 2 ^ 42 % 8192)
  if !leafValid e1 || leafLeaf e1 then none
  else
    let a2 := leafFrame e1 * 65536 + 8 * (va / 2 ^ 29 % 8192)
    let e2 := s.tableEntry (leafFrame e1 * 65536) (va / 2 ^ 29 % 8192)
    if leafLeaf e2 then some (a2, true)
    else if leafValid e2 then some (leafFrame e2 * 65536 + 8 * (va / 2 ^ 16 % 8192), false)
    else none

/-! ## Writing another thread's registers (R139, R314) -/

/-- SEND_ALLOWANCE_RETURN: an allowance comes back to its core (R314). -/
def execSendAllowanceReturn (core : Nat) (s : State) : Res :=
  .next ((s.modCore core fun c => { c with spent := c.spent - 1 }).readyWaiting .allowance (s.threadsOf core))

/-- A release store of the thread waits in the queue for what it follows (R141). -/
def State.releaseWaits (s : State) (t : Nat) : Bool :=
  (s.core (coreOf t)).queue.any fun e => e.thread = t && e.scope ≠ .core && !e.sent

/-- `rput` after its sources: the checks, the allowances, the message; `pop` takes what the instruction has read of a stream. A
release that has not left holds it back (R141); what the message spends beyond the buffer's 8 flits is spent as they come
back. -/
def rput (a : GReg) (ext : BitVec 32) (cost : Nat) (m : PutMsg) (pop : State → State) (s : State) : Res :=
  let target : Word := if a = 0 then ext.zeroExtend 64 else s.g a
  let t := target.toNat
  if t ≥ 65536 then trapTo s causeAddress target
  else if !s.boundTo (coreOf t) s.ctx.job then trapTo s causeProtection target
  else if s.releaseWaits s.cur then .next (s.park .drain)
  else if (s.core s.myCore).allowances < min cost 8 then .next ((s.unissue 0x03).park .allowance)
  else
    let d := msgCycles s.myCore (coreOf t)
    let (s, w) := s.post s.myCore cost 0 d (.rputDelivery (s.cur, t) s.ctx.job m)
    .next ((pop (s.modCtx fun c => { c with msgAt := max c.msgAt (s.cycle + w + d) })).finish 12)

def execRputG (d : GReg) (a b : GReg) (ext : BitVec 32) (s : State) : Res :=
  withG [a, b] s (rput a ext 2 (.g d (s.g b)) id s)
def execRputV (d : VIdx) (a : GReg) (b : VIdx) (ext : BitVec 32) (s : State) : Res :=
  withGV [a] [b] s (fetchV s [b] fun xs => rput a ext 10 (.v d (xs.headD VReg.zero)) (·.popAll [b]) s)

/-- RPUT_DELIVERY: the register, its presence bit and the wake-pending bit of the target (R139). -/
def execRputDelivery (way : Nat × Nat) (job : Nat) (m : PutMsg) (s : State) : Res :=
  let sender := way.1
  let t := way.2
  let put (c : Ctx) : Ctx := match m with
    | .g d v => c.remoteG s.cycle d v
    | .v d v => c.remoteV s.cycle d v
  .next (s.deliver sender t job (match m with | .g _ _ => 2 | .v _ _ => 10) (fun t' => .rputDelivery (sender, t') job m) put
    (fun s => s.countCluster (clusterOf (coreOf t)) 0x24 0 1))

end Sys2Proof.Machine
end

