-- ==== Sys2Proof/Machine/Streams.lean ====
section
/-! DEFINITION. The checks of a vector access (08_core_ops R178), and the end of a vector instruction, whose result goes
to a register or to the write stream over it (R162, R184, R185). -/
namespace Sys2Proof.Machine

/-! ## The checks of many bytes (R118, R178) -/

/-- What the checks find for a set of bytes. -/
inductive Checked
  | ok
  | stop (r : Res)

/-- The fault of one byte: its cause. -/
def State.byteFault (s : State) (need : Need) (a : Word) : Option Nat :=
  match targetOf s.myCore a with
  | .none | .weight _ _ => some causeAddress
  | .ls core off =>
    if off ≥ s.lsSize core then some causeAddress
    else if s.boundTo core s.ctx.job then none else some causeProtection
  | .global va => match s.checkPage s.myCore va need with | .fault c => some c | _ => none

/-- The lowest-addressed of the failing bytes. -/
def lowestFault : List (Word × Nat) → Option (Word × Nat)
  | [] => none
  | x :: xs => match lowestFault xs with
    | some y => if y.1 < x.1 then some y else some x
    | none => some x

/-- The page a byte waits for: not answered yet, or not present. -/
def State.byteWait (s : State) (need : Need) (a : Word) : Option (Nat × Option Nat) :=
  match targetOf s.myCore a with
  | .global va => match s.checkPage s.myCore va need with
    | .ask n => some (va, some n)
    | .absent => some (va, none)
    | _ => none
  | _ => none

/-- Checks 2 to 6 for every byte: unanswered pages first, then the lowest fault, then, behind what stands between checks 5 and
6 (R251), an absent page. -/
def State.checkBytes (s : State) (need : Need) (as : List Word) (seen : Res → Res) : Checked :=
  let pages := (as.map fun a => BitVec.ofNat 64 (a.toNat / 2 ^ 12 * 2 ^ 12)).eraseDups
  match (pages.findSome? fun a => (s.byteWait need a).filter fun x => x.2.isSome) with
  | some (va, some n) => .stop (.next (s.askPage .access va n))
  | _ =>
    match lowestFault (as.filterMap fun a => (s.byteFault need a).map fun c => (a, c)) with
    | some (a, c) => .stop (trapTo (s.dropUnmapped s.myCore a.toNat) c a)
    | none => match pages.filterMap fun a => s.byteWait need a with
      | [] => .ok
      | xs => .stop (seen (.next (s.parkPages (xs.map (·.1)))))

/-- n addresses from one up. -/
def spanFrom (a : Word) (n : Nat) : List Word := (List.range n).map fun i => a + BitVec.ofNat 64 i

/-! ## Results (R162, R184, R185) -/

/-- What can stop the push of a result over a write stream, before the instruction changes anything; the push is a write of the
thread, which a watchpoint may match (R251). -/
def pushStop (s : State) (k : Fin 4) (st : Stream) : Option Res :=
  if st.next ≥ st.units then (if st.zero then none else some (trapTo s causeStream (BitVec.ofNat 64 k.val)))
  else if st.buf.length ≥ 4 then some (.next (s.park .stream))
  else
    let spans := [((st.addr st.next).toNat, 64)]
    match s.checkBytes .write (spanFrom (st.addr st.next) 64) (watch spans false true s) with
    | .ok => if !s.ctx.skipWatch && (s.watchHit spans false true).isSome then some (watch spans false true s (.next s)) else none
    | .stop r => some r

/-- The push itself; beyond the end of a `.z` stream the result is discarded. -/
def State.push (s : State) (k : Fin 4) (x : VReg) : State :=
  match s.ctx.streams[k] with
  | none => s
  | some st =>
    if st.next ≥ st.units then s
    else (s.setStream k (some { st with next := st.next + 1, buf := st.buf ++ [.data x.bits] })).schedule 1
      (.streamPushPerform s.cur k)

/-- The end of a vector instruction of n bytes with a v-result: the result goes to the register or to the write stream
over it, the source streams pop, the flags are raised. -/
def vdone (n : Nat) (srcs : List VIdx) (tags : BitVec 5 → Word) (d : VIdx) (x : VReg) (fl : BitVec 5) (s : State) : Res :=
  match s.streamAt d with
  | none => .next ((((s.popAll srcs).raise fl).setV d x).finish n)
  | some (k, st) =>
    if st.write = false then illegal s
    else if st.tag ≠ 0 && x.tag ≠ st.tag then trapTo s causeFormat (tags x.tag)
    else match pushStop s k st with
      | some r => r
      | none => .next ((((s.popAll srcs).raise fl).push k x).finish n)

/-- The end of a vector instruction with a p- or g-result. -/
def vdoneWith (n : Nat) (srcs : List VIdx) (fl : BitVec 5) (s : State) (f : State → State) : Res :=
  .next ((f ((s.popAll srcs).raise fl)).finish n)

end Sys2Proof.Machine
end

