-- ==== Sys2Proof/Machine/Vector.lean ====
section
/-! DEFINITION. Vector instructions (08_core R162 to R176): lane arithmetic, compares, select, conversions, block
floating point, tags and moves, cross-lane instructions, reductions, scans and predicates. -/
namespace Sys2Proof.Machine

/-! ## The common start and end (R55, R81, R162, R163, R184) -/

/-- The tags A, B, C of a list of sources, with D's, as TVAL holds them (R55). -/
def tvalOf (ts : List (BitVec 5)) (d : BitVec 5) : Word := tagsVal (ts.getD 0 0) (ts.getD 1 0) (ts.getD 2 0) d

/-- D is read for the merge of inactive lanes (R162). -/
def merges (m : VMod) : Bool := m.pg ≠ 0 || m.s

/-- What a stream over the destination forbids before anything is read: a read stream (illegal), a result tag that
differs from a write stream's (format, which comes before every other fault, R55), and a merge (illegal, R184). `tv` gives
TVAL for a result tag. -/
def destStop (s : State) (d : VIdx) (merge : Bool) (tv : BitVec 5 → Word) (rt : BitVec 5) : Option Res :=
  match s.streamAt d with
  | none => none
  | some (_, st) =>
    if !st.write then some (illegal s)
    else if st.tag ≠ 0 && rt ≠ st.tag then some (trapTo s causeFormat (tv rt))
    else if merge then some (illegal s) else none

/-- Presence, the sources' tags (`ok` gives the result tag, or none for a format fault), the destination, then the
sources' values; `tv` places the sources' tags in TVAL. -/
def vstart (gs : List GReg) (merge : Bool) (d : VIdx) (srcs : List VIdx)
    (ok : List (BitVec 5) → Option (BitVec 5)) (s : State) (k : List VReg → BitVec 5 → Res)
    (tv : List (BitVec 5) → BitVec 5 → Word := tvalOf) : Res :=
  withGV gs (if merge then srcs ++ [d] else srcs) s
    (let ts := srcs.map s.tagOf
     match ok ts with
     | none => trapTo s causeFormat (tv ts 0)
     | some rt =>
       match destStop s d merge (tv ts) rt with
       | some r => r
       | none => fetchV s srcs fun xs => k xs rt)

/-- The same for an instruction with a p- or g-result. -/
def vread (gs : List GReg) (srcs : List VIdx) (ok : List (BitVec 5) → Bool) (s : State)
    (k : List VReg → Res) : Res :=
  withGV gs srcs s
    (let ts := srcs.map s.tagOf
     if ok ts then fetchV s srcs k else trapTo s causeFormat (tvalOf ts 0))

/-- Every active lane below `n` computed, with the flags of those lanes (R65, R162). -/
def State.lanes (s : State) (m : VMod) (n : Nat) (f : Nat → Nat × BitVec 5) : List Nat × BitVec 5 :=
  let rs := (List.range n).map fun i => if s.active m i then f i else (0, 0)
  (rs.map (·.1), rs.foldl (fun a r => a ||| r.2) 0)

/-- A register of lanes of a tag. -/
def laneReg (tag : BitVec 5) (x : Line) : VReg := { bits := x, tag := tag, side := 0 }

/-- A long vector operation: the PC passes it, and the result is written the stated cycles later (R163). -/
def vlong (cycles : Nat) (srcs : List VIdx) (d : VIdx) (x : VReg) (fl : BitVec 5) (s : State) : Res :=
  let go : Res := .next ((((s.popAll srcs).finish 8).park .longArith).schedule cycles (.specialFunctionResult s.cur d x fl))
  match s.streamAt d with
  | none => go
  | some (k, st) => match pushStop s k st with
    | some r => r
    | none => go

/-- SPECIAL_FUNCTION_RESULT: the result goes to the register, or to the write stream over it, the flags are raised,
and the thread is ready (R163, R184). -/
def execSpecialFunctionResult (t : Nat) (d : VIdx) (v : VReg) (flags : BitVec 5) (s : State) : Res :=
  if (s.ctxAt t).wait = .away .longArith then
    .next (s.withThread t fun s =>
      let s := { (s.raise flags) with ctx := { (s.raise flags).ctx with wait := .ready s.cycle } }
      match s.streamAt d with
      | none => s.setV d v
      | some (k, _) => s.push k v)
  else .next s

/-- All tags the same and accepted; `u` on a floating-point tag is refused (R165). -/
def sameTag (accept : BitVec 5 → Bool) (u : Bool) (ts : List (BitVec 5)) : Option (BitVec 5) :=
  match ts with
  | [] => none
  | t :: rest => if (rest.all fun x => x = t) && accept t && !(u && floatTag t) then some t else none

/-- I8 to I64, F32, BF16, F16. -/
def arithTag (t : BitVec 5) : Bool := intTag t || arithFloat t
/-- Every tag that has lanes (R54). -/
def hasLanes (t : BitVec 5) : Bool := intTag t || floatTag t

/-! ## Lane arithmetic (R165) -/

/-- The lane functions of two operands. -/
inductive BinOp | add | sub | mul | div | min | max | and | or | xor | shl | shr | sar | abd
  deriving DecidableEq, Repr

/-- Integer lanes of width w wrap (R57) and divide by R58. -/
def intBin (op : BinOp) (w : Nat) (u : Bool) (a b : Nat) : Nat :=
  let x := laneInt w u a
  let y := laneInt w u b
  match op with
  | .add => (a + b) % 2 ^ w
  | .sub => (a + 2 ^ w - b) % 2 ^ w
  | .mul => a * b % 2 ^ w
  | .div => if b = 0 then 2 ^ w - 1 else intLane w (x.tdiv y)
  | .min => if x ≤ y then a else b
  | .max => if x ≤ y then b else a
  | .and => a &&& b
  | .or => a ||| b
  | .xor => a ^^^ b
  | .shl => a * 2 ^ (b % w) % 2 ^ w
  | .shr => a / 2 ^ (b % w)
  | .sar => intLane w (laneInt w false a / ((2 ^ (b % w) : Nat) : Int))
  | .abd => intLane w ((x - y).natAbs : Int)

/-- Floating-point lanes. `vabd` is the difference rounded by the mode, with its sign cleared: R66 does not say which of
a - b and |a - b| the mode rounds (DESIGN CHOICE, log 87). -/
def floatBin (op : BinOp) (f : Fmt) (md : RMode) (a b : Nat) : Nat × BitVec 5 :=
  match op with
  | .add => f.add md a b
  | .sub => f.sub md a b
  | .mul => f.mul md a b
  | .div => f.div md a b
  | .min => f.minmax md false a b
  | .max => f.minmax md true a b
  | .abd => let (r, fl) := f.sub md a b
            (r % f.signBit, fl)
  | _ => (a, 0)

def laneBin (op : BinOp) (tag : BitVec 5) (md : RMode) (u : Bool) (a b : Nat) : Nat × BitVec 5 :=
  if intTag tag then (intBin op (laneWidth tag) u a b, 0) else floatBin op (Fmt.of tag) md a b

/-- The rounding in effect for a vector instruction. -/
def State.rmodeOf (s : State) (m : VMod) : RMode := RMode.of s.ctx.ctl.rmode m.rnd
/-- The rounding-mode code that a fixed function of the mode sees (R73). -/
def State.rcode (s : State) (m : VMod) : BitVec 3 :=
  if m.rnd = 0 then s.ctx.ctl.rmode.extractLsb' 0 3 else m.rnd - 1

/-- A lane operation of any number of v-sources: `f` takes the tag and the sources' lanes. -/
def vlanes (accept : BitVec 5 → Bool) (u : Bool) (m : VMod) (d : VIdx) (srcs : List VIdx)
    (f : BitVec 5 → List Nat → Nat × BitVec 5) (done : VReg → BitVec 5 → (BitVec 5 → Word) → Res) (s : State) : Res :=
  vstart [] (merges m) d srcs (sameTag accept u) s fun xs tag =>
    let w := laneWidth tag
    let (ys, fl) := s.lanes m (lanesOf tag) fun i => f tag (xs.map fun x => laneAt x w i)
    done (laneReg tag (s.mergeLanes m d w ys)) fl (tvalOf (srcs.map fun _ => tag))

/-- `vbin` within 8 cycles. -/
def vbin (accept : BitVec 5 → Bool) (op : BinOp) (m : VMod) (d a b : VIdx) (s : State) : Res :=
  vlanes accept m.u m d [a, b] (fun tag xs => laneBin op tag (s.rmodeOf m) m.u (xs.getD 0 0) (xs.getD 1 0))
    (fun x fl tv => vdone 8 [a, b] tv d x fl s) s

/-- The fused forms: a × b + c with the product or the addend negated, rounded once; integers wrap. -/
def vfused (negP negZ : Bool) (m : VMod) (d a b c : VIdx) (s : State) : Res :=
  vlanes arithTag m.u m d [a, b, c]
    (fun tag xs =>
      let x := xs.getD 0 0
      let y := xs.getD 1 0
      let z := xs.getD 2 0
      if intTag tag then
        let w := laneWidth tag
        let p : Int := if negP then -((x * y : Nat) : Int) else ((x * y : Nat) : Int)
        (intLane w (p + if negZ then -(z : Int) else (z : Int)), 0)
      else (Fmt.of tag).fma (s.rmodeOf m) negP negZ x y z)
    (fun x fl tv => vdone 8 [a, b, c] tv d x fl s) s

/-- One v-source within 8 cycles. -/
def vunary (accept : BitVec 5 → Bool) (f : BitVec 5 → Nat → Nat) (m : VMod) (d a : VIdx) (s : State) : Res :=
  vlanes accept false m d [a] (fun tag xs => (f tag (xs.getD 0 0), 0)) (fun x fl tv => vdone 8 [a] tv d x fl s) s
/-- One v-source in the special-function unit. -/
def vspecial (cycles : Nat) (f : BitVec 5 → Nat → Nat × BitVec 5) (m : VMod) (d a : VIdx) (s : State) : Res :=
  vlanes arithFloat false m d [a] (fun tag xs => f tag (xs.getD 0 0)) (fun x fl _ => vlong cycles [a] d x fl s) s

/-- The sign bit cleared or flipped; an integer negated, its minimum mapping to itself. -/
def absLane (tag : BitVec 5) (x : Nat) : Nat :=
  let w := laneWidth tag
  if intTag tag then intLane w ((laneInt w false x).natAbs : Int) else x % 2 ^ (w - 1)
def negLane (tag : BitVec 5) (x : Nat) : Nat :=
  let w := laneWidth tag
  if intTag tag then (2 ^ w - x) % 2 ^ w else (x + 2 ^ (w - 1)) % 2 ^ w
def notLane (tag : BitVec 5) (x : Nat) : Nat := 2 ^ laneWidth tag - 1 - x

def execVadd (m : VMod) (d a b : VIdx) (s : State) : Res := vbin arithTag .add m d a b s
def execVsub (m : VMod) (d a b : VIdx) (s : State) : Res := vbin arithTag .sub m d a b s
def execVmul (m : VMod) (d a b : VIdx) (s : State) : Res := vbin arithTag .mul m d a b s
def execVmin (m : VMod) (d a b : VIdx) (s : State) : Res := vbin arithTag .min m d a b s
def execVmax (m : VMod) (d a b : VIdx) (s : State) : Res := vbin arithTag .max m d a b s
def execVabd (m : VMod) (d a b : VIdx) (s : State) : Res := vbin arithTag .abd m d a b s
def execVand (m : VMod) (d a b : VIdx) (s : State) : Res := vbin intTag .and m d a b s
def execVor (m : VMod) (d a b : VIdx) (s : State) : Res := vbin intTag .or m d a b s
def execVxor (m : VMod) (d a b : VIdx) (s : State) : Res := vbin intTag .xor m d a b s
def execVshl (m : VMod) (d a b : VIdx) (s : State) : Res := vbin intTag .shl m d a b s
def execVshr (m : VMod) (d a b : VIdx) (s : State) : Res := vbin intTag .shr m d a b s
def execVsar (m : VMod) (d a b : VIdx) (s : State) : Res := vbin intTag .sar m d a b s
/-- `vdiv` is a long operation for every tag (R163). -/
def execVdiv (m : VMod) (d a b : VIdx) (s : State) : Res :=
  vlanes arithTag m.u m d [a, b] (fun tag xs => laneBin .div tag (s.rmodeOf m) m.u (xs.getD 0 0) (xs.getD 1 0))
    (fun x fl _ => vlong 24 [a, b] d x fl s) s
def execVfma (m : VMod) (d a b c : VIdx) (s : State) : Res := vfused false false m d a b c s
def execVfms (m : VMod) (d a b c : VIdx) (s : State) : Res := vfused false true m d a b c s
def execVfnma (m : VMod) (d a b c : VIdx) (s : State) : Res := vfused true false m d a b c s
def execVabs (m : VMod) (d a : VIdx) (s : State) : Res := vunary arithTag absLane m d a s
def execVneg (m : VMod) (d a : VIdx) (s : State) : Res := vunary arithTag negLane m d a s
def execVnot (m : VMod) (d a : VIdx) (s : State) : Res := vunary intTag notLane m d a s
def execVsqrt (m : VMod) (d a : VIdx) (s : State) : Res :=
  vspecial 24 (fun tag x => (Fmt.of tag).sqrt (s.rmodeOf m) x) m d a s
def execVrcp (m : VMod) (d a : VIdx) (s : State) : Res :=
  vspecial 16 (fun tag x => rcpLane tag (s.rmodeOf m) (s.rcode m) x) m d a s
def execVrsq (m : VMod) (d a : VIdx) (s : State) : Res :=
  vspecial 16 (fun tag x => rsqLane tag (s.rmodeOf m) (s.rcode m) x) m d a s
def execVexp2 (m : VMod) (d a : VIdx) (s : State) : Res :=
  vspecial 16 (fun tag x => exp2Lane tag (s.rmodeOf m) (s.rcode m) x) m d a s
def execVlog2 (m : VMod) (d a : VIdx) (s : State) : Res :=
  vspecial 16 (fun tag x => log2Lane tag (s.rmodeOf m) (s.rcode m) x) m d a s
def execVtanh (m : VMod) (d a : VIdx) (s : State) : Res :=
  vspecial 16 (fun tag x => tanhLane tag (s.rmodeOf m) (s.rcode m) x) m d a s

/-! ## Compares and select (R166, R167) -/

/-- One lane's condition; narrow formats by value (R166). -/
def laneCmp (c : Cmp) (tag : BitVec 5) (md : RMode) (u : Bool) (a b : Nat) : Bool × BitVec 5 :=
  if intTag tag then
    let w := laneWidth tag
    let x := laneInt w u a
    let y := laneInt w u b
    (match c with
      | .eq => decide (x = y) | .ne => decide (x ≠ y) | .lt => decide (x < y) | .le => decide (x ≤ y)
      | .gt => decide (y < x) | .ge => decide (y ≤ x), 0)
  else (Fmt.of tag).cmp md c a b

/-- Bits of active lanes take the condition, inactive ones below the count stay, the others clear. -/
def vcompare (c : Cmp) (m : VMod) (d : PReg) (a b : VIdx) (s : State) : Res :=
  let accept (t : BitVec 5) : Bool := if c = .eq || c = .ne then hasLanes t else arithTag t
  vread [] [a, b] (fun ts => (sameTag accept m.u ts).isSome) s fun xs =>
    let tag := s.tagOf a
    let w := laneWidth tag
    let n := lanesOf tag
    let md := s.rmodeOf m
    let lane (i : Nat) : Bool × BitVec 5 :=
      if s.active m i then laneCmp c tag md m.u (laneAt (xs.getD 0 VReg.zero) w i) (laneAt (xs.getD 1 VReg.zero) w i)
      else ((s.p d).getLsbD i, 0)
    let rs := (List.range n).map lane
    let bits := BitVec.ofNat 64 (packLanes 1 (rs.map fun r => if r.1 then 1 else 0))
    vdoneWith 8 [a, b] (rs.foldl (fun f r => f ||| r.2) 0) s fun s => s.setP d bits

def execVcmpEq (m : VMod) (d : PReg) (a b : VIdx) (s : State) : Res := vcompare .eq m d a b s
def execVcmpNe (m : VMod) (d : PReg) (a b : VIdx) (s : State) : Res := vcompare .ne m d a b s
def execVcmpLt (m : VMod) (d : PReg) (a b : VIdx) (s : State) : Res := vcompare .lt m d a b s
def execVcmpLe (m : VMod) (d : PReg) (a b : VIdx) (s : State) : Res := vcompare .le m d a b s
def execVcmpGt (m : VMod) (d : PReg) (a b : VIdx) (s : State) : Res := vcompare .gt m d a b s
def execVcmpGe (m : VMod) (d : PReg) (a b : VIdx) (s : State) : Res := vcompare .ge m d a b s
/-- Lane i of vA where bit i of pC is set, else of vB. -/
def execVsel (m : VMod) (d a b : VIdx) (c : PReg) (s : State) : Res :=
  vstart [] (merges m) d [a, b] (sameTag hasLanes false) s fun xs tag =>
    let w := laneWidth tag
    let (ys, _) := s.lanes m (lanesOf tag) fun i =>
      (laneAt (xs.getD (if (s.p c).getLsbD i then 0 else 1) VReg.zero) w i, 0)
    vdone 8 [a, b] (tvalOf [tag, tag]) d (laneReg tag (s.mergeLanes m d w ys)) 0 s

/-! ## Conversions, block floating point, tags and moves (R168 to R171) -/

/-- A lane of the source tag to the target tag (R59, R67). -/
def convertLane (md : RMode) (u : Bool) (src dst : BitVec 5) (x : Nat) : Nat × BitVec 5 :=
  let w := laneWidth src
  let v := laneWidth dst
  if intTag src then
    (if intTag dst then (intToInt md w v u x, 0) else (Fmt.of dst).ofInt md (laneInt w u x))
  else if intTag dst then floatToInt md v u ((Fmt.of src).read md x)
  else Fmt.convertCode (Fmt.of src) (Fmt.of dst) md x

/-- The lane count is the target's; active lanes past the source's become zero. -/
def execVcvt (m : VMod) (tag : BitVec 5) (d a : VIdx) (s : State) : Res :=
  vstart [] (merges m) d [a] (fun ts => if hasLanes (ts.getD 0 0) then some tag else none) s fun xs _ =>
    let src := s.tagOf a
    let (ys, fl) := s.lanes m (lanesOf tag) fun i =>
      if i < lanesOf src then convertLane (s.rmodeOf m) m.u src tag (laneAt (xs.getD 0 VReg.zero) (laneWidth src) i)
      else (0, 0)
    vdone 8 [a] (tvalOf [src]) d (laneReg tag (s.mergeLanes m d (laneWidth tag) ys)) fl s

/-- A BFP tag's mantissa width n (R54). -/
def bfpN (tag : BitVec 5) : Nat := tag.toNat - 14
def bfpTagOf (n : Nat) : BitVec 5 := BitVec.ofNat 5 (n + 14)
/-- The mantissas of block b, and its exponent (R69). -/
def blockMants (x : VReg) (n b : Nat) : List Nat := (List.range 32).map fun j => laneAt x n (32 * b + j)
def blockExp (x : VReg) (b : Nat) : Nat := (x.side.extractLsb' (8 * b) 8).toNat
/-- Block b written over the blocks of `old`; what lies beyond the blocks is zero when written (R69). -/
def setBlock (old : VReg) (n b : Nat) (ms : List Nat) (E : Nat) : VReg :=
  let mask : Line := maskBits (32 * n * b) (32 * n)
  { bits := (old.bits &&& maskBits 0 (32 * n * bfpBlocks n) &&& ~~~mask) |||
      (BitVec.ofNat 512 (packLanes n ms) <<< (32 * n * b)),
    tag := bfpTagOf n,
    side := (old.side &&& maskBits 0 (8 * bfpBlocks n) &&& ~~~(maskBits (8 * b) 8)) |||
      (BitVec.ofNat 64 (E % 256) <<< (8 * b)) }

/-- The 32 values of `vbfpn`'s source, and the registers read: a pair for F32 with A even (R169). -/
def bfpSources (tag : BitVec 5) (a : VIdx) : Option (List VIdx) :=
  if tag = 9 || tag = 10 then some [a] else if tag = 8 && a.val % 2 = 0 then some [a, a + 1] else none

/-- vD is always read. On a format fault the tag of the pair's second register stands in B's place of TVAL, which R55 does
not say (DESIGN CHOICE, log 88). -/
def execVbfpn (rnd : BitVec 3) (d a : VIdx) (n : BitVec 4) (b : BitVec 3) (s : State) : Res :=
  withGV [] [a, d] s
    (let tag := s.tagOf a
     match bfpSources tag a with
     | none => trapTo s causeFormat (tvalOf [tag] 0)
     | some srcs =>
       let md := RMode.of s.ctx.ctl.rmode rnd
       let f := Fmt.of tag
       vstart [] true d srcs
         (fun ts => if ts.all fun t => t = tag then some (bfpTagOf n.toNat) else none) s fun xs rt =>
         let vals := xs.flatMap fun x => (lanesIn x (laneWidth tag)).map (f.read md)
         let (E, ms, fl) := toBfp md.rnd n.toNat vals
         let old := s.v d
         let old := if old.tag = rt then old else { bits := 0, tag := rt, side := 0 }
         vdone 8 srcs (tvalOf (srcs.map fun _ => tag)) d (setBlock old n.toNat b.toNat ms E) fl s)

/-- A BFP source with block b (R169). -/
def bfpBlockTag (b : BitVec 3) (rt : BitVec 5) (ts : List (BitVec 5)) : Option (BitVec 5) :=
  let t := ts.getD 0 0
  if bfpTag t && decide (b.toNat < bfpBlocks (bfpN t)) then some rt else none

/-- Elements 16h to 16h + 15 of block b as F32 (R72). -/
def execVbfpx (d a : VIdx) (b : BitVec 3) (h : Bool) (s : State) : Res :=
  vstart [] false d [a] (bfpBlockTag b 8) s fun xs _ =>
    let x := xs.getD 0 VReg.zero
    let t := s.tagOf a
    let n := bfpN t
    let rs := (((blockMants x n b.toNat).drop (if h then 16 else 0)).take 16).map
      (bfpToF32 (s.ctx.ctl.rmode.getLsbD 4) n (blockExp x b.toNat))
    vdone 8 [a] (tvalOf [t]) d (laneReg 8 (lineOfLanes 32 (rs.map (·.1)))) (rs.foldl (fun f r => f ||| r.2) 0) s

/-- Mantissas sign-extended to I8, then the exponent byte, then zeros. -/
def execVbfpi (d a : VIdx) (b : BitVec 3) (s : State) : Res :=
  vstart [] false d [a] (bfpBlockTag b 1) s fun xs _ =>
    let x := xs.getD 0 VReg.zero
    let t := s.tagOf a
    let n := bfpN t
    let ms := (blockMants x n b.toNat).map fun m => intLane 8 (bfpMant n m)
    vdone 8 [a] (tvalOf [t]) d (laneReg 1 (lineOfLanes 8 (ms ++ [blockExp x b.toNat]))) 0 s

/-- Bits and side field copied, the tag set. -/
def execVtag (tag : BitVec 5) (d a : VIdx) (s : State) : Res :=
  vstart [] false d [a] (fun _ => some tag) s fun xs _ =>
    vdone 8 [a] (tvalOf [s.tagOf a]) d { xs.getD 0 VReg.zero with tag := tag } 0 s
def execVmov (d a : VIdx) (s : State) : Res :=
  vstart [] false d [a] (fun ts => some (ts.getD 0 0)) s fun xs _ =>
    vdone 8 [a] (tvalOf [s.tagOf a]) d (xs.getD 0 VReg.zero) 0 s
/-- The low bits that a narrow lane holds (R61). -/
def narrowBits (tag : BitVec 5) : Nat := if tag = 13 || tag = 14 then 6 else if tag = 15 then 4 else laneWidth tag
def execVsplat (m : VMod) (tag : BitVec 5) (d : VIdx) (a : GReg) (s : State) : Res :=
  vstart [a] (merges m) d [] (fun _ => some tag) s fun _ _ =>
    let x := (s.g a).toNat % 2 ^ narrowBits tag
    let (ys, _) := s.lanes m (lanesOf tag) fun _ => (x, 0)
    vdone 8 [] (tvalOf []) d (laneReg tag (s.mergeLanes m d (laneWidth tag) ys)) 0 s

/-- A lane fault: the offending lanes are in TLANES (R86). -/
def laneFault (s : State) (lanes : Word) : Res := trapTo (s.modCtl fun c => { c with tlanes := lanes }) causeLane 0

/-- Integer lanes are sign-extended, others zero-extended, of the bits that the format uses (R61, R171). -/
def execVext (d : GReg) (a : VIdx) (lane : BitVec 6) (s : State) : Res :=
  vread [] [a] (fun ts => hasLanes (ts.getD 0 0)) s fun xs =>
    let t := s.tagOf a
    let w := laneWidth t
    if lane.toNat ≥ lanesOf t then laneFault s (bit lane.toNat)
    else
      let x := laneAt (xs.getD 0 VReg.zero) w lane.toNat
      let y : Word := if intTag t then BitVec.ofInt 64 (laneInt w false x) else BitVec.ofNat 64 (x % 2 ^ narrowBits t)
      vdoneWith 8 [a] 0 s fun s => s.setG d y false

/-- vD is read; a stream over it makes the read illegal (R184). -/
def execVins (d : VIdx) (a : GReg) (lane : BitVec 6) (s : State) : Res :=
  withGV [a] [d] s
    (let t := s.tagOf d
     if !hasLanes t then trapTo s causeFormat (tvalOf [] t)
     else if (s.streamAt d).isSome then illegal s
     else if lane.toNat ≥ lanesOf t then laneFault s (bit lane.toNat)
     else
       let w := laneWidth t
       let old := s.v d
       let mask : Line := maskBits (w * lane.toNat) w
       let x : Line := BitVec.ofNat 512 ((s.g a).toNat % 2 ^ w) <<< (w * lane.toNat)
       .next ((s.setV d { old with bits := (old.bits &&& ~~~mask) ||| x }).finish 8))

/-! ## Cross-lane instructions (R172, R173, R175) -/

/-- Each active lane i takes the lane that `src i` names, or zero for none; a source lane whose guard bit is clear
faults, or with `.z` gives zero. -/
def vcross (m : VMod) (d a : VIdx) (srcs : List VIdx) (tag : BitVec 5) (x : VReg) (src : Nat → Option Nat)
    (s : State) : Res :=
  let w := laneWidth tag
  let n := lanesOf tag
  let closed (j : Nat) : Bool := !((s.p m.pg).getLsbD j)
  let bad : Word := (List.range n).foldl (fun b i =>
    match src i with
    | some j => if s.active m i && closed j then setBit b j true else b
    | none => b) 0
  if bad ≠ 0 && !m.u then laneFault s bad
  else
    let (ys, _) := s.lanes m n fun i => match src i with
      | some j => (if closed j then 0 else laneAt x w j, 0)
      | none => (0, 0)
    vdone 8 srcs (tvalOf [s.tagOf a]) d (laneReg tag (s.mergeLanes m d w ys)) 0 s

/-- The integer tag of a lane width. -/
def intTagOf (w : Nat) : BitVec 5 := if w = 8 then 1 else if w = 16 then 2 else if w = 32 then 3 else 4

def execVperm (m : VMod) (d a b : VIdx) (s : State) : Res :=
  vstart [] (merges m) d [a, b]
    (fun ts => let t := ts.getD 0 0
               if hasLanes t && ts.getD 1 0 = intTagOf (laneWidth t) then some t else none) s fun xs tag =>
    vcross m d a [a, b] tag (xs.getD 0 VReg.zero)
      (fun i => some (laneAt (xs.getD 1 VReg.zero) (laneWidth tag) i % lanesOf tag)) s

/-- One v-source with lanes. -/
def laneSource (ts : List (BitVec 5)) : Option (BitVec 5) := if hasLanes (ts.getD 0 0) then some (ts.getD 0 0) else none

def execVslide (m : VMod) (d a : VIdx) (k : BitVec 17) (s : State) : Res :=
  vstart [] (merges m) d [a] laneSource s fun xs tag =>
    vcross m d a [a] tag (xs.getD 0 VReg.zero) (fun i =>
      let j : Int := (i : Int) - k.toInt
      if 0 ≤ j && j < (lanesOf tag : Int) then some j.toNat else none) s
def execVrot (m : VMod) (d a : VIdx) (k : BitVec 17) (s : State) : Res :=
  vstart [] (merges m) d [a] laneSource s fun xs tag =>
    vcross m d a [a] tag (xs.getD 0 VReg.zero) (fun i =>
      some (((i : Int) - k.toInt) % (lanesOf tag : Int)).toNat) s
/-- The lanes whose bits of pC are set, in ascending order, then zeros (R175). -/
def execVcompress (d a : VIdx) (c : PReg) (s : State) : Res :=
  vstart [] false d [a] laneSource s fun xs tag =>
    let w := laneWidth tag
    let ys := ((List.range (lanesOf tag)).filter fun i => (s.p c).getLsbD i).map fun i => laneAt (xs.getD 0 VReg.zero) w i
    vdone 8 [a] (tvalOf [tag]) d (laneReg tag (lineOfLanes w ys)) 0 s

/-! ## Reductions and scans (R75, R76, R174) -/

/-- The identity of an operation. -/
def redIdentity (op : BinOp) (tag : BitVec 5) (u : Bool) : Nat :=
  let w := laneWidth tag
  let f := Fmt.of tag
  match op with
  | .and => 2 ^ w - 1
  | .min => if intTag tag then intLane w (intMax w u) else f.inf.getD f.maxFin
  | .max => if intTag tag then intLane w (intMin w u) else f.signed true (f.inf.getD f.maxFin)
  | _ => 0

/-- A node of the tree: an absent input passes the other through. -/
def joinOpt (f : Nat → Nat → Nat × BitVec 5) (x y : Option Nat) : Option Nat × BitVec 5 :=
  match x, y with
  | none, y => (y, 0)
  | x, none => (x, 0)
  | some a, some b => let (r, fl) := f a b
                      (some r, fl)

/-- One level of the pairwise tree (R75). -/
def redLevel (f : Nat → Nat → Nat × BitVec 5) : List (Option Nat) → List (Option Nat) × BitVec 5
  | x :: y :: rest =>
    let (r, fl) := joinOpt f x y
    let (rs, fl') := redLevel f rest
    (r :: rs, fl ||| fl')
  | l => (l, 0)

/-- The levels of the tree until one value is left. -/
def redTree (f : Nat → Nat → Nat × BitVec 5) : Nat → List (Option Nat) → Option Nat × BitVec 5
  | 0, l => (l.headD none, 0)
  | k + 1, l =>
    let (l', fl) := redLevel f l
    let (r, fl') := redTree f k l'
    (r, fl ||| fl')

/-- The scan of R76: each lane's value, and the running one. -/
def scanLanes (f : Nat → Nat → Nat × BitVec 5) (ident : Nat) : Option Nat → List (Option Nat) → List Nat × BitVec 5
  | _, [] => ([], 0)
  | acc, x :: xs =>
    let (a, fl) := joinOpt f acc x
    let (ys, fl') := scanLanes f ident a xs
    (a.getD ident :: ys, fl ||| fl')

/-- The tags of an operation's minor (R174). -/
def redTags (op : BinOp) (u : Bool) (ts : List (BitVec 5)) : Option (BitVec 5) :=
  sameTag (match op with | .and | .or | .xor => intTag | _ => arithTag) u ts

/-- The lanes that enter a reduction. -/
def State.redLanes (s : State) (m : VMod) (tag : BitVec 5) (x : VReg) : List (Option Nat) :=
  (List.range (lanesOf tag)).map fun i => if s.active m i then some (laneAt x (laneWidth tag) i) else none

def vreduce (op : BinOp) (m : VMod) (d a : VIdx) (s : State) : Res :=
  vstart [] false d [a] (redTags op m.u) s fun xs tag =>
    let (r, fl) := redTree (laneBin op tag (s.rmodeOf m) m.u) 6 (s.redLanes m tag (xs.getD 0 VReg.zero))
    vdone 8 [a] (tvalOf [tag]) d (laneReg tag (lineOfLanes (laneWidth tag) [r.getD (redIdentity op tag m.u)])) fl s
def vscan (op : BinOp) (m : VMod) (d a : VIdx) (s : State) : Res :=
  vstart [] false d [a] (redTags op m.u) s fun xs tag =>
    let (ys, fl) := scanLanes (laneBin op tag (s.rmodeOf m) m.u) (redIdentity op tag m.u) none
      (s.redLanes m tag (xs.getD 0 VReg.zero))
    vdone 8 [a] (tvalOf [tag]) d (laneReg tag (lineOfLanes (laneWidth tag) ys)) fl s

def execVredAdd (m : VMod) (d a : VIdx) (s : State) : Res := vreduce .add m d a s
def execVredMin (m : VMod) (d a : VIdx) (s : State) : Res := vreduce .min m d a s
def execVredMax (m : VMod) (d a : VIdx) (s : State) : Res := vreduce .max m d a s
def execVredAnd (m : VMod) (d a : VIdx) (s : State) : Res := vreduce .and m d a s
def execVredOr (m : VMod) (d a : VIdx) (s : State) : Res := vreduce .or m d a s
def execVredXor (m : VMod) (d a : VIdx) (s : State) : Res := vreduce .xor m d a s
def execVscanAdd (m : VMod) (d a : VIdx) (s : State) : Res := vscan .add m d a s
def execVscanMin (m : VMod) (d a : VIdx) (s : State) : Res := vscan .min m d a s
def execVscanMax (m : VMod) (d a : VIdx) (s : State) : Res := vscan .max m d a s

/-! ## Predicates (R176) -/

def execPand (d a b : PReg) (s : State) : Res := .next ((s.setP d (s.p a &&& s.p b)).finish 8)
def execPor (d a b : PReg) (s : State) : Res := .next ((s.setP d (s.p a ||| s.p b)).finish 8)
def execPxor (d a b : PReg) (s : State) : Res := .next ((s.setP d (s.p a ^^^ s.p b)).finish 8)
def execPnot (d a : PReg) (s : State) : Res := .next ((s.setP d (~~~(s.p a))).finish 8)
def execPset (d : PReg) (a : GReg) (s : State) : Res := withG [a] s (.next ((s.setP d (s.g a)).finish 8))
def execPcnt (d : GReg) (a : PReg) (s : State) : Res := .next ((s.setG d (popcW (s.p a)) false).finish 8)
def execPfirst (d : GReg) (a : PReg) (s : State) : Res := .next ((s.setG d (ctzW (s.p a)) false).finish 8)

end Sys2Proof.Machine
end

