-- ==== Sys2Proof/Machine/VectorMem.lean ====
section
/-! DEFINITION. Vector memory (08_core_ops R177 to R181), streams (R182 to R186) and distribution tables (R191, R192). -/
namespace Sys2Proof.Machine

/-! ## Accesses of many bytes (R118, R178, R179) -/

/-- The global bytes among addresses, and the local-store ones. -/
def globalsOf (core : Nat) (as : List Word) : List Nat :=
  as.filterMap fun a => match targetOf core a with | .global va => some va | _ => none
def localsOf (core : Nat) (as : List Word) : List (Word × Nat × Nat) :=
  as.filterMap fun a => match targetOf core a with | .ls c off => some (a, c, off) | _ => none

/-- The attributes of the pages of some global bytes, as the core holds them. -/
def State.attrsOf (s : State) (vas : List Nat) : List Attr :=
  (vas.filterMap fun va => findAttr (s.core s.myCore).attrs va).eraseDups

/-- The lines of some global bytes with the bytes of each, in order of first use. -/
def maskedLines (vas : List Nat) : List (Nat × BitVec 64) :=
  ((vas.map (· / 64)).eraseDups).map fun l => (l, vas.foldl (fun m va => if va / 64 = l then setBit m (va % 64) true else m) 0)

/-- The rows that some bytes of local stores lie in, each once, by core and bank. -/
def State.byteRows (s : State) (ls : List (Nat × Nat)) : List (Nat × Nat) :=
  ((ls.map fun x => (x.1, x.2 / 32)).eraseDups).map fun x => (x.1, bankOf (x.2 * 32) (s.job s.ctx.job).bankKey)

/-- The requests of a vector access to local stores, by core and bank: the rows of its bytes, or for elements of `w` bytes
the rows of each element, since a store serves one element per bank per cycle (R179). -/
def State.requestRows (s : State) (elems : Option (List Word × Nat)) (ls : List (Word × Nat × Nat)) : List (Nat × Nat) :=
  match elems with
  | none => s.byteRows (ls.map (·.2))
  | some (as, w) => as.flatMap fun a => match targetOf s.myCore a with
    | .ls core off => s.rowsOf core off w
    | _ => []

/-- The ports of the local stores near enough to serve in this cycle (R200). -/
def State.claimAll (s : State) (rows : List (Nat × Nat)) : Option State :=
  (s.claimRows (rows.filter fun x => near s.myCore x.1)).map fun (s', ls) =>
    s'.modCtx fun c => { c with wait := c.wait.served (s.cycle + s.serveTime ls), served := s.cycle + s.serveTime ls }

/-- The farthest local store outside the super-group. -/
def farthest (me : Nat) (ls : List (Word × Nat × Nat)) : Option Nat :=
  ((ls.filter fun x => !near me x.2.1).map (·.2.1)).foldl (fun b core =>
    match b with
    | none => some core
    | some c => if msgCycles me c < msgCycles me core then some core else some c) none

/-- The lowest poisoned byte among some of local stores. -/
def State.firstLost (s : State) (ls : List (Word × Nat × Nat)) : Option Word :=
  (lowestFault ((ls.filter fun x => (s.poisonIn (lsAddr x.2.1 x.2.2) 1).isSome).map fun x => (x.1, 0))).map (·.1)

/-- A load of some bytes; `k` gets each byte by its address. `elems` names the elements of an access by elements, and their
width. -/
def vecLoad (as : List Word) (pol : Policy) (ord : MemOrd) (scope : Scope) (tainted : Bool) (elems : Option (List Word × Nat))
    (s : State) (k : (Word → Byte) → State → Res) : Res :=
  let seen := watch (as.map fun a => (a.toNat, 1)) true false s
  match s.checkBytes .read as seen with
  | .stop r => r
  | .ok =>
    if s.behindPush (as.map fun a => (a, 1)) then .next (s.park .drain) else
    seen
      (let vas := globalsOf s.myCore as
       let ls := localsOf s.myCore as
       let attrs := s.attrsOf vas
       let rows := s.requestRows elems ls
       if s.loadWaits (kindOf attrs) ord scope then .next (s.awaitPerformed .drain scope)
       else match s.claimAll rows with
         | none => .next s.conflict
         | some s =>
           let fin (s : State) : Res :=
             loadLines ((maskedLines vas).map fun (l, m) => { line := l, mask := m, pol := loadPol pol (attrOf attrs l) })
               (ord ≠ .plain) (if tainted then s.ctx.ldcAt else 0) (s.firstLost ls) s fun data s =>
               k (fun a => match targetOf s.myCore a with
                 | .global va => lineByte (data (va / 64)) (va % 64)
                 | .ls c off => s.mem.read (lsAddr c off)
                 | _ => 0) s
           match farthest s.myCore ls with
           | none => fin s
           | some core => viaMessage .access (((ls.find? fun x => x.2.1 = core).map (·.1)).getD 0) core
               (rows.filter fun x => !near s.myCore x.1) 2 s fin)

/-- A store of some bytes; later ones stand over earlier ones. -/
def vecStore (cells : List (Word × Byte)) (pol : Policy) (ord : MemOrd) (scope : Scope) (elems : Option (List Word × Nat))
    (s : State) (k : State → Res) : Res :=
  let as := cells.map (·.1)
  let seen := watch (as.map fun a => (a.toNat, 1)) false true s
  match s.checkBytes .write as seen with
  | .stop r => r
  | .ok =>
    if s.behindPush (as.map fun a => (a, 1)) then .next (s.park .drain) else
    seen
      (let vas := globalsOf s.myCore as
       let ls := localsOf s.myCore as
       let attrs := s.attrsOf vas
       if ord ≠ .plain && !ls.isEmpty && !s.performed scope false then .next (s.awaitPerformed .drain scope)
       else match s.claimAll (s.requestRows elems ls) with
         | none => .next s.conflict
         | some s =>
           let gs := cells.filterMap fun c => match targetOf s.myCore c.1 with | .global va => some (va, c.2) | _ => none
           let lcs := cells.filterMap fun c => match targetOf s.myCore c.1 with | .ls core off => some (core, off, c.2) | _ => none
           queueStores ((cellLines gs).map fun l =>
               let (m, x) := lineStore gs l
               { line := l, mask := m, data := x, pol := storePol pol (attrOf attrs l), kind := kindOf attrs })
             ord scope s fun s =>
             match k (s.storeLocal lcs) with
             | .next s' =>
               .next (if ord = .sc && scope ≠ .core && s'.ctx.inst && decide (s'.ctx.sent > s'.cycle) then
                 s'.rest .drain (s'.ctx.sent - s'.cycle) else s')
             | r => r)

/-! ## vld, vst, vldw (R177, R180) -/

/-- The bytes of memory that hold lane i of a format of `bits` bits (R62). -/
def laneBytes (bits i : Nat) : List Nat := (List.range ((bits * i + bits - 1) / 8 - bits * i / 8 + 1)).map (bits * i / 8 + ·)
/-- Bytes of the mantissa plane (R70, R177). -/
def bfpBytes (n : Nat) : Nat := bfpBlocks n * 4 * n

def execVld (m : VMemArgs) (b : GReg) (tag : BitVec 5) (s : State) : Res :=
  let bfp := bfpTag tag
  vstart (if bfp then [m.a, b] else [m.a]) (merges m.m) m.d [] (fun _ => some tag) s fun _ _ =>
    let base := s.g m.a + simm m.disp
    let taint := s.anyTaint (if bfp then [m.a, b] else [m.a])
    let number (get : Word → Byte) (a : Word) (want : List Nat) (n : Nat) : Nat :=
      natOfBytes ((List.range n).map fun i => if want.contains i then get (a + BitVec.ofNat 64 i) else 0)
    if bfp then
      let n := bfpN tag
      let nm := bfpBytes n
      let ne := bfpBlocks n
      vecLoad (spanFrom base nm ++ spanFrom (s.g b) ne) m.pol m.ord m.scope taint none s fun get s =>
        vdone 8 [] (tvalOf []) m.d
          { bits := BitVec.ofNat 512 (number get base (List.range nm) nm), tag := tag,
            side := BitVec.ofNat 64 (number get (s.g b) (List.range ne) ne) } 0 s
    else if tag = 0 then
      vecLoad (spanFrom base 64) m.pol m.ord m.scope taint none s fun get s =>
        vdone 8 [] (tvalOf []) m.d { bits := BitVec.ofNat 512 (number get base (List.range 64) 64), tag := 0, side := 0 } 0 s
    else
      let bits := narrowBits tag
      let lanes := (List.range (lanesOf tag)).filter fun i => s.active m.m i
      let want := (lanes.flatMap (laneBytes bits)).eraseDups
      vecLoad (want.map fun i => base + BitVec.ofNat 64 i) m.pol m.ord m.scope taint none s fun get s =>
        let x := number get base want (lanesOf tag * bits / 8)
        let ys := (List.range (lanesOf tag)).map fun i => x / 2 ^ (bits * i) % 2 ^ bits
        vdone 8 [] (tvalOf []) m.d (laneReg tag (s.mergeLanes m.m m.d (laneWidth tag) ys)) 0 s

/-- Tags whose elements share bytes or whose register is stored whole (R177). -/
def wholeTag (tag : BitVec 5) : Bool := tag = 0 || bfpTag tag || (13 ≤ tag && tag ≤ 15)

/-- B names the exponent plane of a BFP register and is zero otherwise (R36): another B is illegal (log 89). -/
def execVst (m : VMemArgs) (b : GReg) (s : State) : Res :=
  let tag := s.tagOf m.d
  let bfp := bfpTag tag
  withGV (if bfp then [m.a, b] else [m.a]) [m.d] s
    (if !bfp && b ≠ 0 then illegal s
     else if merges m.m && wholeTag tag then trapTo s causeFormat (tagsVal 0 0 0 tag)
     else fetchV s [m.d] fun xs =>
       let x := xs.headD VReg.zero
       let base := s.g m.a + simm m.disp
       let plane (a : Word) (n v : Nat) : List (Word × Byte) :=
         (List.range n).map fun i => (a + BitVec.ofNat 64 i, BitVec.ofNat 8 (v / 2 ^ (8 * i)))
       let cells :=
         if bfp then
           plane base (bfpBytes (bfpN tag)) x.bits.toNat ++ plane (s.g b) (bfpBlocks (bfpN tag)) x.side.toNat
         else if tag = 0 then plane base 64 x.bits.toNat
         else
           let bits := narrowBits tag
           let packed := packLanes bits ((lanesIn x (laneWidth tag)).map (· % 2 ^ bits))
           let want := (((List.range (lanesOf tag)).filter fun i => s.active m.m i).flatMap (laneBytes bits)).eraseDups
           (plane base (lanesOf tag * bits / 8) packed).zipIdx.filterMap fun (c, i) => if want.contains i then some c else none
       vecStore cells m.pol m.ord m.scope none s fun s => .next ((s.popAll [m.d]).finish 8))

/-- The tag that `vldw` gives its result, as R180 states it (log 9). -/
def widenTag : BitVec 5 := 20

/-- The result is laid out as BFP8, with tag 20: from E4M3 by R72, from BFP4 exactly (R180, log 9). No lane is merged,
so `.s` changes nothing (log 10). -/
def execVldw (m : VMemArgs) (b : GReg) (tag : BitVec 5) (s : State) : Res :=
  let four := tag = 18
  vstart (if four then [m.a, b] else [m.a]) false m.d [] (fun _ => some widenTag) s fun _ _ =>
    let base := s.g m.a + simm m.disp
    let taint := s.anyTaint (if four then [m.a, b] else [m.a])
    let zero : VReg := { bits := 0, tag := bfpTagOf 8, side := 0 }
    let done (x : VReg) (fl : BitVec 5) (s : State) : Res := vdone 8 [] (tvalOf []) m.d { x with tag := widenTag } fl s
    if four then
      vecLoad (spanFrom base 32 ++ spanFrom (s.g b) 2) m.pol m.ord m.scope taint none s fun get s =>
        let mant := natOfBytes ((spanFrom base 32).map get)
        let x := (List.range 2).foldl (fun v k =>
          setBlock v 8 k ((List.range 32).map fun j => intLane 8 (16 * bfpMant 4 (mant / 2 ^ (4 * (32 * k + j)) % 16)))
            (get (s.g b + BitVec.ofNat 64 k)).toNat) zero
        done x 0 s
    else
      vecLoad (spanFrom base 64) m.pol m.ord m.scope taint none s fun get s =>
        let md := RMode.of s.ctx.ctl.rmode m.m.rnd
        let vals := ((spanFrom base 64).map get).map fun y => (Fmt.of 11).decode y.toNat
        let (x, fl) := (List.range 2).foldl (fun (v, f) k =>
          let (E, ms, g) := toBfp md.rnd 8 ((vals.drop (32 * k)).take 32)
          (setBlock v 8 k ms E, f ||| g)) (zero, (0 : BitVec 5))
        done x fl s

/-! ## vgather, vscatter (R181) -/

/-- The addresses of the active elements below E, with their lanes. -/
def State.elementsAt (s : State) (m : VMemArgs) (idx : VReg) (n : Nat) : List (Nat × Word) :=
  let w := laneWidth idx.tag
  ((List.range n).filter fun i => s.active m.m i).map fun i =>
    (i, s.g m.a + (BitVec.ofInt 64 (laneInt w false (laneAt idx w i))) + simm m.disp)

/-- The time until every element of a gather has completed: the local stores' rows and distances, and two cycles for a
global element that hit in the L1 (R119, R179). -/
def State.elementCycles (s : State) (as : List Word) : Nat :=
  let hit := !(globalsOf s.myCore as).isEmpty && s.ctx.asked.isEmpty
  max (if hit then 2 else 1) (s.ctx.served - s.cycle)
/-- The time until every element of a scatter has completed: the local stores' rows and distances, the messages to those
outside the super-group, and one cycle for a global element, which the store queue has accepted (R119, R179). -/
def State.scatterCycles (s : State) (as : List Word) : Nat :=
  let far := ((localsOf s.myCore as).filter fun x => !near s.myCore x.2.1).map (·.2.1) |>.eraseDups
  let due := (((s.core s.myCore).worms.take far.length).map (·.due)).foldl max 0
  max 1 (max (s.ctx.served - s.cycle) (due - s.cycle))

/-- The thread leaves its position until every element has completed. -/
def leaving (n : Nat) (r : Res) : Res :=
  match r with
  | .next s => if s.ctx.inst && s.ctx.latch.isNone then .next (s.rest .timedMemory n) else .next s
  | x => x

def execVgather (m : VMemArgs) (b : VIdx) (tag : BitVec 5) (s : State) : Res :=
  vstart (tv := fun ts d => tagsVal 0 (ts.getD 0 0) 0 d) [m.a] (merges m.m) m.d [b]
      (fun ts => if intTag (ts.getD 0 0) then some tag else none) s fun xs _ =>
    let idx : VReg := { xs.headD VReg.zero with tag := s.tagOf b }
    let w := laneWidth tag
    let els := s.elementsAt m idx (min (lanesOf tag) (lanesOf idx.tag))
    let as := els.flatMap fun e => spanFrom e.2 (w / 8)
    vecLoad as m.pol m.ord m.scope (s.anyTaint [m.a]) (some (els.map (·.2), w / 8)) s fun get s =>
      let ys := (List.range (lanesOf tag)).map fun i =>
        match els.find? fun e => e.1 = i with
        | some e => natOfBytes ((spanFrom e.2 (w / 8)).map get)
        | none => 0
      leaving (s.elementCycles (els.map (·.2)))
        (vdone 8 [b] (tagsVal 0 (s.tagOf b) 0) m.d (laneReg tag (s.mergeLanes m.m m.d w ys)) 0 s)

/-- Tags whose elements `vscatter` and `vgather` move (R181). -/
def elementTag (t : BitVec 5) : Bool := (1 ≤ t && t ≤ 4) || (8 ≤ t && t ≤ 12)

def execVscatter (m : VMemArgs) (b : VIdx) (s : State) : Res :=
  withGV [m.a] [m.d, b] s
    (let td := s.tagOf m.d
     let tb := s.tagOf b
     if !elementTag td || !intTag tb then trapTo s causeFormat (tagsVal 0 tb 0 td)
     else fetchV s [m.d, b] fun xs =>
       let x := xs.getD 0 VReg.zero
       let idx : VReg := { xs.getD 1 VReg.zero with tag := tb }
       let w := laneWidth td
       let els := s.elementsAt m idx (min (lanesOf td) (lanesOf tb))
       let cells := els.flatMap fun e =>
         (List.range (w / 8)).map fun j => (e.2 + BitVec.ofNat 64 j, BitVec.ofNat 8 (laneAt x w e.1 / 2 ^ (8 * j)))
       vecStore cells m.pol m.ord m.scope (some (els.map (·.2), w / 8)) s fun s =>
         leaving (s.scatterCycles (els.map (·.2))) (.next ((s.popAll [m.d, b]).finish 8)))

/-! ## Streams (R182 to R186) -/

/-- A descriptor's fields, or none for a reserved value (R182, R183). -/
def streamOf (write zero : Bool) (bs : List Byte) : Option Stream :=
  let num (o n : Nat) : Nat := natOfBytes ((bs.drop o).take n)
  let tag := num 20 1
  if (tag ≤ 4 || (8 ≤ tag && tag ≤ 12)) && num 21 1 ≤ 5 && num 22 2 = 0 then
    some { write := write, zero := zero, base := BitVec.ofNat 64 (num 0 8), c0 := BitVec.ofNat 32 (num 8 4),
           c1 := BitVec.ofNat 32 (num 12 4), c2 := BitVec.ofNat 32 (num 16 4), tag := BitVec.ofNat 5 tag,
           pol := Policy.of (BitVec.ofNat 3 (num 21 1)), s0 := BitVec.ofNat 64 (num 24 8), s1 := BitVec.ofNat 64 (num 32 8),
           s2 := BitVec.ofNat 64 (num 40 8), next := 0, buf := [], got := [], pend := [], ids := [], sent := 0 }
  else none

/-- The pushed units of a write stream have not all performed. -/
def State.pushing (s : State) (k : Fin 4) : Bool :=
  match s.ctx.streams[k] with
  | some st => st.write && (!st.buf.isEmpty || decide (s.cycle < st.sent) ||
      st.ids.any fun i => (s.core s.myCore).queue.any fun e => e.id = i)
  | none => false

/-- The thread waits until the stream's pushed units have performed: to the time of those sent as messages, else until the
queue moves (R183). -/
def State.awaitPushes (s : State) (k : Fin 4) : State :=
  match s.ctx.streams[k] with
  | some st => if s.cycle < st.sent then s.rest .stream (st.sent - s.cycle) else s.park .stream
  | none => s

def sbind (write : Bool) (k : Fin 4) (a : GReg) (z : Bool) (disp : BitVec 32) (s : State) : Res :=
  withG [a] s
    (loadBytes (s.g a + simm disp) 48 .pd .plain .core (s.anyTaint [a]) false s fun bs s =>
      match streamOf write z bs with
      | none => illegal s
      | some st =>
        if s.pushing k then .next (s.awaitPushes k)
        else
          let s := (s.setStream k (some st)).finish 12
          .next (if write then s else s.schedule 1 (.streamFill s.cur k)))
def execSbindRead (k : Fin 4) (a : GReg) (z : Bool) (disp : BitVec 32) (s : State) : Res := sbind false k a z disp s
def execSbindWrite (k : Fin 4) (a : GReg) (z : Bool) (disp : BitVec 32) (s : State) : Res := sbind true k a z disp s
def execSunbind (k : Fin 4) (s : State) : Res :=
  if s.pushing k then .next (s.awaitPushes k) else .next ((s.setStream k none).finish 8)

/-- What a fill finds for one unit of 64 bytes. -/
inductive UnitGot
  | unit (u : StreamUnit) (s : State)
  | waits (s : State)

/-- A unit in the local store of a core (R184): a near one takes its banks' ports now; a far one is asked for by a message, which
takes them where it arrives, behind the thread's own stores (R91, R199, R200). A conflict is replayed 8 cycles later. -/
def State.localUnit (s : State) (k : Fin 4) (a : Word) (core off : Nat) (arrived : Bool) : UnitGot :=
  let d := msgCycles s.myCore core
  if !near s.myCore core && !arrived then
    let (s, w) := s.post s.myCore 2 0 d (.streamFill s.cur k)
    .unit (.travels (s.cycle + w + d)) s
  else if s.storeComing s.cur core then .waits (s.schedule 1 (.streamFill s.cur k))
  else match s.claimRows (s.rowsOf core off 64) with
    | none => .waits ((s.count s.myCore 0x0A 0).schedule 8 (.streamFill s.cur k))
    | some (s, ls) =>
      match s.poisonIn (lsAddr core off) 64 with
      | some i => .unit (.faulted causeDataLost (a + BitVec.ofNat 64 i)) s
      | none =>
        let n := if near s.myCore core then s.serveTime ls else d + ls.foldl (fun t x => max t x.2) 0
        .unit (.comes (lineOfBytes (s.mem.readBytes (lsAddr core off) 64)) (s.cycle + n)) (s.schedule n (.streamFill s.cur k))

/-- The unit at an address for the current thread's stream k (R184, R185); `arrived` says that the message that asks for it has
reached its far local store. -/
def State.fetchUnit (s : State) (k : Fin 4) (st : Stream) (a : Word) (arrived : Bool) : UnitGot :=
  let as := spanFrom a 64
  let pages := (as.map fun x => BitVec.ofNat 64 (x.toNat / 2 ^ 12 * 2 ^ 12)).eraseDups
  match (pages.findSome? fun x => (s.byteWait .read x).filter fun y => y.2.isSome) with
  | some (va, some n) => .waits ((s.askAnswer va n).schedule n (.streamFill s.cur k))
  | _ =>
    match lowestFault (as.filterMap fun x => (s.byteFault .read x).map fun c => (x, c)) with
    | some (x, c) => .unit (.faulted c x) (s.dropUnmapped s.myCore x.toNat)
    | none => match pages.filterMap fun x => s.byteWait .read x with
      | (va, y) :: rest => .unit (.parked va) (((va, y) :: rest).foldl (fun s x => s.recordAbsent s.cur x.1) s)
      | [] =>
        let vas := globalsOf s.myCore as
        let attrs := s.attrsOf vas
        if s.behindPush [(a, 64)] || s.loadWaits (kindOf attrs) .plain .core then .waits (s.schedule 8 (.streamFill s.cur k))
        else match localsOf s.myCore as with
        | (_, core, off) :: _ => s.localUnit k a core off arrived
        | [] =>
          let ws : List Want := (maskedLines vas).map fun (l, m) => { line := l, mask := m, pol := loadPol st.pol (attrOf attrs l) }
          let seen := ws.map fun w => (w, s.look st.got w false 0)
          let bad : Option (Nat × RepSt × Nat) := seen.findSome? fun (w, x) => match x with | .bad r off => some (w.line, r, off) | _ => none
          match bad with
          | some (l, .dataLost, off) => .unit (.faulted causeDataLost (BitVec.ofNat 64 (l * 64 + off))) s
          | some (l, .unmapped, _) => .unit (.faulted causeAddress (BitVec.ofNat 64 (l * 64))) s
          | some _ => .waits ((s.setStream k (some { st with got := [], pend := [] })).schedule 64 (.streamFill s.cur k))
          | none =>
            let misses := (seen.filter fun (_, x) => match x with | .miss => true | _ => false).map (·.1)
            if misses.isEmpty then
              let s := s.tookLines seen false
              let get (x : Word) : Byte := match targetOf s.myCore x with
                | .global va => lineByte (seenData seen (va / 64)) (va % 64)
                | _ => 0
              .unit (.data (lineOfBytes (as.map get))) s
            else
              let new := misses.filter fun w => !(st.pend.any fun x => x.1 = w.line) || st.got.any fun x => x.line = w.line
              let first := (s.core s.myCore).nextId
              let s := s.setStream k (some { st with
                pend := (st.pend.filter fun x => !(new.any fun w => w.line = x.1)) ++ new.zipIdx.map fun (w, i) => (w.line, first + i)
                got := st.got.filter fun x => !(misses.any fun w => w.line = x.line) })
              .waits (new.foldl (fun s w => s.ask (s.loadReq (.stream s.cur k (s.core s.myCore).nextId) w false)) s)

/-- The buffer of the current thread's read stream k fills ahead. -/
def State.fillStream (s : State) (k : Fin 4) : Nat → State
  | 0 => s
  | n + 1 =>
    match s.ctx.streams[k] with
    | none => s
    | some st =>
      let arrived : Bool := match st.buf.getLast? with | some (.travels c) => decide (c ≤ s.cycle) | _ => false
      let stuck : Bool := match st.buf.getLast? with
        | some (.faulted _ _) | some .raised | some (.parked _) => true
        | some (.travels c) => decide (s.cycle < c)
        | _ => false
      let head := if arrived || st.buf.getLast? = some .asked then st.buf.dropLast else st.buf
      let i := st.next + head.length
      if st.write || stuck || head.length ≥ 4 || i ≥ st.units then s
      else
        let st := { st with buf := head ++ [if arrived then .travels s.cycle else .asked] }
        match (s.setStream k (some st)).fetchUnit k st (st.addr i) arrived with
        | .waits s => s
        | .unit u s =>
          let s := match s.ctx.streams[k] with
            | some st => s.setStream k (some { st with buf := head ++ [u], got := [], pend := [] })
            | none => s
          s.fillStream k n

/-- The units that a local store has read and whose time has come stand in the buffer. -/
def State.unitsCome (s : State) (k : Fin 4) : State :=
  match s.ctx.streams[k] with
  | some st => s.setStream k (some { st with buf := st.buf.map fun u => match u with
      | .comes x c => if c ≤ s.cycle then .data x else u
      | _ => u })
  | none => s

/-- STREAM_FILL: the buffer of a read stream fills in walk order; an instruction that waits for its first unit looks
again (R184, R185). -/
def execStreamFill (t : Nat) (k : Fin 4) (s : State) : Res :=
  if (s.ctxAt t).inst then
    let s := s.withThread t fun s => (s.unitsCome k).fillStream k 5
    let c := s.ctxAt t
    let ready := match c.streams[k] with
      | some st => (match st.buf.head? with | some .asked | some (.travels _) | some (.comes _ _) | none => false | some _ => true)
      | none => false
    .next (if c.wait = .away .stream && ready then s.unpark t else s)
  else .next s

/-- The oldest pushed unit performs as a store of 64 bytes, or waits for its page, its answer, the queue, a port, or the unit
before it (R185): one that is on its way to a far local store, and, where it goes to a local store itself, one in the store
queue. -/
def State.performUnit (s : State) (k : Fin 4) : State :=
  match s.ctx.streams[k] with
  | some st =>
    match st.write, st.buf with
    | true, .data x :: rest =>
      let core := s.myCore
      let a := st.addr (st.next - st.buf.length)
      let as := spanFrom a 64
      let pages := (as.map fun x => BitVec.ofNat 64 (x.toNat / 2 ^ 12 * 2 ^ 12)).eraseDups
      let again (d : Nat) : State := s.schedule d (.streamPushPerform s.cur k)
      let done (s : State) (ids : List Nat) (sent : Nat) : State :=
        let s := s.setStream k (some { st with buf := rest, ids := (s.core core).still (st.ids ++ ids), sent := sent })
        if rest.isEmpty then s else s.schedule 0 (.streamPushPerform s.cur k)
      if s.cycle < st.sent then again (st.sent - s.cycle)
      else match pages.findSome? fun x => s.byteWait .write x with
      | some (va, some n) => (s.askAnswer va n).schedule n (.streamPushPerform s.cur k)
      | some (va, none) => s.recordAbsent s.cur va
      | none =>
        let cells := (List.range 64).map fun i => (a + BitVec.ofNat 64 i, lineByte x i)
        match localsOf core as with
        | (_, owner, off) :: _ =>
          -- the store-queue entries of earlier units first (`State.pushesMoved` looks again)
          if !((s.core core).still st.ids).isEmpty then s
          else
            let lcs := cells.filterMap fun c => match targetOf core c.1 with | .ls core off => some (core, off, c.2) | _ => none
            if near core owner then
              match s.claimRows (s.rowsOf owner off 64) with
              | none => (s.count core 0x0A 0).schedule 8 (.streamPushPerform s.cur k)
              | some (s, _) => done (s.storeLocal lcs) [] st.sent
            else
              let s := s.storeLocal lcs
              done s [] s.ctx.sent
        | [] =>
          let gs := cells.filterMap fun c => match targetOf core c.1 with | .global va => some (va, c.2) | _ => none
          if (s.core core).queue.length + (cellLines gs).length > 64 then again 8
          else
            let attrs := s.attrsOf (gs.map (·.1))
            let first := (s.core core).nextId
            let s := (cellLines gs).foldl (fun s l =>
              let (m, y) := lineStore gs l
              let r := { s.newReq (.queue core (s.core core).nextId) .store (storePol st.pol (attrOf attrs l)) false l m with data := y }
              s.modCore core fun c =>
                let e : SQEntry := { id := c.nextId, thread := s.cur, req := r,
                                     after := (c.queue.filter fun e => e.thread = s.cur).map (·.id), scope := .core, sent := false,
                                     kind := kindOf attrs }
                { c with queue := c.queue ++ [e], nextId := c.nextId + 1 }) s
            done (s.pump core 65) ((List.range (cellLines gs).length).map (first + ·)) st.sent
    | _, _ => s
  | none => s

/-- STREAM_PUSH_PERFORM: a pushed unit performs, in walk order (R185), and what waited for it looks again. -/
def execStreamPushPerform (t : Nat) (k : Fin 4) (s : State) : Res :=
  if (s.ctxAt t).inst then
    let s := s.withThread t fun s => s.performUnit k
    let s := if (s.ctxAt t).wait = .away .stream then s.unpark t else s
    .next (s.queueMoved (coreOf t))
  else .next s

/-! ## Distribution tables (R191, R192) -/

/-- A table's descriptor, or none for a field out of range. -/
def tableOf (bs : List Byte) : Option DistTable :=
  let num (o n : Nat) : Nat := natOfBytes ((bs.drop o).take n)
  if num 4 1 ≤ 6 && num 5 1 ≤ 20 && num 6 2 = 0 && num 0 4 < 294912 && num 0 4 % 2 ^ num 4 1 = 0 && num 8 2 ≤ 4095 &&
      1 ≤ num 10 2 && num 10 2 ≤ 4096 && num 14 2 = 0 then
    some { base := BitVec.ofNat 32 (num 0 4), e := num 4 1, b := num 5 1, first := num 8 2, count := num 10 2,
           stride := BitVec.ofNat 16 (num 12 2) }
  else none

def execDtset (a : GReg) (t : BitVec 4) (s : State) : Res :=
  withG [a] s
    (loadBytes (s.g a) 16 .pd .plain .core (s.anyTaint [a]) false s fun bs s =>
      match tableOf bs with
      | none => illegal s
      | some d => .next ((s.modCore s.myCore fun c =>
          { c with tables := c.tables.setIfInBounds t.toNat (some d) }).finish 8))

/-- The address of element x, or none for a cleared table and a core that is not (R192). -/
def State.gaddr (s : State) (t : BitVec 4) (x : Nat) : Option Word :=
  match (s.core s.myCore).tables.toList.getD t.toNat none with
  | none => none
  | some d =>
    let blk := x / 2 ^ d.b
    let core : Int := (d.first : Int) + ((blk % d.count : Nat) : Int) * d.stride.toInt
    let off := d.base.toNat + (blk / d.count * 2 ^ d.b + x % 2 ^ d.b) * 2 ^ d.e
    if 0 ≤ core ∧ core ≤ 4095 then
      some (BitVec.ofNat 64 (0xFF00_0000_0000_0000 + core.toNat * 2 ^ 19 + off))
    else none

def execGaddrScalar (d a : GReg) (t : BitVec 4) (s : State) : Res :=
  withG [a] s
    (match s.gaddr t (s.g a).toNat with
     | some x => .next ((s.setG d x (s.taint a)).finish 8)
     | none => trapTo s causeAddress (s.g a))

/-- `gaddr` on the lanes of a vector (R192). DESIGN CHOICE (log 113): of several failing lanes the lowest one's x is in TVAL. -/
def execGaddrVector (d a : VIdx) (t : BitVec 4) (s : State) : Res :=
  vstart [] false d [a] (fun ts => if ts.getD 0 0 = 4 then some 4 else none) s fun xs _ =>
    let ys := (lanesIn (xs.headD VReg.zero) 64).map fun x => (x, s.gaddr t x)
    match ys.find? fun y => y.2.isNone with
    | some (x, _) =>
      let lanes := (List.range 8).foldl (fun m i => setBit m i (((ys[i]?).bind (·.2)).isNone)) (0 : Word)
      trapTo (s.modCtl fun c => { c with tlanes := lanes }) causeAddress (BitVec.ofNat 64 x)
    | none =>
      vdone 8 [a] (tvalOf [4]) d (laneReg 4 (lineOfLanes 64 (ys.map fun y => ((y.2.map (·.toNat)).getD 0)))) 0 s

end Sys2Proof.Machine
end

