-- ==== Sys2Proof/Machine/Replies.lean ====
section
/-! DEFINITION. Replies of the memory system: to loads and atomics (06 R119, 13 R285 to R287, R291), to the store queue
(06 R123), and to fetches (07 R160, 19 R356, R358). -/
namespace Sys2Proof.Machine

/-! ## Fills (R291) -/

/-- The fill of a request has come: it is in flight no more. -/
def dropFill (job line kind : Nat) : List Fill → Option Fill × List Fill
  | [] => (none, [])
  | f :: fs =>
    if f.job = job && f.line = line && f.kind = kind then (some f, fs)
    else match dropFill job line kind fs with
      | (x, rest) => (x, f :: rest)

/-- A core's fill for a request, and the core without it; a read of a word that is not executed has none (R405), nor has an
access of a scheduler, a command queue, a sampler or the host. -/
def State.takeFill (s : State) (r : Req) : Option Fill × State :=
  match r.kind, r.src with
  | .fetch, .load _ | _, .report _ | _, .device _ | _, .host _ => (none, s)
  | _, _ =>
    match dropFill r.job r.line (fillKind r) (s.core r.core).fills with
    | (f, fs) => (f, s.modCore r.core fun c => { c with fills := fs })

/-- The probes that a fill held are served once the access has completed. -/
def State.releaseHeld (s : State) (f : Option Fill) : State :=
  match f with
  | none => s
  | some f => f.held.foldl (fun s p => s.schedule 0 (if p.drop then .revocation p else .forward p)) s

/-! ## Loads, atomics, streams, copies -/

/-- A reply as its access uses it. -/
def gatheredOf (r : Req) (p : Reply) : Gathered :=
  { line := r.line, mask := if p.st = .ok then bytesOfWords p.words else BitVec.allOnes 64, data := p.data, st := p.st,
    wts := p.wts, granted := match p.inst with | .registered _ => true | _ => false }

/-- What an atomic has written at home, or in its tree, into the copies that the reply passes: its core's L1 and the
caches on its line's path. -/
def State.passWrite (s : State) (r : Req) (p : Reply) : State :=
  match r.kind with
  | .amo _ | .cas | .reclaim =>
    if p.st ≠ .ok || (match p.inst with | .registered _ => true | _ => false) then s
    else
      let (m, x) := reqWrites r p.data
      let s := s.modCore r.core fun c => c.l1Mod r.job r.line fun l =>
        { l with data := mergeLine (m &&& bytesOfWords (l.held &&& ~~~l.registered)) x l.data }
      (s.pathCaches r.job 16 (s.boundCache r.job (r.line * 64))).foldl (fun s vc => s.updateCopy r.job vc r.line m x) s
  | _ => s

/-- A thread's access gets the line, with the floor (R284), a grant's time (R285) and the cycle at which a write
performs at system scope (R392). -/
def State.replyToThread (s : State) (t : Nat) (r : Req) (p : Reply) : State :=
  let c := s.ctxAt t
  if c.inst && c.job = r.job && c.latch.isSome && c.asked.contains r.line then
    let g := gatheredOf r p
    let s := s.modCtxAt t fun c =>
      let c := c.correctTime p.floor
      let c := if g.granted then c.seeTime p.wts else c
      { c with gather := c.gather ++ [g], pkgAt := max c.pkgAt p.pkgAt, sysAt := max c.sysAt p.sysAt }
    match c.wait with
    | .away .access | .away .fetch => s.kick t
    | _ => s
  else s

/-- A stream's unit gets a line that it waits for; one that was asked for before an acquire is of no use (R185). -/
def State.replyToStream (s : State) (t : Nat) (k : Fin 4) (id : Nat) (r : Req) (p : Reply) : State :=
  let c := s.ctxAt t
  match c.streams[k] with
  | some st =>
    if c.inst && c.job = r.job && st.pend.contains (r.line, id) then
      let g := gatheredOf r p
      (s.modCtxAt t fun c =>
        let c := c.correctTime p.floor
        { (if g.granted then c.seeTime p.wts else c) with
          pkgAt := max c.pkgAt p.pkgAt
          sysAt := max c.sysAt p.sysAt
          streams := c.streams.set k (some { st with got := st.got ++ [g] }) }).schedule 0 (.streamFill t k)
    else s
  | none => s

/-- A channel of a cluster, and the state with it changed. -/
def State.channel (s : State) (c ch : Nat) : Channel := (s.cluster c).channels.toList.getD ch Channel.reset
def State.modChannel (s : State) (c ch : Nat) (f : Channel → Channel) : State :=
  s.modCluster c fun k => { k with channels := k.channels.setIfInBounds ch (f (k.channels.toList.getD ch Channel.reset)) }

/-- The fault kind of a reply that is not the access's own (R243). -/
def lostKind (st : RepSt) : Nat := match st with | .dataLost => 4 | .notPresent => 1 | _ => 2
/-- The byte that such a reply is about: the lost one, else the first one accessed. -/
def lostByte (r : Req) (p : Reply) : Word :=
  BitVec.ofNat 64 (r.line * 64 + (if p.st = .dataLost then p.wts else ((bitsOf r.mask).head?).getD 0))

/-- A channel's running command gets a line that it waits for, or a write's acknowledgement: one that tells of a write
that has not performed is a fault (R234). -/
def State.replyToCopy (s : State) (c ch : Nat) (r : Req) (p : Reply) : State :=
  let take (x : CopyRun) : CopyRun :=
    if reqIsRead r then
      (if x.pend.contains r.line then { x with got := x.got ++ [gatheredOf r p], pend := x.pend.erase r.line } else x)
    else { x with
      unacked := x.unacked - 1
      lost := if p.st = .ok then x.lost else x.lost ++ [(r.line, lostKind p.st, lostByte r p)] }
  let s := s.modChannel c ch fun n => { n with run := n.run.map take }
  s.schedule 0 (.copyBeat c ch)

/-- The tail of an event that only looks at a queue again: no host's tail, which has 32 bits. -/
def lookAgain : Nat := 2 ^ 32
/-- A write of a command queue or of a sampler is acknowledged. -/
def State.replyToDevice (s : State) (n sysAt : Nat) : State :=
  if n < 256 then
    let q := Table.getD s.pkg.queues n HostQueue.reset
    let q := { q with pend := q.pend - 1, sysAt := max q.sysAt sysAt }
    (s.modPkg fun p => { p with queues := Table.set p.queues n q }).schedule (sysAt - s.cycle) (.doorbellWrite n lookAgain)
  else
    (s.modDie (n - 256) fun d => { d with strainer := { d.strainer with pend := d.strainer.pend - 1 } }).schedule 0
      (.strainerSample (n - 256))

/-- A reply owed to a cluster that has been reset is dropped for 4,096 cycles, and counted (R316). -/
def unlessReset (r : Req) (s : State) (k : Res) : Res :=
  let owed : Bool := match r.src with | .report _ | .device _ | .host _ => false | _ => true
  if owed && decide (s.cycle < (s.cluster (clusterOf r.core)).resetUntil) then
    .next (s.modDie (dieOf r.core) fun d => { d with sourceReset := d.sourceReset + 1 })
  else k

/-- A registration granted to a core is counted (R255). -/
def State.countGrant (s : State) (r : Req) (p : Reply) : State :=
  match p.inst with
  | .registered _ => s.count r.core 0x11 0
  | _ => s

/-- What a fill that an invalidation has met leaves: the words that it registers (R291). -/
def onlyGranted (p : Reply) : Reply :=
  match p.inst with
  | .registered ws => { p with keep := p.keep &&& ws }
  | _ => { p with inst := .none, keep := 0 }

/-- MEMORY_REPLY: a reply fills what it passes, enters the L1 in the state that home gave it, and reaches its access. A
fill that an invalidation has met serves its access alone; one that an acquire has met does not enter the L1 (R126, R291). -/
def execMemoryReply (r : Req) (p : Reply) (s : State) : Res :=
  unlessReset r s (
  let (f, s) := (s.countGrant r p).takeFill r
  let q := if f.any fun x => x.useOnce then onlyGranted p else p
  let code : Bool := match r.kind with | .fetch => true | _ => false
  let s := if f.isNone && code then s else s.fillPath r q
  let s := match r.src with
    | .load _ | .stream _ _ _ => if f.any Fill.acquired || code then s else s.l1Install r.core r q
    | _ => s
  let s := s.passWrite r p
  let s := match r.src with
    | .load t => s.replyToThread t r p
    | .stream t k id => s.replyToStream t k id r p
    | .copy c ch => s.replyToCopy c ch r p
    | .report lid => s.schedule 0 (.launchComplete lid)
    | .device n => s.replyToDevice n p.sysAt
    | .queue _ _ | .fetch _ | .host _ => s
  .next ((s.entryAcked r.core).releaseHeld f))

/-! ## The store queue (R123, R126, R213) -/

/-- Copy commands wait for no store that has left the queue, and one that waited for it alone may start (R213). -/
def State.copyAcked (s : State) (core : Nat) : State :=
  let c := clusterOf core
  let off (x : CopyCmd) : CopyCmd := if x.core = core then { x with after := (s.core core).still x.after } else x
  let waits (x : CopyCmd) : Bool := off x ≠ x
  let mine := (List.range 16).filter fun i =>
    let ch := s.channel c i
    (ch.run.any fun r => waits r.cmd) || ch.queue.any waits
  let s := s.modCluster c fun k => { k with channels := k.channels.map fun ch =>
    { ch with queue := ch.queue.map off, run := ch.run.map fun r => { r with cmd := off r.cmd } } }
  mine.foldl (fun s i => s.schedule 0 (.copyBeat c i)) s

/-- A core's queue has moved: pushed units that wait for entries before them look again (R185). -/
def State.pushesMoved (s : State) (core : Nat) : State :=
  (s.threadsOf core).foldl (fun s t => ([0, 1, 2, 3] : List (Fin 4)).foldl (fun s k =>
    match (s.ctxAt t).streams[k] with
    | some st => if st.write && !st.buf.isEmpty && !st.ids.isEmpty then s.schedule 0 (.streamPushPerform t k) else s
    | none => s) s) s

/-- A store has not performed: home lies in a fenced half, or the reply was dropped (R364, R372). DESIGN CHOICE (log 109): its
thread takes data-lost with the store's first byte in TVAL before it issues again, or now if it waits for its stores. -/
def State.storeLost (s : State) (e : SQEntry) : State :=
  let a : Word := BitVec.ofNat 64 (e.req.line * 64 + ((bitsOf e.req.mask).head?).getD 0)
  let c := s.owner e.thread
  if !c.inst || c.job ≠ e.req.job then s
  else
    let s := s.modOwner e.thread fun c => { c with lostStore := some a }
    let waits : Bool := match c.wait with | .away .drain | .away .fence | .away .storeQueue => true | _ => false
    if e.thread < 65536 && waits && c.latch.isSome && c.asked.isEmpty then
      s.withThread e.thread fun s => { s with ctx := { s.ctx with lostStore := none } }.takeTrap causeDataLost a
    else s

/-- STORE_QUEUE_ACK: home has acknowledged an entry. A registration's words enter the L1, the store's bytes stand in the
copies that the core holds, the thread's time moves (R284, R285), and the entry leaves. -/
def execStoreQueueAck (r : Req) (p : Reply) (s : State) : Res :=
  unlessReset r s (match r.src with
  | .queue core id =>
    match (s.core core).queue.find? fun e => e.id = id with
    -- the entry has left: a release may wait for this cycle, in which its store has performed (R290)
    | none => .next (((((s.pump core 65).deferredAcked core).entryAcked core).copyAcked core).queueMoved core |>.pushesMoved core)
    | some e =>
      let again (s : State) (n : Nat) : State := if s.cycle < n then s.schedule (n - s.cycle) (.storeQueueAck r p) else s
      let s := again (again s p.pkgAt) p.sysAt
      let (f, s) := (s.countGrant r p).takeFill r
      let q := if f.any fun x => x.useOnce then onlyGranted p else p
      let s := s.fillPath r q
      let s := match q.inst with
        | .registered _ => s.l1Install core r q
        | _ => s
      -- the words that home has not registered it has written (R287, R294)
      let written : BitVec 16 := if p.st ≠ .ok then 0 else match p.inst with
        | .registered ws => wordsOf r.mask &&& ~~~ws
        | _ => wordsOf r.mask
      let left := { e.req with mask := if r.pol = .own && p.st = .ok then e.req.mask &&& ~~~bytesOfWords written else 0 }
      let s := if r.pol = .own && written ≠ 0 then
          (s.pathCaches r.job 16 (s.boundCache r.job (r.line * 64))).foldl (fun s vc =>
            s.updateCopy r.job vc r.line (r.mask &&& bytesOfWords written) r.data) s
        else s
      let c := s.owner e.thread
      let s := if c.inst && c.job = r.job then
          s.modOwner e.thread fun c => { (c.correctTime p.floor).seeTime p.wts with
            pkgAt := max c.pkgAt p.pkgAt, sysAt := max c.sysAt p.sysAt }
        else s
      -- an own store whose words have left the L1 meanwhile asks again (R94)
      let s := s.modCore core fun c =>
        let here := { e.req with mask := bytesOfWords written &&& e.req.mask &&& ~~~c.ownReg r.job r.line r.pol }
        if left.mask = 0 then (c.l1Write here).dropEntry id
        else if c.storesHere left then ((c.l1Write here).l1Write left).dropEntry id
        else { c.l1Write here with queue := c.queue.map fun f => if f.id = id then { f with sent := false, req := left } else f }
      let s := if p.st = .ok then s else s.storeLost e
      let s := s.pump core 65
      let s := ((((s.deferredAcked core).entryAcked core).copyAcked core).releaseHeld f).queueMoved core
      .next ((s.readyWaiting .stream (s.threadsOf core)).pushesMoved core)
  | _ => .next s)

/-! ## Fetches (R160, R356, R358) -/

/-- A line enters an instruction cache: 8 ways by 64 sets, the least recently used leaves. -/
def Core.icacheFill (c : Core) (x : ILine) : Core :=
  let mates := c.icache.filter fun l => l.line % 64 = x.line % 64
  let c := if mates.length < 8 then c else match mates.getLast? with
    | some old => { c with icache := c.icache.filter fun l => !(l.job = old.job && l.line = old.line) }
    | none => c
  { c with icache := x :: c.icache.filter fun l => !(l.job = x.job && l.line = x.line) }

/-- A fetch of the current thread faults: TEPC is the PC of the instruction fetched, which is the word after an `rpt`
where the block of the PC is there already (R53, R190). -/
def State.fetchTrap (s : State) (cause : Nat) (value : Word) : State :=
  let here := match s.ctx.fblock with | some b => decide (b.addr = s.ctx.pc.toNat / 32 * 32) | none => false
  if s.ctx.rep.isNone && here then s.trapAfterRpt cause value else s.takeTrap cause value

/-- The block of a line that the thread waits for, for a fill that serves once. -/
def State.useFetched (s : State) (t line : Nat) (x : Line) : State :=
  s.modCtxAt t fun c =>
    let here := c.pc.toNat / 32 * 32
    let want := if here / 64 = line && (c.fblock.all fun b => b.addr ≠ here) then here else (c.pc.toNat + 8) / 32 * 32
    if want / 64 = line then
      { c with
        fblock := some { addr := want, data := halfLine x (want / 32 % 2 = 1), once := true }
        ctl := { c.ctl with domain := match findAttr (s.core (coreOf t)).attrs (line * 64) with
          | some a => leafDomain a.leaf
          | none => c.ctl.domain } }
    else c

/-- INSTRUCTION_CACHE_FILL: the line enters the cache and the thread fetches at its next visit, or the fetch ends in
its fault or its page's wait. -/
def execInstructionCacheFill (r : Req) (p : Reply) (s : State) : Res :=
  unlessReset r s (match r.src with
  | .fetch t =>
    let (f, s) := s.takeFill r
    let once := f.any fun x => x.useOnce
    let good := decide (p.st = .ok)
    let s := if once || !good then s
      else (s.fillPath r p).modCore r.core fun c => c.icacheFill { job := r.job, line := r.line, data := p.data }
    let s := if (s.ctxAt t).inst && (s.ctxAt t).job = r.job then s.modCtxAt t fun c => c.correctTime p.floor else s
    let c := s.ctxAt t
    let va : Word := BitVec.ofNat 64 (r.line * 64)
    if !(c.inst && c.job = r.job && c.latch.isNone && c.wait = .away .fetch) then .next s
    else match p.st with
      | .ok => .next ((if once then s.useFetched t r.line p.data else s).unpark t)
      | .unpublished => .next (s.withThread t fun s => s.fetchTrap causePublication va)
      | .dataLost => .next (s.withThread t fun s => s.fetchTrap causeDataLost (va + BitVec.ofNat 64 p.wts))
      | .unmapped => .next (s.withThread t fun s => s.fetchTrap causeAddress va)
      | .notPresent => .next (s.withThread t fun s => s.parkPage (r.line * 64))
  | _ => .next s)

end Sys2Proof.Machine
end

