-- ==== Sys2Proof/Machine/Engines.lean ====
section
/-! DEFINITION. What the cluster's engines share: the job table (09 R214, R215, 10 R239), the operand addresses of engine
commands (10 R223, R230), the spans that a copy command writes (10 R232, R233, R235), and the weight rows that it keeps
busy (09 R211). -/
namespace Sys2Proof.Machine

/-! ## The job table (R214, R215, R239) -/

/-- The entry that an identifier names, if it is taken and of that generation. -/
def Cluster.job? (c : Cluster) (jid : Nat) : Option JobEntry :=
  (Table.get? c.jobs (jid % 64)).filter fun e => e.taken && decide (e.gen.toNat = jid / 64 % 1024)
def State.jobOf (s : State) (c jid : Nat) : Option JobEntry := (s.cluster c).job? jid
def State.modJobEntry (s : State) (c jid : Nat) (f : JobEntry → JobEntry) : State :=
  match s.jobOf c jid with
  | some e => s.modCluster c fun k => { k with jobs := Table.set k.jobs (jid % 64) (f e) }
  | none => s

/-- The lowest free entry. -/
def State.freeJob (s : State) (c : Nat) : Option Nat :=
  (List.range 64).find? fun i => !(Table.getD (s.cluster c).jobs i JobEntry.reset).taken

/-- Takes an entry for the current thread, with the flags of `e`; its identifier has the next generation. -/
def State.takeJob (s : State) (c i : Nat) (e : JobEntry) : State × Nat :=
  let g : BitVec 10 := (Table.getD (s.cluster c).jobs i JobEntry.reset).gen + 1
  let e : JobEntry := { e with taken := true, gen := g, state := 0, bytes := 0, thread := s.cur, heir := none, cmd := none }
  (s.modCluster c fun k => { k with jobs := Table.set k.jobs i e }, i + 64 * g.toNat)

/-- The status word of an identifier. One whose entry is free, or of another generation, reports done with every other field
zero (R214, R239); a `tmove` that is done reports the bytes of its page until the entry is taken anew (R376, log 110). -/
def State.jobStatus (s : State) (c jid : Nat) : BitVec 64 :=
  let e := Table.getD (s.cluster c).jobs (jid % 64) JobEntry.reset
  if e.gen.toNat ≠ jid / 64 % 1024 then 2
  else if !e.taken then BitVec.ofNat 64 (e.bytes.toNat * 2 ^ 32 + 2)
  else
    let b (x : Bool) (i : Nat) : Nat := if x then 2 ^ i else 0
    BitVec.ofNat 64 (e.bytes.toNat * 2 ^ 32 + e.cflags.toNat * 2 ^ 11 + b e.zrow 10 + b e.clone 9 + b e.fresh 8 + e.state.toNat)

/-- An entry is free again; its generation stays, and the bytes of a `tmove` that is done. -/
def State.freeJobEntry (s : State) (c jid : Nat) : State :=
  (s.modJobEntry c jid fun e => { JobEntry.reset with
    gen := e.gen, bytes := if e.move && e.state = 2 then e.bytes else 0 }).readyWaiting .jobTable (s.clusterThreads c)

/-- The wake-pending bit of a thread (R111), and what waits for it. -/
def State.setWakeOf (s : State) (t : Nat) : State :=
  if (s.ctxAt t).inst then (s.modCtxAt t Ctx.setWake).wakeUp t else s

/-- Threads that wait for an engine's work look again. -/
def State.engineMoved (s : State) (c : Nat) : State :=
  let ts := s.clusterThreads c
  (s.kickWaiting .jobWait ts).kickWaiting .drain ts

/-- A command ends: a done one frees its entry, and so does any whose unit has ended (R214); the wake-pending bit of a copy or
matrix command's thread is set (R111). -/
def State.endJob (s : State) (c jid : Nat) (st : BitVec 3) : State :=
  match s.jobOf c jid with
  | none => s
  | some e =>
    let s := s.modJobEntry c jid fun e => { e with state := st }
    let s := if st = 2 || e.thread = noThread then s.freeJobEntry c jid else s
    (if e.engine then s.setWakeOf e.thread else s).engineMoved c

/-! ## Operand addresses (R223, R230) -/

/-- An address with the own-core alias resolved for a core. -/
def resolve (core : Nat) (a : Word) : Word :=
  match targetOf core a with
  | .ls k off => if k = core && decide (off < 2 ^ 19) then BitVec.ofNat 64 (lsAddr core off) else a
  | _ => a

/-- n bytes in a local store of the current thread's cluster, aligned: the faults in the order of R223. -/
def State.clusterSpan (s : State) (a : Word) (n align : Nat) : Except Nat (Nat × Nat) :=
  match targetOf s.myCore a with
  | .ls core off =>
    if clusterOf core ≠ s.myCluster then .error causeAddress
    else if !s.boundTo core s.ctx.job then .error causeProtection
    else if off % align ≠ 0 || off + n > s.lsSize core then .error causeAddress
    else .ok (core, off)
  | _ => .error causeAddress

/-! ## Spans of a copy command (R231 to R233, R235, R403) -/

/-- A copy descriptor (R231). -/
structure CopyDesc where
  c0 : Nat
  c1 : Nat
  c2 : Nat
  ss1 : Int
  ss2 : Int
  ds1 : Int
  ds2 : Int
  reserved : Nat
  deriving DecidableEq, Repr

def descOf (x : BitVec 256) : CopyDesc :=
  let num (i : Nat) : BitVec 32 := x.extractLsb' (32 * i) 32
  { c0 := (num 0).toNat, c1 := (num 1).toNat, c2 := (num 2).toNat, ss1 := (num 3).toInt, ss2 := (num 4).toInt,
    ds1 := (num 5).toInt, ds2 := (num 6).toInt, reserved := (num 7).toNat }

/-- What fills a span: source bytes with zeros after them; a converted row's mantissas or exponents; a row of a KV
block's plane. -/
inductive SpanSrc
  | bytes (a : Word) (n : Nat)
  | conv (row : Nat) (exps : Bool)
  | kv (entry : Nat) (value exps : Bool) (row : Nat)
  deriving DecidableEq, Repr

/-- Bytes that a command writes together: where, how many, what fills them, and what a fault there reports: the resume
point and the bytes before it. -/
structure Span where
  dst : Word
  len : Nat
  src : SpanSrc
  res : Nat
  before : Nat
  deriving DecidableEq, Repr

def CopyCmd.conv (x : CopyCmd) : Nat := if x.kind = 1 then (x.ext.extractLsb' 0 3).toNat else 0
def CopyCmd.channel (x : CopyCmd) : Nat :=
  if x.kind = 1 then (x.ext.extractLsb' 3 4).toNat
  else if x.kind = 2 then (x.ext.extractLsb' 34 4).toNat else (x.ext.extractLsb' 32 4).toNat
def CopyCmd.shadow (x : CopyCmd) : Bool := x.kind = 1 && x.ext.getLsbD 7
def CopyCmd.remote (x : CopyCmd) : Bool := x.kind = 1 && x.ext.getLsbD 8

/-- An address moved by a signed number of bytes. -/
def moved (a : Word) (n : Int) : Word := a + BitVec.ofInt 64 n
/-- The offset of the exponent plane of a weight region (R202). -/
def weightExps : Nat := 0x360000
/-- The first reserved offset of a weight region. -/
def weightEnd : Nat := 0x3CC000
/-- The offset of an address in a weight region. -/
def weightOff (core : Nat) (a : Word) : Option Nat := match targetOf core a with | .weight _ off => some off | _ => none

/-- Source row j of a descriptor: its address. -/
def CopyCmd.srcRow (x : CopyCmd) (d : CopyDesc) (j : Nat) : Word :=
  moved x.b (((j / d.c1 : Nat) : Int) * d.ss2 + ((j % d.c1 : Nat) : Int) * d.ss1)
def CopyCmd.dstRow (x : CopyCmd) (d : CopyDesc) (j : Nat) : Word :=
  moved x.c (((j / d.c1 : Nat) : Int) * d.ds2 + ((j % d.c1 : Nat) : Int) * d.ds1)

/-- The exponent base of a converting copy (R233). -/
def CopyCmd.expBase (x : CopyCmd) (d : CopyDesc) : Word :=
  match weightOff x.core x.c with
  | some off => moved x.c ((weightExps : Int) + ((off / 8 : Nat) : Int) - ((off : Nat) : Int))
  | none => x.c + BitVec.ofNat 64 (96 * d.c1 * d.c2)

/-- The spans of a command from its resume point, in walk order. -/
def CopyCmd.spans (x : CopyCmd) : List Span :=
  let d := descOf x.desc
  let rows := d.c1 * d.c2
  if x.kind = 2 then
    let count := (x.ext.extractLsb' 16 16).toNat
    let both := x.ext.getLsbD 38 && x.ext.getLsbD 39
    let planes : List Bool := (if x.ext.getLsbD 38 then [false] else []) ++ (if x.ext.getLsbD 39 then [true] else [])
    ((List.range count).drop x.resume).flatMap fun k => planes.flatMap fun v =>
      let o := 16 * k + (if v && both then 16 * count else 0)
      let row (exps : Bool) (r : Nat) : Span :=
        { dst := if exps then x.c + BitVec.ofNat 64 (12 * (o + r)) else x.b + BitVec.ofNat 64 (96 * (o + r)),
          len := if exps then 12 else 96, src := .kv k v exps r, res := k, before := 1728 * planes.length * k }
      ((List.range 16).map (row false)) ++ (List.range 16).map (row true)
  else if d.c0 = 0 then []
  else if x.conv = 0 then
    ((List.range rows).drop (x.resume / d.c0)).map fun j =>
      let o := if j = x.resume / d.c0 then x.resume % d.c0 else 0
      { dst := x.dstRow d j + BitVec.ofNat 64 o, len := d.c0 - o, src := .bytes (x.srcRow d j + BitVec.ofNat 64 o) (d.c0 - o),
        res := j * d.c0 + o, before := j * d.c0 + o }
  else if x.conv = 5 then
    ((List.range rows).drop x.resume).map fun j =>
      { dst := x.dstRow d j, len := d.ds1.toNat, src := .bytes (x.srcRow d j) d.c0, res := j, before := j * d.ds1.toNat }
  else
    let mant (j b : Nat) : Span :=
      { dst := x.c + BitVec.ofNat 64 (96 * j), len := 96, src := .conv j false, res := j, before := b }
    let exps (j b : Nat) : Span :=
      { dst := x.expBase d + BitVec.ofNat 64 (12 * j), len := 12, src := .conv j true, res := j, before := b }
    let js := (List.range rows).drop x.resume
    if (weightOff x.core x.c).isSome then js.flatMap fun j => [mant j (108 * j), exps j (108 * j)]
    else (js.map fun j => mant j (96 * j)) ++ js.map fun j => exps j (96 * rows + 12 * j)

/-! ## Busy weight rows (R202, R211) -/

/-- The weight rows that n bytes at an address touch. -/
def weightRows (core : Nat) (a : Word) (n : Nat) : List Nat :=
  match weightOff core a with
  | none => []
  | some off =>
    if n = 0 then []
    else
      let last := off + n - 1
      let span (size base : Nat) (lo hi : Nat) : List Nat :=
        (List.range ((hi - base) / size - (lo - base) / size + 1)).map fun i => (lo - base) / size + i
      (if off < weightExps then span 6144 0 off (min last (weightExps - 1)) else []) ++
        (if last ≥ weightExps && off < weightEnd then span 768 weightExps (max off weightExps) (min last (weightEnd - 1)) else [])

/-- A running command has written a beat into the row and has one to write. -/
def CopyRun.busy (r : CopyRun) (row : Nat) : Bool :=
  let sp := r.cmd.spans
  let here (x : Span) (lo hi : Nat) : Bool := (weightRows r.cmd.core (x.dst + BitVec.ofNat 64 lo) (hi - lo)).contains row
  let before := (sp.take r.pos).any (fun x => here x 0 x.len) || (match sp[r.pos]? with | some x => here x 0 r.off | none => false)
  let after := (sp.drop (r.pos + 1)).any (fun x => here x 0 x.len) || (match sp[r.pos]? with | some x => here x r.off x.len | none => false)
  before && after

/-- A copy command keeps the weight row busy. -/
def State.rowBusy (s : State) (c row : Nat) : Bool :=
  (s.cluster c).channels.toList.any fun ch => ch.run.any fun r => r.cmd.kind ≤ 2 && r.busy row

end Sys2Proof.Machine
end

