-- ==== Sys2Proof/Machine/Matrix.lean ====
section
/-! DEFINITION. The matrix unit (09 R205 to R210, 10 R222 to R229, 03 R77): `mma`, `acrd`, `acst`, `aczero`, `acver`, the
start of an operation by the arbiter, and its completion. -/
namespace Sys2Proof.Machine

/-! ## Issue (R206, R209, R223, R228) -/

/-- The matrix arbiter looks at the queues in `d` cycles, before anything else of that cycle (R204). -/
def State.askMatrix (s : State) (c d : Nat) : State :=
  let at_ := s.cycle + d
  { s with agenda := (s.agenda.takeWhile fun x => decide (x.1 < at_)) ++
                       (at_, .matrixStart c) :: (s.agenda.dropWhile fun x => decide (x.1 < at_)) }

/-- The queue of the current thread's core. -/
def State.myQueue (s : State) : List MatrixOp := (s.cluster s.myCluster).queues.toList.getD (s.myCore % 8) []
/-- An operation enters it: at the next cycle, to start two cycles from now at the earliest. -/
def State.enqueue (s : State) (o : MatrixOp) : State :=
  (s.modCluster s.myCluster fun c =>
    { c with queues := c.queues.setIfInBounds (s.myCore % 8) (c.queues.toList.getD (s.myCore % 8) [] ++ [o]) }).askMatrix
      s.myCluster 2

/-- The checks of R223 for the A tile's two planes and the weight row: the cause and the offending value, or the
unified addresses of the planes. -/
def State.checkTile (s : State) (a b c : Word) (rows : Nat) : Except (Nat × Word) (Nat × Nat) :=
  match targetOf s.myCore a, targetOf s.myCore b with
  | .ls ka oa, .ls kb ob =>
    if clusterOf ka ≠ s.myCluster then .error (causeAddress, a)
    else if clusterOf kb ≠ s.myCluster then .error (causeAddress, b)
    else if !s.boundTo ka s.ctx.job then .error (causeProtection, a)
    else if !s.boundTo kb s.ctx.job then .error (causeProtection, b)
    else if oa % 32 ≠ 0 || (rows ≠ 0 && oa + 96 * rows > s.lsSize ka) then .error (causeAddress, a)
    else if ob % 4 ≠ 0 || (rows ≠ 0 && ob + 12 * rows > s.lsSize kb) then .error (causeAddress, b)
    else if c.toNat > 575 then .error (causeAddress, c)
    else .ok (lsAddr ka oa, lsAddr kb ob)
  | .ls _ _, _ => .error (causeAddress, b)
  | _, _ => .error (causeAddress, a)

def execMma (m : MmaArgs) (s : State) : Res :=
  withG [m.a, m.b, m.c] s
    (match s.checkTile (s.g m.a) (s.g m.b) (s.g m.c) m.mm.toNat with
     | .error (c, v) => trapTo s c v
     | .ok (pa, pb) =>
       if s.myQueue.length ≥ 16 then .next (s.park .matrixQueue)
       else
         let op (jid : Option Nat) : MatrixOp :=
           { acc := m.acc.toNat, clear := m.clear, n := m.n.toNat, k := m.kk.toNat, cols := m.nn.toNat, rows := m.mm.toNat,
             ver := m.ver, aMant := pa, aExp := pb, row := (s.g m.c).toNat, jid := jid, thread := s.cur, at_ := s.cycle + 2 }
         if m.job then
           match s.freeJob s.myCluster with
           | none => .next (s.park .jobTable)
           | some i =>
             let (s', jid) := s.takeJob s.myCluster i JobEntry.reset
             .next (((s'.enqueue (op (some jid))).setG m.j (BitVec.ofNat 64 jid) (s.anyTaint [m.a, m.b, m.c])).finish 16)
         else .next ((s.enqueue (op none)).finish 16))

/-- `aczero` names no weight row. -/
def noRow : Nat := 576

def execAczero (acc : BitVec 5) (a : GReg) (s : State) : Res :=
  withG [a] s
    (if s.myQueue.length ≥ 16 then .next (s.park .matrixQueue)
     else .next ((s.enqueue { acc := acc.toNat, clear := true, n := 2, k := 0, cols := 64, rows := 8,
                              ver := (s.g a).extractLsb' 0 16, aMant := 0, aExp := 0, row := noRow, jid := none,
                              thread := s.cur, at_ := s.cycle + 2 }).finish 8))

/-! ## Start (R206 to R211) -/

def Cluster.acc (c : Cluster) (i : Nat) : Accum := Table.getD c.accs i Accum.reset

/-- An operation may start: its version is next for its accumulator, and no copy writes the row that it reads. -/
def State.eligible (s : State) (c : Nat) (o : MatrixOp) : Bool :=
  let k := s.cluster c
  decide (o.at_ ≤ s.cycle) &&
    decide ((k.acc o.acc).version + BitVec.ofNat 16 (k.running.filter fun r => r.op.acc = o.acc).length = o.ver) &&
    !(s.rowBusy c o.row)

/-- The choice of R210 among the cores whose queue head is eligible: the core, and the credits after it. -/
def choose (e : List Nat) (credit weight : Vector Nat 8) (last : Nat) : Option (Nat × Vector Nat 8) :=
  if e.isEmpty then none
  else
    let credit := if e.all fun j => credit.toList.getD j 0 = 0 then weight else credit
    match ((List.range 8).map fun i => (last + 1 + i) % 8).find? fun j => e.contains j && decide (credit.toList.getD j 0 > 0) with
    | some j => some (j, credit.setIfInBounds j (credit.toList.getD j 0 - 1))
    | none => none

/-- MATRIX_START: where the array can accept a start and the cluster is not halted (R252), the arbiter's choice starts and
reads its A tile. -/
def execMatrixStart (c : Nat) (s : State) : Res :=
  let k := s.cluster c
  if k.dbg.halted || k.running.any fun r => r.start + r.op.n > s.cycle then .next s
  else
    let heads := (List.range 8).filter fun j =>
      match (k.queues.toList.getD j []).head? with | some o => s.eligible c o | none => false
    match choose heads k.credit k.weight k.last with
    | none => .next s
    | some (j, credit) =>
      match k.queues.toList.getD j [] with
      | [] => .next s
      | o :: rest =>
        let run : MatrixRun :=
          { op := o, start := s.cycle, mant := s.mem.readBytes o.aMant (96 * o.rows), exp := s.mem.readBytes o.aExp (12 * o.rows) }
        let s := s.modCluster c fun k =>
          { k with queues := k.queues.setIfInBounds j rest, credit := credit, last := j, running := k.running ++ [run] }
        let s := (s.schedule (2 + o.n) (.matrixComplete c)).askMatrix c o.n
        .next (s.readyWaiting .matrixQueue (s.clusterThreads c))

/-! ## Completion (R77, R205, R207, R224, R365) -/

/-- The product of one block as binary32 (R77 steps 1 and 2): the mantissas as numbers of n bits. -/
def blockProduct (n ea eb : Nat) (a b : Nat) : Nat :=
  if ea = 255 || eb = 255 then 0x7FC0_0000
  else
    let dot := (List.range 32).foldl (fun (x : Int) j =>
      x + bfpMant n (a / 2 ^ (n * j) % 2 ^ n) * bfpMant n (b / 2 ^ (n * j) % 2 ^ n)) 0
    scaleF32 dot ((ea : Int) + (eb : Int) - 254 - 2 * ((n : Int) - 2))

/-- Element (i, j) of an operation's corner, from its old value. -/
def State.element (s : State) (c : Nat) (r : MatrixRun) (i j : Nat) (old : Nat) : Nat :=
  let o := r.op
  let mant := o.row * 6144 + j * 96
  let exps := weightExps + o.row * 768 + j * 12
  (List.range o.k).foldl (fun x k =>
    let a := natOfBytes ((r.mant.drop (96 * i + 4 * o.n * k)).take (4 * o.n))
    let b := s.mem.readNat (weightAddr c (mant + 4 * o.n * k)) (4 * o.n)
    addF32 x (blockProduct o.n (r.exp.getD (12 * i + k) 0).toNat (s.mem.read (weightAddr c (exps + k))).toNat a b))
    (if o.clear then 0 else old)

/-- The words of a weight row: its mantissas and its exponents. The row is poisoned while one of them is (R365, log 31). -/
def rowWords (c row : Nat) : List Nat :=
  (List.range 1536).map (weightAddr c (row * 6144) / 4 + ·) ++ (List.range 192).map (weightAddr c (weightExps + row * 768) / 4 + ·)
def State.rowPoisoned (s : State) (c row : Nat) : Bool :=
  !s.ms.poison.isEmpty && s.ms.poison.any fun w =>
    (weightAddr c (row * 6144) / 4 ≤ w && decide (w < weightAddr c (row * 6144) / 4 + 1536)) ||
    (weightAddr c (weightExps + row * 768) / 4 ≤ w && decide (w < weightAddr c (weightExps + row * 768) / 4 + 192))

/-- The accumulator after an operation. -/
def State.accumulate (s : State) (c : Nat) (r : MatrixRun) : Accum :=
  let o := r.op
  let x := (s.cluster c).acc o.acc
  let data :=
    if o.k = 0 && !o.clear then x.data
    else (List.range o.rows).foldl (fun t i => (List.range o.cols).foldl (fun t j =>
      let n := i * 64 + j
      let v := s.element c r i j (Table.getD x.data n 0).toNat
      if v = 0 then Table.del t n else Table.set t n (BitVec.ofNat 32 v)) t) x.data
  let cleared := o.clear && o.k = 0 && o.rows = 8 && o.cols = 64
  let lost := decide (o.k * o.rows * o.cols ≠ 0) && s.rowPoisoned c o.row
  { data := data, version := x.version + 1, poison := (x.poison && !cleared) || lost }

/-- MATRIX_COMPLETE: the data and the version are in place, the job is done, and what waited for the accumulator looks
again. -/
def execMatrixComplete (c : Nat) (s : State) : Res :=
  match (s.cluster c).running.find? fun r => r.start + 2 + r.op.n ≤ s.cycle with
  | none => .next s
  | some r =>
    let k := s.cluster c
    let s := ((if k.dbg.halted then s else s.countCluster c 0x22 0 (k.busyOf s.cycle r)).countCluster c 0x23 0 1).modCluster c fun k =>
      { k with accs := Table.set k.accs r.op.acc (s.accumulate c r), running := k.running.filter (· ≠ r) }
    let s := match r.op.jid with
      | some j => s.endJob c j 2
      | none => s.engineMoved c
    .next ((s.kickWaiting .accumulator (s.clusterThreads c)).askMatrix c 1)

/-! ## Reading accumulators (R226, R227, R229) -/

/-- Readable at a version in this cycle: an operation that starts in this cycle does not count. -/
def State.accReadable (s : State) (i : Nat) (v : Word) : Bool :=
  let k := s.cluster s.myCluster
  decide ((k.acc i).version = v.extractLsb' 0 16) &&
    k.running.all fun r => decide (r.op.acc ≠ i) || decide (r.start = s.cycle)

def execAcrd (d : VIdx) (a : GReg) (acc : BitVec 5) (row : BitVec 3) (cg : BitVec 2) (s : State) : Res :=
  vstart [a] false d [] (fun _ => some 8) s fun _ _ =>
    (if !(s.accReadable acc.toNat (s.g a)) then .next (s.park .accumulator)
     else
       let x := (s.cluster s.myCluster).acc acc.toNat
       if x.poison then trapTo s causeDataLost 0
       else
         let at_ := row.toNat * 64 + 16 * cg.toNat
         vdone 8 [] (tvalOf []) d
           (laneReg 8 (lineOfLanes 32 ((List.range 16).map fun i => (Table.getD x.data (at_ + i) 0).toNat))) 0 s)

/-- The bytes of one row in a format, its exponent bytes, and the flags (R67, R71, R227). -/
def accRow (md : RMode) (tag : BitVec 5) (xs : List Nat) : List Byte × List Byte × BitVec 5 :=
  if tag = 8 then (xs.flatMap (bytesOfNat 4), [], 0)
  else if tag = 9 then
    let rs := xs.map (Fmt.convertCode Fmt.f32 Fmt.bf16 md)
    (rs.flatMap fun r => bytesOfNat 2 r.1, [], rs.foldl (fun f r => f ||| r.2) 0)
  else
    let n := bfpN tag
    let bs := (List.range 2).map fun b => toBfp md.rnd n (((xs.drop (32 * b)).take 32).map (Fmt.f32.read md))
    (bs.flatMap fun b => bytesOfNat (4 * n) (packLanes n b.2.1), bs.map fun b => BitVec.ofNat 8 b.1,
      bs.foldl (fun f b => f ||| b.2.2) 0)

/-- The bytes of a row in a format. -/
def accRowBytes (tag : BitVec 5) : Nat := if tag = 8 then 256 else if tag = 9 then 128 else 8 * bfpN tag

/-- Where `acst` writes: one local store of the cluster holds every byte, bound to the job, with gA 4-aligned. -/
def State.checkAcst (s : State) (a c : Word) (tag : BitVec 5) (pitch : Nat) : Except (Nat × Word) (Nat × Nat × Nat) :=
  let bfp := tag ≠ 8 && tag ≠ 9
  match targetOf s.myCore a, (if bfp then targetOf s.myCore c else targetOf s.myCore a) with
  | .ls ka oa, .ls kc oc =>
    if clusterOf ka ≠ s.myCluster then .error (causeAddress, a)
    else if bfp && kc ≠ ka then .error (causeAddress, c)
    else if !s.boundTo ka s.ctx.job then .error (causeProtection, a)
    else if oa % 4 ≠ 0 || oa + 7 * pitch + accRowBytes tag > s.lsSize ka then .error (causeAddress, a)
    else if bfp && oc + 16 > s.lsSize ka then .error (causeAddress, c)
    else .ok (ka, oa, oc)
  | .ls _ _, _ => .error (causeAddress, c)
  | _, _ => .error (causeAddress, a)

/-- The mark of an `acst` that has read its accumulator: after it the beats written, the core, the two offsets. -/
def acstMark : Nat := 2 ^ 60 + 3

/-- The addresses that `acst` writes, row by row, mantissas before exponents. -/
def acstPlaces (k oa oc : Nat) (tag : BitVec 5) (pitch : Nat) : List Nat :=
  let exps := if tag ≠ 8 && tag ≠ 9 then 2 else 0
  (List.range 8).flatMap fun r =>
    (List.range (accRowBytes tag)).map (lsAddr k (oa + r * pitch) + ·) ++ (List.range exps).map (lsAddr k (oc + 2 * r) + ·)

/-- The beats of 64 bytes that are left take the access ports like copy beats, one a cycle: one whose bank served a thread
in the cycle before waits (R200, R227). With the last the bytes are visible and the thread goes on. -/
def State.acstBeat (s : State) (places : List Nat) (done : Nat) (core oa oc : Nat) : Res :=
  let beats := (places.length + 63) / 64
  let s' := (s.beatPorts (s.cellRows s.ctx.job ((places.drop (64 * done)).take 64)))
  let (s, n) := match s' with | some s' => (s', done + 1) | none => (s, done)
  if n < beats then
    .next (({ s with ctx := { s.ctx with asked := [acstMark, n, core, oa, oc] } }).rest .timedMemory 1)
  else
    let data := s.ctx.gather.flatMap fun x => bytesOfLine x.data
    .next ((s.writeLocal (places.zip data)).finish 12)

def execAcst (acc : BitVec 5) (a b c : GReg) (tag : BitVec 5) (pitch : BitVec 16) (s : State) : Res :=
  match s.ctx.asked with
  | [m, n, core, oa, oc] =>
    if m = acstMark then s.acstBeat (acstPlaces core oa oc tag pitch.toNat) n core oa oc else first
  | _ => first
where
  first : Res :=
    withG [a, b, c] s
      (match s.checkAcst (s.g a) (s.g c) tag pitch.toNat with
       | .error (e, v) => trapTo s e v
       | .ok (k, oa, oc) =>
         if !(s.accReadable acc.toNat (s.g b)) then .next (s.park .accumulator)
         else
           let x := (s.cluster s.myCluster).acc acc.toNat
           if x.poison then trapTo s causeDataLost 0
           else
             let md := RMode.of s.ctx.ctl.rmode 0
             let rows := (List.range 8).map fun r =>
               accRow md tag ((List.range 64).map fun j => (Table.getD x.data (64 * r + j) 0).toNat)
             let bytes := rows.flatMap fun w => w.1 ++ w.2.1
             let fl := rows.foldl (fun f w => f ||| w.2.2) (0 : BitVec 5)
             let lines := (List.range ((bytes.length + 63) / 64)).map fun i =>
               { line := i, mask := BitVec.allOnes 64, data := lineOfBytes ((bytes.drop (64 * i)).take 64), st := .ok, wts := 0,
                 granted := false : Gathered }
             let s := s.raise fl
             .next (({ s with ctx := { s.ctx with asked := [acstMark, 0, k, oa, oc], gather := lines } }).rest .timedMemory 5))

def execAcver (d : GReg) (acc : BitVec 5) (s : State) : Res :=
  .next ((s.setG d (((s.cluster s.myCluster).acc acc.toNat).version.zeroExtend 64) false).finish 8)

end Sys2Proof.Machine
end

