-- ==== Sys2Proof/Machine/Copy.lean ====
section
/-! DEFINITION. The copy unit (09 R211 to R221, 10 R230 to R245, R403): submission, beats, the key/value commands, the end
of a command, and the instructions that observe commands. -/
namespace Sys2Proof.Machine

/-! ## The checks of a beat (R202, R218, R230, R243) -/

/-- The fault kind of one byte of a command; a shadow copy writes global memory alone (R232). -/
def State.copyByte (s : State) (x : CopyCmd) (write : Bool) (a : Word) : Option Nat :=
  if write && x.shadow && (match targetOf x.core a with | .global _ => false | _ => true) then some 5
  else match targetOf x.core a with
  | .none => some 2
  | .ls k off => if off ≥ s.lsSize k then some 2 else if s.boundTo k x.job then none else some 3
  | .weight c off => if !write || c ≠ clusterOf x.core || off ≥ weightEnd then some 2 else none
  | .global va =>
    let w := (s.walk va).attr
    if leafUnmapped w.leaf then some 2
    else if leafAbsent w.leaf then some 1
    else if leafBad w.big w.leaf then some 2
    else
      let r := (s.rightsEntry x.job (leafDomain w.leaf)).rights
      if !((if write then Need.write else Need.read).allows r) then some 3
      else if write && x.shadow && !leafTwin w.leaf then some 5 else none

/-- The first failing byte of n, with its kind. -/
def State.copyCheck (s : State) (x : CopyCmd) (write : Bool) (a : Word) (n : Nat) : Option (Nat × Word) :=
  (spanFrom a n).findSome? fun b => (s.copyByte x write b).map fun k => (k, b)

/-- What a beat's access gives: a value, a wait for replies or for a busy row, or a fault's kind and address. -/
inductive Eng (α : Type)
  | ok (x : α) (s : State)
  | wait (s : State)
  | fault (kind : Nat) (addr : Word)

/-- A request of a command. -/
def CopyCmd.req (x : CopyCmd) (kind : ReqKind) (pol : Policy) (line : Nat) (mask : BitVec 64) (data : Line) : Req :=
  { src := .copy (clusterOf x.core) x.channel, kind := kind, pol := pol, acq := false, core := x.core, job := x.job, line := line,
    mask := mask, data := data, data2 := 0, ptime := x.ptime, lease := 10, path := [], shadow := false }

def State.modRun (s : State) (x : CopyCmd) (f : CopyRun → CopyRun) : State :=
  s.modChannel (clusterOf x.core) x.channel fun n => { n with run := n.run.map f }

/-- The next beat of a command's channel in d cycles. -/
def State.nextBeat (s : State) (x : CopyCmd) (d : Nat) : State := s.schedule d (.copyBeat (clusterOf x.core) x.channel)

/-- A beat of a command has issued in this cycle: the unit has served its channel, the beat is counted, and the command runs
(R212, R215, R255). -/
def State.beatIssued (s : State) (x : CopyCmd) : State :=
  ((s.countCluster (clusterOf x.core) 0x20 x.channel 1).modCluster (clusterOf x.core) fun k => { k with copyAt := s.cycle, lastChannel := x.channel }).modJobEntry
    (clusterOf x.core) x.jid fun e => if e.state = 0 then { e with state := 1 } else e

/-- The number of a byte that a command reads: a global address, or a local store's unified one. -/
def CopyCmd.byteNo (x : CopyCmd) (a : Word) : Nat :=
  match targetOf x.core a with
  | .global va => va
  | .ls k off => lsAddr k off
  | _ => 0

/-- A line of a local store as a read beat finds it, or as it was before an overlapping copy began (R217); none where a
thread has its bank (R200). -/
def State.readBeat (s : State) (r : CopyRun) (line : Nat) (mask : BitVec 64) : Option (State × Gathered) :=
  let g : Gathered :=
    { line := line, mask := mask, data := BitVec.ofNat 512 ((r.snap.getD s.mem).readNat (line * 64) 64), st := .ok, wts := 0,
      granted := false }
  (s.beatPorts (s.cellRows r.cmd.job ((bitsOf mask).map (line * 64 + ·)))).map fun s =>
    ((s.modRun r.cmd fun r => { r with got := r.got ++ [g] }).beatIssued r.cmd, g)

/-- Reads n bytes, a line of 64 bytes in a cycle: a local store's at once, a global one by a request (R212, R213, R217,
R230). -/
def State.copyRead (s : State) (r : CopyRun) (a : Word) (n : Nat) (pol : Policy) : Eng (List Byte) :=
  let x := r.cmd
  let as := spanFrom a n
  match s.copyCheck x false a n with
  | some (k, b) => .fault k b
  | none =>
    match (localsOf x.core as).find? fun y => (s.poisonIn (lsAddr y.2.1 y.2.2) 1).isSome with
    | some y => .fault 4 y.1
    | none =>
      let lines := maskedLines (as.map x.byteNo)
      let bytes (got : List Gathered) : List Byte := as.map fun b =>
        match got.find? fun g => g.line = x.byteNo b / 64 && g.mask.getLsbD (x.byteNo b % 64) with
        | some g => lineByte g.data (x.byteNo b % 64)
        | none => 0
      match r.got.find? fun g => g.st ≠ .ok && lines.any fun l => l.1 = g.line with
      | some g => .fault (lostKind g.st) (BitVec.ofNat 64 (g.line * 64 + (if g.st = .dataLost then g.wts else 0)))
      | none =>
        let missing := lines.filter fun l => !(r.got.any fun g => g.line = l.1 && l.2 &&& ~~~g.mask = 0)
        match missing.find? fun l => !(r.pend.contains l.1) with
        | none => if missing.isEmpty then .ok (bytes r.got) s else .wait s
        | some l =>
          if (s.cluster (clusterOf x.core)).copyAt = s.cycle then .wait (s.nextBeat x 1)
          else if l.1 ≥ lsAddr 0 0 / 64 then
            match s.readBeat r l.1 l.2 with
            | none => .wait (s.nextBeat x 1)
            | some (s, g) => if missing.length = 1 then .ok (bytes (r.got ++ [g])) s else .wait (s.nextBeat x 1)
          else
            let s := (s.modRun x fun r => { r with pend := r.pend ++ [l.1] }).beatIssued x
            let s := s.ask (x.req .load (loadPol pol (s.walk (l.1 * 64)).attr) l.1 l.2 0)
            .wait (if missing.all fun m => m.1 = l.1 || r.pend.contains m.1 then s else s.nextBeat x 1)

/-- Threads behind a channel's write pointer look again (R242). -/
def State.pointerMoved (s : State) (c : Nat) : State := s.kickWaiting .counterWait (s.clusterThreads c)

/-- Writes a beat of at most 64 bytes: local stores, where no thread has the bank (R200), and the weight layer at once,
global lines through to home (R213, R216). -/
def State.copyWrite (s : State) (r : CopyRun) (a : Word) (bs : List Byte) : Eng Unit :=
  let x := r.cmd
  let c := clusterOf x.core
  let n := bs.length
  match s.copyCheck x true a n with
  | some (k, b) => .fault k b
  | none =>
    if (weightRows x.core a n).any fun w => (s.cluster c).running.any fun m => m.op.row = w && m.op.k ≠ 0 then
      .wait (s.nextBeat x 1)
    else
      let cells := (spanFrom a n).zip bs
      let near := cells.filterMap fun y => match targetOf x.core y.1 with
        | .ls k off => some (lsAddr k off, y.2)
        | .weight w off => some (weightAddr w off, y.2)
        | _ => none
      let stores := cells.filterMap fun y => match targetOf x.core y.1 with | .ls k off => some (k, lsAddr k off) | _ => none
      let own := (stores.filter fun y => clusterOf y.1 = c).length
      let far := cells.filterMap fun y => match targetOf x.core y.1 with | .global va => some (va, y.2) | _ => none
      let lines := cellLines far
      match s.beatPorts (s.cellRows x.job (stores.map (·.2))) with
      | none => .wait (s.nextBeat x 1)
      | some s =>
      let s := ((s.writeLocal near).modRun x fun r => { r with unacked := r.unacked + lines.length }).beatIssued x
      let s := lines.foldl (fun s l =>
        let (m, y) := lineStore far l
        s.sendReq { x.req .store (storePol .wt (s.walk (l * 64)).attr) l m y with shadow := x.shadow }) s
      let s := s.modJobEntry c x.jid fun e => { e with bytes := e.bytes + BitVec.ofNat 32 n }
      let s := if own = 0 then s
        else if r.snap.isSome then s.modRun x fun r => { r with owed := r.owed + own }
        else (s.modChannel c x.channel fun k => { k with chwp := k.chwp + BitVec.ofNat 64 own }).pointerMoved c
      let s := if (weightRows x.core a n).isEmpty then s else s.askMatrix c 1
      .ok () s

/-! ## Remote copies (R394, R395) -/

/-- The allowed links of a remote entry that are up; none for an invalid entry. -/
def State.remoteLinks (s : State) (dev : Nat) : BitVec 32 :=
  match Table.get? s.pkg.remote dev with
  | some e => if e.word0.getLsbD 31 then e.mask &&& s.pkg.fabReady else 0
  | none => 0
def CopyCmd.dev (x : CopyCmd) : Nat := (x.ext.extractLsb' 16 16).toNat

/-- The round trip to another device through one switch (R395). -/
def remoteTrip : Nat := 2000

/-- The command has beats on their way to its device. -/
def CopyRun.lastAck (r : CopyRun) : Nat := r.beats.foldl (fun n b => max n b.ack) 0

/-- A beat leaves for another device, whose package performs it: beat i over link i of the allowed ones that are up, by turns in
ascending order. The run counts its beats in `old` (R395). -/
def State.remoteWrite (s : State) (r : CopyRun) (a : Word) (bs : List Byte) : Eng Unit :=
  let links := bitsOf (s.remoteLinks r.cmd.dev)
  match links[r.old % links.length]? with
  | none => .fault 2 a
  | some link =>
    let beat : RemoteBeat := { link := link, ack := s.cycle + remoteTrip, pos := r.pos, off := r.off, dst := a }
    let s := s.modRun r.cmd fun r => { r with
      old := r.old + 1, beats := beat :: r.beats.filter fun b => decide (s.cycle < b.ack) }
    let cells := (List.range bs.length).map fun i => ((a + BitVec.ofNat 64 i).toNat, bs.getD i 0)
    let s := s.modPkg fun p => { p with remoteOut := p.remoteOut ++ [(r.cmd.dev, cells)] }
    let c := clusterOf r.cmd.core
    let s := s.beatIssued r.cmd
    .ok () (s.modJobEntry c r.cmd.jid fun e => { e with bytes := e.bytes + BitVec.ofNat 32 bs.length })

/-! ## Converted rows (R72, R233, R235) -/

/-- Bytes padded with zeros. -/
def padTo (n : Nat) (bs : List Byte) : List Byte := bs ++ List.replicate (n - bs.length) 0

/-- Elements of a row as exact values: E4M3, F32 or BF16 by the copy mode. -/
def rowValues (mode : Nat) (bs : List Byte) : List FVal :=
  let w := if mode = 1 then 1 else if mode = 3 then 4 else 2
  let f := Fmt.of (if mode = 1 then 11 else if mode = 3 then 8 else 9)
  (List.range (bs.length / w)).map fun i => f.decode (natOfBytes ((bs.drop (w * i)).take w))

/-- A source row as a BFP8 tile row: 96 mantissa bytes, 12 exponent bytes, flags. -/
def convRow (mode : Nat) (bs exps : List Byte) : List Byte × List Byte × BitVec 5 :=
  if mode = 2 then
    (padTo 96 (bs.flatMap fun b => [b.toNat % 16, b.toNat / 16].map fun m => BitVec.ofNat 8 (16 * m)), padTo 12 exps, 0)
  else
    let vals := rowValues mode bs
    let blocks := (List.range (vals.length / 32)).map fun k => toBfp .rne 8 ((vals.drop (32 * k)).take 32)
    (padTo 96 (blocks.flatMap fun b => b.2.1.map (BitVec.ofNat 8)), padTo 12 (blocks.map fun b => BitVec.ofNat 8 b.1),
      blocks.foldl (fun f b => f ||| b.2.2) 0)

/-- The source bytes of a row that hold one block, and the elements per byte mode's limits (R233). -/
def convRowOk (mode c0 : Nat) : Bool :=
  let unit := if mode = 1 then 32 else if mode = 2 then 16 else if mode = 3 then 128 else 64
  c0 = unit || c0 = 2 * unit || c0 = 3 * unit

/-- A stored KV row as it is written (R219, R235). -/
def kvRow (widen tag blocks : Nat) (mant exps : List Byte) : List Byte × List Byte × BitVec 5 :=
  if widen = 1 then convRow 2 (mant.take (16 * blocks)) (exps.take blocks)
  else if widen = 2 then convRow 1 (mant.take (32 * blocks)) []
  else if tag = 11 then (padTo 96 (mant.take (32 * blocks)), padTo 12 [], 0)
  else if tag = 18 then (padTo 96 (mant.take (16 * blocks)), padTo 12 (exps.take blocks), 0)
  else if tag = 20 then (padTo 96 (mant.take (32 * blocks)), padTo 12 (exps.take blocks), 0)
  else (mant, exps, 0)

/-! ## The bytes of a span -/

/-- The offset of a plane's row in a KV block (R219). -/
def planeOff (value exps : Bool) (row : Nat) : Nat :=
  match value, exps with
  | false, false => 64 + 96 * row
  | false, true => 1600 + 12 * row
  | true, false => 1792 + 96 * row
  | true, true => 3328 + 12 * row

/-- A read's value as the answer that it is part of. -/
def Eng.map {α β : Type} (g : Eng α) (f : α → β) : Eng β :=
  match g with
  | .ok x s => .ok (f x) s
  | .wait s => .wait s
  | .fault k a => .fault k a

/-- A raw copy takes a piece within one line of its source and of its destination. -/
def CopyCmd.isRaw (x : CopyCmd) : Bool := x.kind = 1 && x.conv = 0

/-- What fills a span, with the conversion's flags: a raw copy's next piece, another command's whole span. -/
def State.spanBytes (s : State) (r : CopyRun) (sp : Span) : Eng (List Byte × BitVec 5) :=
  let x := r.cmd
  match sp.src with
  | .bytes a n =>
    if x.isRaw then
      let from_ := a + BitVec.ofNat 64 r.off
      let to_ := sp.dst + BitVec.ofNat 64 r.off
      (s.copyRead r from_ (min (n - r.off) (min (64 - from_.toNat % 64) (64 - to_.toNat % 64))) .wt).map fun bs => (bs, 0)
    else (s.copyRead r a n .wt).map fun bs => (padTo sp.len bs, 0)
  | .conv j exps =>
    let d := descOf x.desc
    let pick (w : List Byte × List Byte × BitVec 5) : List Byte × BitVec 5 := (if exps then w.2.1 else w.1, w.2.2)
    if exps && x.conv = 2 then
      (s.copyRead r (x.b + BitVec.ofNat 64 (96 * d.c1 * d.c2 + 12 * j)) (d.c0 / 16) .wt).map fun es => pick (convRow 2 [] es)
    else (s.copyRead r (x.srcRow d j) d.c0 .wt).map fun bs => pick (convRow x.conv bs [])
  | .kv _ value exps row =>
    let head (i n : Nat) : Nat := r.top / 2 ^ (8 * i) % 2 ^ (8 * n)
    let widen := (x.ext.extractLsb' 32 2).toNat
    let pick (bs es : List Byte) : List Byte × BitVec 5 :=
      let w := kvRow widen (head 6 1) (head 7 1) bs es
      (if exps then w.2.1 else w.1, w.2.2)
    if r.blk = 0 || row ≥ min 16 (head 4 2) then .ok (List.replicate sp.len 0, 0) s
    else
      let plane := exps && widen ≠ 2
      let a : Word := BitVec.ofNat 64 (r.blk - 1 + planeOff value plane row)
      (s.copyRead r a (if plane then 12 else 96) .wt).map fun bs => if plane then pick [] bs else pick bs []

/-! ## The end of a command (R213 to R217, R234, R243) -/

/-- The command ends in a fault once its beats in flight are complete. -/
def State.failCopy (s : State) (x : CopyCmd) (kind : Nat) (a : Word) : State :=
  (s.modRun x fun r => { r with fault := some (kind, a) }).nextBeat x 0

/-- The channel is free for its next command. -/
def State.endRun (s : State) (x : CopyCmd) : State :=
  let s := s.modChannel (clusterOf x.core) x.channel fun n => { n with run := none }
  ((s.nextBeat x 1).pointerMoved (clusterOf x.core)).askMatrix (clusterOf x.core) 1

/-- Every step of the command has been taken. -/
def CopyRun.isOver (r : CopyRun) : Bool :=
  r.fault.isNone && !r.stop && (if r.cmd.kind = 3 then decide (r.pos ≥ 5) else r.cmd.spans[r.pos]?.isNone)

/-- The bytes that a command delivers into local stores of its own cluster. -/
def CopyCmd.delivers (x : CopyCmd) : Nat :=
  x.spans.foldl (fun n sp => match targetOf x.core sp.dst with
    | .ls k _ => if clusterOf k = clusterOf x.core then n + sp.len else n
    | _ => n) 0
/-- The pointer moves at the end of an overlapping copy, by its whole count; a `btapp`'s by the bytes that it has delivered
(R217). -/
def State.endOverlap (s : State) (r : CopyRun) : State :=
  if r.snap.isNone then s
  else
    let n := if r.cmd.kind = 3 then r.owed else r.cmd.delivers
    s.modChannel (clusterOf r.cmd.core) r.cmd.channel fun k => { k with chwp := k.chwp + BitVec.ofNat 64 n }

/-- The copy unit of a halted cluster issues no beat from 6 cycles after the halt, or from a cross-trigger's or a step's end
(R252, R253). -/
def Debug.copyHalted (d : Debug) (cycle : Nat) : Bool :=
  d.halted && (d.cause = 5 || d.cause = 6 || decide (d.haltAt + 6 ≤ cycle))

/-- COPY_COMMAND_DONE: every byte has performed: the status is done, and the pointer of an overlapping copy moves
(R217). In a halted cluster the command ends at the resume (R252). -/
def execCopyCommandDone (c ch : Nat) (s : State) : Res :=
  match (s.channel c ch).run with
  | none => .next s
  | some r =>
    if r.unacked ≠ 0 || !r.isOver || r.cmd.remote || Debug.copyHalted (s.cluster c).dbg s.cycle then .next s
    else .next (((s.endOverlap r).endRun r.cmd).endJob c r.cmd.jid 2)

/-- A `btapp` has the transaction on the head of its free stack open, or has asked for it (R221). -/
def CopyRun.headOpen (r : CopyRun) : Bool :=
  r.cmd.kind = 3 && match r.pos, r.off with
    | 1, 10 | 1, 20 | 4, 1 => !r.pend.isEmpty || !r.got.isEmpty
    | 1, 11 | 1, 21 | 4, 2 | 4, 3 => true
    | _, _ => false

/-- The run back at the first write that failed in walk order (R234): the span, and of a raw copy the byte; a `btapp` does
an operation on a free stack again from its start. -/
def CopyRun.backToLost (r : CopyRun) : CopyRun :=
  let sp := r.cmd.spans
  let hit (line : Nat) : Option (Nat × Nat) :=
    if r.cmd.kind = 3 then
      some (r.pos, if r.pos = 1 && (r.off = 12 || r.off = 22) then r.off - 2 else if r.pos = 4 && 0 < r.off then 1 else r.off)
    else ((List.range (r.pos + 1)).find? fun i => match sp[i]? with
      | some p => decide (p.dst.toNat / 64 ≤ line) && decide (line ≤ (p.dst.toNat + p.len - 1) / 64)
      | none => false).map fun i => (i, match sp[i]? with
        | some p => if r.cmd.isRaw then line * 64 - p.dst.toNat else 0
        | none => 0)
  r.lost.foldl (fun x (line, kind, a) => match hit line with
    | some (i, o) =>
      if x.fault.isNone || i < x.pos || (i = x.pos && o ≤ x.off) then { x with pos := i, off := o, fault := some (kind, a), lost := [] }
      else x
    | none => if x.fault.isNone then { x with fault := some (kind, a), lost := [] } else x) { r with lost := [], next := none }

/-- The bytes that the steps of a `btapp` before step n write (R237, R243): step 1 the header, and in a clone the rows before
row r; step 2 the six pieces of row r; step 3 the table entry. -/
def CopyCmd.appBefore (x : CopyCmd) (e : JobEntry) (n : Nat) : Nat :=
  let first := if e.fresh then 64 else if e.clone then 64 + 216 * (x.ext.extractLsb' 0 4).toNat else 0
  if n ≤ 1 then 0 else if n = 2 then first else if n = 3 then first + 216
  else first + 216 + (if e.fresh || e.clone then 8 else 0)

/-- The place where a command resumes, and the bytes before it (R243, R403). -/
def CopyRun.resumeAt (r : CopyRun) (e : JobEntry) : Nat × Nat :=
  if r.cmd.kind = 3 then (r.pos, r.cmd.appBefore e r.pos)
  else match r.cmd.spans[r.pos]? with
    | some sp => if r.cmd.isRaw then (sp.res + r.off, sp.before + r.off) else (sp.res, sp.before)
    | none => (r.cmd.resume, 0)

/-- The fault record (R243). -/
def faultRecord (r : CopyRun) (e : JobEntry) (kind : Nat) (a : Word) : List Byte :=
  let x := r.cmd
  let (resume, before) := r.resumeAt e
  bytesOfNat 8 a.toNat ++ bytesOfNat 8 before ++ bytesOfNat 1 kind ++ bytesOfNat 1 x.kind ++
    bytesOfNat 2 x.jid ++ bytesOfNat 4 0 ++ bytesOfNat 8 x.ext.toNat ++ bytesOfNat 8 x.a.toNat ++ bytesOfNat 8 x.b.toNat ++
    bytesOfNat 8 x.c.toNat ++ bytesOfNat 8 resume

/-- A beat of a remote copy fails: the command issues no more, and resumes at the beat (R234, R395). -/
def State.beatFails (s : State) (c ch : Nat) (b : RemoteBeat) (kind : Nat) : State :=
  let fail (r : CopyRun) : CopyRun := { r with
    fault := some (kind, b.dst), pos := b.pos, off := b.off, got := [], pend := []
    beats := r.beats.filter fun d => d.link ≠ b.link || kind ≠ 4 }
  (s.modChannel c ch fun n => { n with run := n.run.map fail }).schedule 0 (.copyBeat c ch)

/-- The target device has refused a beat, for its job's rights: what it answers is an outside input, of a beat that is on its way
(R395, log 121). -/
def State.refused (s : State) (c ch : Nat) (r : CopyRun) (a : Word) : State :=
  match r.beats.find? fun b => decide (s.cycle ≤ b.ack) && decide ((a - b.dst).toNat < 64) with
  | some b => s.beatFails c ch { b with dst := a } 3
  | none => s

/-- COPY_COMMAND_FAULT: the record is written, the status is fault, and the submitter gets its signal, before a `jwait` that
the end completes (R234, R241). -/
def execCopyCommandFault (c ch kind addr : Nat) (s : State) : Res :=
  match (s.channel c ch).run with
  | none => .next s
  | some r =>
    let x := r.cmd
    if x.remote && kind = 3 && r.fault.isNone then .next (s.refused c ch r (BitVec.ofNat 64 addr))
    else if r.fault ≠ some (kind, BitVec.ofNat 64 addr) || (r.snap.isSome && Debug.copyHalted (s.cluster c).dbg s.cycle) then .next s
    else
      let s := s.writeLocal (cellsFrom (lsAddr x.core (s.lsSize x.core - 4096 + 64 * (x.jid % 64)))
        (faultRecord r ((s.jobOf c x.jid).getD JobEntry.reset) kind (BitVec.ofNat 64 addr)))
      let s := (s.endOverlap r).modJobEntry c x.jid fun e =>
        { e with cmd := some { x with resume := (r.resumeAt e).1, sub := if r.pos = 2 then 0 else r.off, blk := r.blk, old := r.old,
                                      top := r.top } }
      let s := (s.endRun x).endJob c x.jid 3
      .next (if x.thread = noThread then s else s.schedule 0 (.engineFaultSignal x.thread x.jid))

/-- ENGINE_FAULT_SIGNAL: the thread keeps the signal, which sets TSTAT.EFP and the wake-pending bit (R89, R111). -/
def execEngineFaultSignal (t jid : Nat) (s : State) : Res :=
  if (s.ctxAt t).inst then
    .next (((s.modCtxAt t fun c => { c with efaults := c.efaults ++ [jid] }).setWakeOf t).kickWaiting .drain [t])
  else .next s

/-! ## Free stacks (R221) -/

/-- The line of a free stack's head in global memory, and the head's offset; none where the head is not one line's. -/
def headLine (core : Nat) (a : Word) : Option (Nat × Nat) :=
  match targetOf core a with
  | .global va => if va % 64 ≤ 48 then some (va / 64, va % 64) else none
  | _ => none

/-- The head of the stack at home, its transaction left open. -/
def State.holdHead (s : State) (r : CopyRun) (line off : Nat) : Eng (Nat × Nat) :=
  match r.got.find? fun g => g.line = line with
  | some g =>
    if g.st ≠ .ok then .fault (lostKind g.st) (BitVec.ofNat 64 (line * 64 + off))
    else .ok (lineNat g.data off 8, lineNat g.data (off + 8) 8) s
  | none =>
    if r.pend.contains line then .wait s
    else .wait (((s.modRun r.cmd fun r => { r with pend := r.pend ++ [line] }).beatIssued r.cmd).sendReq
      (r.cmd.req .hold .unc line (byteMask off 16) 0))

/-- The transaction closes: the head's new top and count, or the old ones with none given. -/
def State.freeHead (s : State) (r : CopyRun) (line off : Nat) (new : Option (Nat × Nat)) : State :=
  let q := match new with
    | some (top, n) => r.cmd.req .free .unc line (byteMask off 16) (lineAt off top ||| lineAt (off + 8) (n % 2 ^ 64))
    | none => r.cmd.req .free .unc line 0 0
  (s.modRun r.cmd fun r => { r with unacked := r.unacked + 1 }).sendReq q

/-! ## btapp (R236 to R238) -/

/-- The next place of a `btapp`, `d` cycles from now, with what it has read forgotten. -/
def State.appAt (s : State) (x : CopyCmd) (pos off : Nat) (d : Nat := 1) : State :=
  (s.modRun x fun r => { r with pos := pos, off := off, got := [], pend := [] }).nextBeat x d

/-- The row source of a `btapp` overlaps, within one local store, what the command writes: in block b the six pieces of row r,
and where the block is new its header, the rows before row r and the table entry (R217, R236, R237). -/
def State.appOverlaps (s : State) (r : CopyRun) : Bool :=
  let x := r.cmd
  let row := (x.ext.extractLsb' 0 4).toNat
  let block : Option (Nat × Bool) :=
    if r.pos = 1 then (if r.off = 13 || r.off = 14 || 23 ≤ r.off then some (r.top, true) else none)
    else some (r.blk, (((s.jobOf (clusterOf x.core) x.jid).map fun e => e.fresh || e.clone).getD false))
  match block with
  | none => false
  | some (b, new) =>
    let planes := [(false, false, 96), (false, true, 12), (true, false, 96), (true, true, 12)]
    let rows := planes.map fun (v, e, n) => (BitVec.ofNat 64 (b + planeOff v e row), n)
    let more := (BitVec.ofNat 64 b, 64) :: (x.a + BitVec.ofNat 64 (8 * (x.ext.extractLsb' 4 28).toNat), 8) ::
      planes.map fun (v, e, n) => (BitVec.ofNat 64 (b + planeOff v e 0), n * row)
    match targetOf x.core x.b with
    | .ls k o => (if new then rows ++ more else rows).any fun (a, n) => match targetOf x.core a with
      | .ls l u => k = l && decide (o < u + n) && decide (u < o + 224)
      | _ => false
    | _ => false

/-- A fault while the head's transaction is open closes it first. -/
def State.failOpen (s : State) (r : CopyRun) (back : Nat) (kind : Nat) (a : Word) : State :=
  let s := match headLine r.cmd.core r.cmd.c with
    | some (line, off) => s.freeHead r line off none
    | none => s
  (s.modRun r.cmd fun r => { r with off := back }).failCopy r.cmd kind a

/-- A read's value, or the command waits or fails. -/
def engThen {α : Type} (x : CopyCmd) (s : State) (g : Eng α) (k : α → State → State) : State :=
  match g with
  | .ok v s => k v s
  | .wait s => s
  | .fault kind a => s.failCopy x kind a

/-- The pop of R221, from sub-step `b`: the head is held, the link of its top is read, the head moves. `k` goes on
with the popped block once the head is free. -/
def State.popBlock (s : State) (r : CopyRun) (b : Nat) (k : State → State) : State :=
  let x := r.cmd
  match s.copyCheck x true x.c 16 with
  | some (kind, a) => s.failCopy x kind a
  | none =>
    match headLine x.core x.c with
    | none =>
      -- a head in a local store: its bank serves the whole operation at once
      (match targetOf x.core x.c with
       | .ls core off =>
         let top := s.mem.readNat (lsAddr core off) 8
         if top = 0 then s.failCopy x 6 x.c
         else engThen x s (s.copyRead r (BitVec.ofNat 64 (top + 8)) 8 .unc) fun link s =>
           let n := s.mem.readNat (lsAddr core off + 8) 8
           let s := s.writeLocal (cellsFrom (lsAddr core off) (bytesOfNat 8 (natOfBytes link) ++ bytesOfNat 8 ((n + 2 ^ 64 - 1) % 2 ^ 64)))
           k (s.modRun x fun r => { r with top := top })
       | _ => s.failCopy x 5 x.c)
    | some (line, off) =>
      if r.off = b then
        engThen x s (s.holdHead r line off) fun (top, _) s =>
          if top = 0 then s.failOpen r b 6 x.c
          else s.modRun x (fun r => { r with top := top }) |>.modRun x (fun r => { r with off := b + 1 }) |>.nextBeat x 1
      else if r.off = b + 1 then
        match s.copyRead r (BitVec.ofNat 64 (r.top + 8)) 8 .unc with
        | .wait s => s
        | .fault kind a => s.failOpen r b kind a
        | .ok link s =>
          let n := ((r.got.find? fun g => g.line = line).map fun g => lineNat g.data (off + 8) 8).getD 0
          (s.freeHead r line off (some (natOfBytes link, n + 2 ^ 64 - 1))).appAt x 1 (b + 2)
      else if r.unacked ≠ 0 then s else k s

/-- Writes a beat and goes on to a place once it has performed, or the command waits or fails. -/
def State.writeThen (s : State) (r : CopyRun) (a : Word) (bs : List Byte) (pos off : Nat) : State :=
  engThen r.cmd s (s.copyWrite r a bs) fun _ s =>
    (s.modRun r.cmd fun r => { r with next := some (pos, off) }).nextBeat r.cmd 1

/-- An atomic on a small word of a block: at home, or at the bank of a local store; `k` gets the old value. -/
def State.copyAtomic (s : State) (r : CopyRun) (op : BitVec 4) (a : Word) (w v : Nat) (k : Nat → State → State) : State :=
  let x := r.cmd
  match s.copyCheck x true a w with
  | some (kind, b) => s.failCopy x kind b
  | none => match targetOf x.core a with
    | .ls core off =>
      let old := s.mem.readNat (lsAddr core off) w
      match s.beatPorts (s.cellRows x.job [lsAddr core off]) with
      | none => s.nextBeat x 1
      | some s => k old ((s.writeLocal (cellsFrom (lsAddr core off) (bytesOfNat w (amoNew op w old v)))).beatIssued x)
    | .global va =>
      let line := va / 64
      match r.got.find? fun g => g.line = line with
      | some g =>
        if g.st ≠ .ok then s.failCopy x (lostKind g.st) a else k (lineNat g.data (va % 64) w) s
      | none =>
        if r.pend.contains line then s
        else ((s.modRun x fun r => { r with pend := r.pend ++ [line] }).beatIssued x).ask
          (x.req (.amo op) (storePol .wt (s.walk va).attr) line (byteMask (va % 64) w) (BitVec.ofNat 512 v))
    | _ => s.failCopy x 2 a

/-- The place after a write that has performed; within the push the open head of a free stack is kept. -/
def State.appOn (s : State) (x : CopyCmd) (pos off : Nat) : State :=
  let s := s.modRun x fun r => { r with next := none }
  if pos = 4 && off ≠ 0 then (s.modRun x fun r => { r with off := off }).nextBeat x 0 else s.appAt x pos off 0

/-- Steps 1 to 4 of R237 at the place where the command is, after the row source, which is read once. DESIGN CHOICE (log 115): a
row source outside the cluster, misaligned or with reserved bytes that are not zero ends the command with kind 5 at gB. Places 64 on of step 1
copy the rows of the planes, 2,048 places for a plane. -/
def State.appStep (s : State) (r : CopyRun) : State :=
  let x := r.cmd
  let src := r.row
  let t := (x.ext.extractLsb' 0 32).toNat
  let row := t % 16
  let ea := x.a + BitVec.ofNat 64 (8 * (t / 16))
  let c := clusterOf x.core
  let inCluster : Bool := match targetOf x.core x.b with | .ls k off => decide (clusterOf k = c) && off % 32 = 0 | _ => false
  let blk : Word := BitVec.ofNat 64 r.blk
  let entry (s : State) (k : JobEntry → JobEntry) : State := s.modJobEntry c x.jid k
  let flag (f : JobEntry → Bool) : Bool := ((s.jobOf c x.jid).map f).getD false
  let piece (o n : Nat) : List Byte := (src.drop o).take n
  let held := r.snap.isNone && s.appOverlaps r
  let s := if held then s.modRun x fun r => { r with snap := some s.mem } else s
  let r := if held then { r with snap := some s.mem } else r
  if r.unacked ≠ 0 then s
  else if !inCluster then s.failCopy x 5 x.b
  else if src.isEmpty then
    engThen x s (s.copyRead r x.b 224 .wt) fun bs s =>
      if natOfBytes ((bs.drop 2).take 6) ≠ 0 then s.failCopy x 5 x.b
      else (s.modRun x fun r => { r with row := bs, got := [], pend := [] }).nextBeat x 1
  else match r.next with
    | some (pos, off) => s.appOn x pos off
    | none => match r.pos, r.off with
      | 1, 0 => engThen x s (s.copyRead r ea 8 .wt) fun e s =>
        let e := natOfBytes e
        if e % 2 = 0 then (if row ≠ 0 then s.failCopy x 5 ea else s.appAt x 1 10)
        else
          let b := e / 64 * 64
          engThen x s (s.copyRead r (BitVec.ofNat 64 b) 8 .wt) fun h s =>
            if (h.drop 6).take 2 ≠ piece 0 2 then s.failCopy x 5 (BitVec.ofNat 64 b)
            else (s.modRun x fun r => { r with blk := b }).appAt x (if e / 2 % 2 = 1 then 1 else 2) (if e / 2 % 2 = 1 then 1 else 0)
      | 1, 1 => engThen x s (s.copyRead r blk 4 .unc) fun n s =>
        if natOfBytes n > 1 then (s.modRun x fun r => { r with old := r.blk }).appAt x 1 20 else s.appAt x 2 0
      | 1, 13 => s.writeThen r (BitVec.ofNat 64 r.top) (bytesOfNat 4 1 ++ bytesOfNat 2 0 ++ piece 0 2 ++ bytesOfNat 56 0) 1 14
      | 1, 14 => ((entry s fun e => { e with fresh := true }).modRun x fun r => { r with blk := r.top }).appAt x 2 0
      | 1, 23 => engThen x s (s.copyRead r (BitVec.ofNat 64 r.old) 64 .wt) fun h s =>
        s.writeThen r (BitVec.ofNat 64 r.top) (bytesOfNat 4 1 ++ h.drop 4) 1 64
      | 1, off =>
        if off < 13 then s.popBlock r 10 fun s => s.appAt x 1 13
        else if off < 23 then s.popBlock r 20 fun s => s.appAt x 1 23
        else
          let plane := (off - 64) / 2048
          let done := (off - 64) % 2048
          let len := (if plane % 2 = 1 then 12 else 96) * row
          let m := min 64 (len - done)
          let o := BitVec.ofNat 64 (planeOff (decide (plane ≥ 2)) (decide (plane % 2 = 1)) 0 + done)
          if plane < 4 && row ≠ 0 then
            engThen x s (s.copyRead r (BitVec.ofNat 64 r.old + o) m .wt) fun bs s =>
              s.writeThen r (BitVec.ofNat 64 r.top + o) bs 1 (if done + m < len then off + m else 64 + 2048 * (plane + 1))
          else ((entry s fun e => { e with clone := true }).modRun x fun r => { r with blk := r.top }).appAt x 2 0
      | 2, 0 => s.writeThen r (blk + BitVec.ofNat 64 (planeOff false false row)) (piece 8 64) 2 1
      | 2, 1 => s.writeThen r (blk + BitVec.ofNat 64 (planeOff false false row + 64)) (piece 72 32) 2 2
      | 2, 2 => s.writeThen r (blk + BitVec.ofNat 64 (planeOff false true row)) (piece 104 12) 2 3
      | 2, 3 => s.writeThen r (blk + BitVec.ofNat 64 (planeOff true false row)) (piece 116 64) 2 4
      | 2, 4 => s.writeThen r (blk + BitVec.ofNat 64 (planeOff true false row + 64)) (piece 180 32) 2 5
      | 2, 5 => s.writeThen r (blk + BitVec.ofNat 64 (planeOff true true row)) (piece 212 12) 2 6
      | 2, _ => s.copyAtomic r 7 (blk + 4) 2 (row + 1) fun _ s => s.appAt x 3 0
      | 3, _ =>
        if flag (·.fresh) || flag (·.clone) then s.writeThen r ea (bytesOfNat 8 (r.blk / 64 * 64 + 1)) 4 0 else s.appAt x 5 0
      | 4, 0 =>
        if flag (·.clone) then
          s.copyAtomic r 0 (BitVec.ofNat 64 r.old) 4 (2 ^ 32 - 1) fun n s => if n = 1 then s.appAt x 4 1 else s.appAt x 5 0
        else s.appAt x 5 0
      | 4, 1 =>
        (match headLine x.core x.c, s.copyCheck x true x.c 16 with
         | _, some (kind, a) => s.failCopy x kind a
         | some (line, off), none => engThen x s (s.holdHead r line off) fun (top, _) s =>
             (s.modRun x fun r => { r with top := top, off := 2 }).nextBeat x 1
         | none, none => match targetOf x.core x.c with
           | .ls core off =>
             let top := s.mem.readNat (lsAddr core off) 8
             (s.modRun x fun r => { r with top := top }).writeThen r (BitVec.ofNat 64 (r.old + 8)) (bytesOfNat 8 top) 4 5
           | _ => s.failCopy x 5 x.c)
      | 4, 2 =>
        (match s.copyWrite r (BitVec.ofNat 64 (r.old + 8)) (bytesOfNat 8 r.top) with
         | .wait s => s
         | .fault kind a => s.failOpen r 1 kind a
         | .ok _ s => (s.modRun x fun r => { r with next := some (4, 3) }).nextBeat x 1)
      | 4, 3 =>
        (match headLine x.core x.c with
         | some (line, off) =>
           let n := ((r.got.find? fun g => g.line = line).map fun g => lineNat g.data (off + 8) 8).getD 0
           (s.freeHead r line off (some (r.old, n + 1))).appAt x 4 4
         | none => s.appAt x 5 0)
      | 4, 5 =>
        -- the link of a local head's stack has performed: the head takes the block, if its top still stands
        (match targetOf x.core x.c with
         | .ls core off =>
           let n := s.mem.readNat (lsAddr core off + 8) 8
           if s.mem.readNat (lsAddr core off) 8 ≠ r.top then s.appAt x 4 1
           else (s.writeLocal (cellsFrom (lsAddr core off) (bytesOfNat 8 r.old ++ bytesOfNat 8 ((n + 1) % 2 ^ 64)))).appAt x 5 0
         | _ => s.appAt x 5 0)
      | 4, _ => s.appAt x 5 0
      | _, _ => s.schedule 1 (.copyCommandDone c x.channel)

/-! ## Beats of cpy and btwalk (R212, R231 to R235) -/

/-- The layout faults of a command before its first beat: kind 5 and the address (R231 to R233, R235). DESIGN CHOICE (log 115):
the address is gA for a count or a stride of `cpy`, gC for its destination, and gB or gC of a `btwalk` that starts no segment. -/
def CopyCmd.layoutFault (x : CopyCmd) : Option Word :=
  let d := descOf x.desc
  let global : Bool := match targetOf x.core x.c with | .global _ => true | _ => false
  let rowStart (a : Word) : Bool := match weightOff x.core a with | some off => off < weightExps && off % 96 = 0 | none => true
  if x.kind = 1 then
    if d.reserved ≠ 0 then some x.a
    else if x.remote then (if x.conv ≠ 0 then some x.c else none)
    else if x.shadow && !global then some x.c
    else if x.conv = 0 || d.c0 * d.c1 * d.c2 = 0 then none
    else if global then some x.c
    else if x.conv = 5 then
      (if (d.ds1 = 96 || d.ds1 = 12) && decide ((d.c0 : Int) ≤ d.ds1) then none else some x.a)
    else if !(convRowOk x.conv d.c0) || (x.conv = 2 && (d.ss1 ≠ 96 || d.ss2 ≠ 96 * (d.c1 : Int))) then some x.a
    else if rowStart x.c then none else some x.c
  else if x.kind = 2 then
    if !(rowStart x.b) then some x.b
    else match weightOff x.core x.c with
      | some off => if weightExps ≤ off && off < weightEnd && (off - weightExps) % 12 = 0 then none else some x.c
      | none => none
  else none

/-- A block-table entry as it stands when its command starts. -/
def State.tableWord (s : State) (x : CopyCmd) (a : Word) : Nat :=
  match targetOf x.core a with
  | .ls k off => s.mem.readNat (lsAddr k off) 8
  | .global va => ((s.place x.job (va / 64)).map fun p => lineNat (s.keyedLine p.data p.key) (va % 64) 8).getD 0
  | _ => 0

/-- What a command reads: the first byte and the number of bytes of each piece. -/
def State.sources (s : State) (x : CopyCmd) : List (Word × Nat) :=
  let d := descOf x.desc
  if x.kind = 2 then
    let first := (x.ext.extractLsb' 0 16).toNat
    let entries := (List.range (x.ext.extractLsb' 16 16).toNat).map fun k => x.a + BitVec.ofNat 64 (8 * (first + k))
    (entries.map fun a => (a, 8)) ++ (entries.filterMap fun a =>
      let e := s.tableWord x a
      if e % 2 = 1 then some (BitVec.ofNat 64 (e / 64 * 64), 3520) else none)
  else x.spans.flatMap fun sp => match sp.src with
    | .bytes a n => [(a, n)]
    | .conv j false => [(x.srcRow d j, d.c0)] ++
        (if x.conv = 2 then [(x.b + BitVec.ofNat 64 (96 * d.c1 * d.c2 + 12 * j), d.c0 / 16)] else [])
    | _ => []

/-- The bytes of a local store that a command reads and those that it writes overlap (R217). -/
def State.overlaps (s : State) (x : CopyCmd) : Bool :=
  let at_ (a : Word) (n : Nat) : Option (Nat × Nat × Nat) :=
    match targetOf x.core a with | .ls k off => some (k, off, n) | _ => none
  let dsts := x.spans.map fun sp => at_ sp.dst sp.len
  x.kind ≤ 2 && !x.remote && (s.sources x).any fun p => dsts.any fun q => match at_ p.1 p.2, q with
    | some (k, o, n), some (l, u, m) => k = l && decide (o < u + m) && decide (u < o + n)
    | _, _ => false

/-- A block-table entry's block and header, before the entry's first row (R235); what stands in the entry's reserved bits has
no effect (R220, log 90). -/
def State.loadEntry (s : State) (r : CopyRun) (k : Nat) : State :=
  let x := r.cmd
  let first := (x.ext.extractLsb' 0 16).toNat
  let widen := (x.ext.extractLsb' 32 2).toNat
  let set (s : State) (blk top : Nat) : State :=
    (s.modRun x fun r => { r with blk := blk, top := top, old := k + 1, got := [], pend := [] }).nextBeat x 1
  engThen x s (s.copyRead r (x.a + BitVec.ofNat 64 (8 * (first + k))) 8 .wt) fun e s =>
    let e := natOfBytes e
    if e % 2 = 0 then set (s.modJobEntry (clusterOf x.core) x.jid fun j => { j with zrow := true }) 0 0
    else
      let b := e / 64 * 64
      engThen x s (s.copyRead r (BitVec.ofNat 64 b) 8 .wt) fun h s =>
        let tag := natOfBytes ((h.drop 6).take 1)
        let n := natOfBytes ((h.drop 7).take 1)
        if (widen = 1 && (tag ≠ 18 || n > 3)) || (widen = 2 && (tag ≠ 11 || n > 3)) then s.failCopy x 5 (BitVec.ofNat 64 b)
        else set s (b + 1) (natOfBytes h)

/-- The next beat of the span that the command is at. -/
def State.spanStep (s : State) (r : CopyRun) : State :=
  let x := r.cmd
  match x.spans[r.pos]? with
  | none =>
    if r.unacked ≠ 0 then s
    else if x.remote then
      -- the flag is added to once every beat has performed; a copy of no byte looks at its entry too
      if r.next.isSome then s
      else if s.remoteLinks x.dev = 0 then s.failCopy x 2 x.c
      else s.schedule (r.lastAck - s.cycle) (.remoteFlagAdd (clusterOf x.core) x.channel x.dev)
    else s.schedule 1 (.copyCommandDone (clusterOf x.core) x.channel)
  | some sp =>
    let needs : Option Nat := match sp.src with | .kv k _ _ _ => if r.old = k + 1 then none else some k | _ => none
    match needs with
    | some k => s.loadEntry r k
    | none =>
      engThen x s (s.spanBytes r sp) fun (bs, fl) s =>
        let to_ := sp.dst + BitVec.ofNat 64 r.off
        let bs := if x.isRaw then bs else (bs.drop r.off).take 64
        engThen x s (if x.remote then s.remoteWrite r to_ bs else s.copyWrite r to_ bs) fun _ s =>
          let s := s.modJobEntry (clusterOf x.core) x.jid fun j => { j with cflags := j.cflags ||| fl }
          let n := r.off + bs.length
          let within := decide (n < sp.len)
          (s.modRun x fun r => { r with
            pos := if within then r.pos else r.pos + 1, off := if within then n else 0
            got := if within && !x.isRaw then r.got else [], pend := [] }).nextBeat x 1

/-- The next command of a channel starts, if what it waits for has performed. -/
def State.startCopy (s : State) (c ch : Nat) : State :=
  match (s.channel c ch).queue with
  | [] => s
  | x :: rest =>
    if !x.after.isEmpty then s
    else if x.at_ > s.cycle then s.schedule (x.at_ - s.cycle) (.copyBeat c ch)
    else
      let run : CopyRun := { cmd := x, pos := if x.kind = 3 then max x.resume 1 else 0, off := if x.kind = 3 then x.sub else 0,
                             blk := if x.kind = 3 then x.blk else 0, old := if x.kind = 3 then x.old else 0,
                             top := if x.kind = 3 then x.top else 0, snap := if s.overlaps x then some s.mem else none,
                             got := [], pend := [], unacked := 0, stop := false, fault := x.layoutFault.map fun a => (5, a),
                             lost := [], row := [], next := none, owed := 0, beats := [] }
      let s := s.modChannel c ch fun n => { n with queue := rest, run := some run }
      (s.readyWaiting .channelQueue (s.clusterThreads c)).schedule 0 (.copyBeat c ch)

/-- A channel's command goes on: it ends, or its next beat issues. -/
def State.copyOn (s : State) (c ch : Nat) : State :=
  match (s.channel c ch).run with
  | none => s.startCopy c ch
  | some r =>
    let quiet := r.pend.isEmpty && decide (r.unacked = 0) && decide (r.lastAck ≤ s.cycle)
    let later := if s.cycle < r.lastAck then s.schedule (r.lastAck - s.cycle) (.copyBeat c ch) else s
    if !r.lost.isEmpty then
      if !quiet then s
      else
        -- a head that is open closes with its old value first
        let s := (s.modRun r.cmd fun _ => r.backToLost).schedule 0 (.copyBeat c ch)
        match headLine r.cmd.core r.cmd.c with
        | some (line, off) => if r.headOpen then s.freeHead r line off none else s
        | none => s
    else match r.fault with
    | some (kind, a) => if quiet then s.schedule 0 (.copyCommandFault c ch kind a.toNat) else later
    | none =>
      if r.stop && !r.headOpen then
        (if quiet then ((s.endOverlap r).endRun r.cmd).endJob c r.cmd.jid 4 else later)
      else if r.cmd.kind = 3 then s.appStep r else s.spanStep r

/-- The channels whose beat is due in this cycle. -/
def State.dueChannels (s : State) (c ch : Nat) : List Nat :=
  ch :: s.agenda.filterMap fun x => match x.2 with
    | .copyBeat k j => if k = c && x.1 ≤ s.cycle then some j else none
    | _ => none

/-- COPY_BEAT: the unit issues one channel's beats in a cycle, round robin from the one served last (R212). -/
def execCopyBeat (c ch : Nat) (s : State) : Res :=
  let k := s.cluster c
  if Debug.copyHalted k.dbg s.cycle then .next s
  else if k.copyAt = s.cycle then .next (s.schedule 1 (.copyBeat c ch))
  else
    let due := s.dueChannels c ch
    match ((List.range 16).map fun i => (k.lastChannel + 1 + i) % 16).find? fun j => due.contains j with
    | some j =>
      .next (if j ≠ ch then s.schedule 0 (.copyBeat c ch) else s.copyOn c ch)
    | none => .next s

/-! ## Submission (R213, R214, R230) -/

/-- A command enters its channel's queue with the flags of `e`: a full queue or a full table makes the thread wait. The
identifier is tainted if a source is (R82). DESIGN CHOICE (log 114): 8 commands wait beside the one that runs. -/
def submit (x : CopyCmd) (e : JobEntry) (d : GReg) (taint : Bool) (n : Nat) (s : State) (k : State → State) : Res :=
  let c := s.myCluster
  if !s.pushesDone .core then .next (s.park .drain)
  else if (s.channel c x.channel).queue.length ≥ 8 then .next (s.park .channelQueue)
  else match (k s).freeJob c with
    | none => .next (s.park .jobTable)
    | some i =>
      let (s, jid) := (k s).takeJob c i e
      let x := { x with jid := jid, after := s.covered s.cur true, at_ := max s.cycle s.ctx.sent }
      let s := s.modChannel c x.channel fun n => { n with queue := n.queue ++ [x] }
      .next (((s.nextBeat x 1).setG d (BitVec.ofNat 64 jid) taint).finish n)

/-- A command of the current thread. -/
def State.newCmd (s : State) (kind : Nat) (ext : BitVec 64) (a b c : Word) (desc : BitVec 256) : CopyCmd :=
  { kind := kind, ext := ext, a := resolve s.myCore a, b := resolve s.myCore b, c := resolve s.myCore c, desc := desc,
    core := s.myCore, thread := s.cur, job := s.ctx.job, ptime := s.ctx.ctl.ptime.toNat, jid := 0, resume := 0, sub := 0,
    blk := 0, old := 0, top := 0, after := [], at_ := 0 }

/-- EXT64 of the word in the latch. -/
def State.ext64 (s : State) : BitVec 64 := s.word.extractLsb' 64 64

def execCpy (d a b c : GReg) (m : CpyArgs) (s : State) : Res :=
  withG [a, b, c] s
    (match s.clusterSpan (s.g a) 32 8 with
     | .error e => trapTo s e (s.g a)
     | .ok _ =>
       let ext : BitVec 64 := BitVec.ofNat 64 (m.conv.toNat + m.ch.toNat * 2 ^ 3 + (if m.shadow then 2 ^ 7 else 0) +
         (if m.remote then 2 ^ 8 else 0) + m.dev.toNat * 2 ^ 16)
       loadBytes (s.g a) 32 .pd .plain .core false false s fun bs s =>
         submit (s.newCmd 1 ext (s.g a) (s.g b) (s.g c) (BitVec.ofNat 256 (natOfBytes bs))) JobEntry.reset d
           (s.anyTaint [a, b, c]) 16 s id)
def execBtwalk (d a b c : GReg) (m : WalkArgs) (s : State) : Res :=
  withG [a, b, c] s
    (let ext : BitVec 64 := BitVec.ofNat 64 (m.first.toNat + m.count.toNat * 2 ^ 16 + m.widen.toNat * 2 ^ 32 +
       m.ch.toNat * 2 ^ 34 + m.planes.toNat * 2 ^ 38)
     submit (s.newCmd 2 ext (s.g a) (s.g b) (s.g c) 0) JobEntry.reset d (s.anyTaint [a, b, c]) 16 s id)
def execBtapp (d a b c : GReg) (pos : BitVec 32) (ch : BitVec 4) (s : State) : Res :=
  withG [a, b, c] s
    (submit (s.newCmd 3 (BitVec.ofNat 64 (pos.toNat + ch.toNat * 2 ^ 32)) (s.g a) (s.g b) (s.g c) 0) JobEntry.reset d (s.anyTaint [a, b, c]) 16 s id)

/-- `cpyres`: the remainder of a faulted command, from its record (R244). DESIGN CHOICE (log 116): the remainder's submitter, its
core and PTIME with it, is the thread that executes `cpyres`. -/
def execCpyres (d a : GReg) (s : State) : Res :=
  withG [a] s
    (match s.clusterSpan (s.g a) 64 8 with
     | .error e => trapTo s e (s.g a)
     | .ok _ => loadBytes (s.g a) 64 .pd .plain .core false false s fun bs s =>
       let jid := natOfBytes ((bs.drop 18).take 2)
       let none_ : Res := .next ((s.setG d (BitVec.allOnes 64) false).finish 8)
       match s.jobOf s.myCluster jid with
       | some e =>
         match e.cmd with
         | some x =>
           if e.state = 3 then
             submit { x with core := s.myCore, thread := s.cur, ptime := s.ctx.ctl.ptime.toNat } e d false 8 s fun s =>
               s.freeJobEntry s.myCluster jid
           else none_
         | none => none_
       | none => none_)

/-! ## Observing commands (R240 to R242) -/

/-- A register that holds an identifier has bits 63 to 16 zero (R239). -/
def withJid (a : GReg) (s : State) (k : Nat → Res) : Res :=
  withG [a] s (if (s.g a).toNat ≥ 65536 then trapTo s causeAddress (s.g a) else k (s.g a).toNat)

/-- A fault or a cancel that is read frees its entry (R214). -/
def State.observed (s : State) (jid : Nat) : State :=
  match s.jobOf s.myCluster jid with
  | some e => if e.state ≥ 3 then s.freeJobEntry s.myCluster jid else s
  | none => s

def execJpoll (d a : GReg) (s : State) : Res :=
  withJid a s fun jid => .next (((s.setG d (s.jobStatus s.myCluster jid) false).observed jid).finish 8)
def execJwait (a : GReg) (s : State) : Res :=
  withJid a s fun jid =>
    match s.jobOf s.myCluster jid with
    | some e => if e.state ≥ 2 then .next ((s.observed jid).finish 8) else .next (s.park .jobWait)
    | none => .next (s.finish 8)
def execCwait (a : GReg) (ch : BitVec 4) (s : State) : Res :=
  withG [a] s
    (if (s.g a).toNat ≤ (s.channel s.myCluster ch.toNat).chwp.toNat then
       let late : Bool := match s.ctx.wait with | .away .counterWait => true | _ => false
       let s := s.finish 8
       .next (if late then s.rest .counterWait 1 else s)
     else .next (s.park .counterWait))

end Sys2Proof.Machine
end

