-- ==== Sys2Proof/Machine/Barriers.lean ====
section
/-! DEFINITION. The barriers of a cluster (10_cluster_ops R246 to R248). -/
namespace Sys2Proof.Machine

def State.barrier (s : State) (c b : Nat) : Barrier := Table.getD (s.cluster c).barriers b Barrier.reset
def State.setBarrier (s : State) (c b : Nat) (x : Barrier) : State :=
  s.modCluster c fun k => { k with barriers := Table.set k.barriers b x }

/-- With the count reached, the arrivals and flags return to zero and the waiting threads are released in d cycles. -/
def State.releaseIfFull (s : State) (c b d : Nat) : State :=
  let x := s.barrier c b
  if x.count ≠ 0 && x.arrivals ≥ x.count then
    (s.setBarrier c b { x with arrivals := 0, flags := 0, waiters := [] }).schedule d (.barrierRelease c b x.flags x.waiters)
  else s

/-- An arrival with flags, and the thread that waits with its register, if one does (R247). -/
def State.arriveWith (s : State) (c b : Nat) (flags : BitVec 5) (waits : List (Nat × Nat)) : State :=
  let x := s.barrier c b
  (s.setBarrier c b { x with
    arrivals := x.arrivals + 1, flags := x.flags ||| flags, waiters := x.waiters ++ waits }).releaseIfFull c b 4

/-- An arrival releases at cluster scope (R248): it is made when every earlier access has performed there. A `bar` waits
for the release with its arrival made. -/
def execBar (d : GReg) (b : BitVec 4) (s : State) : Res :=
  if s.ctx.asked = [1] then .next (s.park .barrier)
  else if (s.barrier s.myCluster b.toNat).count = 0 then illegal s
  else if !s.performed .clu false then .next (s.awaitPerformed .drain .clu)
  else
    let s := (s.arriveWith s.myCluster b.toNat s.ctx.ctl.fflags [(s.cur, d.val)]).park .barrier
    .next { s with ctx := { s.ctx with asked := [1] } }

/-- The waiter that stands in a release's list for a `barv`'s arrival, which comes once every access before it has
performed. -/
def arrivalMark : List (Nat × Nat) := [(noThread, 0)]

/-- `barv`: the thread goes on at once (R247); its arrival follows where accesses of it have not performed. -/
def execBarv (b : BitVec 4) (s : State) : Res :=
  if (s.barrier s.myCluster b.toNat).count = 0 then illegal s
  else if s.performed .clu false then .next ((s.arriveWith s.myCluster b.toNat s.ctx.ctl.fflags []).finish 8)
  else releaseMsg 0 0 (.barrierRelease s.myCluster b.toNat s.ctx.ctl.fflags arrivalMark) s fun s => .next (s.finish 8)

def execBarcfg (a : GReg) (b : BitVec 4) (s : State) : Res :=
  withG [a] s
    (let n := (s.g a).toNat
     if n = 0 || n > 128 then illegal s
     else
       let c := s.myCluster
       .next (((s.setBarrier c b.toNat { s.barrier c b.toNat with count := n }).releaseIfFull c b.toNat 0).finish 8))

/-- BARRIER_RELEASE: every waiting `bar` gets the merged flags, acquires at cluster scope, and goes on (R247, R248); or a
`barv` arrives. -/
def execBarrierRelease (c b : Nat) (flags : BitVec 5) (waiters : List (Nat × Nat)) (s : State) : Res :=
  if waiters = arrivalMark then .next (s.arriveWith c b flags [])
  else .next (waiters.foldl (fun s (t, d) =>
    let x := s.ctxAt t
    if x.inst && x.asked = [1] && decide (x.wait = .away .barrier) then
      s.withThread t fun s => ((s.acquireNow false).setG (Fin.ofNat 32 d) (flags.zeroExtend 64) false).finish 8
    else s) s)

end Sys2Proof.Machine
end

