-- ==== Sys2Proof/Machine/Device.lean ====
section
/-! DEFINITION. What the parts outside the cores share: coherent accesses to physical lines by command processors and
samplers (11 R259, 23 R389, R391), the completion of a queue's command (23 R388, R389), and the fault log (20 R368,
R369). -/
namespace Sys2Proof.Machine

/-! ## Physical lines -/

/-- The words of a home line that an agent holds registered. -/
def State.agentWords (s : State) (a : BitVec 32) (dir : Nat) : BitVec 16 × Line :=
  if agentIsRoot a then
    (s.vlinesOf (agentJob a) dir).foldl (fun (m, x) l =>
      let (n, y) := s.treeHeld (agentJob a) (agentVc a) l
      (m ||| n, mergeLine (bytesOfWords n) y x)) (0, 0)
  else
    ((s.core (agentCore a)).l1.filter fun x => (s.place x.job x.line).any fun q => q.dir = dir).foldl (fun (m, x) l =>
      (m ||| l.registered, mergeLine (bytesOfWords l.registered) l.data x)) (0, 0)

/-- The line as a load would see it now, unless a transaction is open, words are in flight, or the host may hold it
modified (R287, R392). -/
def State.physLine (s : State) (pline : Nat) : Option Line :=
  let pl := s.physPlace pline
  let h := s.homeLine pl.dir
  if h.txn.isSome || Table.get? s.ms.filter pl.dir = some true then none
  else (s.registrants pl.dir 0xFFFF).foldl (fun o (a, ws) => o.bind fun x =>
    let (m, y) := s.agentWords a pl.dir
    if ws &&& ~~~m = 0 then some (mergeLine (bytesOfWords ws) y x) else none) (some (s.keyedLine pl.data pl.key))

/-- n bytes from a physical address up; an address at or above 2^42 lies in host memory (log 4). -/
def State.physBytes (s : State) (a n : Nat) : Option (List Byte) :=
  (List.range n).foldr (fun i o => o.bind fun bs => (s.physLine ((a + i) / 64)).map fun x => lineByte x ((a + i) % 64) :: bs) (some [])

/-- Bytes written at a physical address, as wt stores at their homes; with the number of stores. -/
def State.physWrite (s : State) (src : Src) (core a : Nat) (bs : List Byte) : State × Nat :=
  let cells := (List.range bs.length).map fun i => (a + i, bs.getD i 0)
  let lines := cellLines cells
  (lines.foldl (fun s l =>
    let (m, x) := lineStore cells l
    s.sendReq { src := src, kind := .store, pol := .wt, acq := false, core := core, job := 0, line := physBase + l, mask := m,
                data := x, data2 := 0, ptime := s.floorOf (sliceOf l), lease := 10, path := [], shadow := false }) s, lines.length)

/-! ## Command queues (R388, R389) -/

def State.queue (s : State) (q : Nat) : HostQueue := Table.getD s.pkg.queues q HostQueue.reset
def State.modQueue (s : State) (q : Nat) (f : HostQueue → HostQueue) : State :=
  s.modPkg fun p => { p with queues := Table.set p.queues q (f (Table.getD p.queues q HostQueue.reset)) }
/-- Field of the entry taken: n bytes at an offset. -/
def HostQueue.field (x : HostQueue) (off n : Nat) : Nat := x.entry.toNat / 2 ^ (8 * off) % 2 ^ (8 * n)
def HostQueue.job (x : HostQueue) : Nat := x.qctl.toNat % 4096
/-- A launch's submitter at or above this number is a queue. -/
def queueThread : Nat := 2 ^ 17
/-- The compute die whose scheduler and messages a queue's command processor uses. -/
def queueDie (q : Nat) : Nat := 2 * (q % 4)

/-- The command has taken effect: its completion value is stored, with a release at system scope. -/
def State.commandDone (s : State) (q : Nat) : State :=
  let x := s.queue q
  if x.field 16 8 = 0 then
    (s.modQueue q fun x => { x with stage := 3 }).schedule 0 (.doorbellWrite q lookAgain)
  else
    let (s, n) := s.physWrite (.device q) (queueDie q * 512) (x.field 16 8) (bytesOfNat 8 (x.field 24 8))
    s.modQueue q fun x => { x with stage := 3, pend := x.pend + n }

/-! ## The fault log (R368, R369) -/

/-- The fault log with one more event: a corrected one merges, takes a free entry or is dropped; an uncorrected one takes a
free entry, or a corrected one's where none is free, or counts in the summary. -/
def Die.log1 (d : Die) (e : LogEntry) : Die :=
  let plain := d.log.filter fun x => x.kind ≠ 7
  if e.kind = 1 then
    if d.log.any fun x => x.kind = 1 && x.loc = e.loc then
      { d with log := d.log.map fun x => if x.kind = 1 && x.loc = e.loc then { x with count := x.count + 1 } else x }
    else if plain.length < 63 then { d with log := d.log ++ [e] }
    else { d with overflow := d.overflow + 1 }
  else if plain.length < 63 then { d with log := d.log ++ [e] }
  else match d.log.find? fun x => x.kind = 1 with
    | some old => { d with log := (d.log.filter fun x => x ≠ old) ++ [e], overflow := d.overflow + 1 }
    | none =>
      if d.log.any fun x => x.kind = 7 then
        { d with log := d.log.map fun x => if x.kind = 7 then { x with count := x.count + 1 } else x }
      else { d with log := d.log ++ [{ e with kind := 7 }] }

/-- A die logs an event, which is delivered from the next cycle on. -/
def State.logEvent (s : State) (die kind loc addr : Nat) : State :=
  (s.modDie die fun d => d.log1 { cycle := BitVec.ofNat 64 s.cycle, kind := BitVec.ofNat 16 kind, loc := BitVec.ofNat 16 loc, count := 1,
                                  addr := BitVec.ofNat 64 addr }).schedule 1
    (.faultLogDelivery die)

/-- An entry in its layout of 32 bytes. -/
def LogEntry.word (e : LogEntry) : BitVec 256 := 0#64 ++ e.addr ++ e.count ++ e.loc ++ e.kind ++ e.cycle

/-- The ring places that trained links join to a place. -/
def reachable (live : BitVec 6) (p : Nat) : Nat → List Nat
  | 0 => [p]
  | n + 1 => (reachable live p n).foldl (fun l q =>
      let l := if live.getLsbD q then NatSet.insert l ((q + 1) % 6) else l
      if live.getLsbD ((q + 5) % 6) then NatSet.insert l ((q + 5) % 6) else l) (reachable live p n)

/-- A die's packets reach an I/O die: always in a whole ring, in a split one where its links still join them. -/
def State.reaches (s : State) (die : Nat) (io : Fin 2) : Bool :=
  s.pkg.fenced.isEmpty || (reachable s.pkg.ringReady (ringPlace (baseOf die)) 5).contains (if io = 0 then 0 else 3)

/-- The host reads the oldest entry of an I/O die's queue, which leaves it; logs that wait for room deliver (R368). DESIGN CHOICE (log
120): when the host reads is an outside input. -/
def State.readEvent (s : State) (io : Fin 2) : State :=
  match s.pkg.events[io] with
  | [] => s
  | e :: rest =>
    let s := s.modPkg fun p => { p with events := p.events.set io rest, eventRead := e.word }
    (List.range 8).foldl (fun s d => if (s.die d).log.isEmpty then s else s.schedule 0 (.faultLogDelivery d)) s

/-- FAULT_LOG_DELIVERY: the die's oldest entry goes to I/O die 0's queue, else to I/O die 1's, and leaves the log; with both
full it waits until the host has read an entry (R368). -/
def execFaultLogDelivery (die : Nat) (s : State) : Res :=
  if die ≥ 8 then .next (s.readEvent (Fin.ofNat 2 die))
  else match (s.die die).log with
  | [] => .next s
  | e :: rest =>
    match ([0, 1] : List (Fin 2)).find? fun i => decide (s.pkg.events[i].length < 256) && s.reaches die i with
    | none => .next s
    | some i =>
      let s := (s.modDie die fun d => { d with log := rest }).modPkg fun p =>
        { p with events := p.events.set i (p.events[i] ++ [e]) }
      .next (if rest.isEmpty then s else s.schedule 1 (.faultLogDelivery die))

end Sys2Proof.Machine
end

