-- ==== Sys2Proof/Machine/Work.lean ====
section
/-! DEFINITION. Work on the dies (14_die_work R296 to R303, R309 to R313, 15_die_ops R326 to R328): levels and their
counters, launch descriptors, the done tree, bind records and the binding of cores (09 R195 to R198), cancels. -/
namespace Sys2Proof.Machine

/-! ## Counters of graphs, phases and jobs (R296, R297) -/

/-- The die whose scheduler keeps a job's graph, phase and job counters. -/
def levelDie (job : Nat) : Nat := job % 8

def findLevel (ls : List Level) (job id : Nat) : Option Level := ls.find? fun x => x.job = job && x.id = id
def setLevel (ls : List Level) (x : Level) : List Level :=
  ls.map fun y => if y.job = x.job && y.id = x.id then x else y

/-- The counters of a graph and its phase are taken when a launch first names them; none where a table is full. -/
def State.nameLevels (s : State) (job graph phase : Nat) (close : Bool) : Option State :=
  let d := s.die (levelDie job)
  let new (id ph : Nat) : Level := { job := job, id := id, counter := 0, phase := ph, closed := false, counted := false, ptime := 0 }
  let gs := if (findLevel d.graphs job graph).isSome then d.graphs else d.graphs ++ [new graph phase]
  let ps := if (findLevel d.phases job phase).isSome then d.phases else d.phases ++ [new phase 0]
  if gs.length > 1024 || ps.length > 256 then none
  else
    let ps := if close then ps.map fun x => if x.job = job && x.id = phase then { x with closed := true } else x else ps
    some (s.modDie (levelDie job) fun d => { d with graphs := gs, phases := ps })

/-- A level's counter with its PTIME, by the level's code: launch, graph, phase, job; none is reached for every target. -/
def State.levelCount (s : State) (job lvl id : Nat) : Option (Nat × Nat) :=
  let d := s.die (levelDie job)
  match lvl with
  | 0 => (s.launch? id).map fun l => (l.counter.toNat, l.ptime)
  | 1 => some (((findLevel d.graphs job id).map fun x => (x.counter.toNat, x.ptime)).getD (0, 0))
  | 2 => some (((findLevel d.phases job id).map fun x => (x.counter.toNat, x.ptime)).getD (0, 0))
  | _ => some ((s.job job).counter.toNat, (s.job job).ptime)

/-- The counter reaches a target (R297). -/
def State.reached (s : State) (job lvl id target : Nat) : Bool :=
  match s.levelCount job lvl id with
  | none => true
  | some (c, _) => decide (target ≤ c)

/-- The mark in `asked` of an `lvwait`, before its level's code. -/
def lvwaitMark : Nat := 2 ^ 61

/-- Threads whose `lvwait` is met go on 16 cycles later on the counter's die, 46 on another (R328). -/
def State.countersMoved (s : State) : State :=
  s.allThreads.foldl (fun s t =>
    let c := s.ctxAt t
    match c.wait, c.asked with
    | .away .counterWait, [m, id, target] =>
      let lvl := m - lvwaitMark
      if s.reached c.job lvl id target then
        let home := if lvl = 0 then lidDie id else levelDie c.job
        s.modCtxAt t fun c => { c with wait := .timed .counterWait (s.cycle + if home = dieOf (coreOf t) then 16 else 46) }
      else s
    | _, _ => s) s

/-- A graph has no launch that is held, queued or running. -/
def State.graphIdle (s : State) (job graph : Nat) : Bool :=
  s.dies.all fun (_, d) => d.launches.all fun (_, l) => !(l.job = job && l.desc.graph = graph && l.st ≠ .done)

/-- The graphs of a phase in the order in which they were named. -/
def State.graphsOf (s : State) (job phase : Nat) : List Level :=
  (s.die (levelDie job)).graphs.filter fun x => x.job = job && x.phase = phase

/-- A phase is complete when its graphs are complete and it is closed; it counts once (R296). -/
def State.phaseCheck (s : State) (job phase ptime : Nat) : State :=
  match findLevel (s.die (levelDie job)).phases job phase with
  | some p =>
    if p.closed && !p.counted && (s.graphsOf job phase).all fun g => g.counted && s.graphIdle job g.id then
      (s.modDie (levelDie job) fun d => { d with phases := setLevel d.phases { p with counted := true } }).modJob job fun j =>
        { j with counter := j.counter + 1, ptime := tsMax j.ptime ptime }
    else s
  | none => s

/-- A graph is complete when it has no launch under way and its phase names no later graph; it counts once (R296). -/
def State.graphCheck (s : State) (job graph ptime : Nat) : State :=
  match findLevel (s.die (levelDie job)).graphs job graph with
  | some g =>
    let last := (s.graphsOf job g.phase).getLast?.map (·.id)
    let s := if !g.counted && s.graphIdle job graph && last = some graph then
        s.modDie (levelDie job) fun d => { d with
          graphs := setLevel d.graphs { g with counted := true }
          phases := d.phases.map fun p => if p.job = job && p.id = g.phase then
            { p with counter := p.counter + 1, ptime := tsMax p.ptime ptime } else p }
      else s
    s.phaseCheck job g.phase ptime
  | none => s

/-- The graph counter counts a completed launch (R296, R311). -/
def State.countLaunch (s : State) (l : Launch) : State :=
  let s := s.modDie (levelDie l.job) fun d => { d with graphs := d.graphs.map fun g =>
    if g.job = l.job && g.id = l.desc.graph then { g with counter := g.counter + 1, ptime := tsMax g.ptime l.ptime } else g }
  (s.graphCheck l.job l.desc.graph l.ptime).countersMoved

/-! ## Descriptors (R298, R299) -/

/-- A descriptor's fields. -/
def launchDesc (x : Line) : LaunchDesc :=
  let num (off n : Nat) : Nat := x.toNat / 2 ^ (8 * off) % 2 ^ (8 * n)
  { pc := BitVec.ofNat 64 (num 0 8), arg := BitVec.ofNat 64 (num 8 8), units := num 16 4, threads := num 20 1,
    ls := num 21 1, weight := num 22 1, close := num 23 1 % 2 = 1, graph := num 24 2, phase := num 26 2,
    mask := BitVec.ofNat 8 (num 28 1), preds := (List.range 4).map fun i => num (32 + 4 * i) 4, report := BitVec.ofNat 64 (num 48 8) }

/-- The report address is 0, or 64-aligned, global and RW to the job. -/
def State.reportOk (s : State) (job : Nat) (a : Word) : Bool :=
  a = 0 || a.toNat % 64 = 0 && decide (a.toNat < 2 ^ 55) &&
    let l := (s.walk a.toNat).attr
    (leafAbsent l.leaf || leafMapped l.leaf && !leafBad l.big l.leaf) &&
      (s.rightsEntry job (leafDomain l.leaf)).rights = 2

/-- Every field lies in its range and every reserved byte is zero. -/
def State.descOk (s : State) (job : Nat) (x : Line) : Bool :=
  let d := launchDesc x
  let l := (s.walk d.pc.toNat).attr
  d.pc.toNat % 4 = 0 && decide (d.pc.toNat < 2 ^ 55) && leafLeaf l.leaf && leafCode l.leaf && d.units ≠ 0 &&
    1 ≤ d.threads && d.threads ≤ 16 && 1 ≤ d.ls && d.ls ≤ 18 && 1 ≤ d.weight && d.weight ≤ 15 &&
    x.extractLsb' 185 7 = 0 && x.extractLsb' 232 24 = 0 && x.extractLsb' 448 64 = 0 && s.reportOk job d.report

/-- The lowest die of a mask. -/
def lowestDie (m : BitVec 8) : Nat := (bitsOf m).headD 0
/-- The die in whose ready queue work is entered (R299, R305): the submitter's, or the lowest in the mask. -/
def readyDie (die : Nat) (m : BitVec 8) : Nat := if m = 0 || m.getLsbD die then die else lowestDie m

def readyRoom (s : State) (die : Nat) : Bool := decide ((s.die die).ready.length < 4096)
def State.readyAdd (s : State) (die : Nat) (x : ReadyItem) : State := s.modDie die fun d => { d with ready := d.ready ++ [x] }

/-- Threads that wait for room in a ready queue look again (R303): the record's bank may be far. -/
def State.roomMoved (s : State) : State :=
  { s with kicks := s.kicks ++ s.allThreads.filter fun t =>
      decide ((s.ctxAt t).wait = .away .counterWait) && decide ((s.ctxAt t).asked.length < 3) && (s.ctxAt t).latch.isSome }

/-- A held launch whose predecessors have completed: into a ready queue, or complete without dispatch where one failed
(R299). -/
def State.startLaunch (s : State) (lid : Nat) : State :=
  match s.launch? lid with
  | some l =>
    if l.st ≠ .held || !l.preds.isEmpty then s
    else if l.doomed then (s.modLaunch lid fun l => { l with st := .running, flags := l.flags ||| stCancel }).launchCheck lid
    else
      let die := readyDie (lidDie lid) l.desc.mask
      if readyRoom s die then
        (s.modLaunch lid fun l => { l with st := .queued }).readyAdd die (.launch lid 0 l.desc.units)
      else s.schedule 1 (.predecessorComplete lid)
  | none => s

/-- PREDECESSOR_COMPLETE: a held launch looks whether it can go. -/
def execPredecessorComplete (lid : Nat) (s : State) : Res := .next (s.startLaunch lid)

/-- The entry that a new launch takes: the lowest that is unused, or whose launch has completed. -/
def Die.freeEntry (d : Die) : Option Nat :=
  (List.range 4096).find? fun i => match Table.get? d.launches i with
    | none => true
    | some l => l.st = .done && l.counted

/-- The mark in `asked` of a `launch` that waits for its identifier, which the second place then holds. -/
def launchMark : Nat := 2 ^ 61 + 8

/-- The submitting thread gets its identifier (R326), or the command of a queue completes (R389). -/
def State.answerLaunch (s : State) (t : Option Nat) (lid : Nat) : State :=
  match t with
  | none => s
  | some t =>
    if t ≥ queueThread then s.commandDone (t - queueThread)
    else if (s.ctxAt t).inst && (s.ctxAt t).asked = [launchMark] then
      (s.modCtxAt t fun c => { c with asked := [launchMark, lid] }).kick t
    else s

/-- A launch as a scheduler takes it (R299). -/
def State.newLaunch (s : State) (l : LaunchSub) (gen : Nat) : Launch :=
  let d := launchDesc l.raw
  let preds := (d.preds.filter fun p => p ≠ 0).filterMap fun p => (s.launch? p).map fun x => (p, x)
  { gen := gen, job := l.job, desc := { d with report := if s.reportOk l.job d.report then d.report else 0 },
    st := .held, counter := 0, flags := 0, trap := none,
    preds := ((preds.filter fun x => x.2.st ≠ .done).map (·.1)).eraseDups,
    doomed := preds.any fun x => x.2.st = .done && x.2.flags &&& (stFault ||| stCancel) ≠ 0,
    cancelled := false, counted := false, kids := [], helpers := 0, tasks := [], flight := 0,
    ptime := (preds.filter fun x => x.2.st = .done).foldl (fun t x => tsMax t x.2.ptime) l.ptime, loaded := [] }

/-- The report of a completed launch (R311). -/
def launchReport (l : Launch) : Line :=
  let n (off : Nat) (v : Nat) : Nat := v * 2 ^ (8 * off)
  let tr : Nat := match l.trap with
    | some e => n 8 e.cause.toNat + n 16 e.tval.toNat + n 24 e.pc.toNat + n 32 e.thread
    | none => 0
  BitVec.ofNat 512 (l.flags.toNat + n 4 l.counter.toNat + tr)

/-- The report's store, a release at package scope by the owning die (R311). -/
def State.sendReport (s : State) (lid : Nat) (l : Launch) : State :=
  s.sendReq { src := .report lid, kind := .store, pol := .wt, acq := false, core := lidDie lid * 512, job := l.job,
              line := l.desc.report.toNat / 64, mask := BitVec.allOnes 64, data := launchReport l, data2 := 0,
              ptime := l.ptime, lease := 10, path := [], shadow := false }

/-- The identifier that stands for a die's launches outside its table: no entry's. -/
def turnedLid (die : Nat) : Nat := 2 ^ 32 + die * 2 ^ 12

/-- A full launch table completes a launch at once, with RES and no units (R299): its report leaves, and then its graph
counts it (R311). -/
def State.turnAway (s : State) (die : Nat) (x : Launch) : State :=
  if x.desc.report = 0 then s.countLaunch x
  else (s.modDie die fun d => { d with turned := d.turned ++ [x] }).sendReport (turnedLid die) x
/-- The report of such a launch has performed. -/
def State.turnedDone (s : State) (die : Nat) : State :=
  match (s.die die).turned with
  | [] => s
  | x :: rest => (s.modDie die fun d => { d with turned := rest }).countLaunch x

/-- LAUNCH_TAKE: the scheduler takes a descriptor (R299, R326): an entry with the next generation, refused, held, or
queued at once; with the ready queue full it waits (R303). -/
def execLaunchTake (l : LaunchSub) (s : State) : Res :=
  let d := launchDesc l.raw
  let named := s.nameLevels l.job d.graph d.phase (s.descOk l.job l.raw && d.close)
  match (s.die l.die).freeEntry with
  | none =>
    .next (((named.getD s).turnAway l.die { s.newLaunch l 0 with st := .done, flags := stRes }).answerLaunch l.thread 0)
  | some i =>
    let gen := ((Table.get? (s.die l.die).launches i).map fun x => x.gen).getD 0 % 65535 + 1
    let lid := i + l.die * 2 ^ 12 + gen * 2 ^ 16
    let base := s.newLaunch l gen
    let put (s : State) (x : Launch) : State := s.modDie l.die fun k => { k with launches := Table.set k.launches i x }
    match (if s.descOk l.job l.raw then named else none) with
    | none =>
      .next ((((put (named.getD s) { base with st := .running, flags := stRes }).countersMoved).launchCheck lid).answerLaunch
        l.thread lid)
    | some s' =>
      if base.preds.isEmpty && !base.doomed && !readyRoom s (readyDie l.die d.mask) then .next (s.schedule 1 (.launchTake l))
      else .next ((((put s' base).countersMoved).startLaunch lid).answerLaunch l.thread lid)

/-! ## The done tree (R309 to R311) -/

/-- DONE_MESSAGE: a node passes a status word on; the root counts it (R309, R311). -/
def execDoneMessage (n : DoneNode) (e : UnitEnd) (s : State) : Res :=
  match n with
  | .cluster c => .next (s.toNode 1 (.group (c / 4)) e)
  | .group g => .next (s.toNode 1 (.super (g / 4)) e)
  | .super k => .next (s.toNode 1 (.die (k / 4)) e)
  | .die d => .next (s.toNode (if d = lidDie e.lid then 0 else 30) .root e)
  | .root =>
    .next (((s.modLaunch e.lid fun l => { l with
      counter := l.counter + (e.status &&& 0xFFFF)
      flags := l.flags ||| (e.status &&& 0xFFFF_0000)
      trap := if l.trap.isNone && e.cause ≠ 0 then some e else l.trap
      flight := l.flight - 1
      ptime := tsMax l.ptime e.ptime }).countersMoved).launchCheck e.lid)

/-- A launch that has completed is no predecessor to wait for any more (R299, R313). -/
def State.releaseHeldLaunches (s : State) (lid : Nat) (done : Launch) : State :=
  let bad := done.flags &&& (stFault ||| stCancel) ≠ 0
  s.dies.foldl (fun s (d, x) => x.launches.foldl (fun s (i, l) =>
    if l.st = .held && l.preds.contains lid then
      let id := i + d * 2 ^ 12 + l.gen * 2 ^ 16
      (s.modLaunch id fun l => { l with preds := l.preds.filter (· ≠ lid), doomed := l.doomed || bad,
                                        ptime := tsMax l.ptime done.ptime }).schedule
        (if d = lidDie lid then 1 else 30) (.predecessorComplete id)
    else s) s) s

/-- LAUNCH_COMPLETE: the launch is complete and its report leaves; once that has performed, the graph counts it. -/
def execLaunchComplete (lid : Nat) (s : State) : Res :=
  match s.launch? lid with
  | none => .next (if lid ≥ 2 ^ 32 then s.turnedDone (lidDie lid) else s)
  | some l =>
    if s.launchOver lid l then
      let s := (s.modLaunch lid fun l => { l with st := .done, counted := l.desc.report = 0 }).releaseHeldLaunches lid l
      .next (if l.desc.report = 0 then s.countLaunch l else s.sendReport lid l)
    else if l.st = .done && !l.counted then
      .next ((s.modLaunch lid fun l => { l with counted := true }).countLaunch l)
    else .next s

/-! ## Binding a core (R195 to R198) -/

/-- No slot of the core holds a context or is reserved. -/
def State.coreEmpty (s : State) (core : Nat) : Bool :=
  (s.core core).reserved.isEmpty && (List.range 16).all fun i => !(s.ctxAt (core * 16 + i)).inst

/-- Bits of the readiness map allow work on the core (R303, R361), and its half is not fenced (R372). -/
def State.coreWorks (s : State) (core : Nat) : Bool :=
  s.pkg.coreReady.contains core && s.pkg.clusterReady.contains (clusterOf core) &&
    !s.pkg.fenced.contains (ringPlace (baseOf (dieOf core)))

/-- R195 and R196 allow the core to take the job with the partition. -/
def State.mayBind (s : State) (core job ls : Nat) : Bool :=
  let c := s.core core
  let k := s.cluster (clusterOf core)
  s.coreWorks core && !k.clearing && (k.job.isNone || k.job = some job) && (c.job.isNone || c.job = some job) &&
    ((c.job = some job && c.slices = ls) || s.coreEmpty core)

/-- Bytes of a range of unified addresses are zero, full, and not poisoned. -/
def State.clearRange (s : State) (lo hi : Nat) : State :=
  let out (a : Nat) : Bool := a < lo || hi ≤ a
  { s with mem := s.mem.filter fun c => out c.1,
           ms := { s.ms with empties := s.ms.empties.filter fun w => out (4 * w), poison := s.ms.poison.filter fun w => out (4 * w) } }

/-- The half of a writeback's time that reaches its parent. -/
def State.wbTime (s : State) (core : Nat) (x : L1Line) : Nat :=
  match (if x.parent < 16 then Table.get? (s.job x.job).vcs x.parent else none) with
  | some v => bankCycles (baseOf (dieOf core)) (v.place x.line).1
  | none => (match s.place x.job x.line with | some p => homeCycles core p.dir | none => 80)

/-- The core takes a partition of `ls` slices (R198). Way w of an L1 lies in slice 19 - w / 4, so the slices that pass to
the local store hold the highest ways (log 11). With the cycles until the last writeback is acknowledged. -/
def State.repartition (s : State) (core ls : Nat) : State × Nat :=
  let old := (s.core core).slices
  let gone := (s.core core).l1.filter fun x => x.way ≥ 4 * (20 - ls)
  let last := ((gone.filter fun x => x.registered ≠ 0).map fun x => s.wbTime core x).foldl max 0
  let s := gone.foldl (fun s x => s.l1Evict core x) s
  let s := s.clearRange (lsAddr core (min old ls * 16384)) (lsAddr core (max old ls * 16384))
  (s.modCore core fun c => { c with slices := ls }, if old < ls then 64 * (ls - old) + last else 0)

/-- The core is bound to the job with a partition and an arbiter weight (R195, R196, R210): the cluster is the job's. A
core new to the job has empty attribute, rights and loop buffers and no distribution table, and every full/empty bit is full
(R131, R161, R191, R346). -/
def State.bindCore (s : State) (core job ls weight : Nat) : State × Nat :=
  let same := (s.core core).job = some job
  let s := s.modCluster (clusterOf core) fun k =>
    { k with job := some job, weight := k.weight.setIfInBounds (core % 8) weight }
  let s := if same then s
    else (s.modCore core fun c =>
      { c with job := some job, loopBuf := [], attrs := [], rights := [], tables := Vector.replicate 16 none }).modMS fun m =>
        { m with empties := m.empties.filter fun w => 4 * w < lsAddr core 0 || lsAddr (core + 1) 0 ≤ 4 * w }
  if same && (s.core core).slices = ls then (s, 0) else s.repartition core ls

/-- The longest image of a weight layer (R24). -/
def weightImage : Nat := 0x3CC000

/-- Bytes are copied from offset 0 of a local store or of a weight layer; the words that they lie in are full. -/
def State.copyImage (s : State) (base : Nat) (bs : List Byte) : State :=
  (s.writeLocal (cellsFrom base bs)).modMS fun m =>
    { m with empties := m.empties.filter fun w => 4 * w + 3 < base || base + bs.length ≤ 4 * w }
/-- The loader's images reach a core that is bound to a launch and has not had them, and its cluster, before the first unit
starts there (R23, R131, log 93). DESIGN CHOICE (log 93): a core or cluster that was released, and is bound to the same launch
again, gets no second copy. -/
def State.loadImages (s : State) (core lid : Nat) : State :=
  match s.launch? lid with
  | none => s
  | some l =>
    if l.loaded.contains core then s
    else
      let s' := s.modLaunch lid fun l => { l with loaded := l.loaded ++ [core] }
      match s.pkg.kernels.find? fun k => k.entry = l.desc.pc with
      | none => s'
      | some k =>
        let c := clusterOf core
        let s' := s'.copyImage (lsAddr core 0) (k.ls.take (s.lsSize core))
        if l.loaded.any fun x => clusterOf x = c then s' else s'.copyImage (weightAddr c 0) (k.weight.take weightImage)

/-- The core is released from its job; the last one of its cluster frees the cluster, which is then cleared (R195). -/
def State.releaseCore (s : State) (core : Nat) : State :=
  let k := clusterOf core
  let s := s.modCore core fun c => { c with job := none }
  if (List.range 8).all fun i => (s.core (k * 8 + i)).job.isNone then
    (s.modCluster k fun c => { c with job := none, clearing := true }).schedule 0 (.clusterClear k)
  else s

/-- CLUSTER_CLEAR: every dirty line is written back to its parent, and the clearing takes 1,024 cycles (R195). -/
def execClusterClear (c : Nat) (s : State) : Res :=
  let s := (List.range 8).foldl (fun s i => (s.core (c * 8 + i)).l1.foldl (fun s x => s.l1Evict (c * 8 + i) x) s) s
  .next ((s.modCluster c fun k => { k with clearing := true }).schedule 1024 (.clusterClearDone c))

/-- CLUSTER_CLEAR_DONE: every part is in its cleared state (R195), and the counters are zero (R255). -/
def execClusterClearDone (c : Nat) (s : State) : Res :=
  let s := s.clearRange (lsAddr (c * 8) 0) (lsAddr (c * 8 + 8) 0) |>.clearRange (weightAddr c 0) (weightAddr (c + 1) 0)
  let s := (List.range 8).foldl (fun s i => s.modCore (c * 8 + i) fun k => { k with l1 := [], counters := [] }) s
  .next (s.modCluster c fun k => { k with
    clearing := false, cleared := true, counters := [], visited := Vector.replicate 8 0, countFrom := s.cycle, accs := [], queues := Vector.replicate 8 [], credit := Vector.replicate 8 1,
    weight := Vector.replicate 8 1, last := 7, running := [], channels := Vector.replicate 16 Channel.reset, jobs := [],
    barriers := [] })

/-! ## Starting a unit (R80, R300) -/

/-- A context starts in a slot: the state of R80, with the registers given (R300, R313). -/
def State.install (s : State) (t job : Nat) (u : UnitInfo) (pc : Word) (gs : List (Nat × Word)) (mode : BitVec 2)
    (ptime : Nat) (cancelled : Bool) : State :=
  let j := s.job job
  let c := Ctx.reset
  let c : Ctx := { c with
    inst := true, job := job, unit := u, pc := pc, wait := .ready s.cycle, cancelled := cancelled
    regs := gs.foldl (fun r x => r.setG (Fin.ofNat 32 x.1) x.2 false) c.regs
    ctl := { c.ctl with mode := mode, tdeleg := j.tdeleg, thandler := j.thandler, ptime := ts24 ptime } }
  (s.setCtxAt t c).modCore (coreOf t) fun k => k.acquire false

/-- A unit's own context. -/
def UnitInfo.plain (lid t : Nat) (d : Duty) : UnitInfo :=
  { lid := lid, duty := d, start := t, holder := t, fork := .none, group := .none, own := true, due := .none }

/-- UNIT_RESTART: the reserved slot starts its record's next unit, once it holds no context (R302). -/
def execUnitRestart (t : Nat) (s : State) : Res :=
  match Table.get? (s.core (coreOf t)).reserved (slotOf t) with
  | some { lid := lid, duty := .record entry arg index last res, due := some c, .. } =>
    if s.cycle < c then .next s
    else if (s.ctxAt t).inst then .next (s.schedule 1 (.unitRestart t))
    else match s.launch? lid with
      | none => .next s
      | some l =>
        let s := s.modCore (coreOf t) fun k => { k with reserved := Table.del k.reserved (slotOf t) }
        .next (s.install t l.job (UnitInfo.plain lid t (.record entry arg index last res)) entry
          [(1, BitVec.ofNat 64 index), (2, arg), (3, BitVec.ofNat 64 lid)] (if res then 2 else 0) l.ptime l.cancelled)
  | _ => .next s

/-! ## Bind records (R301, R302) -/

/-- The slot's record is empty, and an error event goes to the Infuser (R302). -/
def State.recordError (s : State) (t : Nat) : State :=
  (s.clearRecord t).modDie (dieOf (coreOf t)) fun d => { d with errors := d.errors ++ [t % 8192] }

/-- A range of a launch is undispatched in a die's ready queue. -/
def rangeIn (lid lo hi : Nat) (x : ReadyItem) : Bool :=
  match x with
  | .launch l a b => l = lid && a ≤ lo && hi ≤ b
  | .task _ _ _ => false
/-- The range leaves its entry; what is left of the entry stays in its place. -/
def takeRange (lid lo hi : Nat) : List ReadyItem → List ReadyItem
  | [] => []
  | .launch l a b :: m =>
    if l = lid && a ≤ lo && hi ≤ b then
      (if a < lo then [.launch l a lo] else []) ++ (if hi < b then [.launch l hi b] else []) ++ m
    else .launch l a b :: takeRange lid lo hi m
  | x :: m => x :: takeRange lid lo hi m

/-- The fields of a record of a kind lie in their ranges (R301, R302). -/
def recordOk (kind : Nat) (r : BindRec) : Bool :=
  r.kind.toNat = kind && 1 ≤ r.ls.toNat && r.ls.toNat ≤ 18 && 1 ≤ r.weight.toNat && r.weight.toNat ≤ 15 && r.flags.toNat < 2 &&
    r.count ≠ 0 && r.reserved = 0

/-- A kind-1 record has fields in their ranges, the partition of its launch (R196, log 92), and units that are undispatched on
the die: no unit runs twice (R301 to R303). -/
def State.dispatchOk (s : State) (t : Nat) (r : BindRec) : Bool :=
  let lid := r.lid.toNat
  recordOk 1 r && ((s.launch? lid).any fun l => l.job = r.job.toNat && l.desc.ls = r.ls.toNat) &&
    (s.die (dieOf (coreOf t))).ready.any (rangeIn lid r.first.toNat (r.first.toNat + r.count.toNat))

/-- The slot is free for a record: the run list's tasks go first, in the lowest free slots (R305). -/
def State.slotOpen (s : State) (t : Nat) : Bool :=
  let k := s.core (coreOf t)
  let free := (List.range 16).filter fun i => !(s.ctxAt (coreOf t * 16 + i)).inst && (Table.get? k.reserved i).isNone
  (free.drop k.runList.length).contains (slotOf t)

/-- A kind-1 record at its slot: refused, acted on, or waiting. -/
def State.tryRecord (s : State) (t : Nat) (r : BindRec) : State :=
  let core := coreOf t
  let lid := r.lid.toNat
  let first := r.first.toNat
  let n := r.count.toNat
  if !s.dispatchOk t r then s.recordError t
  else if s.slotOpen t && s.mayBind core r.job.toNat r.ls.toNat then
    let (s, wait) := s.bindCore core r.job.toNat r.ls.toNat r.weight.toNat
    let s := s.loadImages core lid
    let arg := ((s.launch? lid).map fun l => l.desc.arg).getD 0
    let s := s.modLaunch lid fun l => { l.addKid core n with st := .running }
    let s := s.modDie (dieOf core) fun d => { d with ready := takeRange lid first (first + n) d.ready }
    let u : UnitInfo := { UnitInfo.plain lid t (.record r.pc arg first (first + n - 1) (r.flags.getLsbD 0)) with
      due := some (s.cycle + wait + 16) }
    ((s.reserve t u).roomMoved).schedule (wait + 16) (.unitRestart t)
  else s.schedule 1 (.bindRecordDispatch t none)

/-- The record that an event is about: the Infuser writes one, or the one that stands at the slot is looked at again. -/
def State.withRecord (s : State) (t : Nat) (r : Option BindRec) (k : State → BindRec → State) : State :=
  match r with
  | some r => k (s.modDie (dieOf (coreOf t)) fun d => { d with records := Table.set d.records (t % 8192) r }) r
  | none => match Table.get? (s.die (dieOf (coreOf t))).records (t % 8192) with
    | some r => k s r
    | none => s

/-- BIND_RECORD_DISPATCH: a kind-1 record (R302). -/
def execBindRecordDispatch (slot : Nat) (r : Option BindRec) (s : State) : Res :=
  .next (s.withRecord (slot % 65536) r fun s r => s.tryRecord (slot % 65536) r)

/-- BIND_RECORD_RELEASE_CORE: a kind-3 record releases the core once its slots are free (R302). -/
def execBindRecordReleaseCore (slot : Nat) (r : Option BindRec) (s : State) : Res :=
  let t := slot % 65536
  .next (s.withRecord t r fun s r =>
    if !recordOk 3 r then s.recordError t
    else if s.coreEmpty (coreOf t) then
      (if (s.core (coreOf t)).job.isSome then s.releaseCore (coreOf t) else s).clearRecord t
    else s.schedule 1 (.bindRecordReleaseCore t none))

/-! ## Migrated and forked units (R159, R325) -/

/-- MIGRATED_UNIT_STATUS: a status has come to the core that holds the unit, or the end of a recruit to the core that it
started on. -/
def execMigratedUnitStatus (holder : Nat) (e : UnitEnd) (s : State) : Res :=
  let s := s.dropForwards 64 holder
  match Table.get? (s.core (coreOf holder)).reserved (slotOf holder) with
  | none => .next s
  | some u =>
    match u.duty with
    | .chunk => .next (((s.unreserve holder).modLaunch e.lid fun l => { l with helpers := l.helpers - 1 }).launchCheck e.lid)
    | .record _ _ _ _ _ | .task _ => .next (s.reportAt holder u e)

/-! ## Cancels (R312, R327) -/

/-- A record's indices that have not started end with the cancel. -/
def State.trimSlot (s : State) (lid t : Nat) : State :=
  let core := coreOf t
  let drop (s : State) (n : Nat) : State :=
    if n = 0 then s
    else (s.modLaunch lid fun l => l.dropKid core n).discardUnits (.cluster (clusterOf core)) lid n stCancel
  match Table.get? (s.core core).reserved (slotOf t) with
  | some u =>
    (match u.duty with
     | .record e a i last r =>
       if u.lid ≠ lid then s
       else if u.due.isSome then drop ((s.unreserve t).clearRecord t) (last + 1 - i)
       else drop (s.reserve t { u with duty := .record e a i i r }) (last - i)
     | .task _ | .chunk => s)
  | none =>
    let c := s.ctxAt t
    match c.unit.duty with
    | .record e a i last r =>
      if c.inst && c.unit.lid = lid && c.unit.holder = t then
        drop (s.modCtxAt t fun c => { c with unit := { c.unit with duty := .record e a i i r } }) (last - i)
      else s
    | .task _ | .chunk => s

/-- The indices of a record that its unit's context has still to start. -/
def Ctx.indicesLeft (c : Ctx) (lid : Nat) : Nat :=
  match c.unit.duty with
  | .record _ _ i last _ => if c.unit.lid = lid then last - i else 0
  | .task _ | .chunk => 0
/-- The record ends with the index that runs. -/
def Ctx.lastIndex (c : Ctx) (lid : Nat) : Ctx :=
  match c.unit.duty with
  | .record e a i _ r => if c.unit.lid = lid then { c with unit := { c.unit with duty := .record e a i i r } } else c
  | .task _ | .chunk => c

/-- The same for records whose units' contexts are in the context cache, or on their way to it. -/
def State.trimCached (s : State) (lid core : Nat) : State :=
  let k := clusterOf core
  let left (t : Nat) (c : Ctx) : Nat := if coreOf t = core then c.indicesLeft lid else 0
  let n := ((s.cluster k).cache.map fun x => left x.2.1 x.2.2).sum +
    ((s.cluster k).swaps.map fun x => (x.2.2.map (left x.1)).getD 0).sum
  let s := s.modCluster k fun x => { x with
    cache := x.cache.map fun (e, t, c) => (e, t, if coreOf t = core then c.lastIndex lid else c)
    swaps := x.swaps.map fun (t, e, c) => (t, e, if coreOf t = core then c.map fun y => y.lastIndex lid else c) }
  if n = 0 then s else (s.modLaunch lid fun l => l.dropKid core n).discardUnits (.cluster k) lid n stCancel

/-- A ready queue's entry is a task's. -/
def ReadyItem.isTask (x : ReadyItem) (rec : Nat) : Bool :=
  match x with
  | .task r _ _ => r = rec
  | .launch _ _ _ => false

/-- A task that does not run yet is discarded: state 4, counted with CANCEL (R312), and PART in a ring split (R310), by the scheduler
or the core that held it (R309). -/
def State.discardTask (s : State) (lid rec : Nat) (flags : BitVec 32 := stCancel) : State :=
  let core := (rec - lsAddr 0 0) / 2 ^ 19
  let node : DoneNode := match s.dies.find? fun x => x.2.ready.any fun y => y.isTask rec with
    | some (d, _) => .die d
    | none => .cluster (clusterOf core)
  let s := { s with mem := s.mem.write (rec + 18) 4 }
  let s := s.modCore core fun c => { c with runList := c.runList.filter (· ≠ rec) }
  -- a slot that waits for the task is free again (R198)
  let waits : List Nat := s.cores.flatMap fun (k, c) => (c.reserved.filter fun x => match x.2.duty with
    | .task r => r = rec && x.2.due.isSome
    | _ => false).map fun x => k * 16 + x.1
  let s := waits.foldl State.unreserve s
  let s := { s with dies := s.dies.map fun (d : Nat × Die) => (d.1, { d.2 with ready := d.2.ready.filter fun y => !(y.isTask rec) }) }
  let s := s.modLaunch lid fun l => { l.dropKid core 1 with tasks := Table.del l.tasks rec }
  s.discardUnits node lid 1 flags

/-- What a die's ready queue holds of a launch's units is discarded; the queue's scheduler reports them. -/
def State.discardReady (s : State) (die lid : Nat) : State :=
  let n := ((s.die die).ready.map fun x => match x with
    | .launch l a b => if l = lid then b - a else 0
    | .task _ _ _ => 0).sum
  let s := s.modDie die fun d => { d with ready := d.ready.filter fun x => !x.isFor lid }
  s.discardUnits (.die die) lid n stCancel

/-- A cancel of a launch, from a die (R312). -/
def State.cancelLaunch (s : State) (die lid : Nat) : State :=
  match s.launch? lid with
  | none => s
  | some l =>
    if l.st = .done then s
    else
      let s := s.modLaunch lid fun l => { l with cancelled := true, st := .running }
      let s := if l.st = .held then s.discardUnits (.die (lidDie lid)) lid l.desc.units stCancel else s
      let s := l.tasks.foldl (fun s x => s.discardTask lid x.1) s
      let s := (List.range 8).foldl (fun s d => s.discardReady d lid) s
      let s := l.kids.foldl (fun s x => (List.range 16).foldl (fun s i => s.trimSlot lid (x.1 * 16 + i)) (s.trimCached lid x.1)) s
      let s := (s.coresOf l.job).foldl (fun s k => s.schedule (if dieOf k = die then 40 else 80) (.cancelArrival k lid)) s
      s.roomMoved.launchCheck lid

/-- CANCEL_ARRIVAL: the running units of the launch on a core stop at their next visits, one whose context is in the context cache,
or on its way to it, once it is back. -/
def execCancelArrival (core lid : Nat) (s : State) : Res :=
  let mark (c : Ctx) : Ctx := if c.unit.lid = lid then { c with cancelled := true } else c
  let s := (s.threadsOf core).foldl (fun s t => s.modCtxAt t mark) s
  let s := s.modCore core fun c => { c with packets := c.packets.map fun p => { p with ctx := mark p.ctx } }
  .next (s.modCluster (clusterOf core) fun k => { k with
    cache := k.cache.map fun (n, t, c) => (n, t, if coreOf t = core then mark c else c)
    swaps := k.swaps.map fun (t, e, c) => (t, e, if coreOf t = core then c.map mark else c) })

/-- The launches of a job that a level names, by the level's code. -/
def State.launchesOf (s : State) (job lvl id : Nat) : List Nat :=
  s.dies.flatMap fun (d, x) => (x.launches.filter fun (_, l) =>
    l.job = job && match lvl with
      | 1 => l.desc.graph = id
      | 2 => l.desc.phase = id
      | _ => true).map fun (i, l) => i + d * 2 ^ 12 + l.gen * 2 ^ 16

/-- A level's identifier in a register, with the protection fault of a launch or a job that is not the thread's (R327). -/
def withLevel (lvl : Nat) (a : GReg) (s : State) (k : Nat → Res) : Res :=
  let x := s.g a
  match lvl with
  | 0 =>
    let id := x.toNat % 2 ^ 32
    if (s.launch? id).any fun l => l.job ≠ s.ctx.job then trapTo s causeProtection x else k id
  | 3 => if x.toNat ≠ s.ctx.job then trapTo s causeProtection x else k 0
  | _ => k (x.toNat % 65536)

def cancelLevel (lvl : Nat) (a : GReg) (s : State) : Res :=
  withG [a] s (withLevel lvl a s fun id =>
    let lids := if lvl = 0 then [id] else s.launchesOf s.ctx.job lvl id
    .next ((lids.foldl (fun s l => s.cancelLaunch s.myDie l) s).finish 8))
def execCancelLaunch (a : GReg) (s : State) : Res := cancelLevel 0 a s
def execCancelGraph (a : GReg) (s : State) : Res := cancelLevel 1 a s
def execCancelPhase (a : GReg) (s : State) : Res := cancelLevel 2 a s
def execCancelJob (a : GReg) (s : State) : Res := cancelLevel 3 a s

/-! ## Launch and wait (R326, R328) -/

/-- `launch`: the descriptor is read as loads, its submission is a release at package scope (R313), and the thread waits
for the identifier. The scheduler takes it 40 cycles after the issue; DESIGN CHOICE (log 107): where the loads and the release
take longer, in the cycle in which they are done. -/
def execLaunch (d a : GReg) (s : State) : Res :=
  withG [a] s
    (match s.ctx.asked with
     | [m, lid] => if m = launchMark then .next ((s.setG d (BitVec.ofNat 64 lid) false).finish 8) else submit
     | [m] => if m = launchMark then .next (s.park .jobWait) else if m = lostMark then trapTo s causeDataLost (s.g a) else submit
     | _ => submit)
where
  submit : Res :=
    if (s.g a).toNat % 64 ≠ 0 then trapTo s causeAddress (s.g a)
    else
      -- the way back of a read that travels
      let back : Nat := match targetOf s.myCore (s.g a) with
        | .ls core _ => if near s.myCore core then 0 else msgCycles s.myCore core
        | _ => 0
      loadBytes (s.g a) 64 .pd .plain .core (s.anyTaint [a]) false s fun bs s =>
      if !s.performed .pkg false then .next (s.awaitPerformed .drain .pkg)
      else
        let l : LaunchSub := { die := s.myDie, job := s.ctx.job, raw := lineOfBytes bs, thread := some s.cur,
                               ptime := s.ctx.ctl.ptime.toNat }
        let taken := max (((s.ctx.lastIssue).getD s.cycle) + 40) (s.cycle + back)
        let s := s.park .jobWait
        .next ({ s with ctx := { s.ctx with asked := [launchMark], gather := [] } }.schedule (taken - s.cycle) (.launchTake l))

/-- `lvwait`: it completes, an acquire at package scope, when the counter reaches the target. -/
def waitLevel (lvl : Nat) (a b : GReg) (s : State) : Res :=
  withG [a, b] s (withLevel lvl a s fun id =>
    let target := (s.g b).toNat
    if target ≥ 2 ^ 32 then illegal s
    else if s.reached s.ctx.job lvl id target then
      let t := ((s.levelCount s.ctx.job lvl id).map (·.2)).getD s.ctx.ctl.ptime.toNat
      .next (((s.modCtx fun c => c.seeTime t).acquireNow false).finish 8)
    else
      let s := s.park .counterWait
      .next { s with ctx := { s.ctx with asked := [lvwaitMark + lvl, id, target] } })
def execLvwaitLaunch (a b : GReg) (s : State) : Res := waitLevel 0 a b s
def execLvwaitGraph (a b : GReg) (s : State) : Res := waitLevel 1 a b s
def execLvwaitPhase (a b : GReg) (s : State) : Res := waitLevel 2 a b s
def execLvwaitJob (a b : GReg) (s : State) : Res := waitLevel 3 a b s

end Sys2Proof.Machine
end

