-- ==== Sys2Proof/Machine/Tasks.lean ====
section
/-! DEFINITION. Tasks, run lists and stealing (14_die_work R304 to R306), range-fork and join (R307, R308), with their
instructions (15_die_ops R322 to R325). -/
namespace Sys2Proof.Machine

/-! ## Addresses of records and cells -/

/-- n bytes, n-aligned, in a local store bound to the job: the faults in the order of R322. -/
def cellAt (a : Word) (n : Nat) (s : State) (k : Nat → Nat → Res) : Res :=
  match targetOf s.myCore a with
  | .ls core off =>
    if off % n ≠ 0 || off + n > s.lsSize core then trapTo s causeAddress a
    else if !s.boundTo core s.ctx.job then trapTo s causeProtection a
    else k core off
  | .none | .weight _ _ | .global _ => trapTo s causeAddress a

/-- An atomic on n bytes of a local store with the timing of R130. -/
def atBank (core off n : Nat) (s : State) (k : State → Res) : Res :=
  if near s.myCore core then
    match s.claim core off n 1 with
    | none => .next s.conflict
    | some s => k s
  else viaMessage .remoteAtomic (BitVec.ofNat 64 (lsAddr core off)) core (s.rowsOf core off n) 5 s k

/-- The core of a unified local-store address. -/
def cellCore (a : Nat) : Nat := (a - lsAddr 0 0) / 2 ^ 19

/-! ## Tasks (R304, R305, R322, R323) -/

/-- A task record's bytes. -/
def taskRecord (entry arg : Word) (count st mask : Nat) (any : Bool) (lid : Nat) : List Byte :=
  bytesOfNat 8 entry.toNat ++ bytesOfNat 8 arg.toNat ++ bytesOfNat 2 count ++ bytesOfNat 1 st ++ bytesOfNat 1 mask ++
    bytesOfNat 1 (if any then 1 else 0) ++ bytesOfNat 3 0 ++ bytesOfNat 4 lid ++ bytesOfNat 4 0

/-- The effect of a `spawn` whose operands are checked, at the record's bank. -/
def spawnAt (a : Word) (entry arg : Word) (count mask : Nat) (any : Bool) (core off : Nat) (s : State) : Res :=
  let rec_ := lsAddr core off
  let st := (s.mem.read (rec_ + 18)).toNat
  let die := if any then s.myDie else readyDie s.myDie (BitVec.ofNat 8 mask)
  if st = 1 || st = 2 || st = 3 then trapTo s causeAddress a
  else if count = 0 && !readyRoom s die then .next (s.park .counterWait)
  else
    let lid := s.ctx.unit.lid
    let s := s.writeLocal (cellsFrom rec_ (taskRecord entry arg count (if count = 0 then 2 else 1) mask any lid))
    let s := s.modLaunch lid fun l =>
      { l.addKid core 1 with tasks := Table.set l.tasks rec_ s.ctx.ctl.ptime.toNat }
    let s := if count = 0 then s.readyAdd die (.task rec_ s.ctx.job lid) else s
    let s := if (s.launch? lid).any fun l => l.cancelled then
        s.discardTask lid rec_
      else s
    .next (s.finish 12)

/-- `spawn`, a release at package scope (R313). -/
def execSpawn (d a b c : GReg) (any : Bool) (disp : BitVec 32) (s : State) : Res :=
  withG [d, a, b, c] s (cellAt (s.g d) 32 s fun core off =>
    let count := (s.g b).toNat
    let mask := (s.g c).toNat
    if count > 65535 || (!any && (mask ≥ 256 || mask = 0)) then illegal s
    else watch [((s.g d).toNat, 32)] true true s <| if !s.performed .pkg false then .next (s.awaitPerformed .drain .pkg)
    else atBank core off 32 s
      (spawnAt (s.g d) (s.pcPlus (disp4 disp)) (s.g a) count (if any then 0 else mask) any core off))

/-- `tdec`: its message is a release at package scope (R313). -/
def execTdec (a : GReg) (s : State) : Res :=
  withG [a] s (cellAt (s.g a) 32 s fun core off =>
    releaseMsg (msgCycles s.myCore core) 1 (.taskDecrement (lsAddr core off) s.ctx.job s.ctx.ctl.ptime.toNat) s fun s =>
      .next (s.finish 8))

/-- TASK_DECREMENT: the record's bank applies a decrement (R305, R312). -/
def execTaskDecrement (rec_ job ptime : Nat) (s : State) : Res :=
  let _ := job
  let count := s.mem.readNat (rec_ + 16) 2
  let st := (s.mem.read (rec_ + 18)).toNat
  let lid := s.mem.readNat (rec_ + 24) 4
  if st = 4 then .next s
  else if count = 0 then .next (s.modLaunch lid fun l => { l with flags := l.flags ||| stTdx })
  else
    let s := { s with mem := s.mem.writeNat (rec_ + 16) 2 (count - 1) }
    let s := s.modLaunch lid fun l =>
      { l with tasks := l.tasks.map fun x => if x.1 = rec_ then (x.1, tsMax x.2 ptime) else x }
    if count = 1 && st = 1 then
      let s := { s with mem := s.mem.write (rec_ + 18) 2 }
      .next ((s.modCore (cellCore rec_) fun c => { c with runList := c.runList ++ [rec_] }).schedule 16
        (.runListInstall (cellCore rec_, none)))
    else .next s

/-- A task starts in a slot (R300, R305). -/
def State.installTask (s : State) (t rec_ : Nat) : State :=
  let core := coreOf t
  let lid := s.mem.readNat (rec_ + 24) 4
  match s.launch? lid with
  | none => s
  | some l =>
    let entry : Word := BitVec.ofNat 64 (s.mem.readNat rec_ 8)
    let arg : Word := BitVec.ofNat 64 (s.mem.readNat (rec_ + 8) 8)
    let s := { s with mem := s.mem.write (rec_ + 18) 3 }
    let s := s.modLaunch lid fun l =>
      { (l.addKid core 1).dropKid (cellCore rec_) 1 with tasks := Table.del l.tasks rec_, st := .running }
    s.install t l.job (UnitInfo.plain lid t (.task rec_)) entry
      [(1, BitVec.ofNat 64 rec_), (2, arg), (3, BitVec.ofNat 64 lid)] 0 (Table.getD l.tasks rec_ l.ptime) l.cancelled

/-- The task of a die's ready queue by its record's address: its job and its launch. -/
def Die.readyTask (d : Die) (rec_ : Nat) : Option (Nat × Nat) :=
  d.ready.findSome? fun x => match x with
    | .task r job lid => if r = rec_ then some (job, lid) else none
    | .launch _ _ _ => none

/-- The Infuser's choice of a task of the die's ready queue for a slot (R303, log 8): it starts where the slot is free and the
core may take the job with the launch's partition (R196), once the scan and the writebacks of a repartition are done (R198). -/
def State.startReadyTask (s : State) (t rec_ : Nat) : State :=
  let core := coreOf t
  match (s.die (dieOf core)).readyTask rec_ with
  | none => s
  | some (job, lid) =>
    match s.launch? lid with
    | none => s
    | some l =>
      if s.slotOpen t && s.mayBind core job l.desc.ls then
        let bound := s.boundTo core job
        let weight := if bound then (s.cluster (clusterOf core)).weight.toList.getD (core % 8) 1 else l.desc.weight
        let (s, wait) := s.bindCore core job l.desc.ls weight
        let s := if bound then s else s.loadImages core lid
        let s := s.modDie (dieOf core) fun d => { d with ready := d.ready.filter fun x => !x.isTask rec_ }
        (if wait = 0 then s.installTask t rec_
         else (s.reserve t { UnitInfo.plain lid t (.task rec_) with due := some (s.cycle + wait) }).schedule wait
           (.runListInstall (core, some (slotOf t, rec_)))).roomMoved
      else s

/-- The task's slot waits for the core's repartition (R198), from a cycle on. -/
def State.taskDue (s : State) (t rec_ : Nat) : Option Nat :=
  match Table.get? (s.core (coreOf t)).reserved (slotOf t) with
  | some { duty := .task r, due := some c, .. } => if r = rec_ then some c else none
  | _ => none

/-- RUN_LIST_INSTALL: the oldest task of the core's run list starts in its lowest free slot (R305), DESIGN CHOICE (log 108): under
the partition that the core has, whatever its launch's is (R196); or a task of the die's
ready queue, by its record, in the slot that the Infuser has chosen for it (R303, log 8). -/
def execRunListInstall (place : Nat × Option (Nat × Nat)) (s : State) : Res :=
  let core := place.1
  let chosen := place.2
  match chosen with
  | some (slot, rec_) =>
    let t := core * 16 + slot % 16
    .next (match s.taskDue t rec_ with
      | some c => if s.cycle < c then s else (s.modCore core fun k =>
          { k with reserved := Table.del k.reserved (slotOf t) }).installTask t rec_
      | none => s.startReadyTask t rec_)
  | none =>
    match s.freeSlot core, (s.core core).runList with
    | some i, rec_ :: rest => .next ((s.modCore core fun c => { c with runList := rest }).installTask (core * 16 + i) rec_)
    | _, _ => .next s

/-! ## Stealing (R306) -/

/-- The die's ready queue is empty and 2,048 of its contexts are free. -/
def State.dieIdle (s : State) (die : Nat) : Bool :=
  (s.die die).ready.isEmpty && decide ((s.allThreads.filter fun t => dieOf (coreOf t) = die).length + 2048 ≤ 8192)

/-- STEAL_REQUEST: an idle die asks its neighbours by turns, every 1,024 cycles. -/
def execStealRequest (die : Nat) (s : State) : Res :=
  let s' := s.schedule 1024 (.stealRequest die)
  if s.dieIdle die then
    let victim := if (s.die die).stealNext then (die + 7) % 8 else (die + 1) % 8
    .next ((s'.modDie die fun d => { d with stealNext := !d.stealNext }).schedule 64 (.stealReply die victim))
  else .next s'

/-- What a victim gives of an entry to a thief, and what it keeps. -/
def State.split (s : State) (thief : Nat) (x : ReadyItem) : Option (ReadyItem × Option ReadyItem) :=
  match x with
  | .launch lid a b =>
    let mask := ((s.launch? lid).map fun l => l.desc.mask).getD 0
    let n := (b - a) / 2
    if b - a ≥ 2 && (mask = 0 || mask.getLsbD thief) then some (.launch lid (b - n) b, some (.launch lid a (b - n))) else none
  | .task rec_ job lid =>
    if (s.mem.read (rec_ + 19)).getLsbD thief || (s.mem.read (rec_ + 20)).getLsbD 0 then some (.task rec_ job lid, none) else none

/-- The oldest entry of a queue that gives something. -/
def State.stealFrom (s : State) (thief : Nat) : List ReadyItem → Option (ReadyItem × List ReadyItem)
  | [] => none
  | x :: m =>
    match s.split thief x with
    | some (g, k) => some (g, k.toList ++ m)
    | none => (State.stealFrom s thief m).map fun (g, r) => (g, x :: r)

/-- STEAL_REPLY: the victim's oldest entry that the thief may run passes to it. -/
def execStealReply (die victim : Nat) (s : State) : Res :=
  match s.stealFrom die (s.die victim).ready with
  | none => .next s
  | some (g, rest) =>
    .next (((s.modDie victim fun d => { d with ready := rest }).readyAdd die g).roomMoved)

/-! ## Range-fork (R307, R308, R324) -/

/-- The cores that level n of the search adds, ascending: the own core, then cluster, group, super-group, die. -/
def forkLevel (core n : Nat) : List Nat :=
  let size (k : Nat) : Nat := if k = 0 then 1 else if k = 1 then 8 else if k = 2 then 32 else if k = 3 then 128 else 512
  let all (k : Nat) : List Nat := (List.range (size k)).map (core / size k * size k + ·)
  if n = 0 then [core] else (all n).filter fun k => core / size (n - 1) ≠ k / size (n - 1)

/-- The free slots of cores bound to the job at a level. -/
def State.forkSlots (s : State) (core job n : Nat) : List Nat :=
  ((forkLevel core n).filter fun k => s.boundTo k job).flatMap fun k =>
    ((List.range 16).filter fun i => !(s.ctxAt (k * 16 + i)).inst && (Table.get? (s.core k).reserved i).isNone).map (k * 16 + ·)

/-- Up to `want` slots, level by level, and the level in which the search ends. -/
def State.findSlots (s : State) (core job want : Nat) : Nat → Nat → List Nat → List Nat × Nat
  | 0, lvl, got => (got, lvl - 1)
  | n + 1, lvl, got =>
    let got := (got ++ s.forkSlots core job lvl).take want
    if got.length ≥ want then (got, lvl) else State.findSlots s core job want n (lvl + 1) got

/-- Chunk i of n indices among k (R308). -/
def chunkLo (n k i : Nat) : Nat := i * n / k

/-- The number of the forked unit, taken at its first fork; the forker's slot stays reserved to it (R325). -/
def State.openUnit (s : State) : State × Nat :=
  let u := s.ctx.unit
  let j := s.job s.ctx.job
  let held (s : State) : State :=
    if (Table.get? (s.core s.myCore).reserved (slotOf s.cur)).isSome then s else s.reserve s.cur u
  match u.group with
  | some g =>
    (held (s.modJob s.ctx.job fun j => { j with units := match Table.get? j.units g with
      | some l => Table.set j.units g (if l.contains s.cur then l else l ++ [s.cur])
      | none => j.units }), g)
  | none =>
    (held (s.modJob s.ctx.job fun j => { j with units := Table.set j.units j.nextFork [s.cur], nextFork := j.nextFork + 1 }), j.nextFork)

/-- `rfork`: a release at package scope to every chunk (R313). -/
def execRfork (a b c : GReg) (disp : BitVec 32) (s : State) : Res :=
  withG [a, b, c] s
    (let n := (s.g a).toNat
     let grain := (s.g b).toNat
     if n ≥ 2 ^ 32 || grain = 0 || grain ≥ 2 ^ 32 then illegal s
     else cellAt (s.g c) 16 s fun core off => watch [((s.g c).toNat, 16)] false true s <|
       if !s.performed .pkg false then .next (s.awaitPerformed .drain .pkg)
       else
         let want := min ((n + grain - 1) / grain) 256 - 1
         let (slots, lvl) := s.findSlots s.myCore s.ctx.job want 5 0 []
         let k := slots.length + 1
         let pc := s.pcPlus 12
         let cell := lsAddr core off
         let u := s.ctx.unit
         let s := s.writeLocal (cellsFrom cell (bytesOfNat 4 k ++ bytesOfNat 4 0 ++ bytesOfNat 8 (s.pcPlus (disp4 disp)).toNat))
         let (s, g) := s.openUnit
         let f := (s.job s.ctx.job).nextFork
         let s := s.modJob s.ctx.job fun j => { j with
           nextFork := f + 1
           forks := Table.set j.forks f { parent := u.fork, own := u.own, ptime := s.ctx.ctl.ptime.toNat } }
         let s := s.modLaunch u.lid fun l => { l with helpers := l.helpers + slots.length }
         let s := (List.range slots.length).foldl (fun s i =>
           let t := slots.getD i 0
           let m : RecruitMsg :=
             { slot := t, job := s.ctx.job, lid := u.lid, holder := u.holder, fork := f, group := g,
               lo := BitVec.ofNat 64 (chunkLo n k (i + 1)), hi := BitVec.ofNat 64 (chunkLo n k (i + 2)), cell := s.g c,
               regs := (List.range 16).map fun r => s.ctx.regs.g[(Fin.ofNat 32 (16 + r))], pc := pc,
               ptime := s.ctx.ctl.ptime.toNat }
           (s.reserve t { lid := u.lid, duty := .chunk, start := t, holder := u.holder, fork := some f, group := some g,
                          own := false, due := none }).schedule (msgCycles s.myCore (coreOf t)) (.recruitStart m)) s
         let s := s.modCtx fun x => { x with unit := { u with fork := some f, group := some g } }
         let cellReg := s.g c
         let taint := s.anyTaint [a, b, c]
         let s := ((s.setG 1 0 taint).setG 2 (BitVec.ofNat 64 (chunkLo n k 1)) taint).setG 3 cellReg taint
         .next ((s.finish 12).rest .timedMessage (if lvl ≤ 1 then 4 else if lvl ≤ 3 then 12 else 20)))

/-- RECRUIT_START: a recruited context starts at its chunk (R308, R324). -/
def execRecruitStart (m : RecruitMsg) (s : State) : Res :=
  match Table.get? (s.core (coreOf m.slot)).reserved (slotOf m.slot) with
  | none => .next s
  | some u =>
    let s := s.modCore (coreOf m.slot) fun k => { k with reserved := Table.del k.reserved (slotOf m.slot) }
    let gs := [(1, m.lo), (2, m.hi), (3, m.cell)] ++ (List.range 16).map fun r => (16 + r, m.regs.getD r 0)
    .next (s.install m.slot m.job u m.pc gs 0 m.ptime ((s.launch? m.lid).any fun l => l.cancelled))

/-! ## Join (R325) -/

/-- The unit of a context has forked and is reported. -/
def State.unitReported (s : State) : Bool :=
  match s.ctx.unit.group with
  | some g => (Table.get? (s.job s.ctx.job).units g).isNone
  | none => false

/-- A context that has arrived frees itself. -/
def State.freeJoined (s : State) : State :=
  let u := s.ctx.unit
  let t := s.cur
  let s := match u.duty with
    | .chunk => s
    | .record _ _ _ _ _ | .task _ =>
      if u.holder = t && (Table.get? (s.core (coreOf t)).reserved (slotOf t)).isNone && u.group.isNone then s.reserve t u else s
  let s := match u.group with
    | some g => if s.unitReported then s else s.leaveFaults t s.ctx.job g
    | none => s
  ((s.orphan t).freeContext t).endHelper t u

/-- The last arrival goes on at the continuation as the context of the forker's unit: an acquire at package scope. -/
def State.continueUnit (s : State) (flags : BitVec 5) (cont : Word) : State :=
  let u := s.ctx.unit
  let s := s.raise flags
  let s := match u.fork.bind fun f => (Table.get? (s.job s.ctx.job).forks f).map fun k => (f, k) with
    | some (f, k) =>
      ((s.modCtx fun c => { c.seeTime k.ptime with unit := { u with fork := k.parent, own := k.own } }).modJob s.ctx.job fun j =>
        { j with forks := Table.del j.forks f })
    | none => s
  (s.acquireNow false).jump cont

/-- The arrival at the cell's bank (R307, R325). -/
def joinAt (a : Word) (core off : Nat) (s : State) : Res :=
  let cell := lsAddr core off
  match s.poisonIn cell 16 with
  | some i => trapTo s causeDataLost (a + BitVec.ofNat 64 i)
  | none =>
    let n := s.mem.readNat cell 4
    if n = 0 then trapTo s causeAddress a
    else
      let fl := BitVec.ofNat 32 (s.mem.readNat (cell + 4) 4) ||| s.ctx.ctl.fflags.zeroExtend 32
      let cont : Word := BitVec.ofNat 64 (s.mem.readNat (cell + 8) 8)
      let s := s.writeLocal (cellsFrom cell (bytesOfNat 4 (n - 1) ++ bytesOfNat 4 fl.toNat))
      let s := match s.ctx.unit.fork with
        | some f => s.modJob s.ctx.job fun j => { j with forks := match Table.get? j.forks f with
          | some k => Table.set j.forks f { k with ptime := tsMax k.ptime s.ctx.ctl.ptime.toNat }
          | none => j.forks }
        | none => s
      .next (if n > 1 || s.unitReported then s.freeJoined else s.continueUnit (fl.extractLsb' 0 5) cont)

/-- `rjoin`: the waits of `exit`, a pending engine fault, the checks, the arrival. -/
def execRjoin (a : GReg) (s : State) : Res :=
  withG [a] s (afterDrain s
    (if s.ctx.efaults ≠ [] && s.ctx.ctl.mode = 0 then .next s.takeEngineFault
     else cellAt (s.g a) 16 s fun core off =>
       watch [((s.g a).toNat, 16)] true true s (atBank core off 16 s (joinAt (s.g a) core off))))

/-! ## Far accesses as they arrive (R119, R312, R316) -/

/-- The accesses that change what a far local store holds, and wait for its answer, by their latched word's fields. -/
def farEffect (f : Fields) : Option (State → Res) :=
  match f.op.val with
  | 0x21 => if f.minor.getLsbD 2 then some (execReclaimStore f.mem) else none
  | 0x23 => some (doAmo (BitVec.ofNat 4 f.imm.toNat) f.amo)
  | 0x24 => some (execCas f.amo f.ext32)
  | 0x26 => some (execStfe f.mem)
  | 0x28 => some (execFeset f.memNoDisp (f.imm.getLsbD 0))
  | 0x74 => some (execSpawn f.d f.a f.b f.c (f.minor.getLsbD 0) f.ext32)
  | _ => none

/-- The reply of a far access whose context a reset has taken is dropped where it arrives, and counted (R316 step 4). -/
def State.owedReply (s : State) (t d : Nat) : State :=
  if s.cycle + d < (s.cluster (clusterOf (coreOf t))).resetUntil then s.schedule d (.memoryReply (farReq t) (replyOf 0 0 0 .none)) else s

/-- An access of a context that has been stopped performs as if the context stood in its slot, whose own context comes back; one
that would fault has no effect, and one that loses its bank's port comes again 8 cycles later. -/
def State.performOrphan (s : State) (due t : Nat) (c : Ctx) : State :=
  let s := s.owedReply t (msgCycles (coreOf t) (c.asked.getD 1 0))
  let s := s.modCore (coreOf t) fun k => { k with orphans := k.orphans.filter fun x => !(x.1 = due && x.2.1 = t) }
  match c.latch.bind fun w => farEffect (Fields.unpack w.toNat) with
  | none => s
  | some f => s.withThread t fun s =>
    let real := s.ctx
    match f { s with ctx := { c with ctl := { c.ctl with mode := 0, tdeleg := BitVec.allOnes 64 } } } with
    | .next s' =>
      let replay := (s.cycle + 8, Instr.bankConflictReplay t)
      let s'' := { s' with ctx := real, agenda := (s'.agenda.erase replay).erase (s.cycle + 8, .fullEmptyReplay t) }
      if s'.ctx.wait = .away .bank then
        (s''.modCore (coreOf t) fun k => { k with orphans := k.orphans ++ [(s.cycle + 8, t, { c with wait := .away .bank })] }).schedule 8
          (.remoteReadMessage t)
      else s''
    | _ => s

/-- REMOTE_READ_MESSAGE: the message of a latched access has reached its target; its context may have been stopped. -/
def execRemoteReadMessage (t : Nat) (s : State) : Res :=
  match (s.core (coreOf t)).orphans.find? fun x => x.1 = s.cycle && x.2.1 = t with
  | some (due, _, c) => .next (s.performOrphan due t c)
  | none => if (s.ctxAt t).asked.contains remoteMark then .next (s.kick t) else .next s

end Sys2Proof.Machine
end

