-- ==== Sys2Proof/Machine/Messages.lean ====
section
/-! DEFINITION. Messages between threads and the trees of the network (15_die_ops R329 to R331, 14_die_work R315, R400,
03_numbers R78). -/
namespace Sys2Proof.Machine

/-! ## send (R329) -/

/-- The acquire at package scope of a thread that gets a message, on the core where it is installed. -/
def State.acquireAt (s : State) (t job : Nat) : State :=
  if (s.ctxAt t).inst && (s.ctxAt t).job = job then s.withThread t fun s => s.acquireNow false else s

def execSend (a b : GReg) (idx : BitVec 5) (s : State) : Res :=
  withG [a, b] s
    (let t := (s.g a).toNat
     if t ≥ 65536 then trapTo s causeAddress (s.g a)
     else if !s.boundTo (coreOf t) s.ctx.job then trapTo s causeProtection (s.g a)
     else if s.holdsThread t s.ctx.job then
       releaseMsg (msgCycles s.myCore (coreOf t)) 2
         (.sendDelivery (s.cur, t) s.ctx.job (Fin.ofNat 32 idx.toNat) (s.g b) s.ctx.ctl.ptime.toNat) s fun s => .next (s.finish 8)
     else .next (s.finish 8))

/-- SEND_DELIVERY: the register, its presence bit, the wake-pending bit; an acquire at package scope. -/
def execSendDelivery (way : Nat × Nat) (job : Nat) (idx : GReg) (v : Word) (ptime : Nat) (s : State) : Res :=
  let sender := way.1
  let t := way.2
  .next ((s.acquireAt t job).deliver sender t job 2 (fun t' => .sendDelivery (sender, t') job idx v ptime)
    (fun c => (c.seeTime ptime).remoteG s.cycle idx v) id)

/-! ## Trees (R315, R330) -/

def State.tree (s : State) (job t : Nat) : Option Tree := Table.get? (s.job job).trees t
def State.setTree (s : State) (job t : Nat) (x : Tree) : State :=
  s.modJob job fun j => { j with trees := Table.set j.trees t x }

/-- Every number of the list is the same under a key. -/
def allSame (f : Nat → Nat) (xs : List Nat) : Bool := xs.all fun x => f x = f (xs.headD 0)

/-- Cycles of a delivery by the deepest node that the members span (R331). -/
def treeCycles (ms : List Nat) : Nat :=
  if allSame (· / 128) ms then 4 else if allSame (· / 512) ms then 8 else if allSame (· / 2048) ms then 12
  else if allSame (· / 8192) ms then 16 else 46

/-- The members that a descriptor's bytes list, or none for one that breaks R330. -/
def treeMembers (bs : List Byte) : Option (List Nat) :=
  let m := natOfBytes (bs.take 2)
  let ts := (List.range m).map fun i => natOfBytes ((bs.drop (8 + 4 * i)).take 4)
  if natOfBytes ((bs.drop 2).take 6) = 0 && 1 ≤ m && m ≤ 1024 && ts.all (· < 65536) && ts.eraseDups.length = m then some ts
  else none

/-- The number of members that a descriptor's head gives, 0 where it breaks R330. -/
def treeCount (bs : List Byte) : Nat :=
  let m := natOfBytes (bs.take 2)
  if natOfBytes (bs.drop 2) = 0 && m ≤ 1024 then m else 0

/-- A round that has all its contributions, and is not delivered. -/
def Tree.full (x : Tree) : Bool := x.contrib.length = x.members.length

/-- The mark in `asked` of a thread that waits for a round of the tree named after it. -/
def roundMark : Nat := 2 ^ 60 + 4
/-- The thread waits for a round of a tree. -/
def State.parkRound (s : State) (tree : Nat) : State := { s.park .round with ctx := { (s.park .round).ctx with asked := [roundMark, tree] } }
/-- The context waits for a round of a tree. -/
def Ctx.inRound (c : Ctx) (tree : Nat) : Bool := c.wait = .away .round && decide (c.asked = [roundMark, tree])

/-- Threads that a tree's round holds issue again at their next visit (R331). -/
def State.roundOver (s : State) (job tree : Nat) : State :=
  (s.allThreads.filter fun t =>
    (s.ctxAt t).job = job && (s.ctxAt t).latch.isSome && (s.ctxAt t).inRound tree).foldl State.unpark s

/-- The root's thread, which waits for its round's sum, is ready (R315). -/
def Ctx.rootReady (cycle tree : Nat) (c : Ctx) : Ctx :=
  if c.inRound tree && c.latch.isNone then { c with wait := .ready cycle, asked := [] } else c

/-- An open round of a tree is dropped, and what it holds goes on (R330). -/
def State.dropRound (s : State) (job tree : Nat) (x : Option Tree) : State :=
  match x with
  | none => s
  | some x => (s.modWherever (Ctx.rootReady s.cycle tree) 64 (x.members.headD 0)).roundOver job tree

/-- `ntree`: a full round of the old tree is delivered first, an open one is dropped (R330). -/
def execNtree (a : GReg) (t : BitVec 4) (s : State) : Res :=
  withG [a] s
    (loadSized (s.g a) 8 (fun head => if treeCount head = 0 then none else some (8 + 4 * treeCount head)) (s.anyTaint [a]) s
      (fun s => trapTo s causeAddress (s.g a)) fun bs s =>
        match treeMembers bs with
        | none => trapTo s causeAddress (s.g a)
        | some ms =>
          match ms.find? fun x => !s.boundTo (coreOf x) s.ctx.job with
          | some x => trapTo s causeProtection (BitVec.ofNat 64 x)
          | none =>
            if (s.tree s.ctx.job t.toNat).any Tree.full then .next (s.parkRound t.toNat)
            else
              let job := s.ctx.job
              let old := s.tree job t.toNat
              let s := (s.setTree job t.toNat { members := ms, contrib := [], idx := 0, ptime := 0 }).dropRound job t.toNat old
              let d := (if allSame (· / 8192) ms then 40 else 100) + (ms.length + 7) / 8
              .next ((s.finish 8).rest .timedMemory d))

/-! ## mcast and radd (R331, R78) -/

/-- The tree that a register names. -/
def withTree (a : GReg) (s : State) (k : Nat → Tree → Res) : Res :=
  let x := s.g a
  if x.toNat ≥ 16 then trapTo s causeAddress x
  else match s.tree s.ctx.job x.toNat with
    | none => trapTo s causeAddress x
    | some t => k x.toNat t

/-- Members in the order of the nodes' ports: the root's die, then the other dies, threads rising in each (R315). -/
def portOrder (ms : List Nat) : List Nat :=
  let xs := ms.foldl NatSet.insert []
  let here (m : Nat) : Bool := m / 8192 = ms.headD 0 / 8192
  xs.filter here ++ xs.filter fun m => !here m

/-- One release message for each member, of one packet that the nodes copy. -/
def castTo (time : Nat) (idx : GReg) (v : Word) (flits : Nat) : List Nat → State → (State → Res) → Res
  | [], s, k => k s
  | m :: ms, s, k =>
    releaseMsg time flits (.sendDelivery (s.cur, m) s.ctx.job idx v s.ctx.ctl.ptime.toNat) s fun s => castTo time idx v 0 ms s k

def execMcast (a b : GReg) (idx : BitVec 5) (s : State) : Res :=
  withG [a, b] s (withTree a s fun _ t =>
    castTo (treeCycles t.members) (Fin.ofNat 32 idx.toNat) (s.g b) 2 (portOrder t.members) s fun s => .next (s.finish 8))

/-- The lanewise F32 sum of two contributions, RNE. -/
def addLanes (x y : List Nat) : List Nat := (List.range 16).map fun i => (Fmt.f32.add RMode.rne (x.getD i 0) (y.getD i 0)).1

/-- The nodes of a level add their ports' values in rising order (R78, R315): values with rising numbers, joined where
the numbers divided by `n` agree. -/
def nodeSums (n : Nat) : List (Nat × List Nat) → List (Nat × List Nat)
  | [] => []
  | (i, x) :: m => go (i / n) x m
where
  go (k : Nat) (x : List Nat) : List (Nat × List Nat) → List (Nat × List Nat)
    | [] => [(k, x)]
    | (j, y) :: m => if j / n = k then go k (addLanes x y) m else (k, x) :: go (j / n) y m

/-- The sum of a round: the slots of a core, the cores of a cluster, the clusters of a group, the groups of a
super-group, the super-groups of a die, then the root's die and the other dies. -/
def roundSum (root : Nat) (xs : List (Nat × List Nat)) : List Nat :=
  let dies := nodeSums 4 (nodeSums 4 (nodeSums 4 (nodeSums 8 (nodeSums 16 xs))))
  let mine := dies.filter fun d => d.1 = root / 8192
  match mine ++ dies.filter (fun d => d.1 ≠ root / 8192) with
  | [] => []
  | (_, x) :: m => m.foldl (fun x y => addLanes x y.2) x

/-- `radd`: the contribution is a release at package scope; a member whose round is open waits, and the root's thread waits
for the sum (R315). The format fault comes first (R55). -/
def execRadd (a : GReg) (b : VIdx) (idx : BitVec 5) (s : State) : Res :=
  withGV [a] [b] s (
    if s.tagOf b ≠ 8 then trapTo s causeFormat (tagsVal 0 (s.tagOf b) 0 0)
    else withTree a s fun n t =>
    if !(t.members.contains s.cur) then trapTo s causeProtection (s.g a)
    else if (Table.get? t.contrib s.cur).isSome then .next ((s.unissue 0x03).parkRound n)
    else if !s.performed .pkg false then .next (s.awaitPerformed .drain .pkg)
    else fetchV s [b] fun xs =>
      let root := t.members.headD 0
      let t := { t with
        contrib := Table.set t.contrib s.cur (xs.headD VReg.zero)
        idx := if s.cur = root then idx.toNat else t.idx
        ptime := tsMax t.ptime s.ctx.ctl.ptime.toNat }
      let t := if t.contrib.length = 1 then { t with ptime := s.ctx.ctl.ptime.toNat } else t
      let job := s.ctx.job
      let s := s.setTree job n t
      let s := if t.full then s.schedule (treeCycles t.members) (.reductionDelivery job (n, none)) else s
      let s := (s.popAll [b]).finish 8
      .next (if s.cur = root then s.parkRound n else s))

/-- The sum of a round on its way to a thread address: the register with tag F32, presence and the wake-pending bit; an
acquire at package scope (R331). -/
def State.sumTo (s : State) (job tree t : Nat) (idx : VIdx) (v : VReg) (ptime : Nat) : State :=
  (s.acquireAt t job).deliver noThread t job 10 (fun t' => .reductionDelivery job (tree, some (t', idx, v, ptime)))
    (fun c => ((c.seeTime ptime).remoteV s.cycle idx v).rootReady s.cycle tree) id

/-- REDUCTION_DELIVERY: the sum leaves the tree for its root, and the round is over; or a sum follows its root, which has
migrated (R158). -/
def execReductionDelivery (job : Nat) (round : Nat × Option (Nat × VIdx × VReg × Nat)) (s : State) : Res :=
  let tree := round.1
  let sum := round.2
  match sum, s.tree job tree with
  | some (t, idx, v, ptime), _ => .next (s.sumTo job tree t idx v ptime)
  | none, none => .next s
  | none, some t =>
    if !t.full then .next s
    else
      let root := t.members.headD 0
      let sum := roundSum root (t.contrib.map fun (m, v) => (m, lanesIn v 32))
      let v : VReg := { bits := lineOfLanes 32 sum, tag := 8, side := 0 }
      let s := s.setTree job tree { t with contrib := [] }
      .next ((s.sumTo job tree root (Fin.ofNat 32 t.idx) v t.ptime).roundOver job tree)

end Sys2Proof.Machine
end

