-- ==== Sys2Proof/Machine/Pages.lean ====
section
/-! DEFINITION. Requests at home, and the instructions on pages, regions and lookaside buffers (19_package R351 to R359,
21_package_ops R374 to R379): publishing a page's face, moving a page, publishing code, replication hints. -/
namespace Sys2Proof.Machine

/-! ## A page at its home (R351, R355) -/

/-- A page's frame number among all tiers (log 4), and its size in lines. -/
def Place.frame (pl : Place) : Nat := if pl.big then pl.dir / 2 ^ 23 * 8192 else pl.dir / 1024
def pageLines (big : Bool) : Nat := if big then 2 ^ 23 else 1024
/-- A directory line lies on the page. -/
def Place.hits (pl : Place) (dir : Nat) : Bool := dir / pageLines pl.big = pl.dir / pageLines pl.big

/-- No line of the page has a transaction open or a request waiting. -/
def State.pageQuiet (s : State) (pl : Place) : Bool :=
  s.ms.home.all fun (d, h) => !pl.hits d || (h.txn.isNone && h.queue.isEmpty)
/-- Nor a registered word. -/
def State.pageClean (s : State) (pl : Place) : Bool :=
  s.pageQuiet pl && s.ms.home.all fun (d, h) => !pl.hits d || h.registered = 0

/-- Home revokes every registration on the page's lines that have no transaction open: as an uncached load of each such line, which
nobody waits for, does. -/
def State.flushPage (s : State) (r : Req) (pl : Place) : State :=
  let first := r.line / pageLines pl.big * pageLines pl.big
  (s.ms.home.filter fun (d, h) => pl.hits d && h.registered ≠ 0 && h.txn.isNone && h.queue.isEmpty).foldl (fun s (d, _) =>
    let q : Req := { r with src := .report 0, kind := .load, pol := .unc, line := first + d % pageLines pl.big, mask := BitVec.allOnes 64 }
    match s.placeFor q with
    | some p => (s.homeStart q p).homeNext d
    | none => s) s

/-- Every replica of the page's lines collapses, while the page is held (R353). -/
def State.collapsePage (s : State) (pl : Place) : State :=
  (((s.ms.replicas.filter fun x => pl.hits x.pline).map (·.pline)).eraseDups.foldl (fun s d => s.collapse d) s).modMS fun m =>
    { m with replicas := m.replicas.filter fun x => !(pl.hits x.pline) }

/-- A page invalidation to every core and every tree: each drops every copy of the page that is not registered (R355). -/
def State.invalidatePage (s : State) (pl : Place) : State :=
  let s := (s.cores.map (·.1)).foldl (fun s k => s.dropCopies k pl.hits true) s
  (s.ms.banks.filter fun b => (s.place b.job b.line).any fun p => pl.hits p.dir).foldl (fun s b =>
    s.treeDrop b.job (s.rootOf b.job 16 b.alloc) b.line true) s

/-- The requests that home has held go on in arrival order. -/
def State.releasePage (s : State) (h : PageHold) : State :=
  let s := s.modMS fun m => { m with holds := m.holds.filter fun x => x ≠ h }
  s.runFirst h.held

/-- Steps 2 to 4 of R355: the copies end, the face flips, every entry of the page jumps with the thread's PTIME, and the
slice's floor stands for the lines without an entry. -/
def State.flipPage (s : State) (r : Req) (pl : Place) (h : PageHold) : State :=
  let s := (s.collapsePage pl).invalidatePage pl
  let key := if pl.big then 2 ^ 50 + pl.frame / 8192 else pl.frame
  let ptime := (s.reqTime r pl.dir).1
  let s := s.modMS fun m => { m with
    faces := if Table.getD m.faces key false then Table.del m.faces key else Table.set m.faces key true
    home := m.home.map fun (d, x) =>
      if pl.hits d then (d, { x.jump ptime with clusters := 0, dies := 0, roots := [], overflow := false }) else (d, x) }
  let slices := [sliceOf pl.dir, sliceOf (pl.dir / pageLines pl.big * pageLines pl.big)].eraseDups
  let s := slices.foldl (fun s k => s.raiseFloor k (tsMax ptime (tsAdd (s.floorOf k) 1))) s
  (s.releasePage h).replyTo r (replyOf 0 0xFFFF 0 .none) 0

/-- A `bufpub` at home: the page is held until its registrations are revoked, those of requests that were open included, and for 96
cycles after that (R355). -/
def State.homePublish (s : State) (r : Req) (pl : Place) : State :=
  let t := match r.src with | .load t => t | _ => noThread
  match s.ms.holds.find? fun p => p.covers pl.dir with
  | none =>
    let h : PageHold :=
      { frame := pl.frame, big := pl.big, cluster := 0, jid := none, dest := 0, thread := t, ends := 0,
        port := none, left := 0, since := 0, share := 1, held := [] }
    ((s.modMS fun m => { m with holds := m.holds ++ [h] }).flushPage r pl).schedule 0 (.homeRequest r)
  | some h =>
    if h.jid.isNone && h.thread = t then
      if !s.pageClean pl then (s.flushPage r pl).schedule 1 (.homeRequest r)
      else if h.ends = 0 then
        (s.modMS fun m => { m with holds := m.holds.map fun p => if p = h then { p with ends := s.cycle + 96 } else p }).schedule 96
          (.homeRequest r)
      else if s.cycle < h.ends then s.schedule (h.ends - s.cycle) (.homeRequest r)
      else s.flipPage r pl h
    else s.modMS fun m =>
      { m with holds := m.holds.map fun p => if p = h then { p with held := p.held ++ [r] } else p }

/-- The frame that a page moves to: the lowest free one of the command processor's pool on the channel, or in host
memory, with its neighbour for a TWIN page (R351, R354, R361). -/
def State.freeFrame (s : State) (dest : Nat) (twin : Bool) : Option Nat :=
  s.ms.freeFrames.find? fun f =>
    (if dest = 4096 then f ≥ 2 ^ 26
     else decide (f < 2 ^ 26) && decide (Config.channelOf (f * 65536) = dest) && s.pkg.channelReady.contains dest) &&
      (!twin || (f % 2 = 0 && s.ms.freeFrames.contains (f + 1)))

/-- The time of step 4 of a move (R351, R390). -/
def moveCycles (host twin : Bool) : Nat := (if host then 878 else 12288) * (if twin then 2 else 1)

/-- The moves of a port share its rate (R390): what each has done since the last change is taken off, and its end is set anew. -/
def State.sharePort (s : State) (p : Nat) : State :=
  let n := (s.ms.holds.filter fun h => h.port = some p).length
  let turn (h : PageHold) : PageHold :=
    if h.port = some p then { h with left := h.left - (s.cycle - h.since) * 840 / h.share, since := s.cycle, share := n } else h
  let s := s.modMS fun m => { m with holds := m.holds.map turn }
  (s.ms.holds.filter fun h => h.port = some p).foldl (fun s h =>
    let done : Instr := .tmoveTransferDone h.cluster (h.jid.getD 0)
    { s with agenda := s.agenda.filter fun x => x.2 ≠ done }.schedule ((h.left * n + 839) / 840) done) s

/-- The port that a host frame's, or a host access's, traffic takes: that of an I/O die, the other one's while it is down (R386). -/
def State.portOf (s : State) (io : Nat) : Nat := if s.pkg.portUp.getLsbD (io % 2) then io % 2 else 1 - io % 2

/-- A line that passes a port lengthens the moves of the port by its 64 bytes at the port's rate, 720 of the 840ths of a cycle
(R390). -/
def State.portTraffic (s : State) (r : Req) (dir : Nat) : State :=
  let io : Option Nat := if lineInHost dir then some (sliceOf dir) else match r.src with
    | .host _ => some (filterOf dir)
    | _ => none
  match io with
  | none => s
  | some i =>
    let p := s.portOf i
    if s.ms.holds.any fun h => h.port = some p then
      (s.modMS fun m => { m with holds := m.holds.map fun h => if h.port = some p then { h with left := h.left + 720 } else h }).sharePort p
    else s

/-- A `tmove` at home: its check, its hold, and once no transaction is open the collapse and the transfer (R351). -/
def State.homeMove (s : State) (r : Req) (pl : Place) : State :=
  let c := clusterOf r.core
  let jid := r.data2.toNat
  let dest := r.data.toNat
  let twin := leafTwin pl.leaf
  let host := leafTier pl.leaf = 1
  match s.jobOf c jid with
  | none => s
  | some e =>
    if e.state = 4 then s
    else match s.ms.holds.find? fun p => p.covers pl.dir with
    | some h =>
      if h.jid = some jid && h.cluster = c then
        if s.pageQuiet pl then
          let s := s.collapsePage pl
          if host || dest = 4096 then
            let f := if host then h.frame else h.dest
            let p := s.portOf f
            (s.modMS fun m => { m with holds := m.holds.map fun x =>
              if x = h then { x with port := some p, left := moveCycles true twin * 840, since := s.cycle } else x }).sharePort p
          else s.schedule (moveCycles false twin) (.tmoveTransferDone c jid)
        else s.schedule 1 (.homeRequest r)
      else s.modMS fun m =>
        { m with holds := m.holds.map fun p => if p = h then { p with held := p.held ++ [r] } else p }
    | none =>
      if pl.big || (s.rightsEntry r.job (leafDomain pl.leaf)).rights ≠ 2 then s.endJob c jid 3
      else if (if host then dest = 4096 else dest = Config.channelOf (pl.dir * 64)) then
        (s.modJobEntry c jid fun e => { e with bytes := if twin then 131072 else 65536 }).endJob c jid 2
      else match s.freeFrame dest twin with
        | none => s.endJob c jid 3
        | some f =>
          let h : PageHold :=
            { frame := pl.frame, big := false, cluster := c, jid := some jid, dest := f, thread := noThread, ends := 0,
              port := none, left := 0, since := 0, share := 1, held := [] }
          let s := s.modMS fun m => { m with
            holds := m.holds ++ [h]
            freeFrames := m.freeFrames.filter fun x => !(x = f || (twin && x = f + 1)) }
          (s.modJobEntry c jid fun e => { e with state := 1 }).schedule 0 (.homeRequest r)

/-- A number of [lo, lo + n) keeps its distance in [new, new + n). -/
def moveNum (lo n new x : Nat) : Nat := if lo ≤ x && x < lo + n then x - lo + new else x
/-- The entries of a table whose numbers lie in [lo, lo + n) move. -/
def Table.move {α : Type} (m : Table α) (lo n new : Nat) : Table α :=
  (m.filter fun x => lo ≤ x.1 && x.1 < lo + n).foldl (fun t x => Table.set t (x.1 - lo + new) x.2)
    (m.filter fun x => !(lo ≤ x.1 && x.1 < lo + n))
def NatSet.move (m : List Nat) (lo n new : Nat) : List Nat :=
  (m.filter fun x => lo ≤ x && x < lo + n).foldl (fun t x => NatSet.insert t (x - lo + new)) (m.filter fun x => !(lo ≤ x && x < lo + n))

/-- A line entry whose home comes to lie on another compute die: the sharers of the old home's clusters are sharers of its die, and
a sharing die that is the new home's may share in any cluster (R280, R351). -/
def HomeLine.moved (h : HomeLine) (old new : Nat) : HomeLine :=
  if old = new then h
  else
    { h with clusters := if h.dies.getLsbD new then BitVec.allOnes 64 else 0
             dies := setBit (if h.clusters = 0 then h.dies else setBit h.dies old true) new false }

/-- The lines of a page that is about to move are read under its key, and written under it at their new address (R396). -/
def State.rekey (s : State) (first n : Nat) : State :=
  (s.ms.lineKeys.filter fun x => first ≤ x.1 && x.1 < first + n && x.2 ≠ s.pageKeyOf x.1).foldl (fun s x =>
    s.writeLine x.1 (s.pageKeyOf x.1) (BitVec.allOnes 64) (s.keyedLine x.1 (s.pageKeyOf x.1))) s

/-- The data of n frames and every line entry of theirs move to new frames (R351 step 4); the new slice's floor is no
lower than the old one's. -/
def State.moveFrames (s : State) (old new n : Nat) : State :=
  let a := old * 65536
  let b := new * 65536
  let size := n * 65536
  let cells := (s.mem.filter fun c => a ≤ c.1 && c.1 < a + size).map fun c => (c.1 - a + b, c.2)
  let s := { s with mem := Memory.writeCells (s.mem.filter fun c => !(a ≤ c.1 && c.1 < a + size || (b ≤ c.1 && c.1 < b + size))) cells }
  let die (d : Nat) : Nat := homeDie d
  let turned : Table HomeLine := s.ms.home.map fun (d, h) =>
    if a / 64 ≤ d && d < a / 64 + size / 64 then (d, h.moved (die d) (die (d - a / 64 + b / 64))) else (d, h)
  let s := s.modMS fun m => { m with
    home := turned.move (a / 64) (size / 64) (b / 64), lineKeys := m.lineKeys.move (a / 64) (size / 64) (b / 64)
    marks := NatSet.move m.marks (a / 64) (size / 64) (b / 64)
    poison := NatSet.move m.poison (a / 4) (size / 4) (b / 4), faces := m.faces.move old n new, frames := m.frames.move old n new }
  s.raiseFloor (sliceOf (b / 64)) (s.floorOf (sliceOf (a / 64)))

/-- TMOVE_TRANSFER_DONE: steps 4 to 6 of R351: the page stands in its new frame, the leaves name it, and what was held goes
on. -/
def execTmoveTransferDone (c jid : Nat) (s : State) : Res :=
  match s.ms.holds.find? fun p => p.jid = some jid && p.cluster = c with
  | none => .next s
  | some h =>
    let leafOf (a : Nat) : Word := BitVec.ofNat 64 (s.mem.readNat a 8)
    let mapping (f : Nat) : List (Nat × Nat) :=
      (Table.getD s.ms.frames f []).filterMap fun p => (s.leafAddr (p * 65536)).map fun x => (p, x.1)
    let twin := (mapping h.frame).any fun x => leafTwin (leafOf x.2)
    let n := if twin then 2 else 1
    let leaves := (mapping h.frame ++ if twin then mapping (h.frame + 1) else []).eraseDups
    let pages := leaves.map (·.1)
    let host := decide (h.dest ≥ 2 ^ 26)
    let frame := if host then h.dest - 2 ^ 26 else h.dest
    -- a page of the second frame alone names the new second frame
    let newLeaf (l : Word) : Word :=
      (l &&& 0x0000_003F_FFFF_F3FF) |||
        BitVec.ofNat 64 ((frame + (frameKey l false - h.frame)) * 2 ^ 38 + (if host then 1024 else 0))
    let s := s.rekey (h.frame * 1024) (n * 1024)
    let s := leaves.foldl (fun s x => { s with mem := s.mem.writeNat x.2 8 (newLeaf (leafOf x.2)).toNat }) s
    let s := s.moveFrames h.frame h.dest n
    let s := s.modMS fun m => { m with
      xlat := m.xlat.filter fun x => !(leafLeaf x.entry && x.level = 3 && pages.contains x.index)
      freeFrames := (List.range n).foldl (fun l i => NatSet.insert l (h.frame + i)) m.freeFrames }
    let s := (s.releasePage h).modJobEntry c jid fun e => { e with bytes := BitVec.ofNat 32 (65536 * n) }
    let s := match h.port with | some p => s.sharePort p | none => s
    .next (s.endJob c jid 2)

/-! ## Requests (R287) -/

/-- HOME_REQUEST: a request reaches the home of its line, or the replica on its base die. -/
def execHomeRequest (r : Req) (s : State) : Res :=
  match s.placeFor r with
  | none => .next (if r.kind = .move then s.endJob (clusterOf r.core) r.data2.toNat 3 else s.homeUnmapped r)
  | some pl =>
    -- a home in a fenced half answers data-lost (R372)
    if s.homeFenced pl.dir then .next (s.replyFenced r pl.dir)
    else match s.replicaOf r with
    | some x =>
      let enrols := decide (r.kind = .fetch) && decide (leafTier pl.leaf ≠ 1)
      match (if enrols then s.needsEntry pl r else none) with
      | some s => .next s
      | none =>
      let s := s.modMS fun m =>
        let g := Table.getD m.regions (regionOf r.line) RepRegion.reset
        { m with regions := Table.set m.regions (regionOf r.line) { g with hits := g.hits + 1 } }
      let s := if enrols then s.putHome pl.dir ((s.homeLine pl.dir).enrol pl.dir (reqAgent r)) else s
      let i : Install := if leafTier pl.leaf = 1 then .none else match r.kind with
        | .fetch => .shared
        | _ => if r.pol = .sis then .leased else .untracked
      .next (s.replyTo r { replyOf x.data 0xFFFF x.wts.toNat i with rts := x.rts.toNat, aliased := s.aliased pl.dir } 7)
    | none =>
      if r.kind = .free then .next (s.homeFree r pl)
      else if r.kind = .publish then .next (s.homePublish r pl)
      else if r.kind = .move then .next (s.homeMove r pl)
      -- shadow beats are never held; one into code invalidates the fetched copies and marks the line as any write does (R357)
      else if r.shadow && !leafCode pl.leaf then
        .next ((s.writeLine pl.back pl.key r.mask r.data).replyTo r (replyOf 0 0 0 .none) (replyCycles r pl.dir))
      else if !r.shadow && s.ms.holds.any fun p => p.covers pl.dir then
        .next (s.modMS fun m =>
          { m with holds := m.holds.map fun p => if p.covers pl.dir then { p with held := p.held ++ [r] } else p })
      else
        let s := s.portTraffic r pl.dir
        let h := s.homeLine pl.dir
        if h.txn.isSome || !h.queue.isEmpty then .next (s.putHome pl.dir { h with queue := h.queue ++ [r] })
        else match s.needsEntry pl r with
          | some s => .next s
          | none => .next ((s.homeStart r pl).homeNext pl.dir)

/-! ## Publishing (R359, R374, R375) -/

/-- A page in part of a range: the first and the last address of the range on it, and its attributes. -/
structure RangePage where
  first : Nat
  last : Nat
  attr : Attr
  deriving DecidableEq, Repr

/-- The pages of the range from `a` to `last`, in order. -/
def State.rangePages (s : State) (last : Nat) : Nat → Nat → List RangePage
  | 0, _ => []
  | n + 1, a =>
    if a > last then []
    else
      let x := (s.walk a).attr
      let size := if x.big then 2 ^ 29 else 2 ^ 16
      let stop := min last (a / size * size + size - 1)
      { first := a, last := stop, attr := x } :: State.rangePages s last n (stop + 1)

/-- The directory lines of a range's part on a mapped page: the first one and their number. -/
def State.rangeDirs (s : State) (x : RangePage) : Nat × Nat :=
  ((s.placeUnder s.ctx.job x.attr (x.first / 64)).dir, x.last / 64 - x.first / 64 + 1)

/-- The cores that lie in a scope of the current core. -/
def State.inCodeScope (s : State) (scope : Scope) (k : Nat) : Bool :=
  match scope with
  | .core => k = s.myCore
  | .clu => clusterOf k = s.myCluster
  | .die => dieOf k = s.myDie
  | .pkg | .sys => true

/-- `xpub` (R359, R374). The pages are checked in order, as the tables stand. -/
def execXpub (a b : GReg) (scope : Scope) (s : State) : Res :=
  withG [a, b] s
    (let lo := (s.g a).toNat
     let n := (s.g b).toNat
     if n ≥ 2 ^ 32 then illegal s
     else if n ≠ 0 && lo + n > 2 ^ 55 then trapTo s causeAddress (s.g a)
     else
       let pages := if n = 0 then [] else s.rangePages (lo + n - 1) 65537 lo
       let bad := pages.findSome? fun x =>
         if leafAbsent x.attr.leaf then some (none, x)
         else if !leafMapped x.attr.leaf || leafBad x.attr.big x.attr.leaf then some (some causeAddress, x)
         else if (s.rightsEntry s.ctx.job (leafDomain x.attr.leaf)).rights = 0 then some (some causeProtection, x)
         else none
       match bad with
       | some (none, x) => .next (s.parkPage x.first)
       | some (some c, x) => trapTo s c (BitVec.ofNat 64 x.first)
       | none =>
         let code := (pages.filter fun x => leafCode x.attr.leaf).map s.rangeDirs
         let inCode (d : Nat) : Bool := code.any fun x => decide (x.1 ≤ d) && decide (d < x.1 + x.2)
         if !s.performed scope false then .next (s.awaitPerformed .drain scope)
         else if n = 0 then .next (s.finish 8)
         else if s.ms.home.any fun (d, h) => inCode d && h.txn.isSome then .next (s.rest .flush 8)
         else
           let s := s.modMS fun m => { m with marks := m.marks.filter fun d => !(inCode d) }
           let ks := (s.cores.map (·.1)).filter (s.inCodeScope scope)
           let s := ks.foldl (fun s k => s.modCore k fun c => { c with loopBuf := [] }) s
           let blockIn (x : FetchBlock) : Bool := decide (lo / 64 ≤ x.addr / 64) && decide (x.addr / 64 ≤ (lo + n - 1) / 64)
           let s := (s.allThreads.filter fun t => s.inCodeScope scope (coreOf t)).foldl (fun s t =>
             s.modCtxAt t fun c => if c.fblock.any blockIn then { c with fblock := none } else c) s
           .next ((s.finish 8).rest .timedMemory (match scope with | .core | .clu => 16 | .die => 40 | .pkg | .sys => 100)))

/-- `bufpub` (R355, R375). -/
def execBufpub (a : GReg) (s : State) : Res :=
  withG [a] s
    (let va := (s.g a).toNat
     let line := va / 64
     if va ≥ 2 ^ 55 then trapTo s causeAddress (s.g a)
     else
       let l := (s.walk va).attr
       if leafMapped l.leaf && !leafTwin l.leaf then trapTo s causeAddress (s.g a)
       else withPages s va 1 .write id fun _ =>
         match s.ctx.gather.find? fun x => x.line = line with
         | some x => if x.st = .ok then .next (s.finish 8) else s.badLine line x.st x.wts
         | none =>
           if s.ctx.asked.contains line then .next (s.park .access)
           else
             let s := s.park .access
             .next ({ s with ctx := { s.ctx with asked := [line] } }.sendReq
               (s.newReq (.load s.cur) .publish .unc false line (BitVec.allOnes 64))))

/-! ## Moving a page (R351, R376) -/

/-- `tmove` to a channel, or to the host tier for 4,096. -/
def tmove (d a : GReg) (dest : Nat) (s : State) : Res :=
  withG [a] s
    (let va := (s.g a).toNat
     if va ≥ 2 ^ 55 || va % 65536 ≠ 0 then trapTo s causeAddress (s.g a)
     else match s.freeJob s.myCluster with
       | none => .next (s.park .jobTable)
       | some i =>
         let (s, jid) := s.takeJob s.myCluster i { JobEntry.reset with engine := false, move := true }
         let r : Req := { s.newReq (.load noThread) .move .unc false (va / 64) 0 with
           data := BitVec.ofNat 512 dest, data2 := BitVec.ofNat 512 jid }
         .next (((s.sendReq r).setG d (BitVec.ofNat 64 jid) false).finish 12))
def execTmoveDram (d a : GReg) (ch : BitVec 12) (s : State) : Res := tmove d a ch.toNat s
def execTmoveHost (d a : GReg) (s : State) : Res := tmove d a 4096 s

/-! ## Replication hints and counters (R377, R378) -/

/-- A hint on the region that a register names; with a falling degree the thread waits for the dropped replicas. -/
def rephint (a : GReg) (f : RepRegion → RepRegion) (s : State) : Res :=
  withG [a] s
    (let va := (s.g a).toNat
     if va ≥ 2 ^ 55 then trapTo s causeAddress (s.g a)
     else
       let n := va / 2 ^ 21
       let g := s.repRegion n
       let g' := f g
       let s' := ((s.modMS fun m => { m with regions := Table.set m.regions n g' }).trimReplicas n).windowEnds
       let gone := s.ms.replicas.filter fun x => x.region = n && !(s'.ms.replicas.contains x)
       let trip := (gone.map fun x => replicaTrip x.pline x.base).foldl max 0
       .next (if g'.degree < g.degree then (s'.finish 8).rest .timedMemory trip else s'.finish 8))
def execRephintClear (a : GReg) (s : State) : Res := rephint a (fun g => { g with pin := none, cap := none }) s
def execRephintPin (a : GReg) (deg : BitVec 2) (s : State) : Res :=
  rephint a (fun g => { g.setDegree deg.toNat with pin := some deg.toNat, cap := none }) s
def execRephintCap (a : GReg) (deg : BitVec 2) (s : State) : Res :=
  rephint a (fun g => { g.setDegree (min g.degree deg.toNat) with pin := none, cap := some deg.toNat }) s

def execRepstat (d a : GReg) (ctr : BitVec 2) (s : State) : Res :=
  withG [a] s
    (let va := (s.g a).toNat
     if va ≥ 2 ^ 55 then trapTo s causeAddress (s.g a)
     else if !s.ctx.asked.contains remoteMark then
       -- the counters are read 20 cycles after issue
       withPages s va 1 .read id fun _ =>
         let s := s.park .timedMemory
         .next ({ s with ctx := { s.ctx with asked := [remoteMark] } }.schedule 20 (.remoteReadMessage s.cur))
     else
       let g := s.repRegion (va / 2 ^ 21)
       let v : Word := match ctr.toNat with
         | 0 => g.hits
         | 1 => g.collapsed
         | 2 => g.changes
         | _ => BitVec.ofNat 64 g.degree
       .next ((s.setG d v false).finish 8))

/-! ## Lookaside buffers (R379) -/

/-- What every core and every translation unit forgets. -/
def State.forget (s : State) (f : Core → Core) (x : XlatEntry → Bool) : State :=
  { s with cores := s.cores.map fun (k, c) => (k, f c) }.modMS fun m => { m with xlat := m.xlat.filter x }
/-- The translations of an address's page (R379). -/
def State.forgetPage (s : State) (va : Nat) : State :=
  s.forget (fun c => { c with attrs := c.attrs.filter fun x => !(x.covers va) }) fun x => !(x.covers va)
/-- A lookaside buffer's instruction: the thread goes on 120 cycles from issue. -/
def shootdown (s : State) : Res := .next ((s.finish 8).rest .timedMemory 120)
def execPlbinvOne (a : GReg) (s : State) : Res :=
  withG [a] s
    (if (s.g a).toNat ≥ 65536 then trapTo s causeAddress (s.g a)
     else shootdown (s.forget (fun c => { c with rights := c.rights.filter fun r => r.domain.toNat ≠ (s.g a).toNat }) fun _ => true))
def execPlbinvAll (s : State) : Res := shootdown (s.forget (fun c => { c with rights := [] }) fun _ => true)
def execTlbinvOne (a : GReg) (s : State) : Res := withG [a] s (shootdown (s.forgetPage (s.g a).toNat))
def execTlbinvAll (s : State) : Res := shootdown (s.forget (fun c => { c with attrs := [] }) fun _ => false)

/-! ## Leaves (R344, R348, R349) -/

/-- The pages that map a frame of 64 KiB, as its own page or in a 512 MiB page (R348). -/
def State.framePages (s : State) (f : Nat) : List Nat :=
  Table.getD s.ms.frames f [] ++ Table.getD s.ms.frames (2 ^ 50 + f / 8192) []

/-- A mapping of a leaf's frame, or of a frame in it, would be the third beside those of other pages. -/
def State.thirdMapping (s : State) (leaf : Word) (big : Bool) (page : Nat) : Bool :=
  let others (n : Nat) : Bool := decide (2 ≤ ((s.framePages n).filter (· ≠ page)).length)
  (frameKeys leaf big).any fun k =>
    if big then
      let f := (k - 2 ^ 50) * 8192
      others f || s.ms.frames.any fun x => decide (x.1 < 2 ^ 50) && x.1 / 8192 = f / 8192 && others x.1
    else others k

/-- An access at home of every line of a page that has an entry of some kind, which nobody waits for: every registration is revoked,
and with `store` every sharer is invalidated (R287). -/
def State.sweepPage (s : State) (pl : Place) (store : Bool) (which : Nat → HomeLine → Bool) : State :=
  (s.ms.home.filter fun (d, h) => pl.hits d && which d h).foldl (fun s (d, _) => s.schedule 0 (.homeRequest
    { src := .report 0, kind := if store then .store else .load, pol := .unc, acq := false, core := homeDie d * 512, job := 0,
      line := physBase + d, mask := if store then 0 else BitVec.allOnes 64, data := 0, data2 := 0,
      ptime := s.floorOf (sliceOf d), lease := 10, path := [], shadow := false })) s

/-- Something for a page waits in a store queue, or is on its way to home, to a cache or back. -/
def State.pageComing (s : State) (a : Attr) (pl : Place) : Bool :=
  (s.cores.any fun x => x.2.queue.any fun e => a.covers (e.req.line * 64)) || s.agenda.any fun (_, e) => match e with
    | .homeRequest r => if r.line ≥ physBase then pl.hits (r.line - physBase) else a.covers (r.line * 64)
    | .vcacheLookup r _ | .memoryReply r _ | .storeQueueAck r _ | .instructionCacheFill r _ => a.covers (r.line * 64)
    | .homeWriteback w | .vcacheWriteback w _ => a.covers (w.line * 64)
    | _ => false

/-- Step 3 of R344 for a page on its way out: what is held of it is returned or ends, and once nothing of it is on its way
the page is gone. -/
def State.flushLeaving (s : State) (x : Leaving) (again : Instr) : State :=
  let pl := s.placeUnder 0 x.attr (x.attr.page * pageLines x.attr.big)
  let held (_ : Nat) (h : HomeLine) : Bool := h.registered ≠ 0 || !h.noSharers
  if !x.flushed then
    (((s.sweepPage pl true fun _ _ => true).collapsePage pl).invalidatePage pl).modMS (fun m => { m with
      leaving := m.leaving.map fun y => if y = x then { y with flushed := true } else y }) |>.schedule 1 again
  else if s.pageComing x.attr pl || !s.pageQuiet pl then s.schedule 1 again
  -- what was registered or enrolled by requests that were still on their way ends too
  else if s.ms.home.any fun (d, h) => pl.hits d && held d h then (s.sweepPage pl true held).schedule 1 again
  else ((s.collapsePage pl).invalidatePage pl).modMS fun m => { m with leaving := m.leaving.filter (· ≠ x) }

/-- A leaf is written, and the home slice of its frame knows its page (R348). -/
def State.writeLeaf (s : State) (a page : Nat) (big : Bool) (leaf : Word) : State :=
  let mapped := leafMapped leaf && !leafBad big leaf
  let s := { s with mem := s.mem.writeNat a 8 leaf.toNat }
  s.modMS fun m =>
    let f := (m.frames.map fun (n, ps) => (n, ps.filter (· ≠ page))).filter fun x => !x.2.isEmpty
    if mapped then
      { m with
        frames := (frameKeys leaf big).foldl (fun f k => Table.set f k (NatSet.insert (Table.getD f k []) page)) f
        -- the face bit of a TWIN pair that no other page maps is 0 at mapping (R354)
        faces := if (Table.getD f (frameKey leaf big) []).isEmpty then Table.del m.faces (frameKey leaf big) else m.faces }
    else { m with frames := f }

/-- Every channel of a leaf's frames is ready: the command processor maps no others (R361). -/
def State.channelsReady (s : State) (leaf : Word) (big : Bool) : Bool :=
  let first := (leaf.toNat / 2 ^ 38) * 2 ^ 16
  leafTier leaf = 1 || (List.range (if big then (if leafTwin leaf then 8 else 4) else 1)).all fun i =>
    s.pkg.channelReady.contains (Config.channelOf (first + i * 2 ^ 27))

/-- LEAF_WRITE_VALID: the command processor writes a leaf (R344, R348, R349). A mapped page that is written as not mapped loses
its translations, and is flushed once they are gone, 120 cycles later; what follows waits for that. A third mapping of a
frame is refused; with a second one no agent keeps a registration on it (R294). A mapped leaf wakes the threads recorded for its
page. -/
def execLeafWriteValid (va : Nat) (leaf : Word) (s : State) : Res :=
  match s.leafAddr va with
  | none => .next s
  | some (a, big) =>
    let page := if big then va / 2 ^ 29 * 8192 else va / 2 ^ 16
    let old : Attr := { page := if big then va / 2 ^ 29 else va / 2 ^ 16, big := big, leaf := BitVec.ofNat 64 (s.mem.readNat a 8) }
    let mapped := leafMapped leaf && !leafBad big leaf
    match s.ms.leaving.find? fun x => x.attr.page = old.page && x.attr.big = big with
    | some x =>
      .next (if leaf = old.leaf then s.flushLeaving x (.leafWriteValid va leaf) else s.schedule 1 (.leafWriteValid va leaf))
    | none =>
      if mapped && s.thirdMapping leaf big page then
        -- the leaf stays, or becomes, unmapped (R348)
        if leafMapped old.leaf then .next (s.schedule 0 (.leafWriteValid va 0)) else .next (s.writeLeaf a page big 0)
      else if mapped && !s.channelsReady leaf big then .next s
      else if leafMapped old.leaf && !leafBad big old.leaf && !mapped then
        let s := ((s.writeLeaf a page big leaf).forgetPage va).modMS fun m =>
          { m with leaving := m.leaving ++ [{ attr := old, flushed := false }] }
        .next (s.schedule 120 (.leafWriteValid va leaf))
      else
        let s := s.writeLeaf a page big leaf
        if mapped then
          let pl := s.placeUnder 0 { old with leaf := leaf } (old.page * pageLines big)
          let s := s.sweepPage pl false fun d _ => s.aliased d
          let here (p : Nat) : Bool := if big then p / 8192 * 8192 = page else p = page
          let ts := ((s.ms.parked.filter fun p => here p.1).map (·.2)).eraseDups
          let s := (s.modMS fun m => { m with parked := m.parked.filter fun p => !(here p.1) }).modPkg fun p =>
            { p with pageIns := p.pageIns.filter fun q => !(here q) }
          .next (ts.foldl (fun s t => s.schedule 64 (.residencyWake t)) s)
        else .next s

end Sys2Proof.Machine
end

