-- ==== Sys2Proof/Machine/Swap.lean ====
section
/-! DEFINITION. Pre-emption through the context cache (07_core R152 to R154, 08 R186, 14 R302, 21 R380). -/
namespace Sys2Proof.Machine

/-- The mark in `asked` of a `ctxswap` that waits, before the slot and the entry; the next number marks its end, before
whether it failed. -/
def swapMark : Nat := 2 ^ 61 + 16

/-- R154 and R186 defer the swap of a context: it has an absent register, waits for a message, has an engine command
outstanding or a signal pending, or a bound stream. -/
def State.swapDeferred (s : State) (t : Nat) : Bool :=
  let c := s.ctxAt t
  let waits : Bool := match c.wait with
    | .away .wakeWait | .away .jobWait | .away .channelWait | .away .counterWait => true
    | .timed .counterWait a => decide (s.cycle < a)
    | _ => false
  waits || c.regs.gPres ||| 1 ≠ 0xFFFF_FFFF || c.regs.vPres ≠ 0xFFFF_FFFF || c.efaults ≠ [] ||
    (c.streams.toList.any fun x => x.isSome) || !s.enginesDone t

/-- The outgoing context owes a reply (step 1 of R153). -/
def State.swapOwes (s : State) (t : Nat) : Bool :=
  match (s.ctxAt t).wait with
  | .ready _ | .away .page | .away .fullEmpty | .away .presence => false
  | .timed _ a => decide (s.cycle < a)
  | .away _ => true

/-- Step 1 of R153 can end. -/
def State.swapReady (s : State) (t : Nat) : Bool := !s.swapDeferred t && !s.swapOwes t

/-- The swap of a slot: the entry, with 256 added while step 1 waits, and the context that leaves. -/
def State.swapAt (s : State) (t : Nat) : Option (Nat × Option Ctx) := Table.get? (s.cluster (clusterOf (coreOf t))).swaps t

/-- No other swap of the cluster is under way with the entry. -/
def State.entryIdle (s : State) (t entry : Nat) : Bool :=
  (s.cluster (clusterOf (coreOf t))).swaps.all fun x => x.1 = t || x.2.1 % 256 ≠ entry

/-- Another swap of the slot is under way. -/
def State.slotBusy (s : State) (t entry : Nat) : Bool :=
  match s.swapAt t with
  | some (e, _) => e ≠ entry + 256
  | none => false

/-- Step 1 of R153 waits: the slot is vacant, and its context has lost its position. -/
def State.vacate (s : State) (t entry : Nat) : State :=
  (s.modCluster (clusterOf (coreOf t)) fun x => { x with swaps := Table.set x.swaps t (entry + 256, none) }).dropPosition t
/-- A swap that is deferred (R154): its context goes on. -/
def State.deferSwap (s : State) (t : Nat) : State :=
  s.modCluster (clusterOf (coreOf t)) fun x => { x with swaps := Table.del x.swaps t }

/-- An entry's context may be restored into the slot: it was saved there (R154), and the core runs its job (R195). -/
def State.entryFits (s : State) (t entry : Nat) : Bool :=
  match Table.get? (s.cluster (clusterOf (coreOf t))).cache entry with
  | none => true
  | some (slot, c) => slot = t && s.boundTo (coreOf t) c.job

/-- The swap is over: the thread that issued it goes on (R380), or its kind-2 record is empty, or in error (R302). -/
def State.swapOver (s : State) (t entry : Nat) (issuer : Option Nat) (failed : Bool) : State :=
  match issuer with
  | some u =>
    if (s.ctxAt u).asked = [swapMark, t, entry] then
      (s.modCtxAt u fun c => { c with asked := [swapMark + 1, if failed then 1 else 0] }).kick u
    else s
  | none => match Table.get? (s.die (dieOf (coreOf t))).records (t % 8192) with
    | some r => if r.kind = 2 && r.entry.toNat = entry then (if failed then s.recordError t else s.clearRecord t) else s
    | none => s

/-- Step 1 of R153 has ended: the slot is vacant until the incoming context is in place, and messages for it find no
context there (R154). What the outgoing context has in the store queue goes on under its saved number. -/
def State.beginSwap (s : State) (t entry : Nat) (issuer : Option Nat) : State :=
  let k := clusterOf (coreOf t)
  let c := s.ctxAt t
  let out := if c.inst then some { c with lastIssue := none, fblock := none } else none
  let s := s.modCluster k fun x => { x with swaps := Table.set x.swaps t (entry, out) }
  let s := (((s.setCtxAt t Ctx.reset).dropPosition t).reserve t UnitInfo.none).renumber (coreOf t) t (savedThread t 256)
  s.schedule (52 + (if (Table.get? (s.cluster k).cache entry).isSome then Config.swapFill k entry s.cycle else 0))
    (.contextSwap (t, issuer) (entry + 256))

/-- A context that comes back is waiting if it was ready when saved; else it resumes its saved wait (R153): on a full/empty
word its replays go on, on a page the translation unit is asked for it again, since its wake may have come meanwhile. -/
def State.restore (s : State) (t : Nat) (c : Ctx) : State :=
  match c.wait with
  | .away .fullEmpty => (s.setCtxAt t c).schedule 8 (.fullEmptyReplay t)
  | .away .page => c.absent.foldl (fun s p => s.recordAbsent t p) (s.setCtxAt t c)
  | _ => s.setCtxAt t { c with wait := .ready s.cycle }

/-- Step 3 of R153: the two contexts have changed places. -/
def State.exchange (s : State) (t entry : Nat) (out : Option Ctx) : State :=
  let k := clusterOf (coreOf t)
  let incoming := (Table.get? (s.cluster k).cache entry).map (·.2)
  let s := (s.renumber (coreOf t) (savedThread t entry) t).renumber (coreOf t) (savedThread t 256) (savedThread t entry)
  let s := s.modCluster k fun x => { x with
    swaps := Table.del x.swaps t
    cache := match out with
      | some c => Table.set x.cache entry (t, c)
      | none => Table.del x.cache entry }
  match incoming with
  | some c =>
    (s.modCore (coreOf t) fun x => { x with reserved := Table.del x.reserved (slotOf t) }).restore t c
  | none => s.unreserve t

/-- CONTEXT_SWAP: step 1 of R153 for the entry named, or, with the entry's number plus 256, step 3, 52 cycles after it and the
time of the entry's fill. The slot comes with the thread that issued the swap, none for a bind record's. -/
def execContextSwap (slot : Nat × Option Nat) (entry : Nat) (s : State) : Res :=
  let t := slot.1 % 65536
  let e := entry % 256
  let again := Instr.contextSwap (t, slot.2) e
  if entry ≥ 256 then
    match s.swapAt t with
    | some (e', out) => if e' = e then .next ((s.exchange t e out).swapOver t e slot.2 false) else .next s
    | none => .next s
  else if s.slotBusy t e || !s.entryIdle t e then .next (s.schedule 1 again)
  else if !s.entryFits t e then .next ((s.deferSwap t).swapOver t e slot.2 true)
  else if (s.ctxAt t).inst then
    if s.swapDeferred t then .next ((s.deferSwap t).schedule 1 again)
    else if s.swapOwes t then .next ((s.vacate t e).schedule 1 again)
    else .next (s.beginSwap t e slot.2)
  else if (Table.get? (s.core (coreOf t)).reserved (slotOf t)).isSome then .next (s.schedule 1 again)
  else .next (s.beginSwap t e slot.2)

/-- BIND_RECORD_SWAP: a kind-2 record (R302). -/
def execBindRecordSwap (slot : Nat) (r : Option BindRec) (s : State) : Res :=
  let t := slot % 65536
  .next (s.withRecord t r fun s r =>
    if !recordOk 2 r || r.entry.toNat ≥ 256 then s.recordError t
    else s.schedule 0 (.contextSwap (t, none) r.entry.toNat))

/-- `ctxswap` (R380). -/
def execCtxswap (a b : GReg) (s : State) : Res :=
  withG [a, b] s
    (match s.ctx.asked with
     | [m, x] => if m = swapMark + 1 then (if x = 0 then .next (s.finish 8) else trapTo s causeAddress (s.g b)) else start
     | [m, _, _] => if m = swapMark then .next (s.park .jobWait) else start
     | _ => start)
where
  start : Res :=
    let e := (s.g a).toNat
    let t := (s.g b).toNat
    if e > 255 then trapTo s causeAddress (s.g a)
    else if t ≥ 65536 || clusterOf (coreOf t) ≠ s.myCluster || t = s.cur then trapTo s causeAddress (s.g b)
    else match Table.get? (s.cluster s.myCluster).cache e with
      | some (slot, c) =>
        if c.job ≠ s.ctx.job then trapTo s causeProtection (s.g a)
        else if slot ≠ t then trapTo s causeAddress (s.g b)
        else go t e
      | none => go t e
  go (t e : Nat) : Res :=
    let s := s.park .jobWait
    .next ({ s with ctx := { s.ctx with asked := [swapMark, t, e] } }.schedule 0 (.contextSwap (t, some s.cur) e))

end Sys2Proof.Machine
end

