-- ==== Sys2Proof/Machine/Failures.lean ====
section
/-! DEFINITION. Failures and their containment (14 R316, 20_package_faults R364 to R372, 13 R295): soft errors, the reset of
a cluster, ring links that fail, the ring split and its fence. -/
namespace Sys2Proof.Machine

/-! ## Poisoned words and packets (R295, R316, R364) -/

/-- Words of a home line become X, and no agent holds them. -/
def State.loseWords (s : State) (dir : Nat) (ws : BitVec 16) : State :=
  let reg := ws &&& (s.homeLine dir).registered
  let s := if reg = 0 then s else s.putWords dir reg 0
  s.setPoison (s.front dir) ws true

/-- The words of a virtual line that an agent has lost. -/
def State.loseLine (s : State) (job line : Nat) (ws : BitVec 16) : State :=
  match (if ws = 0 then none else s.place job line) with
  | some pl => s.loseWords pl.dir ws
  | none => s

/-- The reply on its way to a thread's access. -/
def State.replyComing (s : State) (t : Nat) : Option (Nat × Instr × Req) :=
  s.agenda.findSome? fun (n, e) => match e with
    | .memoryReply r _ | .instructionCacheFill r _ =>
      (match r.src with
       | .load k => if k = t then some (n, e, r) else none
       | .fetch k => if k = t then some (n, e, r) else none
       | _ => none)
    | _ => none

/-- POISONED_PACKET_DROP: a receiver drops a packet of the cluster and counts it; where it was the reply of a thread's
access, the access ends with data-lost. -/
def execPoisonedPacketDrop (c : Nat) (req : Option Nat) (s : State) : Res :=
  let s := s.modDie (c / 64 % 8) fun d => { d with poisoned := d.poisoned + 1 }
  match req with
  | some t =>
    if (s.ctxAt t).inst && (s.ctxAt t).asked.contains remoteMark then
      .next ((s.modCtxAt t fun c => { c with asked := [lostMark] }).kick t)
    else
      match s.replyComing t with
      | some (n, e, r) =>
        .next ({ s with agenda := s.agenda.erase (n, e) }.replyTo r
          { replyOf 0 0 (firstByte r.mask 0xFFFF) .none with st := .dataLost } 0)
      | none => .next s
  | none => .next s

/-- DROPPED_REPLY_TIMEOUT: a request whose reply was dropped completes with data-lost (R364): an access to a far local store, a
load whose migration was lost, a page's move, or a request of the memory system. -/
def execDroppedReplyTimeout (r : Req) (s : State) : Res :=
  let far (t : Nat) : Bool := (s.ctxAt t).inst &&
    match (s.ctxAt t).wait, (s.ctxAt t).asked with
    | .away _, k :: _ => k < 4096 || k = remoteMark || k = launchMark
    | _, _ => false
  match r.kind, r.src with
  | .move, _ => .next (s.endJob (clusterOf r.core) r.data2.toNat 3)
  | .load, .load t =>
    if r.mask = 0 then
      .next (if far t then (s.modCtxAt t fun c => { c with asked := [lostMark] }).kick t else s)
    else .next (s.replyTo r { replyOf 0 0 (firstByte r.mask 0xFFFF) .none with st := .dataLost } 0)
  | _, _ => .next (s.replyTo r { replyOf 0 0 (firstByte r.mask 0xFFFF) .none with st := .dataLost } 0)

/-! ## The reset of a cluster (R316, R367) -/

/-- A context that is lost ends its unit with flags, wherever it stood: in its slot, or packed or saved for it. -/
def State.endLost (s : State) (t : Nat) (flags : BitVec 32) : State :=
  if (s.ctxAt t).inst then s.withThread t fun s => s.endUnit flags 0 0 true else s
def State.endStored (s : State) (t : Nat) (c : Ctx) (flags : BitVec 32) : State :=
  (s.setCtxAt t { c with inst := true }).endLost t flags

/-- A recruit whose start is on its way to the cluster is lost with it. -/
def State.loseRecruits (s : State) (here : Nat → Bool) (flags : BitVec 32) : State :=
  let starts := s.agenda.filterMap fun x => match x.2 with
    | .recruitStart m => if here (coreOf m.slot) then some m else none
    | _ => none
  let s := { s with agenda := s.agenda.filter fun x => match x.2 with
    | .recruitStart m => !here (coreOf m.slot)
    | _ => true }
  starts.foldl (fun s m =>
    match Table.get? (s.core (coreOf m.slot)).reserved (slotOf m.slot) with
    | some u =>
      let s := s.modCore (coreOf m.slot) fun k => { k with reserved := Table.del k.reserved (slotOf m.slot) }
      (s.install m.slot m.job u m.pc [] 0 m.ptime false).endLost m.slot flags
    | none => s) s

/-- The contexts of some cores are lost: installed, in their migration buffers, and saved in their context caches; those of
`flying` are on their way to other cores. -/
def State.loseContexts (s : State) (here : Nat → Bool) (flags : BitVec 32) (flying : List Nat := []) : State :=
  let s := (s.allThreads.filter fun t => here (coreOf t) && !flying.contains t).foldl (fun s t => s.endLost t flags) s
  let packets := (s.cores.filter fun k => here k.1).flatMap fun k => k.2.packets
  let s := s.cores.foldl (fun s k => if here k.1 then s.modCore k.1 fun c => { c with packets := [] } else s) s
  let s := packets.foldl (fun s p =>
    (s.endStored p.src p.ctx flags).modCore (coreOf p.src) fun c => { c with forward := Table.del c.forward p.src }) s
  let saved := s.clusters.flatMap fun k => (k.2.cache.filter fun x => here (coreOf x.2.1)).map (·.2)
  let s := s.clusters.foldl (fun s k =>
    s.modCluster k.1 fun c => { c with cache := c.cache.filter fun x => !here (coreOf x.2.1) }) s
  saved.foldl (fun s x => s.endStored x.1 x.2 flags) s

/-- The units that cores of a launch's done tree still hold are reported with flags through a node; tasks and recruits
that are gone are waited for no more. -/
def State.loseUnits (s : State) (here : Nat → Bool) (node : DoneNode) (flags : BitVec 32) : State :=
  let gone := (s.cores.filter fun k => here k.1).flatMap fun k => k.2.reserved.filterMap fun x =>
    match x.2.duty with
    | .chunk => if x.2.lid ≠ 0 then some x.2.lid else none
    | _ => none
  let s := gone.foldl (fun s lid => (s.modLaunch lid fun l => { l with helpers := l.helpers - 1 }).launchCheck lid) s
  s.dies.foldl (fun s (d, x) => x.launches.foldl (fun s (i, l) =>
    let lid := i + d * 2 ^ 12 + l.gen * 2 ^ 16
    let mine := l.kids.filter fun k => here k.1
    if mine.isEmpty then s
    else
      let s := s.modLaunch lid fun l => { l with
        kids := l.kids.filter fun k => !here k.1
        tasks := l.tasks.filter fun t => !here (cellCore t.1) }
      s.discardUnits node lid ((mine.map (·.2)).sum) flags) s) s

/-- A home transaction that an engine of the cluster holds open ends (R221). -/
def State.unlockHome (s : State) (c : Nat) : State :=
  let mine := (s.ms.home.filter fun (_, h) => h.txn.any fun t =>
    t.waiting = [lockTarget] && (match t.req.src with | .copy k _ => k = c | _ => false)).map (·.1)
  mine.foldl (fun s d => (s.putHome d { s.homeLine d with txn := none }).homeNext d) s

/-- The words that the L1s of some cores hold registered become X. -/
def State.loseL1s (s : State) (here : Nat → Bool) : State :=
  (s.cores.filter fun k => here k.1).foldl (fun s k =>
    let s := k.2.l1.foldl (fun s x => s.loseLine x.job x.line x.registered) s
    s.schedule 0 (.agentLostScan (coreAgent k.1))) s

/-- The threads of a cluster whose migration packets have left it whole (R156, R314). -/
def State.flyingFrom (s : State) (here : Nat → Bool) : List Nat :=
  s.agenda.filterMap fun (n, e) => match e with
    | .migrationArrival t =>
      let c := s.ctxAt t
      match c.asked with
      | [core] =>
        let time := migrationCycles c.ctl.vlive (coreOf t) core
        let flits := 1 + (640 + 72 * popCount c.ctl.vlive.toNat 32 + 31) / 32
        if here (coreOf t) && c.inst && decide (n + flits ≤ s.cycle + time) then some t else none
      | _ => none
    | _ => none

/-- Step 1 of R316 for the migration packets that have left the cluster in part: they arrive poisoned. -/
def State.cutFlying (s : State) (c : Nat) (flying : List Nat) : State :=
  let cut := s.agenda.filterMap fun (n, e) => match e with
    | .migrationArrival t =>
      (match (s.ctxAt t).asked with
       | [core] =>
         if clusterOf (coreOf t) = c && (s.ctxAt t).inst && !flying.contains t &&
             decide (n ≤ s.cycle + migrationCycles (s.ctxAt t).ctl.vlive (coreOf t) core) then some n else none
       | _ => none)
    | _ => none
  cut.foldl (fun s n => s.schedule (n - s.cycle) (.poisonedPacketDrop c none)) s

/-- Step 4 of R316 for the replies of far local stores that are on their way to the cluster. -/
def State.owedAnswers (s : State) (c : Nat) : State :=
  let owed := s.cores.flatMap fun (k, x) => if clusterOf k = c then [] else x.answers.filter fun a =>
    clusterOf (coreOf a.thread) = c && decide (s.cycle ≤ a.due)
  owed.foldl (fun s a => s.schedule (a.due - s.cycle) (.memoryReply (farReq a.thread) (replyOf 0 0 0 .none))) s

/-- A message leaves the agenda; the answer has when it was due. -/
def State.unsend (s : State) (msg : Instr) : State × Option Nat :=
  match s.agenda.find? fun x => x.2 = msg with
  | some x => ({ s with agenda := s.agenda.erase x }, some x.1)
  | none => (s, none)

/-- Step 1 of R316: a packet that the cluster has partly sent arrives poisoned; one that has not begun to leave is lost. -/
def State.cutWorms (s : State) (c : Nat) : State :=
  let cut := ((List.range 8).flatMap fun i => (s.core (c * 8 + i)).worms).filter fun w => w.leaving s.cycle
  cut.foldl (fun s w =>
    match s.unsend w.msg with
    | (s, some n) => if w.from_ ≤ s.cycle then s.schedule (n - s.cycle) (.poisonedPacketDrop c none) else s
    | (s, none) => s) s

/-- A far access whose reply is lost stands again as it was before the access. -/
def State.undo (s : State) (core : Nat) (x : Answer) : Option State :=
  let t := s.ctxAt x.thread
  match t.inst, t.wait with
  | true, .timed q _ =>
    some (s.setCtxAt x.thread { t with
      regs := x.before.regs, loops := x.before.loops, pc := x.before.pc, latch := x.before.latch, rep := x.before.rep,
      follow := x.before.follow, asked := [remoteMark, core], wait := .away q })
  | _, _ => none

/-- Step 1 of R316 for the replies of the cluster's local stores that have partly left: they arrive poisoned. -/
def State.cutAnswers (s : State) (c : Nat) : State :=
  let cut := (List.range 8).flatMap fun i => ((s.core (c * 8 + i)).answers.filter fun x =>
    decide (s.cycle < x.from_ + answerFlits) && clusterOf (coreOf x.thread) ≠ c).map fun x => (c * 8 + i, x)
  cut.foldl (fun s (k, x) =>
    match s.undo k x with
    | some s => s.schedule (x.due - s.cycle) (.poisonedPacketDrop c (some x.thread))
    | none => s) s

/-- Step 1 of R316 for what an L1 of the cluster sends to home: data that has partly left is poisoned, and the word it was is
lost with the agent (R295). -/
def State.cutProbes (s : State) (c : Nat) : State :=
  let cut := s.agenda.filter fun (n, e) => match e with
    | .probeAcknowledgement a =>
      let half := s.probeTrip a.pline a.agent
      !a.agent.getLsbD 31 && !agentIsRoot a.agent && clusterOf (agentCore a.agent) = c && a.words ≠ 0 &&
        decide (s.cycle + (half - half / 2) < n + answerFlits)
    | _ => false
  cut.foldl (fun s x => { s with agenda := s.agenda.erase x }.schedule (x.1 - s.cycle) (.poisonedPacketDrop c none)) s

/-- CLUSTER_RESET: the network steps of R316, the loss of every context, and the clearing of R195. -/
def execClusterReset (c : Nat) (s : State) : Res :=
  let here (k : Nat) : Bool := clusterOf k = c
  let s := ((s.cutWorms c).cutAnswers c).cutProbes c
  let flying := s.flyingFrom here
  let s := (s.cutFlying c flying).owedAnswers c
  let flags := stRst ||| stFault
  let s := s.logEvent (c / 64 % 8) 3 c 0
  let s := s.modPkg fun p => { p with
    coreReady := p.coreReady.filter fun k => !here k
    clusterReady := p.clusterReady.filter (· ≠ c) }
  let s := (s.loseRecruits here flags).loseContexts here flags flying
  let s := s.dies.foldl (fun s (d, _) => s.modDie d fun x => { x with
    ready := x.ready.filter fun i => match i with
      | .task rec _ _ => !here (cellCore rec)
      | .launch _ _ _ => true
    records := x.records.filter fun r => !(d = c / 64 && r.1 / 128 = c % 64) }) s
  let s := s.loseUnits here (.group (c / 4)) flags
  let s := ((s.unlockHome c).loseL1s here)
  let s := (List.range 8).foldl (fun s i => s.modCore (c * 8 + i) fun k =>
    { Core.reset with nextId := k.nextId, counters := k.counters, orphans := k.orphans }) s
  let s := s.modCluster c fun k => { Cluster.reset with
    dbg := k.dbg, counters := k.counters, visited := k.visited, countFrom := k.countFrom, clearing := true,
    resetUntil := s.cycle + 4096 }
  .next ((s.schedule 0 (.clusterClear c)).roomMoved)

/-! ## Soft errors (R365) -/

/-- The compute die that logs for a base die. -/
def logDie (base : Nat) : Nat := 2 * base

/-- The die, the location and the address of an error's log entry (R368). -/
def eccPlace (w : EccWhere) : Nat × Nat × Nat :=
  match w with
  | .dram pa => (Config.channelOf pa / 512, Config.channelOf pa, pa)
  | .channel ch => (ch / 512 % 8, ch, 0)
  | .bankLine b _ _ => (logDie (b / 2048), b, 0)
  | .cleanLine k _ l => (dieOf k, k, l * 64)
  | .localStore k off => (dieOf k, k, (lsAddr k off))
  | .weightRow c _ | .accumulator c _ | .clusterState c => (c / 64, c, 0)
  | .context t => (dieOf (coreOf (t % 2 ^ 17)), coreOf (t % 2 ^ 17), 0)

/-- A clean line of a core is dropped, to be fetched again; words that it alone held are lost. -/
def State.dropLine (s : State) (k job line : Nat) : State :=
  let reg := (((s.core k).l1Find job line).map (·.registered)).getD 0
  ((s.loseLine job line reg).modCore k fun c => c.l1Drop job line).fetchDrop k job line

/-- The registers of a context are lost, wherever it stands: in its slot, packed for it in a full core's buffer, or, by its saved
number, in an entry of the context cache. Its unit ends with a trap of cause data-lost (R365). -/
def State.loseContext (s : State) (t : Nat) : State :=
  let cause : Word := BitVec.ofNat 64 causeDataLost
  let lost (s : State) : State := s.withThread t fun s => s.endUnit stFault cause 0 true
  if t < 2 ^ 17 then
    if (s.ctxAt t).inst then lost s
    else match s.cores.findSome? fun k => (k.2.packets.find? fun p => p.src = t).map fun p => (k.1, p) with
    | some (k, p) =>
      let s := s.modCore k fun c => { c with packets := c.packets.filter fun q => q.src ≠ t }
      (lost (s.setCtxAt t { p.ctx with inst := true })).modCore (coreOf t) fun c => { c with forward := Table.del c.forward t }
    | none => s
  else
    let (slot, entry) := (t % 2 ^ 17, t / 2 ^ 17 - 1)
    let k := clusterOf (coreOf slot)
    match Table.get? (s.cluster k).cache entry with
    | some (u, c) =>
      if u ≠ slot then s
      else ((s.modCluster k fun x => { x with cache := Table.del x.cache entry }).renumber (coreOf slot) t noThread).reportEnd
        slot c stFault cause 0 true
    | none => s

/-- A DRAM channel is lost: its bit clears (R361), and what home or memory lists of its lines becomes X. DESIGN CHOICE (log 119): the
loss is an outside input; of a line that nothing has written, the words are lost one by one, by errors of their own. -/
def State.loseChannel (s : State) (ch : Nat) : State :=
  let s := s.modPkg fun p => { p with channelReady := p.channelReady.filter (· ≠ ch) }
  let written : List Nat := (s.mem.filter fun c => decide (c.1 < 2 ^ 42)).map fun c => c.1 / 64
  let listed := (s.ms.home.map (·.1) ++ written).eraseDups
  (listed.filter fun l => !lineInHost l && Config.channelOf (l * 64) = ch).foldl (fun s l => s.loseWords l 0xFFFF) s

/-- What an uncorrectable error does where it lies. -/
def State.eccEffect (s : State) (w : EccWhere) : State :=
  match w with
  | .dram pa =>
    let line := pa / 64
    s.loseWords (s.physPlace line).dir (bit (pa % 64 / 4))
  | .bankLine b set way =>
    (match s.ms.banks.find? fun x => x.bank = b && x.set = set && x.way = way with
     | some x =>
       (s.loseLine x.job x.line (if x.dirty then x.registered else 0)).modMS fun m =>
         { m with banks := m.banks.filter fun y => !(y.bank = b && y.set = set && y.way = way) }
     | none => s)
  | .cleanLine k job line => s.dropLine k job line
  | .localStore k off => s.modMS fun m => { m with poison := NatSet.insert m.poison (wordNo (lsAddr k off)) }
  | .weightRow c row => s.modMS fun m => { m with poison := (rowWords c row).foldl NatSet.insert m.poison }
  | .accumulator c a =>
    s.modCluster c fun k => { k with accs := Table.set k.accs a { Table.getD k.accs a Accum.reset with poison := true } }
  | .context t => s.loseContext t
  | .channel ch => s.loseChannel ch
  | .clusterState c => s.schedule 0 (.clusterReset c)

/-- ECC_ERROR: a single-bit error is corrected and logged; a multi-bit error acts by where it lies. -/
def execEccError (w : EccWhere) (multi : Bool) (s : State) : Res :=
  let (die, loc, addr) := eccPlace w
  .next (if multi then (s.eccEffect w).logEvent die 2 loc addr else s.logEvent die 1 loc addr)

/-! ## Ring links (R363, R364) -/

/-- The links that a packet takes from one ring place to another: the shorter live way, on a tie through the lower-numbered
link. -/
def ringRoute (live : BitVec 6) (p q : Nat) : List Nat :=
  let cw := (List.range ((q + 6 - p) % 6)).map fun i => (p + i) % 6
  let ccw := (List.range ((p + 6 - q) % 6)).map fun i => (p + 5 - i) % 6
  let up (l : List Nat) : Bool := l.all fun i => live.getLsbD i
  let short := if cw.length < ccw.length then cw else if ccw.length < cw.length then ccw
    else if cw.headD 0 ≤ ccw.headD 0 then cw else ccw
  if up short then short else if up cw then cw else ccw

/-- The ring places of an agent, or of the sharers that a name stands for. -/
def State.agentPlaces (s : State) (dir : Nat) (a : BitVec 32) : List Nat :=
  let core (k : Nat) : Nat := ringPlace (baseOf (dieOf k))
  if a.getLsbD 31 then [core (if a.getLsbD 30 then a.toNat % 8 * 512 else a.toNat % 512 * 8)]
  else if agentIsRoot a then
    match s.cacheOf (agentJob a) (agentVc a) with
    | some v => ((s.probeLines (agentJob a) dir).map fun l => ringPlace ((v.place l).1 / 2048)).eraseDups
    | none => []
  else [core (agentCore a)]

/-- Where a core's message goes. -/
def State.msgTarget (s : State) (e : Instr) : Option Nat :=
  match e with
  | .wakeDelivery t _ | .rputDelivery (_, t) _ _ | .sendDelivery (_, t) _ _ _ _ => some (coreOf t)
  | .taskDecrement rec _ _ => some (cellCore rec)
  | .remoteStoreMessage _ cells => cells.head?.map fun x => cellCore x.1
  | .remoteReadMessage t => (match (s.ctxAt t).asked with | _ :: k :: _ => some k | _ => none)
  | .reductionDelivery _ (_, some (t, _)) => some (coreOf (t % 65536))
  | _ => none

/-- A packet on its way between two places of the ring goes over a link. -/
def State.goesOver (s : State) (i p q : Nat) : Bool := (ringRoute s.pkg.ringReady p q).contains i
def State.coreGoesOver (s : State) (i k q : Nat) : Bool := s.goesOver i (ringPlace (baseOf (dieOf k))) q
def State.dieGoesOver (s : State) (i d e : Nat) : Bool := s.goesOver i (ringPlace (baseOf d)) (ringPlace (baseOf e))

/-- The packets of dispatch, of the trees and of discovery that a link carries: nobody waits for an answer but the thread of a launch
(R309, R306, R308, R331, R353, R363). -/
def State.workOnLink (s : State) (i at_ : Nat) (e : Instr) : Option (Option (Req × Nat)) :=
  let lost (b : Bool) : Option (Option (Req × Nat)) := if b then some none else none
  match e with
  | .doneMessage .root u => lost (s.dieGoesOver i (dieOf (coreOf u.thread)) (lidDie u.lid))
  | .stealReply die victim => lost (s.dieGoesOver i die victim)
  | .recruitStart m => lost (s.dieGoesOver i (dieOf (coreOf m.holder)) (dieOf (coreOf m.slot)))
  | .migratedUnitStatus holder u => lost (s.dieGoesOver i (dieOf (coreOf u.thread)) (dieOf (coreOf holder)))
  | .reductionDelivery job (n, none) =>
    lost ((s.tree job n).any fun t => t.members.any fun m =>
      s.dieGoesOver i (dieOf (coreOf m)) (dieOf (coreOf (t.members.headD 0))))
  | .replicaFill r _ => lost ((s.placeFor r).any fun pl => s.coreGoesOver i r.core (slicePlace (sliceOf pl.dir)))
  | .explorePacket die from_ =>
    let p := die % 6
    lost ((p = (from_ + 1) % 6 && i = from_) || (from_ = (p + 1) % 6 && i = p))
  | .launchTake l =>
    (match l.thread with
     | some t => if t < queueThread && s.dieGoesOver i (dieOf (coreOf t)) l.die then some (some (farReq t, 40 - (at_ - s.cycle))) else none
     | none => none)
  | _ => none

/-- What a failed link does to a packet in flight that it carries: none where it carries it not; else the request, with the
time since it left, that then completes with data-lost (R364, log 97). -/
def State.onLink (s : State) (i at_ : Nat) (e : Instr) : Option (Option (Req × Nat)) :=
  let total (r : Req) : Nat := ((s.placeFor r).map fun pl => homeCycles r.core pl.dir).getD 0
  let toHome (r : Req) : Bool := (s.placeFor r).any fun pl => match r.src with
    | .host _ => s.goesOver i (slicePlace (64 + s.portOf (filterOf pl.dir))) (slicePlace (sliceOf pl.dir))
    | _ => s.coreGoesOver i r.core (slicePlace (sliceOf pl.dir))
  let probed (a : BitVec 32) (dir : Nat) : Bool :=
    (s.agentPlaces dir a).any fun p => s.goesOver i p (slicePlace (sliceOf dir))
  match e with
  | .homeRequest r => if toHome r then some (some (r, total r / 2 - (at_ - s.cycle))) else none
  | .memoryReply r _ | .storeQueueAck r _ | .instructionCacheFill r _ =>
    if toHome r then some (some (r, total r - (at_ - s.cycle))) else none
  | .vcacheLookup r vc =>
    (match s.cacheOf r.job vc with
     | some v =>
       let (b, way) := ((v.place r.line).1, bankCycles (baseOf (dieOf r.core)) (v.place r.line).1)
       if s.coreGoesOver i r.core (ringPlace (b / 2048)) then some (some (r, way - (at_ - s.cycle))) else none
     | none => none)
  | .forward p | .revocation p | .invalidation p => if probed p.agent p.pline then some none else none
  | .probeAcknowledgement a => if probed a.agent a.pline then some none else none
  | .homeWriteback w =>
    (match s.place w.job w.line with
     | some pl => if probed w.agent pl.dir then some none else none
     | none => none)
  | .vcacheWriteback w vc =>
    (match s.cacheOf w.job vc, s.place w.job w.line with
     | some v, some pl =>
       if (s.agentPlaces pl.dir w.agent).any fun p => s.goesOver i p (ringPlace ((v.place w.line).1 / 2048)) then some none else none
     | _, _ => none)
  | .migrationArrival t =>
    (match (s.ctxAt t).asked with
     | [core] =>
       if core < 4096 && s.coreGoesOver i (coreOf t) (ringPlace (baseOf (dieOf core))) then
         some (some (farReq t, migrationCycles (s.ctxAt t).ctl.vlive (coreOf t) core - (at_ - s.cycle)))
       else none
     | _ => none)
  | _ =>
    let sent := s.cores.findSome? fun (k, c) => (c.worms.find? fun w => w.msg = e && w.due = at_).map fun w => (k, w.from_)
    match s.msgTarget e, sent with
    | some q, some (k, n) =>
      if s.coreGoesOver i k (ringPlace (baseOf (dieOf q))) then
        some (match e with | .remoteReadMessage t => some (farReq t, s.cycle - n) | _ => none)
      else none
    | _, _ => s.workOnLink i at_ e

/-- A store to a far local store that was dropped has no acknowledgement before its time. -/
def State.storeDropped (s : State) (e : Instr) : State :=
  match e with
  | .remoteStoreMessage t _ => s.modCtxAt t fun c => { c with sent := max c.sent (s.cycle + 65536) }
  | _ => s

/-- Every packet in flight on a failed link is dropped; its request completes 65,536 cycles after it left. -/
def State.dropOnLink (s : State) (i : Nat) : State :=
  let lost := s.agenda.filterMap fun x => (s.onLink i x.1 x.2).map fun r => (x, r)
  let answers := s.cores.flatMap fun (k, c) => (c.answers.filter fun x =>
    decide (s.cycle < x.due) && s.coreGoesOver i k (ringPlace (baseOf (dieOf (coreOf x.thread))))).map fun x => (k, x)
  let s := { s with agenda := s.agenda.filter fun x => !(lost.any fun y => y.1 = x) }
  let s := lost.foldl (fun s x =>
    match x.2 with
    | some (r, n) => s.schedule (65536 - n) (.droppedReplyTimeout r)
    | none => s.storeDropped x.1.2) s
  answers.foldl (fun s (k, x) =>
    match s.undo k x with
    | some s => s.schedule (65536 - (s.cycle - x.from_) - (x.due - x.from_)) (.droppedReplyTimeout (farReq x.thread))
    | none => s) s

/-- The links of the ring that have failed and have not trained again. -/
def State.failedLinks (s : State) : List Nat := bitsOf s.pkg.downLinks

/-- RING_LINK_FAILURE, of a link that has lost training, or whose sender has had no send allowance back for 65,536 cycles, as an
outside input tells (log 97): the bit clears, the packets are dropped, the failure is logged, and the primary rewrites the tables;
a second failure splits the ring (R371). -/
def execRingLinkFailure (i : Nat) (s : State) : Res :=
  if !s.pkg.ringReady.getLsbD i then .next s
  else
    let s := s.dropOnLink i
    let s := s.modPkg fun p => { p with ringReady := setBit p.ringReady i false, downLinks := setBit p.downLinks i true }
    let base := if i = 0 then 0 else if i = 1 || i = 2 then 1 else if i = 3 then 2 else 3
    let s := s.logEvent (logDie base) 4 i 0
    .next (if s.failedLinks.length = 2 && s.pkg.fenced.isEmpty then s.schedule 0 .ringSplit else s.schedule 4096 .routingSetup)

/-! ## The ring split (R371, R372) -/

/-- The two halves that two failed links leave: ring places. -/
def splitHalves (i j : Nat) : List Nat × List Nat :=
  ((List.range ((j + 6 - i) % 6)).map fun n => (i + 1 + n) % 6, (List.range ((i + 6 - j) % 6)).map fun n => (j + 1 + n) % 6)
/-- The base dies of a half, and its compute dies. -/
def halfBases (h : List Nat) : List Nat := (List.range 4).filter fun b => h.contains (ringPlace b)
def halfDies (h : List Nat) : List Nat := (halfBases h).flatMap fun b => [2 * b, 2 * b + 1]
/-- A live compute die of R371. -/
def State.liveDie (s : State) (d : Nat) : Bool := s.pkg.dmgrReady.getLsbD d && s.pkg.clusterReady.any fun c => c / 64 = d
def State.halfReady (s : State) (h : List Nat) : Bool := (halfBases h).any fun b => s.pkg.cmdpReady.getLsbD b

/-- A ring-split entry through an I/O die, if a half holds it; while the queue is full it waits in the log of a compute die of the
half (R368, R369). -/
def State.splitEntry (s : State) (h : List Nat) (i : Fin 2) : State :=
  if !h.contains (if i = 0 then 0 else 3) then s
  else if s.pkg.events[i].length < 256 then
    s.modPkg fun p => { p with events := p.events.set i (p.events[i] ++ [{ cycle := BitVec.ofNat 64 s.cycle, kind := 6, loc := 0, count := 1, addr := 0 }]) }
  else match halfDies h with
    | d :: _ => s.logEvent d 6 0 0
    | [] => s

/-- RING_SPLIT: the half with more live compute dies goes on, on a tie the one with I/O die 0, and logs the split through its own I/O
die; the other fences itself, by hardware where it has no ready command processor. -/
def execRingSplit (s : State) : Res :=
  match s.failedLinks with
  | [i, j] =>
    let (a, b) := splitHalves i j
    let live (h : List Nat) : Nat := ((halfDies h).filter s.liveDie).length
    let goesOn (h k : List Nat) : Bool := decide (live k < live h) || (live h = live k && h.contains 0)
    let (on, other) := if goesOn a b then (a, b) else (b, a)
    let s := (s.splitEntry on 0).splitEntry (if on.contains 0 then [] else on) 1
    let s := if s.halfReady other then s.schedule 0 (.halfFence other) else s
    .next (([a, b].filter fun h => !s.halfReady h).foldl (fun s h => s.schedule 65536 (.selfFenceTimeout h)) s)
  | _ => .next s

/-- What a die's ready queue holds of a launch is discarded as a half fences itself: all of a fenced die's, of another's the tasks
whose records lie in the half. The die's scheduler reports it (R309, R310). -/
def State.fenceReady (s : State) (die lid : Nat) (fenced : Bool) (here : Nat → Bool) (flags : BitVec 32) : State :=
  let mine := (s.die die).ready.filter fun x => x.isFor lid
  let tasks := mine.filterMap fun x => match x with
    | .task rec _ _ => if fenced || here (cellCore rec) then some rec else none
    | .launch _ _ _ => none
  let s := tasks.foldl (fun s rec => s.discardTask lid rec flags) s
  if !fenced then s
  else
    let n := (mine.map fun x => match x with
      | .launch _ a b => b - a
      | .task _ _ _ => 0).sum
    (s.modDie die fun d => { d with ready := d.ready.filter fun x => !x.isFor lid }).discardUnits (.die die) lid n flags

/-- A half fences itself: its units end with PART and CANCEL, its homes answer data-lost from now on, and the words that
its agents hold registered become X. -/
def State.fenceHalf (s : State) (half : List Nat) : State :=
  let dies := halfDies half
  let here (k : Nat) : Bool := dies.contains (dieOf k)
  let flags := stPart ||| stCancel
  let s := (s.loseRecruits here flags).loseContexts here flags
  let s := s.dies.foldl (fun s (d, x) => x.launches.foldl (fun s (i, l) =>
    (List.range 8).foldl (fun s k => s.fenceReady k (i + d * 2 ^ 12 + l.gen * 2 ^ 16) (dies.contains k) here flags) s) s) s
  let s := (s.loseUnits here .root flags).loseL1s here
  let s := (s.ms.banks.filter fun b => (halfBases half).contains (b.bank / 2048)).foldl (fun s b =>
    (s.loseLine b.job b.line b.registered).bankDrop b) s
  let s := s.dies.foldl (fun s (d, _) => if dies.contains d then s.modDie d fun x => { x with records := [] } else s) s
  let s := (s.cores.filter fun k => here k.1).foldl (fun s k => s.modCore k.1 fun c => { c with reserved := [], runList := [] }) s
  (s.modPkg fun p => { p with fenced := half.foldl NatSet.insert p.fenced }).roomMoved

/-- HALF_FENCE: the half that does not go on fences itself and reports through I/O die 1 if it holds it. -/
def execHalfFence (half : List Nat) (s : State) : Res := .next ((s.fenceHalf half).splitEntry half 1)

/-- SELF_FENCE_TIMEOUT: a half with no ready command processor fences itself by hardware. -/
def execSelfFenceTimeout (half : List Nat) (s : State) : Res :=
  .next (if s.halfReady half || half.all s.pkg.fenced.contains then s else (s.fenceHalf half).splitEntry half 1)

end Sys2Proof.Machine
end

