-- ==== Sys2Proof/Machine/BringUp.lean ====
section
/-! DEFINITION. Bring-up of the package (20_package_faults R360 to R363): package reset, self-test, firmware, discovery and
routing. Which function passes when, and which image a management core holds, are outside inputs (log 8). -/
namespace Sys2Proof.Machine

/-- PACKAGE_RESET: every register as `State.reset` has it; what DRAM and host memory hold, and the device's firmware image, stay
(log 2). -/
def execPackageReset (s : State) : Res :=
  .next { State.reset with
    mem := s.mem.filter fun c => decide (c.1 < weightAddr 0 0)
    ms := { MemSys.reset with lineKeys := s.ms.lineKeys, freeFrames := s.ms.freeFrames }
    pkg := { Pkg.reset with image := s.pkg.image } }

/-- The number of a management core's firmware: die managers 0 to 7, command processors 8 to 11. -/
def firmwareOf (f : FnId) : Option Nat :=
  match f with
  | .dmgr i => some i
  | .cmdp i => some (8 + i)
  | _ => none

/-- The readiness bit of a function (R360). -/
def Pkg.setReady (p : Pkg) (f : FnId) (b : Bool) : Pkg :=
  let put (l : List Nat) (i : Nat) : List Nat := if b then NatSet.insert l i else NatSet.erase l i
  match f with
  | .core i => { p with coreReady := put p.coreReady i }
  | .cluster i => { p with clusterReady := put p.clusterReady i }
  | .channel i => { p with channelReady := put p.channelReady i }
  | .bankSeg i => { p with segmentReady := put p.segmentReady i }
  | .ring i => { p with ringReady := setBit p.ringReady i b }
  | .fab i => { p with fabReady := setBit p.fabReady i b }
  | .dmgr i => { p with dmgrReady := setBit p.dmgrReady i b }
  | .cmdp i => { p with cmdpReady := setBit p.cmdpReady i b }
  | .xlat i => { p with xlatReady := setBit p.xlatReady i b }

/-- The tables are written 4,096 cycles after the last RING bit (R363). -/
def State.askRouting (s : State) : State :=
  ({ s with agenda := s.agenda.filter fun x => match x.2 with | .routingSetup => false | _ => true }).schedule 4096 .routingSetup

/-- SELF_TEST_PASS: the bit sets; a cluster's first pass starts its clearing (R195); a ring link enters the tables. A
management core's bit waits for its firmware. -/
def execSelfTestPass (f : FnId) (s : State) : Res :=
  match f with
  | .dmgr _ | .cmdp _ => .next s
  | .cluster c =>
    let s := s.modPkg fun p => p.setReady f true
    let k := s.cluster c
    .next (if k.cleared || k.clearing then s else (s.modCluster c fun k => { k with clearing := true }).schedule 0 (.clusterClear c))
  | .ring i => .next (s.modPkg fun p => { p.setReady f true with downLinks := setBit p.downLinks i false }).askRouting
  | .core _ | .channel _ | .bankSeg _ | .fab _ | .xlat _ => .next (s.modPkg fun p => p.setReady f true)

/-- FIRMWARE_BOOT: a management core checks the signature of the device's one image, which the host may have provisioned anew
(an outside input, log 8), and runs it, or runs nothing; a command processor floods an explore packet, and takes up its queues
(R362, R363). -/
def execFirmwareBoot (f : FnId) (image : Option Nat) (s : State) : Res :=
  match firmwareOf f with
  | none => .next s
  | some n =>
    let s := s.modPkg fun p => { p with image := image.getD p.image, bootAt := Table.set p.bootAt n s.cycle }
    if Config.imageSigned s.pkg.image then
      let s := s.modPkg fun p => p.setReady f true
      match f with
      | .cmdp i =>
        let s := (s.modPkg fun p => { p with
          explored := p.explored.setIfInBounds i 0, answers := p.answers.filter fun x => x.1 / 6 ≠ i }).schedule 0
            (.explorePacket (ringPlace i + 6 * i) (ringPlace i))
        let mine := s.pkg.queues.filter fun q => q.1 % 4 = i
        let s := mine.foldl (fun s q => s.schedule 0 (.doorbellWrite q.1 lookAgain)) s
        .next (if s.pkg.bringUp then s else s.askRouting)
      | _ => .next s
    else .next (s.modPkg fun p => p.setReady f false)

/-- A management core runs firmware. -/
def Pkg.runs (p : Pkg) (f : FnId) : Bool :=
  match f with
  | .dmgr i => p.dmgrReady.getLsbD i
  | .cmdp i => p.cmdpReady.getLsbD i
  | _ => false

/-- WATCHDOG_EXPIRY: the management core is reset, its bit clears, and it boots again (R362). Only a core that has run for 2^24
cycles can have left its watchdog unserviced for so long; whether its firmware has is an outside input (log 8). -/
def execWatchdogExpiry (f : FnId) (s : State) : Res :=
  match firmwareOf f with
  | none => .next s
  | some n =>
    if !s.pkg.runs f || decide (s.cycle < Table.getD s.pkg.bootAt n 0 + 2 ^ 24) then .next s
    else
      let die := if n < 8 then n else logDie (n - 8)
      let s := (s.modPkg fun p => p.setReady f false).logEvent die 5 n 0
      .next (s.schedule 0 (.firmwareBoot f none))

/-- The trained links at a place of the ring. -/
def Pkg.linksAt (p : Pkg) (q : Nat) : BitVec 6 := p.ringReady &&& (1#6 <<< q ||| 1#6 <<< ((q + 5) % 6))

/-- EXPLORE_PACKET: a place of the ring answers with its trained links, and forwards the packet once over each of them, 200 cycles
a hop; each command processor's flood is one of its own. -/
def execExplorePacket (die : Nat) (from_ : Nat) (s : State) : Res :=
  let p := die % 6
  let i := die / 6 % 4
  if (s.pkg.explored.toList.getD i 0).getLsbD p then .next s
  else
    let s := s.modPkg fun k => { k with
      explored := k.explored.setIfInBounds i (setBit (k.explored.toList.getD i 0) p true)
      answers := Table.set k.answers (p + 6 * i) (k.linksAt p) }
    let send (link q : Nat) (s : State) : State :=
      if s.pkg.ringReady.getLsbD link && q ≠ from_ then s.schedule 200 (.explorePacket (q + 6 * i) p) else s
    .next (send ((p + 5) % 6) ((p + 5) % 6) (send p ((p + 1) % 6) s))

/-- The primary command processor (R363). -/
def State.primaryOf (s : State) : Option Nat :=
  let ready (p : Nat) : Option Nat :=
    (List.range 4).find? fun b => s.pkg.cmdpReady.getLsbD b && (reachable s.pkg.ringReady p 5).contains (ringPlace b)
  (ready 0).orElse fun _ => ready 3

/-- ROUTING_SETUP: the primary writes the routing tables and, once, TBASE and PTROOT, whose value is the part's (R341, log 8); from
then on idle dies steal (R306). -/
def execRoutingSetup (s : State) : Res :=
  match s.primaryOf with
  | none => .next s
  | some b =>
    let first := !s.pkg.bringUp
    let s := s.modPkg fun p => { p with
      primary := some b, routed := p.ringReady, tbase := if first then 0 else p.tbase, bringUp := true }
    let s := if first then s.modMS fun m => { m with ptroot := 65536 * Config.tableRoot.toNat } else s
    .next (if first then (List.range 8).foldl (fun s d => s.schedule 1024 (.stealRequest d)) s else s)

end Sys2Proof.Machine
end

