-- ==== Sys2Proof/Machine/Debug.lean ====
section
/-! DEFINITION. The debug module and the streaming sampler of 11_cluster_observe (R249 to R259), and writes of the host to
the register windows (00 R5, R6; 20 R370; 23 R387, R388). -/
namespace Sys2Proof.Machine

/-! ## Halt, resume and step (R252, R253) -/

def State.modDebug (s : State) (c : Nat) (f : Debug → Debug) : State := s.modCluster c fun k => { k with dbg := f k.dbg }
def State.halted (s : State) (c : Nat) : Bool := (s.cluster c).dbg.halted

/-- Every core and engine restarts in this cycle. -/
def State.restart (s : State) (c : Nat) : State :=
  let s := s.modCluster c fun k => { k with countFrom := s.cycle, dbg := { k.dbg with halted := false } }
  let idle := (List.range 16).filter fun ch => !(s.agenda.any fun x => match x.2 with
    | .copyBeat k j => k = c && j = ch
    | _ => false)
  (idle.foldl (fun s ch => s.schedule 0 (.copyBeat c ch)) s).askMatrix c 0

/-- The end of a step that has not come. -/
def State.dropSteps (s : State) (c : Nat) : State :=
  { s with agenda := s.agenda.filter fun x => match x.2 with | .stepDone k => k ≠ c | _ => true }

/-- DCMD_HALT: a cluster that runs halts with CAUSE 1. -/
def execDcmdHalt (c : Nat) (s : State) : Res :=
  .next (if s.halted c then s else s.halt c 0 fun d => { d with cause := 1 })
/-- DCMD_RESUME: a halted cluster runs on. -/
def execDcmdResume (c : Nat) (s : State) : Res := .next (if s.halted c then (s.dropSteps c).restart c else s)
/-- DCMD_STEP: a halted cluster runs for 8 cycles. -/
def execDcmdStep (c : Nat) (s : State) : Res :=
  .next (if s.halted c then ((s.dropSteps c).restart c).schedule 8 (.stepDone c) else s)
/-- STEP_DONE: the cluster halts again, with no skew and CAUSE 6. -/
def execStepDone (c : Nat) (s : State) : Res :=
  .next (if s.halted c then s else s.halt c 0 fun d => { d with cause := 6 })
/-- CROSS_TRIGGER_HALT: every other cluster of the die of the one that raised it halts with CAUSE 5 where XTI is set. -/
def execCrossTriggerHalt (c : Nat) (s : State) : Res :=
  .next (((s.clusters.map (·.1)).filter fun k => k / 64 = c / 64 && k ≠ c).foldl (fun s k =>
    if (s.cluster k).dbg.dctl.getLsbD 6 && !s.halted k then s.halt k 0 fun d => { d with cause := 5 } else s) s)

/-! ## The context window (R152, R254) -/

/-- A doubleword of a vector of doublewords. -/
def putDword {w : Nat} (x : BitVec w) (i : Nat) (v : Word) : BitVec w :=
  (x &&& ~~~(maskBits (64 * i) 64)) ||| BitVec.ofNat w (v.toNat * 2 ^ (64 * i))

/-- A v-register changed. -/
def Regs.modV (r : Regs) (n : Nat) (f : VReg → VReg) : Regs :=
  { r with v := r.v.setIfInBounds n (f (r.v.toList.getD n VReg.zero)) }

/-- The bits of a control register that are not reserved (R6, R64, R65, R83 to R86). -/
def crMask (idx : Nat) : Word :=
  match idx with
  | 0x000 | 0x001 => 0x1F
  | 0x002 => 0x6F
  | 0x004 => 0x3F
  | 0x007 => 0x1_FFFE
  | 0x00E | 0x00F | 0x010 => 0xFFFF_FFFF
  | _ => BitVec.allOnes 64

/-- A control register of the image of the current thread: CYCLE and SELF are ignored, reserved bits are, and a value out
of the register's range is. DEDUCED (log 51): an image holds all of TSTAT, so its WAKE and RPTA are written too. -/
def State.putControl (s : State) (idx : Nat) (v : Word) : State :=
  if idx = 0x011 || idx = 0x013 then s
  else if idx = 0x012 then s.modCtx fun c => { c with job := v.toNat % 65536 }
  else
    let v := v &&& crMask idx
    if crRangeOk idx v then
      let s := s.writeCR idx v
      if idx = 0x002 then s.modCtl fun c => { c with wake := v.getLsbD 5, rpta := v.getLsbD 6 } else s
    else s

/-- A tag's code that a register may hold (R54). -/
def tagHeld (t : BitVec 5) : Bool := t.toNat ≤ 4 || (8 ≤ t.toNat && t.toNat ≤ 22)

/-- A doubleword of a context image replaced in the current thread. DEDUCED (log 51): a reserved tag code leaves that
register's tag, since no register ever holds one (R54); bytes written into the retry latch make it the latched word (R254). -/
def State.putImage (s : State) (i : Nat) (v : Word) : State :=
  if i < 32 then s.modRegs fun r => if i = 0 then r else { r with g := r.g.setIfInBounds i v }
  else if i < 288 then
    s.modRegs fun r => r.modV ((i - 32) / 8) fun x => { x with bits := putDword x.bits ((i - 32) % 8) v }
  else if i < 320 then s.modRegs fun r => r.modV (i - 288) fun x => { x with side := v }
  else if i < 324 then
    s.modRegs fun r => (List.range 8).foldl (fun r k =>
      r.modV ((i - 320) * 8 + k) fun x =>
        { x with tag := if tagHeld (v.extractLsb' (8 * k) 5) then v.extractLsb' (8 * k) 5 else x.tag }) r
  else if i < 332 then s.modRegs fun r => if i = 324 then r else { r with p := r.p.setIfInBounds (i - 324) v }
  else if i < 334 then
    let k := (i - 332) * 2
    s.modCtx fun c => { c with loops := { c.loops with
      lc := (c.loops.lc.setIfInBounds k (v.extractLsb' 0 32)).setIfInBounds (k + 1) (v.extractLsb' 32 32) } }
  else if i < 337 then s.modCtx fun c => { c with loops := { c.loops with lb := c.loops.lb.setIfInBounds (i - 334) v } }
  else if i < 340 then s.modCtx fun c => { c with loops := { c.loops with le := c.loops.le.setIfInBounds (i - 337) v } }
  else if i = 340 then s.modCtx fun c => { c with pc := v }
  else if i < 362 then s.putControl (i - 341) v
  else if i < 364 then s.modCtx fun c => { c with latch := some (putDword (c.latch.getD 0) (i - 362) v) }
  else if i = 364 then
    s.modCtx fun c => { c with
      latch := if v.getLsbD 0 then some (c.latch.getD 0) else none
      cls := v.extractLsb' 1 3
      loops := { c.loops with active := v.extractLsb' 4 3 } }
  else s

/-- A doubleword of the current thread's context image (R152). The reason class is that of R145: 2 memory, 3 message, 4
not classed, 0 for a context that is ready (log 51). -/
def State.imageWord (s : State) (i : Nat) : Word :=
  let c := s.ctx
  let vreg (n : Nat) : VReg := c.regs.v.toList.getD n VReg.zero
  let pair (a b : BitVec 32) : Word := b ++ a
  if i < 32 then s.g (Fin.ofNat 32 i)
  else if i < 288 then (vreg ((i - 32) / 8)).bits.extractLsb' (64 * ((i - 32) % 8)) 64
  else if i < 320 then (vreg (i - 288)).side
  else if i < 324 then BitVec.ofNat 64 (natOfBytes ((List.range 8).map fun k => (vreg ((i - 320) * 8 + k)).tag.setWidth 8))
  else if i < 332 then s.p (Fin.ofNat 8 (i - 324))
  else if i = 332 then pair c.loops.lc[0] c.loops.lc[1]
  else if i = 333 then c.loops.lc[2].setWidth 64
  else if i < 337 then c.loops.lb.toList.getD (i - 334) 0
  else if i < 340 then c.loops.le.toList.getD (i - 337) 0
  else if i = 340 then c.pc
  else if i < 362 then s.readCR (i - 341)
  else if i < 364 then (c.latch.getD 0).extractLsb' (64 * (i - 362)) 64
  else if i = 364 then
    let cls := match c.wait.readyAt s.cycle with
      | some _ => 0
      | none => c.waitCls s.cycle
    BitVec.ofNat 64 ((if c.latch.isSome then 1 else 0) + 2 * cls + 16 * c.loops.active.toNat)
  else 0

/-- A read of an installed context through the window of a halted cluster; zero where the access is refused (R254). -/
def State.windowRead (s : State) (c core slot off : Nat) : Word :=
  let t := (c * 8 + core % 8) * 16 + slot % 16
  if !s.halted c || !(s.ctxAt t).inst || off % 8 ≠ 0 then 0 else (s.switch t).imageWord (off / 8)

/-- What a read from outside the cores returned. -/
def State.answerRead (s : State) (v : Word) : State := s.modPkg fun p => { p with readData := v }

/-- An access of the window is refused where the cluster runs, or for a free slot: it sets ERR. A presence bit that a write
sets lets a context that waits for it reissue (R81). -/
def State.windowAccess (s : State) (c core slot off : Nat) (wr : Option Word) : State :=
  let t := (c * 8 + core % 8) * 16 + slot % 16
  if !s.halted c || !(s.ctxAt t).inst then s.modDebug c fun d => { d with err := true }
  else match wr with
    | none => s
    | some v => if off % 8 = 0 then (s.withThread t fun s => s.putImage (off / 8) v).wakeUp t else s

/-- CONTEXT_WINDOW_ACCESS: a read's value goes to the reader. -/
def execContextWindowAccess (c core slot off : Nat) (wr : Option Word) (s : State) : Res :=
  let s' := s.windowAccess c core slot off wr
  .next (match wr with | none => s'.answerRead (s.windowRead c core slot off) | some _ => s')

/-! ## Counters (R255, R256) -/

/-- A counter by its selector: zero for one that does not exist. -/
def State.counterAt (s : State) (die sel : Nat) : Nat :=
  let c := die * 64 + sel / 2 ^ 24 % 64
  let core := c * 8 + sel / 2 ^ 21 % 8
  let sub := sel / 2 ^ 16 % 32
  let code := sel % 256
  let k := s.cluster c
  let at_ (code sub : Nat) : Nat := Table.getD (s.core core).counters (code * 32 + sub) 0
  let visits := k.visits s.cycle
  if sel / 2 ^ 8 % 256 ≠ 0 then 0
  else if sel / 2 ^ 30 = 0 then
    if code = 4 && sub < 8 then visits.toList.getD sub 0 - (at_ 1 sub + at_ 2 sub + at_ 3 sub)
    else if code = 8 && sub = 0 then visits.toList.sum - ((List.range 16).map fun i => at_ 8 (i + 1)).sum
    else if (1 ≤ code && code ≤ 3 && sub < 8) || (5 ≤ code && code ≤ 7 && sub < 16) || (code = 8 && sub ≤ 16) ||
        (0x0A ≤ code && code ≤ 0x14 && sub = 0) then at_ code sub
    else 0
  else if sel / 2 ^ 30 = 1 then
    if code = 0x22 && sub = 0 then (Table.getD k.counters (code * 32) 0 + k.busyNow s.cycle) % 2 ^ 64
    else if ((code = 0x20 || code = 0x25) && sub < 16) || (0x21 ≤ code && code ≤ 0x24 && sub = 0) then
      Table.getD k.counters (code * 32 + sub) 0
    else 0
  else 0

/-! ## The streaming sampler (R257 to R259) -/

def State.modStrainer (s : State) (die : Nat) (f : Strainer → Strainer) : State :=
  s.modDie die fun d => { d with strainer := f d.strainer }
def Strainer.interval (x : Strainer) : Nat := x.sctl.toNat / 2 ^ 32
def Strainer.counters (x : Strainer) : Nat := x.sctl.toNat / 2 % 32 + 1
def Strainer.selectors (x : Strainer) : List Nat := (List.range x.counters).map fun i => (Table.getD x.ssel i 0).toNat

/-- A sampled cluster is halted, or halted during the last interval (R258). -/
def State.sampledHalt (s : State) (die : Nat) (x : Strainer) : Bool × Bool :=
  let cs := (x.selectors.map fun sel => die * 64 + sel / 2 ^ 24 % 64).eraseDups
  let now := cs.any s.halted
  (now, now || x.haltFlag || cs.any fun c =>
    let d := (s.cluster c).dbg
    decide (d.cause ≠ 0) && decide (s.cycle ≤ d.haltAt + x.interval))

/-- The broadcast delay of the cluster that a selector names, at most 40 cycles (R259, log 54). -/
def sampleDelay (die sel : Nat) : Nat := Config.broadcastDelay (die * 64 + sel / 2 ^ 24 % 64) % 41

/-- A sample that is due is begun: it takes the next sequence number, and the events at which its counters are captured
follow. -/
def State.beginSample (s : State) (die : Nat) : State :=
  let x := (s.die die).strainer
  if x.sctl.getLsbD 0 && decide (x.next ≤ s.cycle) then
    let (now, halt) := s.sampledHalt die x
    let row : SampleRow := { time := x.next, seq := x.seq, halt := halt, vals := x.selectors.map fun _ => none, place := none }
    let s := s.modStrainer die fun x =>
      { x with seq := x.seq + 1, haltFlag := now, next := x.next + x.interval, rows := x.rows ++ [row] }
    let s := s.schedule (x.next + x.interval - s.cycle) (.strainerSample die)
    (x.selectors.map (sampleDelay die)).eraseDups.foldl (fun s d =>
      if s.cycle < x.next + d then s.schedule (x.next + d - s.cycle) (.strainerSample die) else s) s
  else s

/-- Counters whose capture is due are captured. -/
def State.captureRows (s : State) (die : Nat) : State :=
  let x := (s.die die).strainer
  let due (r : SampleRow) (sel : Nat) : Bool := decide (r.time + sampleDelay die sel ≤ s.cycle)
  let take (r : SampleRow) : SampleRow :=
    { r with vals := (x.selectors.zip r.vals).map fun (sel, v) =>
        if v.isNone && due r sel then some (s.counterAt die sel) else v }
  s.modStrainer die fun x => { x with rows := x.rows.map take }

/-- With the consumer index read, each sample in order gets its row's place in the ring, or is dropped. -/
def Strainer.decide (x : Strainer) (consumer : Nat) : Strainer :=
  x.rows.foldl (fun x r =>
    if r.place.isSome then { x with rows := x.rows ++ [r] }
    else if x.produced - consumer ≥ x.ssize.toNat then
      { x with sdrop := x.sdrop + 1, dropFlag := true, rows := x.rows ++ [{ r with place := some none }] }
    else
      let flags : BitVec 32 := BitVec.ofNat 32
        ((if x.dropFlag then 1 else 0) + (if r.halt then 2 else 0) + (if x.first then 4 else 0))
      let at_ := x.sring.toNat + 64 + x.produced % x.ssize.toNat * (16 + 8 * x.counters)
      { x with produced := x.produced + 1, dropFlag := false, first := false,
               rows := x.rows ++ [{ r with place := some (some (at_, flags)) }] }) { x with rows := [] }

/-- The samples that are complete, in order: each is written where its row stands. -/
def State.writeRows (s : State) (die : Nat) : Nat → State
  | 0 => s
  | n + 1 =>
    match (s.die die).strainer.rows with
    | [] => s
    | r :: rs =>
      match r.place with
      | none => s
      | some none => State.writeRows (s.modStrainer die fun x => { x with rows := rs }) die n
      | some (some (at_, flags)) =>
        if r.vals.all Option.isSome then
          let row := bytesOfNat 8 r.time ++ bytesOfNat 4 r.seq.toNat ++ bytesOfNat 4 flags.toNat ++
            r.vals.flatMap fun v => bytesOfNat 8 (v.getD 0)
          let (s, k) := s.physWrite (.device (256 + die)) (die * 512) at_ row
          State.writeRows (s.modStrainer die fun x => { x with rows := rs, pend := x.pend + k }) die n
        else s

/-- The rows whose writes have been sent: those that are not being taken any more. -/
def Strainer.written (x : Strainer) : Nat :=
  x.produced - (x.rows.filter fun r => r.place.any Option.isSome).length

/-- The producer index is stored once every row has performed: a release at package scope. -/
def State.publishRows (s : State) (die : Nat) : State :=
  let x := (s.die die).strainer
  if x.pend = 0 && x.stored ≠ x.written then
    let (s, n) := s.physWrite (.device (256 + die)) (die * 512) x.sring.toNat (bytesOfNat 8 x.written)
    s.modStrainer die fun x => { x with pend := n, stored := x.written }
  else s

/-- STRAINER_SAMPLE: a sample that is due begins, counters whose capture is due are captured, the consumer index is read
for the samples that have no place yet, complete rows are written, and what has performed is published (R259). -/
def execStrainerSample (die : Nat) (s : State) : Res :=
  let s := (s.publishRows die).beginSample die |>.captureRows die
  let x := (s.die die).strainer
  let s :=
    if x.rows.any fun r => r.place.isNone then
      match s.physBytes (x.sring.toNat + 8) 8 with
      | none => s.schedule 1 (.strainerSample die)
      | some bs => s.modStrainer die fun x => x.decide (natOfBytes bs)
    else s
  .next ((s.writeRows die 64).publishRows die)

/-- Sampling starts in this cycle: the producer index is the header's (R258). -/
def State.startSampling (s : State) (die : Nat) : State :=
  let x := (s.die die).strainer
  let p := ((s.physBytes x.sring.toNat 8).map natOfBytes).getD x.produced
  (s.modStrainer die fun x => { x with
    produced := p, stored := p, seq := 0, first := true, dropFlag := false, haltFlag := false, next := s.cycle, rows := [] }).schedule 0
    (.strainerSample die)

/-- A power of two within bounds. -/
def powerBetween (lo hi n : Nat) : Bool := decide (lo ≤ n) && decide (n ≤ hi) && n &&& (n - 1) = 0

/-- A write to a register of the sampler: only while EN is 0, but for clearing EN (R257). -/
def State.writeStrainer (s : State) (die off : Nat) (v : Word) : State :=
  let en := (s.die die).strainer.sctl.getLsbD 0
  if off = 0 then
    if en then (if v.getLsbD 0 then s else s.modStrainer die fun x => { x with sctl := x.sctl &&& ~~~1#64 })
    else if v.toNat / 2 ^ 32 < 256 then s
    else
      let s := s.modStrainer die fun x => { x with sctl := v &&& 0xFFFF_FFFF_0000_003F }
      if v.getLsbD 0 then s.startSampling die else s
  else if en then s
  else if off = 8 then (if v.toNat % 64 = 0 && v.toNat < 2 ^ 39 then s.modStrainer die fun x => { x with sring := v } else s)
  else if off = 0x10 then (if powerBetween 1 65536 v.toNat then s.modStrainer die fun x => { x with ssize := v } else s)
  else if off = 0x18 then s.modStrainer die fun x => { x with sdrop := x.sdrop &&& ~~~v }
  else if 0x100 ≤ off && off < 0x200 then
    s.modStrainer die fun x => { x with ssel := Table.set x.ssel ((off - 0x100) / 8) (v.extractLsb' 0 32) }
  else s

/-! ## The register windows (R249, R250, R370, R387, R388) -/

/-- A write to DCMD is one of the three commands. -/
def State.writeDcmd (s : State) (c : Nat) (v : Word) : State :=
  if v = 1 then s.schedule 0 (.dcmdHalt c)
  else if v = 2 then s.schedule 0 (.dcmdResume c)
  else if v = 3 then s.schedule 0 (.dcmdStep c)
  else s

/-- A watchpoint control with no reserved code (R250). -/
def wpcOk (v : Word) : Bool :=
  let len := v.toNat / 8 % 32
  v.toNat / 2 % 4 ≠ 0 && decide (3 ≤ len) && decide (len ≤ 16)

/-- A write to a register of a debug block. -/
def State.writeDebug (s : State) (c off : Nat) (v : Word) : State :=
  if off = 0 then s.modDebug c fun d => { d with dctl := v &&& 0xE0 }
  else if off = 8 then s.modDebug c fun d => { d with err := d.err && !v.getLsbD 4 }
  else if off = 0x10 then s.writeDcmd c v
  else if 0x40 ≤ off && off < 0x80 then
    let i := (off - 0x40) / 16
    if off % 16 = 0 then s.modDebug c fun d => { d with bpa := d.bpa.setIfInBounds i v }
    else s.modDebug c fun d => { d with bpc := d.bpc.setIfInBounds i (v &&& 0xFFF) }
  else if 0x80 ≤ off && off < 0xA0 then
    let i := (off - 0x80) / 16
    if off % 16 = 0 then s.modDebug c fun d => { d with wpa := d.wpa.setIfInBounds i v }
    else if wpcOk v then s.modDebug c fun d => { d with wpc := d.wpc.setIfInBounds i (v &&& 0xFFFF) }
    else s
  else if 0x1_0000 ≤ off && off < 0x9_0000 then
    let n := (off - 0x1_0000) / 0x1000
    if off % 0x1000 < 3072 then s.windowAccess c (n / 16) (n % 16) (off % 0x1000) (some v) else s
  else s

/-- DSTAT as read (R250). -/
def Debug.dstat (d : Debug) : Word :=
  let b (x : Bool) (i : Nat) : Nat := if x then 2 ^ i else 0
  BitVec.ofNat 64 (d.cause.toNat + b d.halted 3 + b d.err 4 + d.core.toNat * 2 ^ 8 + d.slot.toNat * 2 ^ 11 + d.index.toNat * 2 ^ 16)

/-- The value of a register of a debug block: zero for DCMD and for an offset that is not listed (R249). -/
def State.readDebug (s : State) (c off : Nat) : Word :=
  let d := (s.cluster c).dbg
  let n := (off - 0x1_0000) / 0x1000
  if off = 0 then d.dctl
  else if off = 8 then d.dstat
  else if off = 0x18 then d.dhpc
  else if off = 0x20 then d.dhaddr
  else if 0x40 ≤ off && off < 0x80 then (if off % 16 = 0 then d.bpa else d.bpc).toList.getD ((off - 0x40) / 16) 0
  else if 0x80 ≤ off && off < 0xA0 then (if off % 16 = 0 then d.wpa else d.wpc).toList.getD ((off - 0x80) / 16) 0
  else if 0x1_0000 ≤ off && off < 0x9_0000 && off % 0x1000 < 3072 then s.windowRead c (n / 16) (n % 16) (off % 0x1000)
  else 0

/-- A read of a debug block changes the registers only through the window (R254). -/
def State.touchDebug (s : State) (c off : Nat) : State :=
  let n := (off - 0x1_0000) / 0x1000
  if 0x1_0000 ≤ off && off < 0x9_0000 && off % 0x1000 < 3072 then s.windowAccess c (n / 16) (n % 16) (off % 0x1000) none else s

/-- The debug block that an offset of BAR 2 lies in: the cluster and the offset in its block. -/
def debugBlock (off : Nat) : Option (Nat × Nat) :=
  let o := off % 0x2000_0000
  if off < 2 ^ 32 && 0x1000_0000 ≤ o && o < 0x1400_0000 then
    some (off / 0x2000_0000 * 64 + (o - 0x1000_0000) / 0x10_0000, (o - 0x1000_0000) % 0x10_0000)
  else none

/-- A write to a queue's register block: QBASE, QSIZE and QJOB only while QEN is 0, but for QEN itself. DEDUCED (log 56): a
QSIZE that is no power of two from 16 to 65,536 leaves the register unchanged, and bits [11:1] of QBASE, which a base aligned to
4 KiB has as zeros, are stored as zeros. -/
def State.writeQueue (s : State) (q off : Nat) (v : Word) : State :=
  let x := s.queue q
  let en := x.qbase.getLsbD 0
  if off = 0 then
    let err := x.qctl &&& 0x1000 &&& ~~~v
    let s := s.modQueue q fun x => { x with qctl := err ||| (if en then x.qctl &&& 0xFFF else v &&& 0xFFF) }
    s.schedule 0 (.doorbellWrite q lookAgain)
  else if off = 8 then
    s.modQueue q fun x => { x with qbase := if en then (x.qbase &&& ~~~1#64) ||| (v &&& 1) else v &&& ~~~0xFFE#64 }
  else if off = 16 then
    if !en && powerBetween 16 65536 v.toNat then s.modQueue q fun x => { x with qsize := v } else s
  else s

/-- A write of the host, or of the debug command, to the package register window (BAR 0) or a die's (BAR 2). DEDUCED (log
85): registers are accessed whole, so a write at an offset that is no multiple of 8 is one to an offset that is not listed. -/
def State.writeRegister (s : State) (bar off : Nat) (v : Word) : State :=
  if off % 8 ≠ 0 then s
  else if bar = 0 then
    if 0x3008 ≤ off && off < 0x3048 then s.modDie ((off - 0x3008) / 8) fun d => { d with overflow := d.overflow &&& ~~~v }
    else if 0x1_0000 ≤ off && off < 0x1_2000 then s.writeQueue ((off - 0x1_0000) / 32) (off % 32) v
    else if 0x8_0000 ≤ off && off < 0x8_0800 then s.schedule 0 (.doorbellWrite ((off - 0x8_0000) / 8) (v.toNat % 2 ^ 32))
    else s
  else if bar = 2 then
    match debugBlock off with
    | some (c, o) => s.writeDebug c o v
    | none =>
      let o := off % 0x2000_0000
      if off < 2 ^ 32 && 0x400_0000 ≤ o && o < 0x400_0200 then s.writeStrainer (off / 0x2000_0000) (o - 0x400_0000) v else s
  else s

/-! ## Reads of the register windows (R5, R249, R257, R360, R370, R387, R388) -/

/-- The value of a register of the sampler. -/
def State.readStrainer (s : State) (die off : Nat) : Word :=
  let x := (s.die die).strainer
  if off = 0 then x.sctl
  else if off = 8 then x.sring
  else if off = 0x10 then x.ssize
  else if off = 0x18 then x.sdrop
  else if 0x100 ≤ off && off < 0x200 then (Table.getD x.ssel ((off - 0x100) / 8) 0).zeroExtend 64
  else 0

/-- The value of a register of a queue's block. -/
def State.readQueue (s : State) (q off : Nat) : Word :=
  let x := s.queue q
  if off = 0 then x.qctl else if off = 8 then x.qbase else if off = 16 then x.qsize else x.qhead.zeroExtend 64

/-- Doubleword i of a map whose set bits a list names. -/
def mapWord (set : List Nat) (i : Nat) : Word :=
  BitVec.ofNat 64 ((List.range 64).foldl (fun n k => if set.contains (64 * i + k) then n + 2 ^ k else n) 0)

/-- EVSTAT as read: the dies whose log holds undelivered entries, and those whose log waits on full queues (R370). -/
def State.evstat (s : State) : Word :=
  let full := s.pkg.events.toList.all fun q => q.length ≥ 256
  BitVec.ofNat 64 ((List.range 8).foldl (fun n d =>
    if (s.die d).log.isEmpty then n else n + 2 ^ d + (if full then 2 ^ (8 + d) else 0)) 0)

/-- The value of a register of the package register window (BAR 0). -/
def State.readPackage (s : State) (off : Nat) : Word :=
  let p := s.pkg
  if 0x2000 ≤ off && off < 0x2200 then mapWord p.coreReady ((off - 0x2000) / 8)
  else if 0x2200 ≤ off && off < 0x2240 then mapWord p.clusterReady ((off - 0x2200) / 8)
  else if 0x2240 ≤ off && off < 0x2440 then mapWord p.channelReady ((off - 0x2240) / 8)
  else if 0x2440 ≤ off && off < 0x2480 then mapWord p.segmentReady ((off - 0x2440) / 8)
  else if off = 0x2480 then BitVec.ofNat 64 (p.fabReady.toNat + p.ringReady.toNat * 2 ^ 32)
  else if off = 0x2488 then BitVec.ofNat 64 (p.xlatReady.toNat + p.cmdpReady.toNat * 2 ^ 4 + p.dmgrReady.toNat * 2 ^ 8)
  else if off = 0x3000 then s.evstat
  else if 0x3008 ≤ off && off < 0x3048 then (s.die ((off - 0x3008) / 8)).overflow
  else if 0x1_0000 ≤ off && off < 0x1_2000 then s.readQueue ((off - 0x1_0000) / 32) (off % 32)
  else 0

/-- The value that a read of a BAR 0 or BAR 2 offset returns: that of the register, its reserved bits and an offset that is
not defined as zeros (R5, R6, R387). -/
def State.readRegister (s : State) (bar off : Nat) : Word :=
  if off % 8 ≠ 0 then 0
  else if bar = 0 then s.readPackage off
  else if bar = 2 then
    match debugBlock off with
    | some (c, o) => s.readDebug c o
    | none =>
      let o := off % 0x2000_0000
      if off < 2 ^ 32 && 0x400_0000 ≤ o && o < 0x400_0200 then s.readStrainer (off / 0x2000_0000) (o - 0x400_0000) else 0
  else 0

/-- REGISTER_WRITE: a field is replaced or cleared by its access code (R5, R6). -/
def execRegisterWrite (bar off : Nat) (v : Word) (s : State) : Res := .next (s.writeRegister bar off v)

end Sys2Proof.Machine
end

