-- ==== Sys2Proof/Machine/Fabric.lean ====
section
/-! DEFINITION. The fabric (23_fabric R386 to R397): command queues, host accesses to device memory and the host line filter,
other devices, keys and attestation. -/
namespace Sys2Proof.Machine

/-! ## Command queues (R388, R389) -/

/-- An entry that is well formed: a known opcode, reserved bytes zero, an aligned completion address. -/
def entryOk (x : Line) : Bool :=
  let op := x.toNat % 256
  decide (1 ≤ op) && decide (op ≤ 5) && x.extractLsb' 8 56 = 0 && x.extractLsb' 256 256 = 0 && x.extractLsb' 128 3 = 0

/-- The event of a command by its opcode. -/
def commandOf (op q : Nat) : Instr :=
  match op with
  | 1 => .commandLaunch q
  | 2 => .commandCancelJob q
  | 3 => .commandLoadKey q
  | 4 => .commandAttest q
  | _ => .commandDebug q

/-- The command processor takes the next entry, with an acquire at system scope; a malformed one stops the queue. -/
def State.takeEntry (s : State) (q : Nat) : State :=
  let x := s.queue q
  if x.qctl.getLsbD 12 || x.qhead = x.tail || !s.pkg.cmdpReady.getLsbD (q % 4) then s
  else
    let at_ := x.qbase.toNat / 4096 * 4096 + x.qhead.toNat % x.qsize.toNat * 64
    match s.physLine (at_ / 64) with
    | none => s.schedule 1 (.doorbellWrite q lookAgain)
    | some e =>
      if entryOk e then
        (s.modQueue q fun x => { x with qhead := x.qhead + 1, entry := e, stage := 1, pend := 0, sysAt := 0 }).schedule 0
          (commandOf (e.toNat % 256) q)
      else s.modQueue q fun x => { x with qctl := x.qctl ||| 0x1000 }

/-- DOORBELL_WRITE: the tail moves, or QERR is set; what a command in progress has written may have performed, and an idle
queue's next entry is taken. -/
def execDoorbellWrite (q tail : Nat) (s : State) : Res :=
  let x := s.queue q
  if q ≥ 256 || !x.qbase.getLsbD 0 then .next s
  else if tail < lookAgain && (BitVec.ofNat 32 tail - x.qhead).toNat > x.qsize.toNat then
    .next (s.modQueue q fun x => { x with qctl := x.qctl ||| 0x1000 })
  else
    let s := if tail < lookAgain then s.modQueue q fun x => { x with tail := BitVec.ofNat 32 tail } else s
    let ended := decide (x.pend = 0) && decide (x.sysAt ≤ s.cycle)
    .next (if x.stage = 0 then s.takeEntry q
      else if x.stage = 2 && ended then s.commandDone q
      else if x.stage = 3 && ended then (s.modQueue q fun x => { x with stage := 0 }).takeEntry q
      else s)

/-- Runs a command of a queue with n bytes at its operand address; while a transaction or the host holds them it waits. -/
def withOperand (q op n : Nat) (again : Instr) (s : State) (k : List Byte → State) : Res :=
  let x := s.queue q
  if x.stage ≠ 1 || x.entry.toNat % 256 ≠ op then .next s
  else match s.physBytes (x.field 8 8) n with
    | none => .next (s.schedule 1 again)
    | some bs => .next (k bs)

/-- COMMAND_LAUNCH: the descriptor goes to a scheduler; the command completes when it is taken (R299, R326). A job that ends
gives its identifier back first (R264). -/
def execCommandLaunch (q : Nat) (s : State) : Res :=
  let x := s.queue q
  if (s.job x.job).ending.isSome then .next (s.schedule 1 (.commandLaunch q)) else
  withOperand q 1 64 (.commandLaunch q) s fun bs =>
    let l : LaunchSub := { die := queueDie q, job := x.job, raw := lineOfBytes bs, thread := some (queueThread + q),
                           ptime := s.floorOf (sliceOf (x.field 8 8 / 64)) }
    (s.modQueue q fun x => { x with stage := 4 }).schedule 40 (.launchTake l)

/-- COMMAND_CANCEL_JOB: every launch of the queue's job is cancelled (R312). -/
def execCommandCancelJob (q : Nat) (s : State) : Res :=
  let x := s.queue q
  if x.stage ≠ 1 || x.entry.toNat % 256 ≠ 2 then .next s
  else .next (((s.launchesOf x.job 3 0).foldl (fun s l => s.cancelLaunch (queueDie q) l) s).commandDone q)

/-- COMMAND_LOAD_KEY: the record's key enters the slot named inside, if that slot is the job's (R396). -/
def execCommandLoadKey (q : Nat) (s : State) : Res :=
  let x := s.queue q
  withOperand q 3 128 (.commandLoadKey q) s fun bs =>
    (match Config.unwrapKey bs with
     | some (slot, key) =>
       if Table.get? s.pkg.keySlots slot = some x.job then s.modMS fun m => { m with keys := Table.set m.keys slot key } else s
     | none => s).commandDone q

/-- COMMAND_ATTEST: the signed report over the firmware's hash, the nonce and the job (R397). -/
def execCommandAttest (q : Nat) (s : State) : Res :=
  let x := s.queue q
  withOperand q 4 256 (.commandAttest q) s fun bs =>
    let image := s.pkg.image
    let slots := (s.pkg.keySlots.filter fun k => k.2 = x.job).length
    let body := bytesOfNat 32 (Config.imageHash image).toNat ++ (bs.drop 32).take 32 ++ bytesOfNat 4 x.job ++
      bytesOfNat 4 slots ++ List.replicate 120 0
    let (s, n) := s.physWrite (.device q) (queueDie q * 512) (x.field 8 8)
      (body ++ bytesOfNat 64 (Config.attestSign body).toNat)
    s.modQueue q fun x => { x with stage := 2, pend := n }

/-- A queue's job reaches an offset of a die's window: the debug block of a cluster that is bound to the job. DESIGN CHOICE (log
118): the rest of the window, the sampler with it, where a cluster of the die is. -/
def State.windowOf (s : State) (job off : Nat) : Bool :=
  match debugBlock off with
  | some (c, _) => (s.cluster c).job = some job
  | none => decide (off < 2 ^ 32) && s.clusters.any fun k => k.1 / 64 = off / 0x2000_0000 && k.2.job = some job

/-- COMMAND_DEBUG: an access to a die's window that the queue's job reaches; a read's value goes to the reader, zero at an offset
that is not defined (R387, R389). -/
def execCommandDebug (q : Nat) (s : State) : Res :=
  let x := s.queue q
  withOperand q 5 64 (.commandDebug q) s fun bs =>
    let (off, wr) := Config.debugRequest bs
    let s' := match debugBlock off with
      | some (c, o) => s.touchDebug c o
      | none => s
    (if !s.windowOf x.job off then s
     else match wr with
       | some v => s.writeRegister 2 off v
       | none => s'.answerRead (s.readRegister 2 off)).commandDone q

/-! ## Host accesses to device memory (R391, R392) -/

/-- HOST_DEVICE_ACCESS: a read as a wt load, a write or a read for ownership as a wt store, at the slice's floor. -/
def execHostDeviceAccess (pa : Nat) (wr : Option Byte) (own : Bool) (s : State) : Res :=
  let line := pa / 64
  let (m, x) := match wr with
    | some b => lineStore [(pa, b)] line
    | none => (if own then 0 else BitVec.allOnes 64, 0)
  .next (s.schedule 0 (.homeRequest
    { src := .host own, kind := if own || wr.isSome then .store else .load, pol := .wt, acq := false, core := homeDie line * 512,
      job := 0, line := physBase + line, mask := m, data := x, data2 := 0, ptime := s.floorOf (sliceOf line), lease := 10,
      path := [], shadow := false }))

/-- BACK_INVALIDATION: the host has given the line up, with the bytes that it held modified; a transaction that waited for
them goes on (R392). -/
def execBackInvalidation (line : Nat) (wb : List (Nat × Byte)) (s : State) : Res :=
  let pl := s.physPlace line
  let asked := s.backInvAt pl.dir
  -- the answer to a back-invalidation takes its round trip
  if s.cycle < asked then .next (s.schedule (asked - s.cycle) (.backInvalidation line wb)) else
  let cells := (wb.filter fun c => c.1 < 64).map fun c => (line * 64 + c.1, c.2)
  let (m, x) := lineStore cells line
  let s := s.modMS fun ms => { ms with filter := Table.del ms.filter pl.dir }
  let s := if m = 0 then s else s.writeLine pl.data pl.key (m &&& ~~~(bytesOfWords (s.homeLine pl.dir).registered)) x
  let h := s.homeLine pl.dir
  let s := match h.txn with
    | some t => if t.host then (s.putHome pl.dir { h with txn := some { t with host := false } }).tryPerform pl.dir else s
    | none => s
  .next (s.homeNext pl.dir)

/-- HOST_PORT_DOWN and HOST_PORT_UP: while a port is down, the other one serves its frames (R386, R392). -/
def execHostPortDown (i : Nat) (s : State) : Res := .next (s.modPkg fun p => { p with portUp := setBit p.portUp (i % 2) false })
def execHostPortUp (i : Nat) (s : State) : Res := .next (s.modPkg fun p => { p with portUp := setBit p.portUp (i % 2) true })

/-! ## Other devices (R394, R395) -/

/-- A request that another device's copy engine makes here, under the named job's rights and keys: none where the page is
not there, or not RW to the job. -/
def State.remoteReq (s : State) (job : Nat) (kind : ReqKind) (line : Nat) (m : BitVec 64) (x : Line) : Option Req :=
  let l := (s.walk (line * 64)).attr
  if line < physBase && leafMapped l.leaf && !leafBad l.big l.leaf && (s.rightsEntry job (leafDomain l.leaf)).rights = 2 then
    some { src := .report 0, kind := kind, pol := storePol .wt l, acq := false, core := 0, job := job, line := line, mask := m,
           data := x, data2 := 0, ptime := 0, lease := 10, path := [], shadow := false }
  else none

/-- REMOTE_BEAT_ARRIVAL: a beat of another device acts as a copy-unit global write of the named job. -/
def execRemoteBeatArrival (job : Nat) (cells : List (Nat × Byte)) (s : State) : Res :=
  .next ((cellLines cells).foldl (fun s l =>
    let (m, x) := lineStore cells l
    match s.remoteReq job .store l m x with
    | some r => s.sendReq r
    | none => s) s)

/-- REMOTE_FLAG_ADD: every beat of a command of channel `ch` has performed at the target, and the add to its flag word leaves; with
the add's own acknowledgement, a round trip later, the command is done. With `c` past the last cluster, another device's engine
adds 1 to the word at `dev` of job `ch` here. -/
def execRemoteFlagAdd (c ch dev : Nat) (s : State) : Res :=
  if c ≥ 512 then
    let (m, x) := lineStore (cellsFrom dev (bytesOfNat 4 1)) (dev / 64)
    match (if dev % 4 = 0 then s.remoteReq ch (.amo 0) (dev / 64) m x else none) with
    | some r => .next (s.sendReq { r with data := 1 })
    | none => .next s
  else match (s.channel c ch).run with
    | none => .next s
    | some r =>
      if !r.cmd.remote || r.cmd.dev ≠ dev || !r.isOver || decide (s.cycle < r.lastAck) then .next s
      else if r.next.isSome then .next ((s.endRun r.cmd).endJob c r.cmd.jid 2)
      else match bitsOf (s.remoteLinks dev) with
        | [] => .next (s.failCopy r.cmd 2 r.cmd.c)
        | link :: _ =>
          let off := ((Table.get? s.pkg.remote dev).map fun e => e.offset.toNat).getD 0
          let s := s.modPkg fun p => { p with remoteOut := p.remoteOut ++ [(dev, (cellsFrom off (bytesOfNat 4 1)))] }
          let add : RemoteBeat := { link := link, ack := s.cycle + remoteTrip, pos := r.pos, off := r.off, dst := r.cmd.c }
          .next ((s.modRun r.cmd fun r => { r with next := some (0, 0), beats := [add] }).schedule remoteTrip (.remoteFlagAdd c ch dev))

/-- The first beat in walk order of a remote copy that is on its way over a link. -/
def CopyRun.onFabric (r : CopyRun) (cycle i : Nat) : Option RemoteBeat :=
  if !r.cmd.remote || r.fault.isSome then none
  else (r.beats.filter fun b => b.link = i && decide (cycle < b.ack)).foldl (fun m b => match m with
    | some d => if d.pos < b.pos || (d.pos = b.pos && d.off ≤ b.off) then some d else some b
    | none => some b) none

/-- FABRIC_LINK_FAILURE: the link's bit clears; a remote copy with beats in flight over it ends in fault kind 4. -/
def execFabricLinkFailure (i : Nat) (s : State) : Res :=
  let runs := s.clusters.flatMap fun (c, k) => (List.range 16).filterMap fun ch =>
    ((k.channels.toList.getD ch Channel.reset).run.bind fun r => r.onFabric s.cycle i).map fun b => (c, ch, b)
  let s := s.modPkg fun p => { p with fabReady := setBit p.fabReady i false }
  .next (runs.foldl (fun s (c, ch, b) => s.beatFails c ch b 4) s)

end Sys2Proof.Machine
end

