-- ==== Sys2Proof/Machine/VCacheOps.lean ====
section
/-! DEFINITION. The instructions of the virtual caches (15_die_ops R318 to R321) with the checks of 12 R265, R266, and the
reconfiguration in flight (12 R276 to R279). -/
namespace Sys2Proof.Machine

/-! ## Definitions (R265, R266, R318) -/

/-- The bank numbers of a list, or none for one that breaks R265. -/
def bankList (head list : List Byte) : Option (List Nat) :=
  let k := natOfBytes (head.take 2)
  let banks := (List.range k).map fun i => natOfBytes ((list.drop (8 + 2 * i)).take 2)
  if natOfBytes (head.drop 2) = 0 && 1 ≤ k && k ≤ 256 && banks.all (· < 8192) && banks.eraseDups.length = k then some banks
  else none

/-- The number of banks that a list's head gives, 0 where it breaks R265. -/
def bankCount (head : List Byte) : Nat :=
  let k := natOfBytes (head.take 2)
  if natOfBytes (head.drop 2) = 0 && k ≤ 256 then k else 0

/-- The parent is undefined, or its chain comes back to the cache. -/
def State.badParent (s : State) (vc : Nat) : Nat → Nat → Bool
  | 0, _ => true
  | n + 1, p => if p ≥ 16 then false else p = vc || (s.cacheOf s.ctx.job p).isNone || State.badParent s vc n (s.parentOf s.ctx.job p)

/-- Some way of the mask is not allotted to the job in some bank. -/
def State.badWays (s : State) (cfg : CacheCfg) (banks : List Nat) : Bool :=
  banks.any fun b => (List.range 16).any fun w => cfg.mask.getLsbD w && s.allotted b w ≠ some s.ctx.job

/-- The bank list at an address, and the conditions of R266 in order; `known` says that the number has to be defined. -/
def withBanks (vc : Nat) (a : GReg) (cfg : CacheCfg) (known : Bool) (s : State) (k : List Nat → State → Res) : Res :=
  withG [a] s
    (loadSized (s.g a) 8 (fun head => if bankCount head = 0 then none else some (8 + 2 * bankCount head)) (s.anyTaint [a]) s
      illegal fun list s =>
        match bankList (list.take 8) list with
        | none => illegal s
        | some banks =>
          if (s.cacheOf s.ctx.job vc).isSome ≠ known then illegal s
          else if s.badParent vc 17 cfg.parent.toNat then illegal s
          else if s.badWays cfg banks then trapTo s causeProtection (s.g a)
          else k banks s)

def execVcdef (d : BitVec 4) (a : GReg) (c : CacheCfg) (s : State) : Res :=
  withBanks d.toNat a c false s fun banks s =>
    let v : VCache := { cfg := c, banks := banks, hits := 0, misses := 0, fills := 0, writebacks := 0, set := [] }
    .next (((s.modJob s.ctx.job fun j => { j with vcs := Table.set j.vcs d.toNat v }).finish 16).rest .timedMemory
      (40 + banks.length))

/-! ## Bindings and counters (R319, R321) -/

/-- A binding takes effect when the instruction completes, 40 cycles from issue (R268, R319). -/
def State.bindRegion (s : State) (slot : Nat) (r : Option Region) : State :=
  ((s.modJob s.ctx.job fun j => j.bindAt s.cycle (s.cycle + 40) slot r).finish 12).rest .timedMemory 40

def execVcbind (slot : BitVec 6) (vc : BitVec 4) (a : GReg) (len : BitVec 32) (s : State) : Res :=
  withG [a] s
    (let base := (s.g a).toNat
     if base % 65536 ≠ 0 || base + len.toNat * 65536 > 2 ^ 55 then trapTo s causeAddress (s.g a)
     else if (s.cacheOf s.ctx.job vc.toNat).isNone then illegal s
     else
       .next (s.bindRegion slot.toNat (some { base := base, len := len.toNat, vc := vc.toNat })))

def execVcbindUnbind (slot : BitVec 6) (s : State) : Res :=
  .next (s.bindRegion slot.toNat none)

/-- A counter of R276. -/
def State.vcCounter (s : State) (job vc ctr : Nat) : Word :=
  match s.cacheOf job vc with
  | none => 0
  | some v =>
    match ctr with
    | 0 => BitVec.ofNat 64 (s.ms.banks.filter fun b => b.job = job && b.alloc = vc).length
    | 1 => v.hits
    | 2 => v.misses
    | 3 => v.fills
    | _ => v.writebacks

def execVcstat (d : GReg) (vc : BitVec 4) (ctr : BitVec 3) (s : State) : Res :=
  .next (((s.setG d (s.vcCounter s.ctx.job vc.toNat ctr.toNat) false).finish 8).rest .timedMemory 20)

/-! ## vcset (R277 to R279, R320) -/

/-- Registered words of a line below a cache go to its old parent, and enrolments end: the shared copies and the
fetched ones below it (R275, R278). The run ends no earlier than their acknowledgements. -/
def State.callBack (s : State) (job vc line : Nat) : State :=
  let (held, x) := s.treeHeld job vc line
  let own := s.copyIn job vc line
  let base := match s.cacheOf job vc with | some v => (v.place line).1 / 2048 | none => 0
  let fetched := (s.coresOf job).any fun k => (s.codeLines k).contains (job, line)
  let low := (s.l1Below job vc line).any fun y => y.2.registered ||| y.2.shared ≠ 0
  let mid := (s.copiesBelow job vc line).any fun b => (b.shared || b.registered ≠ 0) && own.all fun c => !c.same b
  let trip := if fetched || low || mid then s.treeBelow job line 17 vc else 0
  let s := match own with | some b => if b.dirty && b.alloc = vc then s.countWb b else s | none => s
  let s := s.treeRelease job vc line held
  let s := (s.l1Below job vc line).foldl (fun s (k, _) => s.modCore k fun c =>
    { c with l1 := (c.l1.map fun y => if y.job = job && y.line = line then { y with shared := 0 } else y).filter fun y => y.held ≠ 0 }) s
  let s := (s.copiesBelow job vc line).foldl (fun s b => if b.shared then s.bankDrop b else s) s
  let s := if fetched then (s.coresOf job).foldl (fun s k => s.fetchDrop k job line) s else s
  let parent := s.parentOf job vc
  let s := s.modVcset job vc fun u => { u with ends := max u.ends (s.cycle + trip) }
  if held = 0 then s
  else
    let w : Wb := { agent := s.treeAgent job vc, job := job, line := line, words := held,
                    held := held ||| ((own.map (·.valid)).getD 0), data := mergeLine (bytesOfWords held) x ((own.map (·.data)).getD 0),
                    shared := false, lease := (own.bind (·.lease)), wts := (s.treeTime job vc line).getD 0, ack := none }
    s.sendUp base w parent trip (some (.vcset job vc))

/-- The lines of a job that some L1, instruction cache or bank holds for a subtree. -/
def State.treeLines (s : State) (job vc : Nat) : List Nat :=
  let l1 := s.cores.flatMap fun (_, c) =>
    (c.l1.filter fun x => x.job = job && decide (x.parent < 16) && s.within job vc 16 x.parent).map (·.line)
  let code := (s.coresOf job).flatMap fun k =>
    ((s.codeLines k).filter fun x => x.1 = job && s.within job vc 16 (s.boundCache job (x.2 * 64))).map (·.2)
  (l1 ++ code ++ (s.ms.banks.filter fun b => b.job = job && s.within job vc 16 b.alloc).map (·.line)).eraseDups

/-- Step 3 of R278 for the set of a cache that comes next: the lines that the change removes leave. -/
def State.scanSet (s : State) (job vc k : Nat) (v : VCache) (u : VcsetRun) : State :=
  let gone := s.ms.banks.filter fun b =>
    b.job = job && b.alloc = vc && b.set = v.cfg.start.toNat + k && (u.changes v || !u.cfg.mask.getLsbD b.way)
  let s := s.modVcset job vc fun u => { u with scan := some (k + 1), gone := u.gone ++ gone.map (·.line) }
  gone.foldl (fun s b => (s.callBack job vc b.line).bankDrop b) s

/-- A request or a reply that passes the cache on its way is still in flight. -/
def State.fillsComing (s : State) (job vc : Nat) : Bool :=
  let fills (r : Req) : Bool := match r.kind with | .load | .fetch => true | _ => decide (r.pol = .own)
  let mine (r : Req) : Bool := r.job = job && r.path.contains vc && fills r
  (s.agenda.any fun x => match x.2 with
    | .memoryReply r _ | .storeQueueAck r _ | .instructionCacheFill r _ | .homeRequest r | .vcacheLookup r _ => mine r
    | _ => false) ||
  (s.ms.home.any fun (_, h) => h.queue.any mine || h.txn.any fun t => mine t.req) ||
  (s.ms.holds.any fun h => h.held.any mine) || ((s.job job).vcs.any fun v => v.2.set.any fun u => u.held.any mine)

/-- Step 1: the cache is frozen. -/
def State.startVcset (s : State) (job vc : Nat) (u : VcsetRun) : State :=
  (s.modJobEntry u.cluster u.jid fun e => { e with state := 1 }).schedule 1 (.vcsetSwitch job vc)

/-- VCSET_SWITCH: steps 2 to 4 of R278: once no fill is on its way, the registrations and enrolments end where the parent
changes, the lines are removed, one set a cycle, and after the last acknowledgement the new configuration holds and the
requests go on. -/
def execVcsetSwitch (job vc : Nat) (s : State) : Res :=
  match s.cacheOf job vc with
  | none => .next s
  | some v =>
    match v.set with
    | [] => .next s
    | u :: us =>
      match u.scan with
      | none =>
        if s.fillsComing job vc then .next (s.schedule 1 (.vcsetSwitch job vc))
        else
          let first := if u.cfg.parent ≠ v.cfg.parent then s.treeLines job vc else []
          let s := first.foldl (fun s l => s.callBack job vc l) s
          .next ((s.modVcset job vc fun u => { u with scan := some 0 }).schedule 0 (.vcsetSwitch job vc))
      | some k =>
        if k < 2 ^ v.cfg.log.toNat then .next ((s.scanSet job vc k v u).schedule 1 (.vcsetSwitch job vc))
        else if s.ackComing (.vcset job vc) then .next (s.schedule 1 (.vcsetSwitch job vc))
        else if s.cycle < u.ends then .next (s.schedule (u.ends - s.cycle) (.vcsetSwitch job vc))
        else
          let s := s.modCache job vc fun v => { v with cfg := u.cfg, banks := u.banks, set := us }
          let s := u.held.foldl (fun s r => s.schedule 0 (.vcacheLookup r vc)) s
          let s := s.endJob u.cluster u.jid 2
          .next (match us with | w :: _ => s.startVcset job vc w | [] => s)

def execVcset (d : GReg) (vc : BitVec 4) (a : GReg) (c : CacheCfg) (s : State) : Res :=
  withBanks vc.toNat a c true s fun banks s =>
    match s.freeJob s.myCluster with
    | none => .next (s.park .jobTable)
    | some i =>
      let (s, jid) := s.takeJob s.myCluster i { JobEntry.reset with engine := false }
      let u : VcsetRun := { cfg := c, banks := banks, cluster := s.myCluster, jid := jid, scan := none, ends := 0, gone := [], held := [] }
      let first := ((s.cacheOf s.ctx.job vc.toNat).map fun v => v.set.isEmpty).getD true
      let s := s.modCache s.ctx.job vc.toNat fun v => { v with set := v.set ++ [u] }
      let s := if first then s.startVcset s.ctx.job vc.toNat u else s
      .next ((s.setG d (BitVec.ofNat 64 jid) (s.taint a)).finish 12)

end Sys2Proof.Machine
end

