-- ==== Sys2Proof/Machine/Dispatch.lean ====
section
/-! DEFINITION. One arm per instruction and event: each calls its meaning. -/
namespace Sys2Proof.Machine

def exec (i : Instr) (s : State) : Host.Outcome State Fault Refusal :=
  match i with
  | .dividerResult t d v taint => Sys2Proof.Machine.execDividerResult t d v taint s
  | .specialFunctionResult t d v flags => Sys2Proof.Machine.execSpecialFunctionResult t d v flags s
  | .streamFill t k => Sys2Proof.Machine.execStreamFill t k s
  | .streamPushPerform t k => Sys2Proof.Machine.execStreamPushPerform t k s
  | .rotationVisit core => Sys2Proof.Machine.execRotationVisit core s
  | .memoryReply r p => Sys2Proof.Machine.execMemoryReply r p s
  | .instructionCacheFill r p => Sys2Proof.Machine.execInstructionCacheFill r p s
  | .bankConflictReplay t => Sys2Proof.Machine.execBankConflictReplay t s
  | .fullEmptyReplay t => Sys2Proof.Machine.execFullEmptyReplay t s
  | .storeQueueAck r p => Sys2Proof.Machine.execStoreQueueAck r p s
  | .wakeDelivery t job => Sys2Proof.Machine.execWakeDelivery t job s
  | .rputDelivery way job m => Sys2Proof.Machine.execRputDelivery way job m s
  | .sendDelivery way job idx v ptime => Sys2Proof.Machine.execSendDelivery way job idx v ptime s
  | .reductionDelivery job round => Sys2Proof.Machine.execReductionDelivery job round s
  | .remoteStoreMessage t cells => Sys2Proof.Machine.execRemoteStoreMessage t cells s
  | .engineFaultSignal t jid => Sys2Proof.Machine.execEngineFaultSignal t jid s
  | .residencyWake t => Sys2Proof.Machine.execResidencyWake t s
  | .migrationArrival t => Sys2Proof.Machine.execMigrationArrival t s
  | .migrationRetry t => Sys2Proof.Machine.execMigrationRetry t s
  | .migrationTimeout t => Sys2Proof.Machine.execMigrationTimeout t s
  | .migratedUnitStatus holder e => Sys2Proof.Machine.execMigratedUnitStatus holder e s
  | .contextSwap slot entry => Sys2Proof.Machine.execContextSwap slot entry s
  | .bindRecordDispatch slot r => Sys2Proof.Machine.execBindRecordDispatch slot r s
  | .bindRecordSwap slot r => Sys2Proof.Machine.execBindRecordSwap slot r s
  | .bindRecordReleaseCore slot r => Sys2Proof.Machine.execBindRecordReleaseCore slot r s
  | .unitRestart slot => Sys2Proof.Machine.execUnitRestart slot s
  | .clusterClear c => Sys2Proof.Machine.execClusterClear c s
  | .clusterClearDone c => Sys2Proof.Machine.execClusterClearDone c s
  | .matrixStart c => Sys2Proof.Machine.execMatrixStart c s
  | .matrixComplete c => Sys2Proof.Machine.execMatrixComplete c s
  | .copyBeat c ch => Sys2Proof.Machine.execCopyBeat c ch s
  | .copyCommandDone c ch => Sys2Proof.Machine.execCopyCommandDone c ch s
  | .copyCommandFault c ch kind addr => Sys2Proof.Machine.execCopyCommandFault c ch kind addr s
  | .barrierRelease c b flags waiters => Sys2Proof.Machine.execBarrierRelease c b flags waiters s
  | .dcmdHalt c => Sys2Proof.Machine.execDcmdHalt c s
  | .dcmdResume c => Sys2Proof.Machine.execDcmdResume c s
  | .dcmdStep c => Sys2Proof.Machine.execDcmdStep c s
  | .stepDone c => Sys2Proof.Machine.execStepDone c s
  | .crossTriggerHalt c => Sys2Proof.Machine.execCrossTriggerHalt c s
  | .contextWindowAccess c core slot off wr => Sys2Proof.Machine.execContextWindowAccess c core slot off wr s
  | .strainerSample die => Sys2Proof.Machine.execStrainerSample die s
  | .registerWrite bar off v => Sys2Proof.Machine.execRegisterWrite bar off v s
  | .vcsetSwitch job vc => Sys2Proof.Machine.execVcsetSwitch job vc s
  | .homeRequest r => Sys2Proof.Machine.execHomeRequest r s
  | .homeWriteback w => Sys2Proof.Machine.execHomeWriteback w s
  | .vcacheWriteback w vc => Sys2Proof.Machine.execVcacheWriteback w vc s
  | .vcacheLookup r vc => Sys2Proof.Machine.execVcacheLookup r vc s
  | .invalidation p => Sys2Proof.Machine.execInvalidation p s
  | .forward p => Sys2Proof.Machine.execForward p s
  | .revocation p => Sys2Proof.Machine.execRevocation p s
  | .promotionProbe t core wide => Sys2Proof.Machine.execPromotionProbe t core wide s
  | .sliceSweep sweep => Sys2Proof.Machine.execSliceSweep sweep s
  | .leaseTimeout core job line granted => Sys2Proof.Machine.execLeaseTimeout core job line granted s
  | .agentLostScan agent => Sys2Proof.Machine.execAgentLostScan agent s
  | .jobEndBankScan scan => Sys2Proof.Machine.execJobEndBankScan scan s
  | .allotmentChange bank way entry => Sys2Proof.Machine.execAllotmentChange bank way entry s
  | .launchTake l => Sys2Proof.Machine.execLaunchTake l s
  | .predecessorComplete lid => Sys2Proof.Machine.execPredecessorComplete lid s
  | .doneMessage n e => Sys2Proof.Machine.execDoneMessage n e s
  | .launchComplete lid => Sys2Proof.Machine.execLaunchComplete lid s
  | .taskDecrement rec job ptime => Sys2Proof.Machine.execTaskDecrement rec job ptime s
  | .runListInstall place => Sys2Proof.Machine.execRunListInstall place s
  | .stealRequest die => Sys2Proof.Machine.execStealRequest die s
  | .stealReply die victim => Sys2Proof.Machine.execStealReply die victim s
  | .recruitStart m => Sys2Proof.Machine.execRecruitStart m s
  | .cancelArrival core lid => Sys2Proof.Machine.execCancelArrival core lid s
  | .sendAllowanceReturn core => Sys2Proof.Machine.execSendAllowanceReturn core s
  | .poisonedPacketDrop c req => Sys2Proof.Machine.execPoisonedPacketDrop c req s
  | .clusterReset c => Sys2Proof.Machine.execClusterReset c s
  | .packageReset => Sys2Proof.Machine.execPackageReset s
  | .selfTestPass f => Sys2Proof.Machine.execSelfTestPass f s
  | .firmwareBoot f image => Sys2Proof.Machine.execFirmwareBoot f image s
  | .watchdogExpiry f => Sys2Proof.Machine.execWatchdogExpiry f s
  | .explorePacket die from_ => Sys2Proof.Machine.execExplorePacket die from_ s
  | .routingSetup => Sys2Proof.Machine.execRoutingSetup s
  | .ringLinkFailure n => Sys2Proof.Machine.execRingLinkFailure n s
  | .droppedReplyTimeout r => Sys2Proof.Machine.execDroppedReplyTimeout r s
  | .eccError w multi => Sys2Proof.Machine.execEccError w multi s
  | .faultLogDelivery die => Sys2Proof.Machine.execFaultLogDelivery die s
  | .ringSplit => Sys2Proof.Machine.execRingSplit s
  | .halfFence half => Sys2Proof.Machine.execHalfFence half s
  | .selfFenceTimeout half => Sys2Proof.Machine.execSelfFenceTimeout half s
  | .pageInRequest va => Sys2Proof.Machine.execPageInRequest va s
  | .leafWriteValid va leaf => Sys2Proof.Machine.execLeafWriteValid va leaf s
  | .translationWalk t va => Sys2Proof.Machine.execTranslationWalk t va s
  | .tmoveTransferDone c jid => Sys2Proof.Machine.execTmoveTransferDone c jid s
  | .replicaWindow => Sys2Proof.Machine.execReplicaWindow s
  | .replicaFill r p => Sys2Proof.Machine.execReplicaFill r p s
  | .doorbellWrite q tail => Sys2Proof.Machine.execDoorbellWrite q tail s
  | .commandLaunch q => Sys2Proof.Machine.execCommandLaunch q s
  | .commandCancelJob q => Sys2Proof.Machine.execCommandCancelJob q s
  | .commandLoadKey q => Sys2Proof.Machine.execCommandLoadKey q s
  | .commandAttest q => Sys2Proof.Machine.execCommandAttest q s
  | .commandDebug q => Sys2Proof.Machine.execCommandDebug q s
  | .hostDeviceAccess pa wr own => Sys2Proof.Machine.execHostDeviceAccess pa wr own s
  | .backInvalidation line wb => Sys2Proof.Machine.execBackInvalidation line wb s
  | .remoteBeatArrival job cells => Sys2Proof.Machine.execRemoteBeatArrival job cells s
  | .remoteFlagAdd c ch dev => Sys2Proof.Machine.execRemoteFlagAdd c ch dev s
  | .fabricLinkFailure n => Sys2Proof.Machine.execFabricLinkFailure n s
  | .hostPortDown n => Sys2Proof.Machine.execHostPortDown n s
  | .hostPortUp n => Sys2Proof.Machine.execHostPortUp n s
  | .remoteReadMessage t => Sys2Proof.Machine.execRemoteReadMessage t s
  | .probeAcknowledgement a => Sys2Proof.Machine.execProbeAcknowledgement a s
  | .addReg d a b => Sys2Proof.Machine.execAddReg d a b s
  | .addImm d a imm => Sys2Proof.Machine.execAddImm d a imm s
  | .addImm32 d a imm => Sys2Proof.Machine.execAddImm32 d a imm s
  | .subReg d a b => Sys2Proof.Machine.execSubReg d a b s
  | .subImm d a imm => Sys2Proof.Machine.execSubImm d a imm s
  | .subImm32 d a imm => Sys2Proof.Machine.execSubImm32 d a imm s
  | .mulReg d a b => Sys2Proof.Machine.execMulReg d a b s
  | .mulImm d a imm => Sys2Proof.Machine.execMulImm d a imm s
  | .mulImm32 d a imm => Sys2Proof.Machine.execMulImm32 d a imm s
  | .mulhReg d a b => Sys2Proof.Machine.execMulhReg d a b s
  | .mulhImm d a imm => Sys2Proof.Machine.execMulhImm d a imm s
  | .mulhImm32 d a imm => Sys2Proof.Machine.execMulhImm32 d a imm s
  | .mulhuReg d a b => Sys2Proof.Machine.execMulhuReg d a b s
  | .mulhuImm d a imm => Sys2Proof.Machine.execMulhuImm d a imm s
  | .mulhuImm32 d a imm => Sys2Proof.Machine.execMulhuImm32 d a imm s
  | .andReg d a b => Sys2Proof.Machine.execAndReg d a b s
  | .andImm d a imm => Sys2Proof.Machine.execAndImm d a imm s
  | .andImm32 d a imm => Sys2Proof.Machine.execAndImm32 d a imm s
  | .orReg d a b => Sys2Proof.Machine.execOrReg d a b s
  | .orImm d a imm => Sys2Proof.Machine.execOrImm d a imm s
  | .orImm32 d a imm => Sys2Proof.Machine.execOrImm32 d a imm s
  | .xorReg d a b => Sys2Proof.Machine.execXorReg d a b s
  | .xorImm d a imm => Sys2Proof.Machine.execXorImm d a imm s
  | .xorImm32 d a imm => Sys2Proof.Machine.execXorImm32 d a imm s
  | .andnReg d a b => Sys2Proof.Machine.execAndnReg d a b s
  | .andnImm d a imm => Sys2Proof.Machine.execAndnImm d a imm s
  | .andnImm32 d a imm => Sys2Proof.Machine.execAndnImm32 d a imm s
  | .shlReg d a b => Sys2Proof.Machine.execShlReg d a b s
  | .shlImm d a imm => Sys2Proof.Machine.execShlImm d a imm s
  | .shlImm32 d a imm => Sys2Proof.Machine.execShlImm32 d a imm s
  | .shrReg d a b => Sys2Proof.Machine.execShrReg d a b s
  | .shrImm d a imm => Sys2Proof.Machine.execShrImm d a imm s
  | .shrImm32 d a imm => Sys2Proof.Machine.execShrImm32 d a imm s
  | .sarReg d a b => Sys2Proof.Machine.execSarReg d a b s
  | .sarImm d a imm => Sys2Proof.Machine.execSarImm d a imm s
  | .sarImm32 d a imm => Sys2Proof.Machine.execSarImm32 d a imm s
  | .rotrReg d a b => Sys2Proof.Machine.execRotrReg d a b s
  | .rotrImm d a imm => Sys2Proof.Machine.execRotrImm d a imm s
  | .rotrImm32 d a imm => Sys2Proof.Machine.execRotrImm32 d a imm s
  | .minReg d a b => Sys2Proof.Machine.execMinReg d a b s
  | .minImm d a imm => Sys2Proof.Machine.execMinImm d a imm s
  | .minImm32 d a imm => Sys2Proof.Machine.execMinImm32 d a imm s
  | .maxReg d a b => Sys2Proof.Machine.execMaxReg d a b s
  | .maxImm d a imm => Sys2Proof.Machine.execMaxImm d a imm s
  | .maxImm32 d a imm => Sys2Proof.Machine.execMaxImm32 d a imm s
  | .minuReg d a b => Sys2Proof.Machine.execMinuReg d a b s
  | .minuImm d a imm => Sys2Proof.Machine.execMinuImm d a imm s
  | .minuImm32 d a imm => Sys2Proof.Machine.execMinuImm32 d a imm s
  | .maxuReg d a b => Sys2Proof.Machine.execMaxuReg d a b s
  | .maxuImm d a imm => Sys2Proof.Machine.execMaxuImm d a imm s
  | .maxuImm32 d a imm => Sys2Proof.Machine.execMaxuImm32 d a imm s
  | .clz d a => Sys2Proof.Machine.execClz d a s
  | .ctz d a => Sys2Proof.Machine.execCtz d a s
  | .popc d a => Sys2Proof.Machine.execPopc d a s
  | .sext d a sw => Sys2Proof.Machine.execSext d a sw s
  | .zext d a sw => Sys2Proof.Machine.execZext d a sw s
  | .madd d a b c => Sys2Proof.Machine.execMadd d a b c s
  | .divReg d a b => Sys2Proof.Machine.execDivReg d a b s
  | .divImm d a imm => Sys2Proof.Machine.execDivImm d a imm s
  | .divImm32 d a imm => Sys2Proof.Machine.execDivImm32 d a imm s
  | .divuReg d a b => Sys2Proof.Machine.execDivuReg d a b s
  | .divuImm d a imm => Sys2Proof.Machine.execDivuImm d a imm s
  | .divuImm32 d a imm => Sys2Proof.Machine.execDivuImm32 d a imm s
  | .remReg d a b => Sys2Proof.Machine.execRemReg d a b s
  | .remImm d a imm => Sys2Proof.Machine.execRemImm d a imm s
  | .remImm32 d a imm => Sys2Proof.Machine.execRemImm32 d a imm s
  | .remuReg d a b => Sys2Proof.Machine.execRemuReg d a b s
  | .remuImm d a imm => Sys2Proof.Machine.execRemuImm d a imm s
  | .remuImm32 d a imm => Sys2Proof.Machine.execRemuImm32 d a imm s
  | .movi d v => Sys2Proof.Machine.execMovi d v s
  | .nop => Sys2Proof.Machine.execNop s
  | .nopl => Sys2Proof.Machine.execNopl s
  | .cmpEqReg d a b => Sys2Proof.Machine.execCmpEqReg d a b s
  | .cmpEqImm d a imm => Sys2Proof.Machine.execCmpEqImm d a imm s
  | .cmpNeReg d a b => Sys2Proof.Machine.execCmpNeReg d a b s
  | .cmpNeImm d a imm => Sys2Proof.Machine.execCmpNeImm d a imm s
  | .cmpLtReg d a b => Sys2Proof.Machine.execCmpLtReg d a b s
  | .cmpLtImm d a imm => Sys2Proof.Machine.execCmpLtImm d a imm s
  | .cmpGeReg d a b => Sys2Proof.Machine.execCmpGeReg d a b s
  | .cmpGeImm d a imm => Sys2Proof.Machine.execCmpGeImm d a imm s
  | .cmpLtuReg d a b => Sys2Proof.Machine.execCmpLtuReg d a b s
  | .cmpLtuImm d a imm => Sys2Proof.Machine.execCmpLtuImm d a imm s
  | .cmpGeuReg d a b => Sys2Proof.Machine.execCmpGeuReg d a b s
  | .cmpGeuImm d a imm => Sys2Proof.Machine.execCmpGeuImm d a imm s
  | .sel d a b c => Sys2Proof.Machine.execSel d a b c s
  | .bfxUnsigned d a pos len => Sys2Proof.Machine.execBfxUnsigned d a pos len s
  | .bfxSigned d a pos len => Sys2Proof.Machine.execBfxSigned d a pos len s
  | .bfi d a pos len => Sys2Proof.Machine.execBfi d a pos len s
  | .lea d a b scale disp => Sys2Proof.Machine.execLea d a b scale disp s
  | .br disp => Sys2Proof.Machine.execBr disp s
  | .bcmpEq a b disp => Sys2Proof.Machine.execBcmpEq a b disp s
  | .bcmpNe a b disp => Sys2Proof.Machine.execBcmpNe a b disp s
  | .bcmpLt a b disp => Sys2Proof.Machine.execBcmpLt a b disp s
  | .bcmpGe a b disp => Sys2Proof.Machine.execBcmpGe a b disp s
  | .bcmpLtu a b disp => Sys2Proof.Machine.execBcmpLtu a b disp s
  | .bcmpGeu a b disp => Sys2Proof.Machine.execBcmpGeu a b disp s
  | .jal d disp => Sys2Proof.Machine.execJal d disp s
  | .jr d a disp => Sys2Proof.Machine.execJr d a disp s
  | .trap code => Sys2Proof.Machine.execTrap code s
  | .brk code => Sys2Proof.Machine.execBrk code s
  | .rett => Sys2Proof.Machine.execRett s
  | .rettSkip => Sys2Proof.Machine.execRettSkip s
  | .rdcr d idx => Sys2Proof.Machine.execRdcr d idx s
  | .wrcr a idx => Sys2Proof.Machine.execWrcr a idx s
  | .rdtime d => Sys2Proof.Machine.execRdtime d s
  | .wait => Sys2Proof.Machine.execWait s
  | .wake a => Sys2Proof.Machine.execWake a s
  | .yield => Sys2Proof.Machine.execYield s
  | .exit => Sys2Proof.Machine.execExit s
  | .rpt count stride => Sys2Proof.Machine.execRpt count stride s
  | .lpset k a disp => Sys2Proof.Machine.execLpset k a disp s
  | .ld m => Sys2Proof.Machine.execLd m s
  | .ldc m => Sys2Proof.Machine.execLdc m s
  | .st m => Sys2Proof.Machine.execSt m s
  | .reclaimStore m => Sys2Proof.Machine.execReclaimStore m s
  | .amoAdd m => Sys2Proof.Machine.execAmoAdd m s
  | .amoAnd m => Sys2Proof.Machine.execAmoAnd m s
  | .amoOr m => Sys2Proof.Machine.execAmoOr m s
  | .amoXor m => Sys2Proof.Machine.execAmoXor m s
  | .amoMin m => Sys2Proof.Machine.execAmoMin m s
  | .amoMax m => Sys2Proof.Machine.execAmoMax m s
  | .amoMinu m => Sys2Proof.Machine.execAmoMinu m s
  | .amoMaxu m => Sys2Proof.Machine.execAmoMaxu m s
  | .amoSwap m => Sys2Proof.Machine.execAmoSwap m s
  | .cas m disp => Sys2Proof.Machine.execCas m disp s
  | .ldfe m => Sys2Proof.Machine.execLdfe m s
  | .stfe m => Sys2Proof.Machine.execStfe m s
  | .ldff m => Sys2Proof.Machine.execLdff m s
  | .feset m full => Sys2Proof.Machine.execFeset m full s
  | .fenceAcq scope pr a => Sys2Proof.Machine.execFenceAcq scope pr a s
  | .fenceRel scope all => Sys2Proof.Machine.execFenceRel scope all s
  | .fenceFull scope all => Sys2Proof.Machine.execFenceFull scope all s
  | .cflush a b scope scale disp => Sys2Proof.Machine.execCflush a b scope scale disp s
  | .untaint d => Sys2Proof.Machine.execUntaint d s
  | .rputG d a b ext => Sys2Proof.Machine.execRputG d a b ext s
  | .rputV d a b ext => Sys2Proof.Machine.execRputV d a b ext s
  | .pclrG d => Sys2Proof.Machine.execPclrG d s
  | .pclrV d => Sys2Proof.Machine.execPclrV d s
  | .ptouch a b scale disp => Sys2Proof.Machine.execPtouch a b scale disp s
  | .vadd m d a b => Sys2Proof.Machine.execVadd m d a b s
  | .vsub m d a b => Sys2Proof.Machine.execVsub m d a b s
  | .vmul m d a b => Sys2Proof.Machine.execVmul m d a b s
  | .vdiv m d a b => Sys2Proof.Machine.execVdiv m d a b s
  | .vmin m d a b => Sys2Proof.Machine.execVmin m d a b s
  | .vmax m d a b => Sys2Proof.Machine.execVmax m d a b s
  | .vand m d a b => Sys2Proof.Machine.execVand m d a b s
  | .vor m d a b => Sys2Proof.Machine.execVor m d a b s
  | .vxor m d a b => Sys2Proof.Machine.execVxor m d a b s
  | .vshl m d a b => Sys2Proof.Machine.execVshl m d a b s
  | .vshr m d a b => Sys2Proof.Machine.execVshr m d a b s
  | .vsar m d a b => Sys2Proof.Machine.execVsar m d a b s
  | .vabd m d a b => Sys2Proof.Machine.execVabd m d a b s
  | .vfma m d a b c => Sys2Proof.Machine.execVfma m d a b c s
  | .vfms m d a b c => Sys2Proof.Machine.execVfms m d a b c s
  | .vfnma m d a b c => Sys2Proof.Machine.execVfnma m d a b c s
  | .vabs m d a => Sys2Proof.Machine.execVabs m d a s
  | .vneg m d a => Sys2Proof.Machine.execVneg m d a s
  | .vsqrt m d a => Sys2Proof.Machine.execVsqrt m d a s
  | .vrcp m d a => Sys2Proof.Machine.execVrcp m d a s
  | .vrsq m d a => Sys2Proof.Machine.execVrsq m d a s
  | .vexp2 m d a => Sys2Proof.Machine.execVexp2 m d a s
  | .vlog2 m d a => Sys2Proof.Machine.execVlog2 m d a s
  | .vtanh m d a => Sys2Proof.Machine.execVtanh m d a s
  | .vnot m d a => Sys2Proof.Machine.execVnot m d a s
  | .vcmpEq m d a b => Sys2Proof.Machine.execVcmpEq m d a b s
  | .vcmpNe m d a b => Sys2Proof.Machine.execVcmpNe m d a b s
  | .vcmpLt m d a b => Sys2Proof.Machine.execVcmpLt m d a b s
  | .vcmpLe m d a b => Sys2Proof.Machine.execVcmpLe m d a b s
  | .vcmpGt m d a b => Sys2Proof.Machine.execVcmpGt m d a b s
  | .vcmpGe m d a b => Sys2Proof.Machine.execVcmpGe m d a b s
  | .vsel m d a b c => Sys2Proof.Machine.execVsel m d a b c s
  | .vcvt m tag d a => Sys2Proof.Machine.execVcvt m tag d a s
  | .vbfpn rnd d a n b => Sys2Proof.Machine.execVbfpn rnd d a n b s
  | .vbfpx d a b h => Sys2Proof.Machine.execVbfpx d a b h s
  | .vbfpi d a b => Sys2Proof.Machine.execVbfpi d a b s
  | .vtag tag d a => Sys2Proof.Machine.execVtag tag d a s
  | .vmov d a => Sys2Proof.Machine.execVmov d a s
  | .vsplat m tag d a => Sys2Proof.Machine.execVsplat m tag d a s
  | .vext d a lane => Sys2Proof.Machine.execVext d a lane s
  | .vins d a lane => Sys2Proof.Machine.execVins d a lane s
  | .vperm m d a b => Sys2Proof.Machine.execVperm m d a b s
  | .vslide m d a k => Sys2Proof.Machine.execVslide m d a k s
  | .vrot m d a k => Sys2Proof.Machine.execVrot m d a k s
  | .vredAdd m d a => Sys2Proof.Machine.execVredAdd m d a s
  | .vredMin m d a => Sys2Proof.Machine.execVredMin m d a s
  | .vredMax m d a => Sys2Proof.Machine.execVredMax m d a s
  | .vredAnd m d a => Sys2Proof.Machine.execVredAnd m d a s
  | .vredOr m d a => Sys2Proof.Machine.execVredOr m d a s
  | .vredXor m d a => Sys2Proof.Machine.execVredXor m d a s
  | .vscanAdd m d a => Sys2Proof.Machine.execVscanAdd m d a s
  | .vscanMin m d a => Sys2Proof.Machine.execVscanMin m d a s
  | .vscanMax m d a => Sys2Proof.Machine.execVscanMax m d a s
  | .vcompress d a c => Sys2Proof.Machine.execVcompress d a c s
  | .pand d a b => Sys2Proof.Machine.execPand d a b s
  | .por d a b => Sys2Proof.Machine.execPor d a b s
  | .pxor d a b => Sys2Proof.Machine.execPxor d a b s
  | .pnot d a => Sys2Proof.Machine.execPnot d a s
  | .pset d a => Sys2Proof.Machine.execPset d a s
  | .pcnt d a => Sys2Proof.Machine.execPcnt d a s
  | .pfirst d a => Sys2Proof.Machine.execPfirst d a s
  | .vld m b tag => Sys2Proof.Machine.execVld m b tag s
  | .vst m b => Sys2Proof.Machine.execVst m b s
  | .vldw m b tag => Sys2Proof.Machine.execVldw m b tag s
  | .vgather m b tag => Sys2Proof.Machine.execVgather m b tag s
  | .vscatter m b => Sys2Proof.Machine.execVscatter m b s
  | .sbindRead k a z disp => Sys2Proof.Machine.execSbindRead k a z disp s
  | .sbindWrite k a z disp => Sys2Proof.Machine.execSbindWrite k a z disp s
  | .sunbind k => Sys2Proof.Machine.execSunbind k s
  | .gaddrScalar d a t => Sys2Proof.Machine.execGaddrScalar d a t s
  | .gaddrVector d a t => Sys2Proof.Machine.execGaddrVector d a t s
  | .dtset a t => Sys2Proof.Machine.execDtset a t s
  | .mma m => Sys2Proof.Machine.execMma m s
  | .acrd d a acc row cg => Sys2Proof.Machine.execAcrd d a acc row cg s
  | .acst acc a b c tag pitch => Sys2Proof.Machine.execAcst acc a b c tag pitch s
  | .aczero acc a => Sys2Proof.Machine.execAczero acc a s
  | .acver d acc => Sys2Proof.Machine.execAcver d acc s
  | .cpy d a b c m => Sys2Proof.Machine.execCpy d a b c m s
  | .btwalk d a b c m => Sys2Proof.Machine.execBtwalk d a b c m s
  | .btapp d a b c pos ch => Sys2Proof.Machine.execBtapp d a b c pos ch s
  | .cpyres d a => Sys2Proof.Machine.execCpyres d a s
  | .jpoll d a => Sys2Proof.Machine.execJpoll d a s
  | .jwait a => Sys2Proof.Machine.execJwait a s
  | .cwait a ch => Sys2Proof.Machine.execCwait a ch s
  | .bar d b => Sys2Proof.Machine.execBar d b s
  | .barv b => Sys2Proof.Machine.execBarv b s
  | .barcfg a b => Sys2Proof.Machine.execBarcfg a b s
  | .vcdef d a c => Sys2Proof.Machine.execVcdef d a c s
  | .vcbind slot vc a len => Sys2Proof.Machine.execVcbind slot vc a len s
  | .vcbindUnbind slot => Sys2Proof.Machine.execVcbindUnbind slot s
  | .vcset d vc a c => Sys2Proof.Machine.execVcset d vc a c s
  | .vcstat d vc ctr => Sys2Proof.Machine.execVcstat d vc ctr s
  | .spawn d a b c any disp => Sys2Proof.Machine.execSpawn d a b c any disp s
  | .tdec a => Sys2Proof.Machine.execTdec a s
  | .rfork a b c disp => Sys2Proof.Machine.execRfork a b c disp s
  | .rjoin a => Sys2Proof.Machine.execRjoin a s
  | .launch d a => Sys2Proof.Machine.execLaunch d a s
  | .cancelLaunch a => Sys2Proof.Machine.execCancelLaunch a s
  | .cancelGraph a => Sys2Proof.Machine.execCancelGraph a s
  | .cancelPhase a => Sys2Proof.Machine.execCancelPhase a s
  | .cancelJob a => Sys2Proof.Machine.execCancelJob a s
  | .lvwaitLaunch a b => Sys2Proof.Machine.execLvwaitLaunch a b s
  | .lvwaitGraph a b => Sys2Proof.Machine.execLvwaitGraph a b s
  | .lvwaitPhase a b => Sys2Proof.Machine.execLvwaitPhase a b s
  | .lvwaitJob a b => Sys2Proof.Machine.execLvwaitJob a b s
  | .send a b idx => Sys2Proof.Machine.execSend a b idx s
  | .mcast a b idx => Sys2Proof.Machine.execMcast a b idx s
  | .radd a b idx => Sys2Proof.Machine.execRadd a b idx s
  | .ntree a t => Sys2Proof.Machine.execNtree a t s
  | .xpub a b scope => Sys2Proof.Machine.execXpub a b scope s
  | .bufpub a => Sys2Proof.Machine.execBufpub a s
  | .tmoveDram d a ch => Sys2Proof.Machine.execTmoveDram d a ch s
  | .tmoveHost d a => Sys2Proof.Machine.execTmoveHost d a s
  | .rephintClear a => Sys2Proof.Machine.execRephintClear a s
  | .rephintPin a deg => Sys2Proof.Machine.execRephintPin a deg s
  | .rephintCap a deg => Sys2Proof.Machine.execRephintCap a deg s
  | .repstat d a ctr => Sys2Proof.Machine.execRepstat d a ctr s
  | .plbinvOne a => Sys2Proof.Machine.execPlbinvOne a s
  | .plbinvAll => Sys2Proof.Machine.execPlbinvAll s
  | .tlbinvOne a => Sys2Proof.Machine.execTlbinvOne a s
  | .tlbinvAll => Sys2Proof.Machine.execTlbinvAll s
  | .ctxswap a b => Sys2Proof.Machine.execCtxswap a b s

end Sys2Proof.Machine
end

