-- ==== Sys2Proof/Machine/Step.lean ====
section
/-! DEFINITION. One step of the package, and the placing of an instruction for the next step (log 5). -/
namespace Sys2Proof.Machine

/-- One step: `nextAction` says which instruction or event runs, `exec` runs it. -/
noncomputable def step (s : State) : Host.Outcome State Fault Refusal :=
  match s.nextAction with
  | .run i s' => exec i s'
  | .done s' => .next s'

/-- The state whose next step runs the word: a program is loaded from outside the machine, and this stands for the
load and the issue of one word of it (log 5). -/
noncomputable def State.withFetchWord (s : State) (nbits w : Nat) : State := s.placeWord (w % 2 ^ nbits)

end Sys2Proof.Machine
end

