-- ==== Sys2Proof/Safety.lean ====
section
/-! DEFINITION. What a safe run is, and the words the claims use for what an instruction leaves alone (its frame), for
the result it writes and for how it passes to the next instruction. -/
namespace Sys2Proof.Machine

/-- The step from a state neither faults nor is refused. -/
def StepSafe (s : State) : Prop := ∃ s', step s = .next s'

/-- A run of n steps that stays safe. -/
def RunSafe : Nat → State → Prop
  | 0, _ => True
  | n + 1, s => ∃ s', step s = .next s' ∧ RunSafe n s'

/-! ## Frames -/

/-- Nothing outside the current context changes: the time, the other contexts, memory, cores, clusters, dies, jobs, the
memory system, the package, what is on its way. -/
def SameMachine (s t : State) : Prop := t = { s with ctx := t.ctx }

/-- Outside the current context nothing changes but the cores: their bank ports, queues, caches and counters. -/
def SameButCores (s t : State) : Prop := t = { s with ctx := t.ctx, cores := t.cores }

/-- The values, taints and presence bits of the g-registers but those listed. -/
def SameG (s t : State) (but : List GReg) : Prop :=
  ∀ r, r ∉ but → t.g r = s.g r ∧ t.taint r = s.taint r ∧ t.ctx.regs.hasG r = s.ctx.regs.hasG r
/-- The v-registers but those listed, and their presence bits. -/
def SameV (s t : State) (but : List VIdx) : Prop :=
  ∀ r, r ∉ but → t.v r = s.v r ∧ t.ctx.regs.vPres.getLsbD r.val = s.ctx.regs.vPres.getLsbD r.val
/-- The p-registers but those listed. -/
def SameP (s t : State) (but : List PReg) : Prop := ∀ r, r ∉ but → t.p r = s.p r

/-- The control registers but the place within a repeat: RMODE, FFLAGS, the modes, WAKE, the trap registers, VLIVE, PTIME,
LEASE, RETRYLIM, DOMAIN. -/
def SameControl (s t : State) : Prop :=
  t.ctx.ctl = { s.ctx.ctl with rptix := t.ctx.ctl.rptix, rpta := t.ctx.ctl.rpta }
/-- The control registers but the place within a repeat and FFLAGS. -/
def SameControlButFlags (s t : State) : Prop :=
  t.ctx.ctl = { s.ctx.ctl with rptix := t.ctx.ctl.rptix, rpta := t.ctx.ctl.rpta, fflags := t.ctx.ctl.fflags }
/-- The thread's unit, job, streams and pending engine faults. -/
def SameThread (s t : State) : Prop :=
  t.ctx.inst = s.ctx.inst ∧ t.ctx.job = s.ctx.job ∧ t.ctx.unit = s.ctx.unit ∧ t.ctx.streams = s.ctx.streams ∧
    t.ctx.efaults = s.ctx.efaults ∧ t.ctx.cancelled = s.ctx.cancelled

/-- Every byte of memory reads as before. -/
def SameBytes (s t : State) : Prop := ∀ a, t.mem.read a = s.mem.read a
/-- Every byte of memory outside n bytes from an address up reads as before. -/
def SameBytesBut (s t : State) (a n : Nat) : Prop := ∀ x, x < a ∨ a + n ≤ x → t.mem.read x = s.mem.read x

/-! ## The end of an instruction -/

/-- The instruction of n bytes has completed: its latch is empty, and outside a repeat and outside the bodies of loops
the PC has passed it. -/
def Passes (s t : State) (n : Nat) : Prop :=
  t.ctx.latch = none ∧
    (s.ctx.rep = none → s.ctx.loops.active = 0 → t.ctx.pc = s.ctx.pc + BitVec.ofNat 64 n ∧ t.ctx.loops = s.ctx.loops)

/-- Register d holds the value and the taint, and is present; g0 reads zero and untainted whatever is written. -/
def HoldsG (t : State) (d : GReg) (v : Word) (taint : Bool) : Prop :=
  (d ≠ 0 → t.g d = v ∧ t.taint d = taint) ∧ t.g 0 = 0 ∧ t.taint 0 = false ∧ t.ctx.regs.hasG d = true

/-- The whole effect of an instruction of n bytes that writes one g-register. -/
def WritesG (s t : State) (d : GReg) (v : Word) (taint : Bool) (n : Nat) : Prop :=
  HoldsG t d v taint ∧ SameG s t [d] ∧ SameV s t [] ∧ SameP s t [] ∧ SameControl s t ∧ SameThread s t ∧ SameMachine s t ∧
    Passes s t n

/-- The whole effect of an instruction of n bytes that changes nothing but the PC. -/
def WritesNothing (s t : State) (n : Nat) : Prop :=
  SameG s t [] ∧ SameV s t [] ∧ SameP s t [] ∧ SameControl s t ∧ SameThread s t ∧ SameMachine s t ∧ Passes s t n

/-- The registers, flags, streams and unit of the current thread stay. -/
def SameRegisters (s t : State) : Prop :=
  SameG s t [] ∧ SameV s t [] ∧ SameP s t [] ∧ SameControl s t ∧ SameThread s t

end Sys2Proof.Machine
end

