-- ==== Sys2Proof/Certificates/Slice0/Obligations.lean ====
section
/-! DEFINITION. The statements for the provers. Each says which rules of spec/ it formalises. `hasG` and `hasV` say that
every source is present (R81); the words for frames and for the end of an instruction are those of Safety.lean. -/

open Sys2Proof Sys2Proof.Machine

/-! ## Encoding (02_encoding) -/

/-- R26 to R49, R51: every well-formed instruction's bytes, whatever follows them, decode to the instruction with all of
its operands, and the decoder goes on after them. -/
def Obligations.EncodedInstructionsDecodeBack : Prop :=
  ∀ (i : Instr) (bs rest : List Byte), i.wellFormed = true → encodeBytes i = some bs →
    decodeBytes (bs ++ rest) = .ok (i, rest)

/-- R26 to R31, R51: what the decoder accepts is the encoding of the well-formed instruction that it answers, so that no
two words decode to one instruction. -/
def Obligations.DecodedBytesAreTheEncoding : Prop :=
  ∀ (bs rest : List Byte) (i : Instr), decodeBytes bs = .ok (i, rest) →
    i.wellFormed = true ∧ ∃ ws, encodeBytes i = some ws ∧ bs = ws ++ rest

/-! ## Integer instructions (05_core_ops R97 to R104) -/

/-- A two-source operation of R97: its three forms and its function. -/
structure Sys2Proof.IntForm where
  reg : GReg → GReg → GReg → Instr
  imm : GReg → GReg → BitVec 17 → Instr
  imm32 : GReg → GReg → BitVec 32 → Instr
  f : Word → Word → Word

/-- The functions of the table in R97; a shift takes bits 5 to 0 of its amount. -/
noncomputable def Sys2Proof.intForms : List IntForm := [
  ⟨.addReg, .addImm, .addImm32, fun x y => x + y⟩,
  ⟨.subReg, .subImm, .subImm32, fun x y => x - y⟩,
  ⟨.mulReg, .mulImm, .mulImm32, fun x y => x * y⟩,
  ⟨.mulhReg, .mulhImm, .mulhImm32, fun x y => BitVec.ofInt 64 (x.toInt * y.toInt / 2 ^ 64)⟩,
  ⟨.mulhuReg, .mulhuImm, .mulhuImm32, fun x y => BitVec.ofNat 64 (x.toNat * y.toNat / 2 ^ 64)⟩,
  ⟨.andReg, .andImm, .andImm32, fun x y => x &&& y⟩,
  ⟨.orReg, .orImm, .orImm32, fun x y => x ||| y⟩,
  ⟨.xorReg, .xorImm, .xorImm32, fun x y => x ^^^ y⟩,
  ⟨.andnReg, .andnImm, .andnImm32, fun x y => x &&& ~~~y⟩,
  ⟨.shlReg, .shlImm, .shlImm32, fun x y => x <<< (y.toNat % 64)⟩,
  ⟨.shrReg, .shrImm, .shrImm32, fun x y => x >>> (y.toNat % 64)⟩,
  ⟨.sarReg, .sarImm, .sarImm32, fun x y => x.sshiftRight (y.toNat % 64)⟩,
  ⟨.rotrReg, .rotrImm, .rotrImm32, fun x y => x.rotateRight (y.toNat % 64)⟩,
  ⟨.minReg, .minImm, .minImm32, fun x y => if x.toInt ≤ y.toInt then x else y⟩,
  ⟨.maxReg, .maxImm, .maxImm32, fun x y => if x.toInt ≤ y.toInt then y else x⟩,
  ⟨.minuReg, .minuImm, .minuImm32, fun x y => if x.toNat ≤ y.toNat then x else y⟩,
  ⟨.maxuReg, .maxuImm, .maxuImm32, fun x y => if x.toNat ≤ y.toNat then y else x⟩]

/-- R97, R82: with its sources present, each two-source form completes: D holds the function's value and the sources'
taint, and nothing else changes but the PC. -/
def Sys2Proof.IntegerFormsWriteTheirResult : Prop :=
  ∀ p ∈ intForms, ∀ (d a b : GReg) (i17 : BitVec 17) (i32 : BitVec 32) (s : State),
    (s.hasG [a, b] = true → ∃ t, exec (p.reg d a b) s = .next t ∧
      WritesG s t d (p.f (s.g a) (s.g b)) (s.taint a || s.taint b) 8) ∧
    (s.hasG [a] = true → ∃ t, exec (p.imm d a i17) s = .next t ∧
      WritesG s t d (p.f (s.g a) (i17.signExtend 64)) (s.taint a) 8) ∧
    (s.hasG [a] = true → ∃ t, exec (p.imm32 d a i32) s = .next t ∧
      WritesG s t d (p.f (s.g a) (i32.signExtend 64)) (s.taint a) 12)

/-- R97: the one-source counts and extensions, and `madd`. -/
def Sys2Proof.CountsAndExtensionsWriteTheirResult : Prop :=
  ∀ (d a b c : GReg) (s : State),
    (s.hasG [a] = true →
      (∃ t, exec (.clz d a) s = .next t ∧
        WritesG s t d (BitVec.ofNat 64 (if s.g a = 0 then 64 else 63 - Nat.log2 (s.g a).toNat)) (s.taint a) 8) ∧
      (∃ t, exec (.ctz d a) s = .next t ∧
        WritesG s t d (BitVec.ofNat 64 (((List.range 64).find? fun i => (s.g a).getLsbD i).getD 64)) (s.taint a) 8) ∧
      (∃ t, exec (.popc d a) s = .next t ∧
        WritesG s t d (BitVec.ofNat 64 ((List.range 64).countP fun i => (s.g a).getLsbD i)) (s.taint a) 8) ∧
      (∀ sw : SrcWidth, ∃ t, exec (.sext d a sw) s = .next t ∧
        WritesG s t d (match sw with
          | .b => ((s.g a).setWidth 8).signExtend 64
          | .h => ((s.g a).setWidth 16).signExtend 64
          | .w => ((s.g a).setWidth 32).signExtend 64) (s.taint a) 8) ∧
      (∀ sw : SrcWidth, ∃ t, exec (.zext d a sw) s = .next t ∧
        WritesG s t d (match sw with
          | .b => s.g a &&& 0xFF
          | .h => s.g a &&& 0xFFFF
          | .w => s.g a &&& 0xFFFFFFFF) (s.taint a) 8)) ∧
    (s.hasG [a, b, c] = true → ∃ t, exec (.madd d a b c) s = .next t ∧
      WritesG s t d (s.g a * s.g b + s.g c) (s.taint a || s.taint b || s.taint c) 8)

/-- The conditions of R101, with the compare's two forms and the branch's. -/
structure Sys2Proof.CondForm where
  reg : GReg → GReg → GReg → Instr
  imm : GReg → GReg → BitVec 17 → Instr
  branch : GReg → GReg → BitVec 17 → Instr
  holds : Word → Word → Prop
noncomputable def Sys2Proof.condForms : List CondForm := [
  ⟨.cmpEqReg, .cmpEqImm, .bcmpEq, fun x y => x = y⟩,
  ⟨.cmpNeReg, .cmpNeImm, .bcmpNe, fun x y => x ≠ y⟩,
  ⟨.cmpLtReg, .cmpLtImm, .bcmpLt, fun x y => x.toInt < y.toInt⟩,
  ⟨.cmpGeReg, .cmpGeImm, .bcmpGe, fun x y => x.toInt ≥ y.toInt⟩,
  ⟨.cmpLtuReg, .cmpLtuImm, .bcmpLtu, fun x y => x.toNat < y.toNat⟩,
  ⟨.cmpGeuReg, .cmpGeuImm, .bcmpGeu, fun x y => x.toNat ≥ y.toNat⟩]

/-- R101: a compare writes 1 where its condition holds and 0 where it does not. -/
def Sys2Proof.ComparesWriteOneOrZero : Prop :=
  ∀ p ∈ condForms, ∀ (d a b : GReg) (imm : BitVec 17) (s : State),
    (s.hasG [a, b] = true → ∃ t v, exec (p.reg d a b) s = .next t ∧
      WritesG s t d v (s.taint a || s.taint b) 8 ∧ (p.holds (s.g a) (s.g b) → v = 1) ∧ (¬ p.holds (s.g a) (s.g b) → v = 0)) ∧
    (s.hasG [a] = true → ∃ t v, exec (p.imm d a imm) s = .next t ∧
      WritesG s t d v (s.taint a) 8 ∧ (p.holds (s.g a) (imm.signExtend 64) → v = 1) ∧
      (¬ p.holds (s.g a) (imm.signExtend 64) → v = 0))

/-- Bits pos to pos + len - 1 of a word, as a number (R103). -/
def Sys2Proof.field (x : Word) (pos len : Nat) : Nat := x.toNat / 2 ^ pos % 2 ^ len

/-- R99, R100, R102 to R104: constants, no operation, select, bit fields and addresses. A bit field is named by its bits:
bit i of the result of `bfi` is bit i - pos of A inside the field and the old bit of D outside. -/
def Sys2Proof.ConstantsSelectsAndFieldsWriteTheirResult : Prop :=
  ∀ (d a b c : GReg) (s : State),
    (∀ v, ∃ t, exec (.movi d v) s = .next t ∧ WritesG s t d v false 16) ∧
    (∃ t, exec .nop s = .next t ∧ WritesNothing s t 8) ∧
    (∃ t, exec .nopl s = .next t ∧ WritesNothing s t 12) ∧
    (s.hasG [a, b, c] = true → ∃ t, exec (.sel d a b c) s = .next t ∧
      WritesG s t d (if s.g c = 0 then s.g b else s.g a) (s.taint a || s.taint b || s.taint c) 8) ∧
    (∀ (pos : BitVec 6) (len : BitVec 7), bitFieldOk pos len = true →
      (s.hasG [a] = true →
        (∃ t, exec (.bfxUnsigned d a pos len) s = .next t ∧
          WritesG s t d (BitVec.ofNat 64 (field (s.g a) pos.toNat len.toNat)) (s.taint a) 8) ∧
        (∃ t, exec (.bfxSigned d a pos len) s = .next t ∧
          WritesG s t d (BitVec.ofInt 64 (if (s.g a).getLsbD (pos.toNat + len.toNat - 1)
            then (field (s.g a) pos.toNat len.toNat : Int) - 2 ^ len.toNat
            else field (s.g a) pos.toNat len.toNat)) (s.taint a) 8)) ∧
      (s.hasG [d, a] = true → ∃ t v, exec (.bfi d a pos len) s = .next t ∧
        WritesG s t d v (s.taint d || s.taint a) 8 ∧
        ∀ i, i < 64 → v.getLsbD i = if pos.toNat ≤ i ∧ i < pos.toNat + len.toNat then (s.g a).getLsbD (i - pos.toNat)
          else (s.g d).getLsbD i)) ∧
    (∀ (scale : BitVec 2) (disp : BitVec 17), s.hasG [a, b] = true → ∃ t, exec (.lea d a b scale disp) s = .next t ∧
      WritesG s t d (s.g a + s.g b * BitVec.ofNat 64 (2 ^ scale.toNat) + disp.signExtend 64) (s.taint a || s.taint b) 8)

/-- R99, R100, R101, R102 to R104: the compares, the constants, `nop`, the select, the bit fields and `lea` complete
with their result. -/
def Obligations.ComparesConstantsSelectsAndFields : Prop :=
  Sys2Proof.ComparesWriteOneOrZero ∧ Sys2Proof.ConstantsSelectsAndFieldsWriteTheirResult

/-- The divisions of R98 with the edge cases of R58. -/
structure Sys2Proof.DivForm where
  reg : GReg → GReg → GReg → Instr
  imm : GReg → GReg → BitVec 17 → Instr
  imm32 : GReg → GReg → BitVec 32 → Instr
  f : Word → Word → Word
noncomputable def Sys2Proof.divForms : List DivForm := [
  ⟨.divReg, .divImm, .divImm32, fun x y => if y = 0 then BitVec.allOnes 64 else BitVec.ofInt 64 (x.toInt.tdiv y.toInt)⟩,
  ⟨.divuReg, .divuImm, .divuImm32, fun x y => if y = 0 then BitVec.allOnes 64 else BitVec.ofNat 64 (x.toNat / y.toNat)⟩,
  ⟨.remReg, .remImm, .remImm32, fun x y => if y = 0 then x else BitVec.ofInt 64 (x.toInt.tmod y.toInt)⟩,
  ⟨.remuReg, .remuImm, .remuImm32, fun x y => if y = 0 then x else BitVec.ofNat 64 (x.toNat % y.toNat)⟩]

/-- A division is under way: D's value stands in the agenda 22 cycles from now, the thread waits for it, and nothing else
has changed but the PC (R98). -/
def Sys2Proof.Divides (s t : State) (d : GReg) (v : Word) (taint : Bool) (n : Nat) : Prop :=
  (s.cycle + 22, Instr.dividerResult s.cur d v taint) ∈ t.agenda ∧ t.ctx.wait = .away .longArith ∧
    SameRegisters s t ∧ Passes s t n ∧ t = { s with ctx := t.ctx, agenda := t.agenda }

/-- R98, R58: a division passes its instruction and its result follows 22 cycles later, when D is written and the thread
is ready; the result of a thread that has ended is dropped. -/
def Sys2Proof.DivisionsDeliverTheirResult : Prop :=
  (∀ p ∈ divForms, ∀ (d a b : GReg) (i17 : BitVec 17) (i32 : BitVec 32) (s : State),
    (s.hasG [a, b] = true → ∃ t, exec (p.reg d a b) s = .next t ∧
      Divides s t d (p.f (s.g a) (s.g b)) (s.taint a || s.taint b) 8) ∧
    (s.hasG [a] = true → ∃ t, exec (p.imm d a i17) s = .next t ∧
      Divides s t d (p.f (s.g a) (i17.signExtend 64)) (s.taint a) 8) ∧
    (s.hasG [a] = true → ∃ t, exec (p.imm32 d a i32) s = .next t ∧
      Divides s t d (p.f (s.g a) (i32.signExtend 64)) (s.taint a) 12)) ∧
  (∀ (d : GReg) (v : Word) (b : Bool) (s : State), s.ctx.wait = .away .longArith →
    ∃ t, exec (.dividerResult s.cur d v b) s = .next t ∧ HoldsG t d v b ∧ SameG s t [d] ∧ SameV s t [] ∧ SameP s t [] ∧
      SameControl s t ∧ SameThread s t ∧ SameMachine s t ∧ t.ctx.wait = .ready s.cycle ∧ t.ctx.pc = s.ctx.pc)

/-- R58, R82, R97, R98: every integer instruction completes with its result, the divisions after their 22 cycles. -/
def Obligations.IntegerInstructionsWriteTheirResult : Prop :=
  Sys2Proof.IntegerFormsWriteTheirResult ∧
  Sys2Proof.CountsAndExtensionsWriteTheirResult ∧
  Sys2Proof.DivisionsDeliverTheirResult

/-! ## Control, traps and control registers (05_core_ops R105 to R116, 04_thread R83 to R90, 08_core R187 to R190) -/

/-- A branch of the current thread to an address: its latch is empty, and nothing else changes but the PC; no loop-end test
is made (R188). -/
def Sys2Proof.GoesTo (s t : State) (pc : Word) : Prop :=
  t.ctx.pc = pc ∧ t.ctx.latch = none ∧ t.ctx.loops = s.ctx.loops ∧ SameRegisters s t ∧ SameMachine s t

/-- R105, R101: branches, calls and jumps. A taken branch goes to its own address plus 4 times the displacement; `jr` adds
its displacement in bytes, and takes its target before it writes the link. -/
def Obligations.BranchesGoToTheirTarget : Prop :=
  ∀ (d a b : GReg) (disp : BitVec 17) (far : BitVec 32) (s : State),
    (∃ t, exec (.br disp) s = .next t ∧ GoesTo s t (s.ctx.pc + disp.signExtend 64 * 4)) ∧
    (∀ p ∈ condForms, s.hasG [a, b] = true →
      ∃ t, exec (p.branch a b disp) s = .next t ∧
        (p.holds (s.g a) (s.g b) → GoesTo s t (s.ctx.pc + disp.signExtend 64 * 4)) ∧
        (¬ p.holds (s.g a) (s.g b) → WritesNothing s t 8)) ∧
    (∃ t, exec (.jal d far) s = .next t ∧ t.ctx.pc = s.ctx.pc + far.signExtend 64 * 4 ∧
      HoldsG t d (s.ctx.pc + 12) false ∧ SameG s t [d] ∧ SameV s t [] ∧ SameP s t [] ∧ SameControl s t ∧ SameMachine s t) ∧
    (s.hasG [a] = true → ∃ t, exec (.jr d a disp) s = .next t ∧ t.ctx.pc = s.g a + disp.signExtend 64 ∧
      HoldsG t d (s.ctx.pc + 8) false ∧ SameG s t [d] ∧ SameV s t [] ∧ SameP s t [] ∧ SameControl s t ∧ SameMachine s t)

/-- The entry into the trap handler (R88): TEPC, TCAUSE and TVAL are set, PMODE is U, the mode is H, the thread goes on at
THANDLER, and no other register changes. -/
def Sys2Proof.EntersHandler (s t : State) (cause : Nat) (value : Word) : Prop :=
  t.ctx.pc = s.ctx.ctl.thandler ∧
    t.ctx.ctl = { s.ctx.ctl with tepc := s.ctx.pc, tcause := BitVec.ofNat 64 cause, tval := value, pmode := 0, mode := 1 } ∧
    SameG s t [] ∧ SameV s t [] ∧ SameP s t [] ∧ SameThread s t ∧ SameMachine s t ∧ t.ctx.latch = none ∧ t.ctx.rep = none

/-- The trap is taken by the thread itself (R86, R88): it runs in U mode and its job has delegated the cause. -/
def Sys2Proof.Delegated (s : State) (cause : Nat) : Prop := s.ctx.ctl.mode = 0 ∧ s.ctx.ctl.tdeleg.getLsbD cause = true

/-- R88, R107: `trap` and an uncaptured `brk` of a thread in U mode whose job delegates their cause enter the handler with
the code in TVAL. -/
def Sys2Proof.SoftwareTrapsEnterTheHandler : Prop :=
  ∀ (code : BitVec 16) (s : State),
    (Delegated s 16 → ∃ t, exec (.trap code) s = .next t ∧ EntersHandler s t 16 (code.setWidth 64)) ∧
    ((s.cluster s.myCluster).dbg.dctl.getLsbD 5 = false → Delegated s 15 →
      ∃ t, exec (.brk code) s = .next t ∧ EntersHandler s t 15 (code.setWidth 64))

/-- A message of the end of a unit of the launch, with its FAULT flag, is on its way (R309, R310). -/
def Sys2Proof.FaultReported (t : State) (lid : Nat) : Prop :=
  ∃ c n e, (c, Instr.doneMessage n e) ∈ t.agenda ∧ e.lid = lid ∧ e.status.getLsbD 17 = true

/-- R88, R116: `trap` ends the unit of a thread that may not take it: the context is free, and for a thread that has not
forked, in the slot that holds its unit, the end is reported with FAULT. -/
def Sys2Proof.UndelegatedTrapEndsTheUnit : Prop :=
  ∀ (code : BitVec 16) (s : State), ¬ Delegated s 16 →
    ∃ t, exec (.trap code) s = .next t ∧ (t.ctxAt s.cur).inst = false ∧
      (s.ctx.unit.group = none → s.ctx.unit.holder = s.cur →
        (Table.get? (s.core s.myCore).reserved (slotOf s.cur)).isNone → FaultReported t s.ctx.unit.lid)

/-- R107, R251, R253: a `brk` that the debug module captures halts the cluster with cause 4 and the thread's PC. R253 lets the
thread go on 8 bytes after it; that its PC says so in the halted state already is the model's reading (log 44). -/
def Sys2Proof.CapturedBreakHaltsTheCluster : Prop :=
  ∀ (code : BitVec 16) (s : State), (s.cluster s.myCluster).dbg.dctl.getLsbD 5 = true → s.ctx.ctl.mode ≠ 2 →
    (s.cluster s.myCluster).dbg.halted = false →
    ∃ t, exec (.brk code) s = .next t ∧ (t.cluster s.myCluster).dbg.halted = true ∧
      (t.cluster s.myCluster).dbg.cause = 4 ∧ (t.cluster s.myCluster).dbg.dhpc = s.ctx.pc ∧
      t.ctx.pc = s.ctx.pc + 8 ∧ t.ctx.ctl = s.ctx.ctl ∧ t.ctx.regs = s.ctx.regs ∧ t.mem = s.mem

/-- R88, R107, R116, R251, R253: `trap` and `brk` where the thread takes them, `trap` where it may not, and a `brk`
that the debug module captures. -/
def Obligations.TrapAndBreakAreTaken : Prop :=
  Sys2Proof.SoftwareTrapsEnterTheHandler ∧
  Sys2Proof.UndelegatedTrapEndsTheUnit ∧
  Sys2Proof.CapturedBreakHaltsTheCluster

/-- R90, R108, R405: the return from a trap goes to TEPC, or past the instruction there, with the mode of PMODE; past an
`rpt` it goes past the repeated instruction too and its place is dropped. That only a word with L = 0b00 counts as an `rpt`
is the model's choice (log 42). In U mode it is a privilege fault; a reserved PMODE is an illegal instruction, which in H or
S mode ends the unit. -/
def Obligations.TrapReturnRestoresTheMode : Prop :=
  ∀ (s : State),
    (s.ctx.ctl.mode ≠ 0 → s.ctx.ctl.pmode ≠ 3 →
      (∃ t, exec .rett s = .next t ∧ t.ctx.pc = s.ctx.ctl.tepc ∧ t.ctx.ctl = { s.ctx.ctl with mode := s.ctx.ctl.pmode } ∧
        t.ctx.regs = s.ctx.regs ∧ t.ctx.rep = none ∧ SameMachine s t) ∧
      (∀ h, s.fetchHead s.ctx.ctl.tepc = .ok h s → isRepeat h = false →
        ∃ t, exec .rettSkip s = .next t ∧
          t.ctx.pc = s.ctx.ctl.tepc + BitVec.ofNat 64 (wordBytes (Fin.ofNat 4 h)) ∧
          t.ctx.ctl = { s.ctx.ctl with mode := s.ctx.ctl.pmode } ∧ t.ctx.regs = s.ctx.regs ∧ SameMachine s t) ∧
      (∀ h h', s.fetchHead s.ctx.ctl.tepc = .ok h s → isRepeat h = true →
        s.fetchHead (s.ctx.ctl.tepc + 8) = .ok h' s →
        ∃ t, exec .rettSkip s = .next t ∧
          t.ctx.pc = s.ctx.ctl.tepc + 8 + BitVec.ofNat 64 (wordBytes (Fin.ofNat 4 h')) ∧
          t.ctx.ctl = { s.ctx.ctl with mode := s.ctx.ctl.pmode, rptix := 0, rpta := false } ∧
          t.ctx.regs = s.ctx.regs ∧ SameMachine s t)) ∧
    (s.ctx.ctl.mode ≠ 0 → s.ctx.ctl.pmode = 3 →
      ∃ t, exec .rett s = .next t ∧ exec .rettSkip s = .next t ∧ (t.ctxAt s.cur).inst = false ∧
        (s.ctx.unit.group = none → s.ctx.unit.holder = s.cur →
          (Table.get? (s.core s.myCore).reserved (slotOf s.cur)).isNone → FaultReported t s.ctx.unit.lid)) ∧
    (Delegated s 2 → ∃ t u, exec .rett s = .next t ∧ EntersHandler s t 2 s.word64 ∧
      exec .rettSkip s = .next u ∧ EntersHandler s u 2 s.word64)

/-- The control registers of R83 with what a read gives. -/
noncomputable def Sys2Proof.crValues : List (BitVec 12 × (State → Word)) := [
  (0x000, fun s => s.ctx.ctl.rmode.setWidth 64), (0x001, fun s => s.ctx.ctl.fflags.setWidth 64),
  (0x002, fun s => BitVec.ofNat 64 (s.ctx.ctl.mode.toNat + 4 * s.ctx.ctl.pmode.toNat + (if s.ctx.ctl.wake then 32 else 0) +
    (if s.ctx.ctl.rpta then 64 else 0) + (if s.ctx.efaults = [] then 0 else 128))),
  (0x003, fun s => s.ctx.ctl.tepc), (0x004, fun s => s.ctx.ctl.tcause), (0x005, fun s => s.ctx.ctl.tval),
  (0x006, fun s => s.ctx.ctl.tlanes), (0x008, fun s => s.ctx.ctl.thandler), (0x009, fun s => s.ctx.ctl.rptix.setWidth 64),
  (0x00A, fun s => s.ctx.ctl.vlive.setWidth 64), (0x00B, fun s => s.ctx.ctl.ptime.setWidth 64),
  (0x00C, fun s => s.ctx.ctl.lease.setWidth 64), (0x00D, fun s => s.ctx.ctl.retrylim.setWidth 64),
  (0x00E, fun s => (s.ctx.regs.gTaint &&& 0xFFFFFFFE).setWidth 64), (0x00F, fun s => (s.ctx.regs.gPres ||| 1).setWidth 64),
  (0x010, fun s => s.ctx.regs.vPres.setWidth 64), (0x011, fun s => BitVec.ofNat 64 s.cur),
  (0x012, fun s => BitVec.ofNat 64 s.ctx.job), (0x013, fun s => BitVec.ofNat 64 s.cycle),
  (0x014, fun s => s.ctx.ctl.domain.setWidth 64)]

/-- R83, R84, R109, R110: a read of a control register in every mode, TSTAT and the channels' write pointers too, but of TDELEG, which U and H mode may not read; the
package time. The result is untainted. -/
def Sys2Proof.ControlRegistersRead : Prop :=
  ∀ (d : GReg) (s : State),
    (∀ p ∈ crValues, ∃ t, exec (.rdcr d p.1) s = .next t ∧ WritesG s t d (p.2 s) false 8) ∧
    (∀ ch, ch < 16 → ∃ t, exec (.rdcr d (BitVec.ofNat 12 (0x020 + ch))) s = .next t ∧
      WritesG s t d (s.channel s.myCluster ch).chwp false 8) ∧
    (s.ctx.ctl.mode = 2 → ∃ t, exec (.rdcr d 0x007) s = .next t ∧ WritesG s t d s.ctx.ctl.tdeleg false 8) ∧
    (Delegated s 2 → ∃ t, exec (.rdcr d 0x007) s = .next t ∧ EntersHandler s t 2 s.word64) ∧
    (∃ t, exec (.rdtime d) s = .next t ∧ WritesG s t d (s.pkg.tbase + BitVec.ofNat 64 (s.cycle / 3)) false 8)

/-- The registers that U mode may write (R83). -/
def Sys2Proof.userWritable : List (BitVec 12) := [0x000, 0x001, 0x00A, 0x00C, 0x00D]
/-- The registers that H mode may write as well. -/
def Sys2Proof.handlerWritable : List (BitVec 12) := [0x003, 0x004, 0x005, 0x006, 0x009]
/-- Further registers that S mode may write and read back. -/
def Sys2Proof.systemWritable : List (BitVec 12) := [0x007, 0x008, 0x00B, 0x010, 0x014]

/-- R83, R109: a write of a control register with a value in its range, in a mode that may write it, reads back; no
g-register, no byte of memory and nothing outside the context changes. Where the mode may not write, a privilege fault; a
value out of range in a mode that may, an illegal instruction. -/
def Sys2Proof.ControlRegistersWrite : Prop :=
  ∀ (a : GReg) (idx : BitVec 12) (s : State), s.hasG [a] = true →
    (((idx ∈ userWritable) ∨ (idx ∈ handlerWritable ∧ s.ctx.ctl.mode ≠ 0 ∧ s.ctx.ctl.mode ≠ 3) ∨
        (idx ∈ systemWritable ∧ s.ctx.ctl.mode = 2)) → crRangeOk idx.toNat (s.g a) = true → s.ctx.rep = none →
      ∃ t, exec (.wrcr a idx) s = .next t ∧ t.readCR idx.toNat = s.g a ∧ (∀ r, t.g r = s.g r) ∧ (∀ r, t.v r = s.v r) ∧
        SameP s t [] ∧ SameMachine s t ∧ Passes s t 8) ∧
    (s.ctx.ctl.mode = 2 → crRangeOk 2 (s.g a) = true →
      ∃ t, exec (.wrcr a 0x002) s = .next t ∧ t.ctx.ctl.mode = (s.g a).extractLsb' 0 2 ∧
        t.ctx.ctl.pmode = (s.g a).extractLsb' 2 2 ∧ t.ctx.regs = s.ctx.regs ∧ SameMachine s t ∧ Passes s t 8) ∧
    (s.ctx.ctl.mode = 2 → (s.g a).toNat < 2 ^ 32 →
      (∃ t, exec (.wrcr a 0x00E) s = .next t ∧ (∀ r : GReg, r ≠ 0 → t.taint r = (s.g a).getLsbD r.val) ∧
        (∀ r, t.g r = s.g r) ∧ SameMachine s t ∧ Passes s t 8) ∧
      (∃ t, exec (.wrcr a 0x00F) s = .next t ∧ (∀ r : GReg, r ≠ 0 → t.ctx.regs.hasG r = (s.g a).getLsbD r.val) ∧
        (∀ r, t.g r = s.g r) ∧ SameMachine s t ∧ Passes s t 8)) ∧
    (idx ∈ userWritable → crRangeOk idx.toNat (s.g a) = false → Delegated s 1 →
      ∃ t, exec (.wrcr a idx) s = .next t ∧ EntersHandler s t 1 s.word64) ∧
    (idx ∈ handlerWritable ∨ idx ∈ systemWritable → Delegated s 2 →
      ∃ t, exec (.wrcr a idx) s = .next t ∧ EntersHandler s t 2 s.word64)

/-- R83, R84, R109, R110: reads and writes of the control registers, and the package time. -/
def Obligations.ControlRegistersReadAndWrite : Prop :=
  Sys2Proof.ControlRegistersRead ∧ Sys2Proof.ControlRegistersWrite

/-- R111 to R113: `wait` with the wake-pending bit set clears it and passes; without it the thread leaves its position, its
instruction in the latch. `wake` sets the bit of its own thread at once, and another thread's after the message's wait for
its send allowance (R314) and its time; the delivery sets it. -/
def Sys2Proof.WaitAndWakeUseTheWakeBit : Prop :=
  (∀ s : State, s.ctx.ctl.wake = true → ∃ t, exec .wait s = .next t ∧ t.ctx.ctl.wake = false ∧
    SameG s t [] ∧ SameV s t [] ∧ SameP s t [] ∧ SameMachine s t ∧ Passes s t 8) ∧
  (∀ s : State, s.ctx.ctl.wake = false → ∃ t, exec .wait s = .next t ∧
    t = { s with ctx := { s.ctx with wait := .away .wakeWait, cls := 0 } }) ∧
  (∀ (a : GReg) (s : State), s.hasG [a] = true → (s.g a).toNat = s.cur → s.cur < 65536 →
    s.boundTo s.myCore s.ctx.job = true →
    ∃ t, exec (.wake a) s = .next t ∧ t.ctx.ctl.wake = true ∧ SameG s t [] ∧ SameMachine s t ∧ Passes s t 8) ∧
  (∀ (a : GReg) (s : State), s.hasG [a] = true → (s.g a).toNat < 65536 → (s.g a).toNat ≠ s.cur →
    s.boundTo (coreOf (s.g a).toNat) s.ctx.job = true → (s.ctxAt (s.g a).toNat).inst = true →
    (s.ctxAt (s.g a).toNat).job = s.ctx.job →
    ∃ t, exec (.wake a) s = .next t ∧ SameRegisters s t ∧ Passes s t 8 ∧
      (s.cycle + (s.flitWait s.myCore 1 + msgCycles s.myCore (coreOf (s.g a).toNat)),
        Instr.wakeDelivery (s.g a).toNat s.ctx.job) ∈ t.agenda ∧
      t = { s with ctx := t.ctx, agenda := t.agenda, cores := t.cores }) ∧
  (∀ (u job : Nat) (s : State), u < 65536 → (s.ctxAt u).inst = true → (s.ctxAt u).job = job →
    ∃ t, exec (.wakeDelivery u job) s = .next t ∧ (t.ctxAt u).ctl.wake = true ∧ (t.ctxAt u).regs = (s.ctxAt u).regs ∧
      t.mem = s.mem ∧ t.agenda = s.agenda)

/-- R115: `yield` with no other context waiting for a position is a `nop`; with one, the thread gives its position up and
is ready, from the next cycle on (the cycle is the model's reading, log 83). -/
def Sys2Proof.YieldOffersThePosition : Prop :=
  ∀ s : State,
    (s.othersWait = false → ∃ t, exec .yield s = .next t ∧ WritesNothing s t 8) ∧
    (s.othersWait = true → ∃ t, exec .yield s = .next t ∧ SameRegisters s t ∧ Passes s t 8 ∧
      t.ctx.wait = .ready (s.cycle + 1) ∧ ∀ p : Fin 8, (t.core s.myCore).holders[p] ≠ some (slotOf s.cur))

/-- R116: `exit` of a thread whose stores, messages and engine commands have all ended frees its context at once; with an
entry of its own in the store queue it waits. -/
def Sys2Proof.ExitEndsTheThread : Prop :=
  ∀ s : State, s.ctx.sent ≤ s.cycle → s.ctx.pkgAt ≤ s.cycle → s.ctx.msgAt ≤ s.cycle →
    (s.storesDone s.cur = true → s.messagesDone s.cur = true → s.enginesDone s.cur = true →
      ∃ t, exec .exit s = .next t ∧ (t.ctxAt s.cur).inst = false) ∧
    ((s.core s.myCore).queue.any (fun e => e.thread = s.cur) = true →
      ∃ t, exec .exit s = .next t ∧ t = { s with ctx := { s.ctx with wait := .away .drain, cls := 0 } })

/-- R111 to R113, R115, R116: `wait`, `wake`, `yield` and `exit`. -/
def Obligations.ThreadsWaitYieldAndExit : Prop :=
  Sys2Proof.WaitAndWakeUseTheWakeBit ∧ Sys2Proof.YieldOffersThePosition ∧ Sys2Proof.ExitEndsTheThread

/-- R137, R140: `pclr` clears the presence bit and keeps the value, unless a remote write reached the register in this
cycle; `pclr.g g0` is illegal; `untaint` clears the taint alone. -/
def Sys2Proof.PresenceAndTaintAreCleared : Prop :=
  ∀ s : State,
    (∀ d : GReg, d ≠ 0 → (s.ctx.putAt = s.cycle → s.ctx.putG.getLsbD d.val = false) →
      ∃ t, exec (.pclrG d) s = .next t ∧ t.ctx.regs.hasG d = false ∧ t.g d = s.g d ∧ t.taint d = s.taint d ∧
        SameG s t [d] ∧ SameV s t [] ∧ SameP s t [] ∧ SameControl s t ∧ SameMachine s t ∧ Passes s t 8) ∧
    (∀ d : GReg, s.ctx.putAt = s.cycle → s.ctx.putG.getLsbD d.val = true → s.ctx.regs.hasG d = true → d ≠ 0 →
      ∃ t, exec (.pclrG d) s = .next t ∧ WritesNothing s t 8) ∧
    (Delegated s 1 → ∃ t, exec (.pclrG 0) s = .next t ∧ EntersHandler s t 1 s.word64) ∧
    (∀ d : VIdx, (s.ctx.putAt = s.cycle → s.ctx.putV.getLsbD d.val = false) →
      ∃ t, exec (.pclrV d) s = .next t ∧ t.ctx.regs.vPres.getLsbD d.val = false ∧ t.v d = s.v d ∧
        SameG s t [] ∧ SameV s t [d] ∧ SameP s t [] ∧ SameControl s t ∧ SameMachine s t ∧ Passes s t 8) ∧
    (∀ d : GReg, ∃ t, exec (.untaint d) s = .next t ∧ t.taint d = false ∧ (∀ r, t.g r = s.g r) ∧
      (∀ r, r ≠ d → t.taint r = s.taint r) ∧ t.ctx.regs.gPres = s.ctx.regs.gPres ∧ SameV s t [] ∧ SameP s t [] ∧
      SameControl s t ∧ SameMachine s t ∧ Passes s t 8)

/-- R81: an instruction with an absent source does not issue: the thread leaves, and neither a register nor memory
changes. Here for the forms of R97, for a store and for `rput`. -/
def Sys2Proof.AbsentSourceParksTheInstruction : Prop :=
  ∀ (d a b : GReg) (m : MemArgs) (ext : BitVec 32) (s : State),
    (s.hasG [a, b] = false →
      (∀ p ∈ intForms, ∃ t, exec (p.reg d a b) s = .next t ∧ t.ctx.wait = .away .presence ∧ t.ctx.latch = s.ctx.latch ∧
        t.ctx.regs = s.ctx.regs ∧ t.ctx.pc = s.ctx.pc ∧ SameButCores s t) ∧
      (∃ t, exec (.rputG d a b ext) s = .next t ∧ t.ctx.wait = .away .presence ∧ t.ctx.latch = s.ctx.latch ∧
        t.ctx.regs = s.ctx.regs ∧ t.ctx.pc = s.ctx.pc ∧ SameButCores s t)) ∧
    (s.hasG [m.d, m.a, m.b] = false → ∃ t, exec (.st m) s = .next t ∧ t.ctx.wait = .away .presence ∧
      t.ctx.latch = s.ctx.latch ∧ t.ctx.regs = s.ctx.regs ∧ t.ctx.pc = s.ctx.pc ∧ SameButCores s t)

/-- R81, R137, R140: an absent source parks the thread; `pclr` and `untaint` clear presence and taint. -/
def Obligations.PresenceAndTaint : Prop :=
  Sys2Proof.AbsentSourceParksTheInstruction ∧ Sys2Proof.PresenceAndTaintAreCleared

/-- R187, R188, R405: `lpset` sets the count, the body's first and last address and the level's active flag; a count of zero
goes past the body's last instruction, and the level is not active; a count of 2^32 or more is illegal, and an enclosing active level that ends earlier is a loop fault. -/
def Sys2Proof.LpsetSetsTheLoop : Prop :=
  ∀ (k : Fin 3) (a : GReg) (disp : BitVec 17) (s : State), s.hasG [a] = true →
    let le := s.ctx.pc + disp.signExtend 64 * 4
    ((s.g a).toNat < 2 ^ 32 → s.g a ≠ 0 → s.ctx.loops.active = 0 → s.ctx.rep = none → le ≠ s.ctx.pc →
      ∃ t, exec (.lpset k a disp) s = .next t ∧ t.ctx.loops.lc[k] = (s.g a).setWidth 32 ∧
        t.ctx.loops.lb[k] = s.ctx.pc + 8 ∧ t.ctx.loops.le[k] = le ∧ t.ctx.loops.active.getLsbD k.val = true ∧
        t.ctx.pc = s.ctx.pc + 8 ∧ SameRegisters s t ∧ SameMachine s t) ∧
    (2 ^ 32 ≤ (s.g a).toNat → Delegated s 1 →
      ∃ t, exec (.lpset k a disp) s = .next t ∧ EntersHandler s t 1 s.word64) ∧
    ((s.g a).toNat < 2 ^ 32 → Delegated s 9 →
      (∃ j : Fin 3, j < k ∧ s.ctx.loops.active.getLsbD j.val = true ∧ s.ctx.loops.le[j].toNat < le.toNat) →
      ∃ t, exec (.lpset k a disp) s = .next t ∧ EntersHandler s t 9 (disp.signExtend 64)) ∧
    (∀ h, s.g a = 0 → s.fetchHead le = .ok h s →
      (∀ j : Fin 3, j < k → s.ctx.loops.active.getLsbD j.val = true → le.toNat ≤ s.ctx.loops.le[j].toNat) →
      ∃ t, exec (.lpset k a disp) s = .next t ∧ t.ctx.pc = le + BitVec.ofNat 64 (wordBytes (Fin.ofNat 4 h)) ∧
        t.ctx.loops.lc[k] = 0 ∧ t.ctx.loops.active.getLsbD k.val = false ∧ SameRegisters s t ∧ SameMachine s t)

/-- R188: at the last instruction of the innermost active body that ends there the count falls by one; while it is not zero
the thread goes back to the body's start. -/
def Sys2Proof.LoopGoesBackWhileItCounts : Prop :=
  ∀ (k : Fin 3) (s : State), s.ctx.rep = none → s.ctx.loops.active.getLsbD k.val = true → s.ctx.loops.le[k] = s.ctx.pc →
    (∀ j : Fin 3, k < j → ¬ (s.ctx.loops.active.getLsbD j.val = true ∧ s.ctx.loops.le[j] = s.ctx.pc)) →
    (s.ctx.loops.lc[k] ≠ 1 → ∃ t, exec .nop s = .next t ∧ t.ctx.pc = s.ctx.loops.lb[k] ∧
      t.ctx.loops.lc[k] = s.ctx.loops.lc[k] - 1 ∧ t.ctx.loops.active = s.ctx.loops.active) ∧
    (s.ctx.loops.lc[k] = 1 →
      (∀ j : Fin 3, j < k → ¬ (s.ctx.loops.active.getLsbD j.val = true ∧ s.ctx.loops.le[j] = s.ctx.pc)) →
      ∃ t, exec .nop s = .next t ∧ t.ctx.pc = s.ctx.pc + 8 ∧ t.ctx.loops.lc[k] = 0 ∧
        t.ctx.loops.active.getLsbD k.val = false)

/-- R187, R188, R405: `lpset` sets a loop, and the loop goes back while it counts. -/
def Obligations.HardwareLoopsCount : Prop :=
  Sys2Proof.LpsetSetsTheLoop ∧ Sys2Proof.LoopGoesBackWhileItCounts

/-- R189, R53: an `rpt` whose next instruction may be repeated starts at repetition RPTIX; with count 0 the next
instruction is passed; a repetition that would name a register past 31 is a repeat fault with the first such index. -/
def Sys2Proof.RepeatStartsAtTheIndex : Prop :=
  ∀ (count : BitVec 10) (stride : BitVec 3) (w : BitVec 128) (s : State), s.ctx.follow = (w, 0) →
    notAfterRpt w (wordBytes (Fin.ofNat 4 w.toNat)) = false →
    (s.ctx.ctl.rptix < count → rangeBreak w count.toNat stride.toNat = none →
      ∃ t, exec (.rpt count stride) s = .next t ∧ t.ctx.rep = some (count, stride) ∧ t.ctx.ctl.rpta = true ∧
        t.ctx.ctl.rptix = s.ctx.ctl.rptix ∧ t.ctx.pc = s.ctx.pc ∧ t.ctx.regs = s.ctx.regs ∧ SameMachine s t) ∧
    (count = 0 → s.ctx.rep = none → s.ctx.loops.active = 0 →
      ∃ t, exec (.rpt count stride) s = .next t ∧ t.ctx.rep = none ∧ t.ctx.ctl.rpta = false ∧ t.ctx.ctl.rptix = 0 ∧
        t.ctx.pc = s.ctx.pc + 16 ∧ t.ctx.regs = s.ctx.regs ∧ SameMachine s t) ∧
    (∀ i, count ≠ 0 → rangeBreak w count.toNat stride.toNat = some i → Delegated s 8 →
      ∃ t, exec (.rpt count stride) s = .next t ∧ EntersHandler s t 8 (BitVec.ofNat 64 i))

/-- R189: within a repeat an instruction completes into the next repetition while one is left, and the last one passes the
`rpt` and itself. -/
def Sys2Proof.RepeatedInstructionAdvances : Prop :=
  ∀ (count : BitVec 10) (stride : BitVec 3) (d a b : GReg) (s : State), s.ctx.rep = some (count, stride) →
    s.hasG [a, b] = true → s.ctx.loops.active = 0 →
    (s.ctx.ctl.rptix.toNat + 1 < count.toNat → ∃ t, exec (.addReg d a b) s = .next t ∧
      HoldsG t d (s.g a + s.g b) (s.taint a || s.taint b) ∧ t.ctx.pc = s.ctx.pc ∧ t.ctx.rep = s.ctx.rep ∧
      t.ctx.ctl.rptix = s.ctx.ctl.rptix + 1) ∧
    (count.toNat ≤ s.ctx.ctl.rptix.toNat + 1 → ∃ t, exec (.addReg d a b) s = .next t ∧
      HoldsG t d (s.g a + s.g b) (s.taint a || s.taint b) ∧ t.ctx.pc = s.ctx.pc + 16 ∧ t.ctx.rep = none ∧
      t.ctx.ctl.rptix = 0 ∧ t.ctx.ctl.rpta = false)

/-- R53, R189: `rpt` starts a repeat, and the instruction under it runs once for each repetition. -/
def Obligations.RepeatsAdvanceTheirIndex : Prop :=
  Sys2Proof.RepeatStartsAtTheIndex ∧ Sys2Proof.RepeatedInstructionAdvances

/-! ## Scalar memory (06_thread_memory) -/

/-- An access of n bytes at an address reaches its local store now (R117 to R119, R200, R251): the address names a local
store of the super-group that is bound to the job and holds the bytes, its bank ports are free, no unit that a stream of
the thread has pushed holds one of the bytes, and no watchpoint is touched. -/
def Sys2Proof.ReachesLocal (s : State) (a : Word) (n : Nat) (rd wr : Bool) (core off : Nat) : Prop :=
  targetOf s.myCore a = .ls core off ∧ off + n ≤ s.lsSize core ∧ s.boundTo core s.ctx.job = true ∧
    near s.myCore core = true ∧ s.portsNow core &&& banksOf off n (s.job s.ctx.job).bankKey = 0 ∧
    s.behindPush [(a, n)] = false ∧
    (s.ctx.skipWatch = true ∨ s.watchHit [(a.toNat, n)] rd wr = none)

/-- The address of a form's operands (R32). -/
def Sys2Proof.addrOf (s : State) (m : MemArgs) : Word := s.ea m.a m.b m.scale (m.disp.signExtend 64)

/-- A number of w bytes widened to a register (R121). -/
def Sys2Proof.widened (wd : Width) (sx : Bool) (n : Nat) : Word :=
  match wd, sx with
  | .b, true => (BitVec.ofNat 8 n).signExtend 64
  | .h, true => (BitVec.ofNat 16 n).signExtend 64
  | .w, true => (BitVec.ofNat 32 n).signExtend 64
  | _, _ => BitVec.ofNat 64 n

/-- R117 to R121, R82, R95: a plain load from a local store in reach writes its destination with the bytes there, the low
address lowest, widened; `ldc` taints it. No byte of memory, no other register and no flag changes. -/
def Sys2Proof.LocalLoadsWriteTheirDestination : Prop :=
  ∀ (m : MemArgs) (s : State) (core off : Nat), s.hasG [m.a, m.b] = true → m.ord = .plain →
    ReachesLocal s (addrOf s m) m.width.bytes true false core off →
    s.poisonIn (lsAddr core off) m.width.bytes = none →
    let v := widened m.width m.sx (s.mem.readNat (lsAddr core off) m.width.bytes)
    (∃ t, exec (.ld m) s = .next t ∧ HoldsG t m.d v (s.taint m.a || s.taint m.b) ∧ SameG s t [m.d] ∧ SameV s t [] ∧
      SameP s t [] ∧ SameControl s t ∧ SameThread s t ∧ SameButCores s t ∧ Passes s t 8) ∧
    (∃ t, exec (.ldc m) s = .next t ∧ HoldsG t m.d v true ∧ SameG s t [m.d] ∧ SameV s t [] ∧ SameP s t [] ∧
      SameControl s t ∧ SameThread s t ∧ SameButCores s t ∧ Passes s t 8)

/-- R119, R121, R122: a store into a local store in reach, and the reclaim store there, write exactly their bytes, the low
byte at the low address, and change no register and no flag; an ordered one first waits for the thread's earlier
accesses. -/
def Sys2Proof.LocalStoresWriteTheirBytes : Prop :=
  ∀ (m : MemArgs) (s : State) (core off : Nat), s.hasG [m.d, m.a, m.b] = true →
    ReachesLocal s (addrOf s m) m.width.bytes false true core off → s.mem.wf = true →
    (m.ord = .plain ∨ s.performed m.scope false = true →
      (m.ord ≠ .sc → ∃ t, exec (.st m) s = .next t ∧
        t.mem.readNat (lsAddr core off) m.width.bytes = (s.g m.d).toNat % 2 ^ (8 * m.width.bytes) ∧
        SameBytesBut s t (lsAddr core off) m.width.bytes ∧ SameRegisters s t ∧ Passes s t 8) ∧
      (∃ t, exec (.reclaimStore m) s = .next t ∧
        t.mem.readNat (lsAddr core off) m.width.bytes = (s.g m.d).toNat % 2 ^ (8 * m.width.bytes) ∧
        SameBytesBut s t (lsAddr core off) m.width.bytes ∧ SameRegisters s t ∧ Passes s t 8)) ∧
    (m.ord ≠ .plain → s.performed m.scope false = false → s.ctx.doneAt m.scope ≤ s.cycle →
      ∃ t, exec (.st m) s = .next t ∧ t = { s with ctx := { s.ctx with wait := .away .drain, cls := 0 } })

/-- The new value of an atomic's word (R129): by the operation, of the old value and the operand, both w bytes. -/
noncomputable def Sys2Proof.amoForms : List ((AmoArgs → Instr) × (Nat → Nat → Nat → Nat)) := [
  (.amoAdd, fun w x y => (x + y) % 2 ^ (8 * w)),
  (.amoAnd, fun _ x y => x &&& y),
  (.amoOr, fun _ x y => x ||| y),
  (.amoXor, fun _ x y => x ^^^ y),
  (.amoMin, fun w x y => if (BitVec.ofNat (8 * w) x).toInt ≤ (BitVec.ofNat (8 * w) y).toInt then x else y),
  (.amoMax, fun w x y => if (BitVec.ofNat (8 * w) x).toInt ≤ (BitVec.ofNat (8 * w) y).toInt then y else x),
  (.amoMinu, fun _ x y => if x ≤ y then x else y),
  (.amoMaxu, fun _ x y => if x ≤ y then y else x),
  (.amoSwap, fun _ _ y => y)]

/-- R118, R86: an access outside every window, and one past the end of its local store, is an address fault; one to a core
that is not bound to the job a protection fault. Here for loads, stores and atomics of a thread that takes its traps. -/
def Obligations.BadAddressesFault : Prop :=
  (∀ (m : MemArgs) (s : State), s.hasG [m.d, m.a, m.b] = true →
    s.behindPush [(addrOf s m, m.width.bytes)] = false →
    let a := addrOf s m
    (targetOf s.myCore a = .none → Delegated s 10 →
      (∃ t, exec (.ld m) s = .next t ∧ EntersHandler s t 10 a) ∧ (∃ t, exec (.st m) s = .next t ∧ EntersHandler s t 10 a)) ∧
    (∀ core off, targetOf s.myCore a = .ls core off → s.lsSize core ≤ off → Delegated s 10 →
      (∃ t, exec (.ld m) s = .next t ∧ EntersHandler s t 10 a) ∧ (∃ t, exec (.st m) s = .next t ∧ EntersHandler s t 10 a)) ∧
    (∀ core off, targetOf s.myCore a = .ls core off → off + m.width.bytes ≤ s.lsSize core →
      s.boundTo core s.ctx.job = false → Delegated s 11 →
      (∃ t, exec (.ld m) s = .next t ∧ EntersHandler s t 11 a) ∧ (∃ t, exec (.st m) s = .next t ∧ EntersHandler s t 11 a))) ∧
  (∀ (m : AmoArgs) (s : State), s.hasG [m.a, m.b, m.c] = true →
    let a := s.ea m.a m.b m.scale 0
    s.behindPush [(a, m.width.bytes)] = false →
    ∀ p ∈ amoForms,
      (targetOf s.myCore a = .none → Delegated s 10 → ∃ t, exec (p.1 m) s = .next t ∧ EntersHandler s t 10 a) ∧
      (∀ core off, targetOf s.myCore a = .ls core off → s.lsSize core ≤ off → Delegated s 10 →
        ∃ t, exec (p.1 m) s = .next t ∧ EntersHandler s t 10 a) ∧
      (∀ core off, targetOf s.myCore a = .ls core off → off + m.width.bytes ≤ s.lsSize core →
        s.boundTo core s.ctx.job = false → Delegated s 11 → ∃ t, exec (p.1 m) s = .next t ∧ EntersHandler s t 11 a)) ∧
  (∀ (m : AmoArgs) (disp : BitVec 32) (s : State), s.hasG [m.a, m.b, m.c] = true →
    let a := s.g m.a + disp.signExtend 64
    s.behindPush [(a, m.width.bytes)] = false → targetOf s.myCore a = .none → Delegated s 10 →
    ∃ t, exec (.cas m disp) s = .next t ∧ EntersHandler s t 10 a)

/-- R200, R119: an access that finds its bank taken in this cycle is replayed 8 cycles later; nothing is read or written. -/
def Sys2Proof.BankConflictReplaysTheAccess : Prop :=
  ∀ (m : MemArgs) (s : State) (core off : Nat), s.hasG [m.a, m.b] = true → m.ord = .plain →
    targetOf s.myCore (addrOf s m) = .ls core off → off + m.width.bytes ≤ s.lsSize core →
    s.boundTo core s.ctx.job = true → near s.myCore core = true →
    s.portsNow core &&& banksOf off m.width.bytes (s.job s.ctx.job).bankKey ≠ 0 → s.ctx.skipWatch = true →
    s.ctx.asked = [] → s.behindPush [(addrOf s m, m.width.bytes)] = false →
    ∃ t, exec (.ld m) s = .next t ∧ t.ctx.wait = .away .bank ∧ t.ctx.latch = s.ctx.latch ∧ t.ctx.regs = s.ctx.regs ∧
      t.mem = s.mem ∧ (s.cycle + 8, Instr.bankConflictReplay s.cur) ∈ t.agenda

/-- The effect of an atomic of n bytes of code on w bytes of a local store. -/
def Sys2Proof.AtomicDone (s t : State) (d : GReg) (old new at_ w : Nat) (taint : Bool) (n : Nat) : Prop :=
  HoldsG t d (BitVec.ofNat 64 old) taint ∧ t.mem.readNat at_ w = new ∧ SameBytesBut s t at_ w ∧ SameG s t [d] ∧
    SameV s t [] ∧ SameP s t [] ∧ SameControl s t ∧ SameThread s t ∧ Passes s t n

/-- R129, R130: an atomic on an aligned word or double of a local store in reach returns the old value zero-extended and
writes the operation's; `cas` writes where the old value equals the expected one and leaves the word alone elsewhere. -/
def Obligations.LocalAtomicsReturnTheOldValue : Prop :=
  ∀ (m : AmoArgs) (disp : BitVec 32) (s : State) (core off : Nat), s.hasG [m.a, m.b, m.c] = true → m.ord = .plain →
    m.amoOk = true → off % m.width.bytes = 0 → s.mem.wf = true → s.poisonIn (lsAddr core off) m.width.bytes = none →
    let w := m.width.bytes
    let old := s.mem.readNat (lsAddr core off) w
    let taint := s.taint m.a || s.taint m.b || s.taint m.c
    (ReachesLocal s (s.ea m.a m.b m.scale 0) w true true core off →
      ∀ p ∈ amoForms, ∃ t, exec (p.1 m) s = .next t ∧
        AtomicDone s t m.d old (p.2 w old ((s.g m.c).toNat % 2 ^ (8 * w))) (lsAddr core off) w taint 8) ∧
    (ReachesLocal s (s.g m.a + disp.signExtend 64) w true true core off →
      ∃ t, exec (.cas m disp) s = .next t ∧
        AtomicDone s t m.d old (if old = (s.g m.b).toNat % 2 ^ (8 * w) then (s.g m.c).toNat % 2 ^ (8 * w) else old)
          (lsAddr core off) w taint 12)

/-- The full/empty bits of the words of a local-store range are all full, or all empty (R131). -/
def Sys2Proof.allFull (s : State) (core off w : Nat) : Prop := ∀ x ∈ feWords core off w, x ∉ s.ms.empties
def Sys2Proof.allEmpty (s : State) (core off w : Nat) : Prop := ∀ x ∈ feWords core off w, x ∈ s.ms.empties

/-- R131, R132: `ldfe` on full words reads them, zero-extended, and empties them, `ldff` reads and leaves them full, `stfe` on empty words
writes and fills them, `feset` sets their state. That `ldff` widens by `.sx`, and `ldfe` does not, is the model's reading
(log 18). -/
def Obligations.FullEmptyAccessesPerform : Prop :=
  ∀ (m : MemArgs) (s : State) (core off : Nat), s.hasG [m.d, m.a, m.b] = true → m.ord = .plain →
    (m.width = .w ∨ m.width = .d) → off % m.width.bytes = 0 → s.mem.wf = true →
    s.poisonIn (lsAddr core off) m.width.bytes = none →
    let w := m.width.bytes
    let v (sx : Bool) := widened m.width sx (s.mem.readNat (lsAddr core off) w)
    let taint := s.taint m.a || s.taint m.b
    (ReachesLocal s (addrOf s m) w true false core off → allFull s core off w →
      (∃ t, exec (.ldfe m) s = .next t ∧ HoldsG t m.d (v false) taint ∧ allEmpty t core off w ∧ t.mem = s.mem ∧ SameG s t [m.d] ∧
        SameControl s t ∧ Passes s t 8) ∧
      (∃ t, exec (.ldff m) s = .next t ∧ HoldsG t m.d (v m.sx) taint ∧ allFull t core off w ∧ t.mem = s.mem ∧ SameG s t [m.d] ∧
        SameControl s t ∧ Passes s t 8)) ∧
    (ReachesLocal s (addrOf s m) w false true core off →
      (allEmpty s core off w → ∃ t, exec (.stfe m) s = .next t ∧ allFull t core off w ∧
        t.mem.readNat (lsAddr core off) w = (s.g m.d).toNat % 2 ^ (8 * w) ∧ SameBytesBut s t (lsAddr core off) w ∧
        SameRegisters s t ∧ Passes s t 8) ∧
      (∀ full, ∃ t, exec (.feset m full) s = .next t ∧ (full = true → allFull t core off w) ∧
        (full = false → allEmpty t core off w) ∧ t.mem = s.mem ∧ SameRegisters s t ∧ Passes s t 8))

/-- R133: an `ldfe` that finds an empty word is tried again 8 cycles later, and one whose attempts reach RETRYLIM takes a
retry fault with the address in TVAL. -/
def Sys2Proof.FullEmptyRetriesUntilTheLimit : Prop :=
  ∀ (m : MemArgs) (s : State) (core off : Nat), s.hasG [m.a, m.b] = true → m.ord = .plain →
    (m.width = .w ∨ m.width = .d) → off % m.width.bytes = 0 → s.poisonIn (lsAddr core off) m.width.bytes = none →
    ReachesLocal s (addrOf s m) m.width.bytes true false core off → (∃ x ∈ feWords core off m.width.bytes, x ∈ s.ms.empties) →
    (s.ctx.attempts + 1 < s.ctx.ctl.retrylim.toNat →
      ∃ t, exec (.ldfe m) s = .next t ∧ t.ctx.wait = .away .fullEmpty ∧ t.ctx.attempts = s.ctx.attempts + 1 ∧
        t.ctx.regs = s.ctx.regs ∧ t.mem = s.mem ∧ (s.cycle + 8, Instr.fullEmptyReplay s.cur) ∈ t.agenda) ∧
    (s.ctx.ctl.retrylim.toNat ≤ s.ctx.attempts + 1 → s.ctx.ctl.mode = 0 → s.ctx.ctl.tdeleg.getLsbD 13 = true →
      ∃ t, exec (.ldfe m) s = .next t ∧ t.ctx.pc = s.ctx.ctl.thandler ∧ t.ctx.ctl.tcause = 13 ∧
        t.ctx.ctl.tval = addrOf s m ∧ t.ctx.ctl.tepc = s.ctx.pc ∧ t.ctx.regs = s.ctx.regs ∧ t.mem = s.mem)

/-- The thread has no stream bound (R186). -/
def Sys2Proof.noStreams (s : State) : Prop := ∀ k : Fin 4, s.ctx.streams[k] = none

/-- R126, R134, R135: an acquire fence drops every untracked and leased copy of the core's L1; a release fence completes
once every earlier access has performed at its scope, and waits until then; a full fence does both. An acquire with
promotion of a releaser in its scope and bound to its job, for a cluster any of its cores (log 112), sends the probe, which
arrives in half of its round trip; once it has been answered, the acquire acts. Outside its scope it is an address fault, and a
releaser not bound to the job a protection fault. -/
def Obligations.FencesOrderTheThread : Prop :=
  ∀ (scope : Scope) (all : Bool) (a : GReg) (s : State), noStreams s →
    (∃ t, exec (.fenceAcq scope false a) s = .next t ∧ (∀ x ∈ (t.core s.myCore).l1, x.untracked = 0 ∧ x.leased = 0) ∧
      SameRegisters s t ∧ SameButCores s t ∧ Passes s t 8) ∧
    (s.performed scope all = true → ∃ t, exec (.fenceRel scope all) s = .next t ∧ WritesNothing s t 8) ∧
    (s.performed scope all = false → s.ctx.doneAt scope ≤ s.cycle →
      ∃ t, exec (.fenceRel scope all) s = .next t ∧ t = { s with ctx := { s.ctx with wait := .away .fence, cls := 0 } }) ∧
    (s.performed scope true = true → ∃ t, exec (.fenceFull scope all) s = .next t ∧
      (∀ x ∈ (t.core s.myCore).l1, x.untracked = 0 ∧ x.leased = 0) ∧ SameRegisters s t ∧ SameButCores s t ∧ Passes s t 8) ∧
    (s.hasG [a] = true → (s.g a).toNat < 2 ^ 17 →
      let core := (s.g a).toNat / 16 % 4096
      let wide : Bool := decide (2 ^ 16 ≤ (s.g a).toNat)
      let bound := if wide then ∃ i, i < 8 ∧ s.boundTo (core / 8 * 8 + i) s.ctx.job = true else s.boundTo core s.ctx.job = true
      inScope scope wide s.myCore core = true →
      (bound → s.ctx.asked = [] → ∃ t, exec (.fenceAcq scope true a) s = .next t ∧ t.ctx.wait = .away .fence ∧
        (s.cycle + promoteTrip s.myCore core / 2, Instr.promotionProbe s.cur core wide) ∈ t.agenda ∧
        t.ctx.asked = [1] ∧ t.ctx.latch = s.ctx.latch ∧ t.ctx.regs = s.ctx.regs ∧ t = { s with ctx := t.ctx, agenda := t.agenda }) ∧
      (bound → s.ctx.asked = [2] → ∃ t, exec (.fenceAcq scope true a) s = .next t ∧
        (∀ x ∈ (t.core s.myCore).l1, x.untracked = 0 ∧ x.leased = 0) ∧ SameRegisters s t ∧ SameButCores s t ∧ Passes s t 8) ∧
      (¬ bound → Delegated s 11 → ∃ t, exec (.fenceAcq scope true a) s = .next t ∧ EntersHandler s t 11 (s.g a))) ∧
    (s.hasG [a] = true → (2 ^ 17 ≤ (s.g a).toNat ∨ inScope scope (decide (2 ^ 16 ≤ (s.g a).toNat)) s.myCore
        ((s.g a).toNat / 16 % 4096) = false) → Delegated s 10 →
      ∃ t, exec (.fenceAcq scope true a) s = .next t ∧ EntersHandler s t 10 (s.g a))

/-- The page of a global address is at hand in the core's caches and allows the access (R346). -/
def Sys2Proof.PageAtHand (s : State) (va : Nat) (need : Need) (x : Attr) : Prop := s.checkPage s.myCore va need = .ok x

/-- R136, R138: `cflush` of a local-store address does nothing; of a global line at core scope the L1 loses the line.
`ptouch` of a local-store address does nothing; of a global one the translation unit of the core's base die then holds the
page's translation: the one that it held, or what the walk found. -/
def Sys2Proof.LinesAndPagesAreTouched : Prop :=
  ∀ (a b : GReg) (scale : BitVec 2) (disp : BitVec 17) (s : State), s.hasG [a, b] = true →
    let addr := s.ea a b scale (disp.signExtend 64)
    (∀ core off scope, targetOf s.myCore addr = .ls core off → off < s.lsSize core → s.boundTo core s.ctx.job = true →
      (∃ t, exec (.cflush a b scope scale disp) s = .next t ∧ WritesNothing s t 8) ∧
      (∃ t, exec (.ptouch a b scale disp) s = .next t ∧ WritesNothing s t 8)) ∧
    (∀ va x, targetOf s.myCore addr = .global va → PageAtHand s va .read x → s.queuedOn [va / 64] = false →
      (∃ t, exec (.cflush a b .core scale disp) s = .next t ∧ (t.core s.myCore).l1Find s.ctx.job (va / 64) = none ∧
        t.mem = s.mem ∧ SameRegisters s t ∧ Passes s t 8) ∧
      (∃ t, exec (.ptouch a b scale disp) s = .next t ∧ t.mem = s.mem ∧ SameRegisters s t ∧ Passes s t 8 ∧
        (∀ e, s.heldLeaf (baseOf s.myDie) va = some e → t.heldLeaf (baseOf s.myDie) va = some e) ∧
        ((∀ e ∈ s.ms.xlat, e.base ≠ baseOf s.myDie) → leafMapped (s.walk va).attr.leaf = true →
          leafBad (s.walk va).attr.big (s.walk va).attr.leaf = false →
          (t.heldLeaf (baseOf s.myDie) va).map XlatEntry.attr = some (s.walk va).attr)))

/-- R285, R286: a plain load of a global address whose line the core's L1 holds registered is served from it; no request
leaves and no byte of memory changes. -/
def Sys2Proof.GlobalLoadIsServedByTheL1 : Prop :=
  ∀ (m : MemArgs) (s : State) (va : Nat) (x : Attr) (l : L1Line), s.hasG [m.a, m.b] = true → m.ord = .plain →
    targetOf s.myCore (addrOf s m) = .global va → va % 64 + m.width.bytes ≤ 64 → PageAtHand s va .read x →
    s.ctx.skipWatch = true → leafKind x.leaf ≠ 0 → loadPol m.pol x ≠ .unc →
    (s.core s.myCore).l1Find s.ctx.job (va / 64) = some l → l.registered = 0xFFFF → l.aliased = false →
    (s.core s.myCore).queue = [] → s.ctx.gather = [] → s.ctx.asked = [] →
    s.behindPush [(addrOf s m, m.width.bytes)] = false →
    ∃ t, exec (.ld m) s = .next t ∧
      HoldsG t m.d (widened m.width m.sx (l.data.toNat / 2 ^ (8 * (va % 64)) % 2 ^ (8 * m.width.bytes)))
        (s.taint m.a || s.taint m.b) ∧
      SameG s t [m.d] ∧ SameV s t [] ∧ SameP s t [] ∧ t.mem = s.mem ∧ t.agenda = s.agenda ∧ Passes s t 8

/-- R82, R95, R117 to R121, R119, R121, R122, R285, R286: scalar loads and stores of local stores, and a load that the
L1 serves. -/
def Obligations.ScalarLoadsAndStoresComplete : Prop :=
  Sys2Proof.LocalLoadsWriteTheirDestination ∧
  Sys2Proof.LocalStoresWriteTheirBytes ∧
  Sys2Proof.GlobalLoadIsServedByTheL1

/-- R139, R314: `rput` with the allowances for its 2 flits sends its value to the target, which gets it after the distance's
time; without them the thread waits for them; a target outside the machine
is an address fault, one on a core not bound to the job a protection fault. -/
def Sys2Proof.RputSendsTheValue : Prop :=
  ∀ (d a b : GReg) (ext : BitVec 32) (s : State), s.hasG [a, b] = true →
    let target : Word := if a = 0 then ext.setWidth 64 else s.g a
    (target.toNat < 65536 → s.boundTo (coreOf target.toNat) s.ctx.job = true →
      (s.core s.myCore).queue.any (fun e => e.thread = s.cur && e.scope ≠ .core && !e.sent) = false →
      2 ≤ (s.core s.myCore).allowances →
      ∃ t, exec (.rputG d a b ext) s = .next t ∧
        (s.cycle + msgCycles s.myCore (coreOf target.toNat),
          Instr.rputDelivery (s.cur, target.toNat) s.ctx.job (.g d (s.g b))) ∈ t.agenda ∧
        (t.core s.myCore).spent = (s.core s.myCore).spent + 2 ∧ t.mem = s.mem ∧ SameRegisters s t ∧
        Passes s t 12) ∧
    (target.toNat < 65536 → s.boundTo (coreOf target.toNat) s.ctx.job = true →
      (s.core s.myCore).queue.any (fun e => e.thread = s.cur && e.scope ≠ .core && !e.sent) = false →
      (s.core s.myCore).allowances < 2 →
      ∃ t, exec (.rputG d a b ext) s = .next t ∧ t.ctx.wait = .away .allowance ∧ t.ctx.latch = s.ctx.latch ∧
        t.ctx.regs = s.ctx.regs ∧ t.ctx.pc = s.ctx.pc ∧ SameButCores s t) ∧
    (65536 ≤ target.toNat → Delegated s 10 → ∃ t, exec (.rputG d a b ext) s = .next t ∧ EntersHandler s t 10 target) ∧
    (target.toNat < 65536 → s.boundTo (coreOf target.toNat) s.ctx.job = false → Delegated s 11 →
      ∃ t, exec (.rputG d a b ext) s = .next t ∧ EntersHandler s t 11 target)

/-- R139, R69, R314: the vector form sends its value with tag and side field, in 10 flits, once the 8 of the buffer are
free. -/
def Sys2Proof.VectorRputSendsTheValue : Prop :=
  ∀ (d b : VIdx) (a : GReg) (ext : BitVec 32) (s : State), s.hasG [a] = true →
    s.ctx.regs.vPres.getLsbD b.val = true → noStreams s →
    let target : Word := if a = 0 then ext.setWidth 64 else s.g a
    target.toNat < 65536 → s.boundTo (coreOf target.toNat) s.ctx.job = true →
      (s.core s.myCore).queue.any (fun e => e.thread = s.cur && e.scope ≠ .core && !e.sent) = false →
      8 ≤ (s.core s.myCore).allowances →
      ∃ t, exec (.rputV d a b ext) s = .next t ∧
        (s.cycle + msgCycles s.myCore (coreOf target.toNat),
          Instr.rputDelivery (s.cur, target.toNat) s.ctx.job (.v d (s.v b))) ∈ t.agenda ∧
        (t.core s.myCore).spent = (s.core s.myCore).spent + 10 ∧ t.mem = s.mem ∧ SameRegisters s t ∧
        Passes s t 12

/-! ## Vectors (08_core_ops R162 to R176) -/

/-- The whole effect of a vector instruction of 8 bytes that writes one v-register and raises flags (R65, R162). -/
def Sys2Proof.WritesV (s t : State) (d : VIdx) (x : VReg) (fl : BitVec 5) : Prop :=
  t.v d = x ∧ t.ctx.regs.vPres.getLsbD d.val = true ∧ SameV s t [d] ∧ SameG s t [] ∧ SameP s t [] ∧
    t.ctx.ctl.fflags = s.ctx.ctl.fflags ||| fl ∧ SameControlButFlags s t ∧ SameThread s t ∧ SameMachine s t ∧ Passes s t 8

/-- No stream is bound, and the v-sources are present; the destination too where inactive lanes keep its content
(R81, R162). -/
def Sys2Proof.VReady (s : State) (merge : Bool) (d : VIdx) (srcs : List VIdx) : Prop :=
  noStreams s ∧ (∀ r ∈ srcs, s.ctx.regs.vPres.getLsbD r.val = true) ∧
    (merge = true → s.ctx.regs.vPres.getLsbD d.val = true)

/-- Lane i of a v-register, by the lane width of a tag (R54). -/
def Sys2Proof.lane (s : State) (tag : BitVec 5) (r : VIdx) (i : Nat) : BitVec (laneWidth tag) :=
  BitVec.ofNat (laneWidth tag) (laneAt (s.v r) (laneWidth tag) i)

/-- A register of lanes of a tag: active lanes hold their results, the others what the destination held, and the side
field is zero (R54, R162). -/
def Sys2Proof.LanesAre (s : State) (m : VMod) (d : VIdx) (x : VReg) (tag : BitVec 5)
    (f : Nat → BitVec (laneWidth tag)) : Prop :=
  x.tag = tag ∧ x.side = 0 ∧ ∀ i, i < lanesOf tag →
    laneAt x (laneWidth tag) i = (if s.active m i then f i else lane s tag d i).toNat

/-- The flags of the active lanes, ORed (R65). -/
def Sys2Proof.activeFlags (s : State) (m : VMod) (tag : BitVec 5) (f : Nat → BitVec 5) : BitVec 5 :=
  (List.range (lanesOf tag)).foldl (fun a i => a ||| if s.active m i then f i else 0) 0

/-- The integer operations of R165 with two sources: a lane of any width, `u` for unsigned. -/
structure Sys2Proof.VecForm where
  instr : VMod → VIdx → VIdx → VIdx → Instr
  f : (w : Nat) → Bool → BitVec w → BitVec w → BitVec w
noncomputable def Sys2Proof.vecForms : List VecForm := [
  ⟨.vadd, fun _ _ x y => x + y⟩, ⟨.vsub, fun _ _ x y => x - y⟩, ⟨.vmul, fun _ _ x y => x * y⟩,
  ⟨.vmin, fun _ u x y => if (if u then (x.toNat : Int) ≤ y.toNat else x.toInt ≤ y.toInt) then x else y⟩,
  ⟨.vmax, fun _ u x y => if (if u then (x.toNat : Int) ≤ y.toNat else x.toInt ≤ y.toInt) then y else x⟩,
  ⟨.vand, fun _ _ x y => x &&& y⟩, ⟨.vor, fun _ _ x y => x ||| y⟩, ⟨.vxor, fun _ _ x y => x ^^^ y⟩,
  ⟨.vshl, fun w _ x y => x <<< (y.toNat % w)⟩, ⟨.vshr, fun w _ x y => x >>> (y.toNat % w)⟩,
  ⟨.vsar, fun w _ x y => x.sshiftRight (y.toNat % w)⟩,
  ⟨.vabd, fun w u x y => BitVec.ofInt w (if u then (x.toNat : Int) - y.toNat else x.toInt - y.toInt).natAbs⟩]

/-- R57, R162, R165: on integer lanes the two-source, fused and one-source operations wrap, and raise no flag; sources
of two tags are a format fault with both tags in TVAL. -/
def Sys2Proof.VectorIntegerLanes : Prop :=
  ∀ (m : VMod) (d a b c : VIdx) (tag : BitVec 5) (s : State), intTag tag = true → (s.v a).tag = tag →
    ((s.v b).tag = tag → VReady s (merges m) d [a, b] →
      ∀ p ∈ vecForms, ∃ t x, exec (p.instr m d a b) s = .next t ∧ WritesV s t d x 0 ∧
        LanesAre s m d x tag fun i => p.f (laneWidth tag) m.u (lane s tag a i) (lane s tag b i)) ∧
    ((s.v b).tag = tag → (s.v c).tag = tag → VReady s (merges m) d [a, b, c] →
      (∃ t x, exec (.vfma m d a b c) s = .next t ∧ WritesV s t d x 0 ∧
        LanesAre s m d x tag fun i => lane s tag a i * lane s tag b i + lane s tag c i) ∧
      (∃ t x, exec (.vfms m d a b c) s = .next t ∧ WritesV s t d x 0 ∧
        LanesAre s m d x tag fun i => lane s tag a i * lane s tag b i - lane s tag c i) ∧
      (∃ t x, exec (.vfnma m d a b c) s = .next t ∧ WritesV s t d x 0 ∧
        LanesAre s m d x tag fun i => lane s tag c i - lane s tag a i * lane s tag b i)) ∧
    (VReady s (merges m) d [a] →
      (∃ t x, exec (.vabs m d a) s = .next t ∧ WritesV s t d x 0 ∧
        LanesAre s m d x tag fun i => if (lane s tag a i).toInt < 0 then -lane s tag a i else lane s tag a i) ∧
      (∃ t x, exec (.vneg m d a) s = .next t ∧ WritesV s t d x 0 ∧ LanesAre s m d x tag fun i => -lane s tag a i) ∧
      (∃ t x, exec (.vnot m d a) s = .next t ∧ WritesV s t d x 0 ∧ LanesAre s m d x tag fun i => ~~~lane s tag a i)) ∧
    ((s.v b).tag ≠ tag → VReady s (merges m) d [a, b] → Delegated s 5 →
      ∀ p ∈ vecForms, ∃ t, exec (p.instr m d a b) s = .next t ∧
        EntersHandler s t 5 (BitVec.ofNat 64 (tag.toNat + (s.v b).tag.toNat * 256)))

/-- The floating-point operations of R165 with two sources: the rounded result and its flags (R63 to R66). -/
noncomputable def Sys2Proof.vecFloats :
    List ((VMod → VIdx → VIdx → VIdx → Instr) × (Fmt → RMode → Nat → Nat → Nat × BitVec 5)) := [
  (.vadd, Fmt.add), (.vsub, Fmt.sub), (.vmul, Fmt.mul), (.vmin, fun f md x y => f.minmax md false x y),
  (.vmax, fun f md x y => f.minmax md true x y),
  (.vabd, fun f md x y => ((f.sub md x y).1 % 2 ^ (f.bits - 1), (f.sub md x y).2))]

/-- R162, R165: on F32, BF16 and F16 lanes each active lane takes its rounded result and raises its flags; a fused form
rounds once. `vabs` and `vneg` change the sign bit alone. `.u` on a floating-point tag is a format fault. That `vabd` rounds
the difference and then clears its sign is the model's choice (log 87). -/
def Sys2Proof.VectorFloatLanes : Prop :=
  ∀ (m : VMod) (d a b c : VIdx) (tag : BitVec 5) (s : State), arithFloat tag = true → (s.v a).tag = tag →
    let w := laneWidth tag
    let f := Fmt.of tag
    let md := s.rmodeOf m
    let at_ (r : VIdx) (i : Nat) : Nat := (lane s tag r i).toNat
    ((s.v b).tag = tag → VReady s (merges m) d [a, b] → m.u = false →
      ∀ p ∈ vecFloats, ∃ t x, exec (p.1 m d a b) s = .next t ∧
        WritesV s t d x (activeFlags s m tag fun i => (p.2 f md (at_ a i) (at_ b i)).2) ∧
        LanesAre s m d x tag fun i => BitVec.ofNat w (p.2 f md (at_ a i) (at_ b i)).1) ∧
    ((s.v b).tag = tag → (s.v c).tag = tag → VReady s (merges m) d [a, b, c] → m.u = false →
      ∀ p ∈ ([(.vfma, false, false), (.vfms, false, true), (.vfnma, true, false)] :
          List ((VMod → VIdx → VIdx → VIdx → VIdx → Instr) × Bool × Bool)),
        ∃ t x, exec (p.1 m d a b c) s = .next t ∧
          WritesV s t d x (activeFlags s m tag fun i => (f.fma md p.2.1 p.2.2 (at_ a i) (at_ b i) (at_ c i)).2) ∧
          LanesAre s m d x tag fun i => BitVec.ofNat w (f.fma md p.2.1 p.2.2 (at_ a i) (at_ b i) (at_ c i)).1) ∧
    (VReady s (merges m) d [a] →
      (∃ t x, exec (.vabs m d a) s = .next t ∧ WritesV s t d x 0 ∧
        LanesAre s m d x tag fun i => BitVec.ofNat w (at_ a i % 2 ^ (w - 1))) ∧
      (∃ t x, exec (.vneg m d a) s = .next t ∧ WritesV s t d x 0 ∧
        LanesAre s m d x tag fun i => BitVec.ofNat w (at_ a i + 2 ^ (w - 1)))) ∧
    ((s.v b).tag = tag → VReady s (merges m) d [a, b] → m.u = true → Delegated s 5 →
      ∀ p ∈ vecFloats, ∃ t, exec (p.1 m d a b) s = .next t ∧
        EntersHandler s t 5 (BitVec.ofNat 64 (tag.toNat + tag.toNat * 256)))

/-- R57, R162, R165: the lane-wise vector instructions, on integer and on floating-point lanes. -/
def Obligations.VectorLanesAreComputed : Prop :=
  Sys2Proof.VectorIntegerLanes ∧ Sys2Proof.VectorFloatLanes

/-- The operations of the special-function unit on one lane (R73, R163), with their cycles. -/
noncomputable def Sys2Proof.vecSpecials :
    List ((VMod → VIdx → VIdx → Instr) × Nat × (BitVec 5 → RMode → BitVec 3 → Nat → Nat × BitVec 5)) := [
  (.vsqrt, 24, fun tag md _ x => (Fmt.of tag).sqrt md x), (.vrcp, 16, rcpLane), (.vrsq, 16, rsqLane),
  (.vexp2, 16, exp2Lane), (.vlog2, 16, log2Lane), (.vtanh, 16, tanhLane)]

/-- A long vector operation is under way: its result stands in the agenda, the thread waits, nothing else has changed but
the PC. -/
def Sys2Proof.RunsLong (s t : State) (cycles : Nat) (d : VIdx) (x : VReg) (fl : BitVec 5) : Prop :=
  (s.cycle + cycles, Instr.specialFunctionResult s.cur d x fl) ∈ t.agenda ∧ t.ctx.wait = .away .longArith ∧
    SameRegisters s t ∧ Passes s t 8 ∧ t = { s with ctx := t.ctx, agenda := t.agenda }

/-- R163, R58, R73: divisions and the operations of the special-function unit pass their instruction; the result comes after
16 or 24 cycles, when the register is written, the flags are raised and the thread is ready. -/
def Obligations.LongVectorOperations : Prop :=
  (∀ (m : VMod) (d a b : VIdx) (tag : BitVec 5) (s : State), (s.v a).tag = tag →
    (intTag tag = true → (s.v b).tag = tag → VReady s (merges m) d [a, b] →
      ∃ t x, exec (.vdiv m d a b) s = .next t ∧ RunsLong s t 24 d x 0 ∧ LanesAre s m d x tag fun i =>
        let p := lane s tag a i
        let q := lane s tag b i
        if q = 0 then BitVec.allOnes _
        else if m.u then BitVec.ofNat _ (p.toNat / q.toNat) else BitVec.ofInt _ (p.toInt.tdiv q.toInt)) ∧
    (arithFloat tag = true → (s.v b).tag = tag → VReady s (merges m) d [a, b] → m.u = false →
      let r (i : Nat) : Nat × BitVec 5 := (Fmt.of tag).div (s.rmodeOf m) (lane s tag a i).toNat (lane s tag b i).toNat
      ∃ t x, exec (.vdiv m d a b) s = .next t ∧ RunsLong s t 24 d x (activeFlags s m tag fun i => (r i).2) ∧
        LanesAre s m d x tag fun i => BitVec.ofNat _ (r i).1) ∧
    (arithFloat tag = true → VReady s (merges m) d [a] →
      ∀ p ∈ vecSpecials,
        let r (i : Nat) : Nat × BitVec 5 := p.2.2 tag (s.rmodeOf m) (s.rcode m) (lane s tag a i).toNat
        ∃ t x, exec (p.1 m d a) s = .next t ∧ RunsLong s t p.2.1 d x (activeFlags s m tag fun i => (r i).2) ∧
          LanesAre s m d x tag fun i => BitVec.ofNat _ (r i).1)) ∧
  (∀ (d : VIdx) (x : VReg) (fl : BitVec 5) (s : State), s.ctx.wait = .away .longArith → noStreams s →
    ∃ t, exec (.specialFunctionResult s.cur d x fl) s = .next t ∧ t.v d = x ∧ t.ctx.regs.vPres.getLsbD d.val = true ∧
      t.ctx.ctl.fflags = s.ctx.ctl.fflags ||| fl ∧ SameG s t [] ∧ SameV s t [d] ∧ SameP s t [] ∧
      SameControlButFlags s t ∧ SameThread s t ∧ SameMachine s t ∧ t.ctx.wait = .ready s.cycle ∧ t.ctx.pc = s.ctx.pc)

/-- The compares of R166. -/
noncomputable def Sys2Proof.vecCompares :
    List ((VMod → PReg → VIdx → VIdx → Instr) × Cmp × (Int → Int → Bool)) := [
  (.vcmpEq, .eq, fun x y => x = y), (.vcmpNe, .ne, fun x y => x ≠ y), (.vcmpLt, .lt, fun x y => x < y),
  (.vcmpLe, .le, fun x y => x ≤ y), (.vcmpGt, .gt, fun x y => x > y), (.vcmpGe, .ge, fun x y => x ≥ y)]

/-- R166: a compare sets the bit of each active lane to its condition, leaves the bits of the inactive lanes and clears the
bits past the lane count; it writes nothing to p0. -/
def Sys2Proof.VectorComparesSetPredicates : Prop :=
  ∀ (m : VMod) (d : PReg) (a b : VIdx) (tag : BitVec 5) (s : State), (s.v a).tag = tag → (s.v b).tag = tag →
    VReady s false a [a, b] → ∀ p ∈ vecCompares,
    (intTag tag = true → ∃ t, exec (p.1 m d a b) s = .next t ∧ SameG s t [] ∧ SameV s t [] ∧ SameP s t [d] ∧
      SameControl s t ∧ SameThread s t ∧ SameMachine s t ∧ Passes s t 8 ∧ t.p 0 = BitVec.allOnes 64 ∧
      (d ≠ 0 → ∀ i, i < 64 → (t.p d).getLsbD i =
        if i < lanesOf tag then
          if s.active m i then
            p.2.2 (if m.u then (lane s tag a i).toNat else (lane s tag a i).toInt)
              (if m.u then (lane s tag b i).toNat else (lane s tag b i).toInt)
          else (s.p d).getLsbD i
        else false)) ∧
    (arithFloat tag = true ∨ floatTag tag = true ∧ (p.2.1 = .eq ∨ p.2.1 = .ne) → m.u = false →
      let r (i : Nat) : Bool × BitVec 5 :=
        (Fmt.of tag).cmp (s.rmodeOf m) p.2.1 (lane s tag a i).toNat (lane s tag b i).toNat
      ∃ t, exec (p.1 m d a b) s = .next t ∧ SameG s t [] ∧ SameV s t [] ∧ SameP s t [d] ∧ SameControlButFlags s t ∧
        SameThread s t ∧ SameMachine s t ∧ Passes s t 8 ∧
        t.ctx.ctl.fflags = s.ctx.ctl.fflags ||| (activeFlags s m tag fun i => (r i).2) ∧
        (d ≠ 0 → ∀ i, i < 64 → (t.p d).getLsbD i =
          if i < lanesOf tag then (if s.active m i then (r i).1 else (s.p d).getLsbD i) else false))

/-- R167, R170, R171: select, tags, moves, splats, extraction and insertion of a lane. A lane past the count is a lane
fault with the lane in TLANES. -/
def Sys2Proof.VectorMovesWriteTheirResult : Prop :=
  ∀ (m : VMod) (d a b : VIdx) (g : GReg) (c : PReg) (tag : BitVec 5) (n : BitVec 6) (s : State),
    (hasLanes tag = true → (s.v a).tag = tag → (s.v b).tag = tag → VReady s (merges m) d [a, b] →
      ∃ t x, exec (.vsel m d a b c) s = .next t ∧ WritesV s t d x 0 ∧
        LanesAre s m d x tag fun i => if (s.p c).getLsbD i then lane s tag a i else lane s tag b i) ∧
    (VReady s false d [a] →
      (∃ t, exec (.vmov d a) s = .next t ∧ WritesV s t d (s.v a) 0) ∧
      (∃ t, exec (.vtag tag d a) s = .next t ∧ WritesV s t d { s.v a with tag := tag } 0)) ∧
    (hasLanes tag = true → VReady s (merges m) d [] → s.hasG [g] = true →
      ∃ t x, exec (.vsplat m tag d g) s = .next t ∧ WritesV s t d x 0 ∧
        LanesAre s m d x tag fun _ => BitVec.ofNat _ ((s.g g).toNat % 2 ^ narrowBits tag)) ∧
    (hasLanes tag = true → (s.v a).tag = tag → VReady s false d [a] →
      (n.toNat < lanesOf tag → ∃ t, exec (.vext g a n) s = .next t ∧ WritesG s t g
        (if intTag tag then (lane s tag a n.toNat).signExtend 64 else BitVec.ofNat 64 ((lane s tag a n.toNat).toNat % 2 ^ narrowBits tag)) false 8) ∧
      (lanesOf tag ≤ n.toNat → s.ctx.ctl.mode = 0 → s.ctx.ctl.tdeleg.getLsbD 6 = true →
        ∃ t, exec (.vext g a n) s = .next t ∧ t.ctx.pc = s.ctx.ctl.thandler ∧ t.ctx.ctl.tcause = 6 ∧
          t.ctx.ctl.tepc = s.ctx.pc ∧ t.ctx.ctl.tlanes = BitVec.ofNat 64 (2 ^ n.toNat) ∧ t.ctx.ctl.mode = 1 ∧
          t.ctx.regs = s.ctx.regs ∧ SameMachine s t)) ∧
    (hasLanes tag = true → (s.v d).tag = tag → VReady s true d [] → s.hasG [g] = true → n.toNat < lanesOf tag →
      ∃ t x, exec (.vins d g n) s = .next t ∧ WritesV s t d x 0 ∧ x.tag = tag ∧ x.side = (s.v d).side ∧
        ∀ i, i < lanesOf tag → laneAt x (laneWidth tag) i =
          if i = n.toNat then (s.g g).toNat % 2 ^ laneWidth tag else (lane s tag d i).toNat)

/-- R168, R59, R67: `vcvt` converts each active lane of its source and fills the lanes past the source's with zero. -/
def Sys2Proof.ConversionsWriteTheirResult : Prop :=
  ∀ (m : VMod) (d a : VIdx) (src tag : BitVec 5) (s : State), hasLanes src = true → hasLanes tag = true →
    (s.v a).tag = src → VReady s (merges m) d [a] →
    let r (i : Nat) : Nat × BitVec 5 :=
      if i < lanesOf src then
        let x := (lane s src a i).toNat
        if intTag src then
          if intTag tag then (intToInt (s.rmodeOf m) (laneWidth src) (laneWidth tag) m.u x, 0)
          else (Fmt.of tag).ofInt (s.rmodeOf m) (if m.u then x else (lane s src a i).toInt)
        else if intTag tag then floatToInt (s.rmodeOf m) (laneWidth tag) m.u ((Fmt.of src).read (s.rmodeOf m) x)
        else Fmt.convertCode (Fmt.of src) (Fmt.of tag) (s.rmodeOf m) x
      else (0, 0)
    ∃ t x, exec (.vcvt m tag d a) s = .next t ∧ WritesV s t d x (activeFlags s m tag fun i => (r i).2) ∧
      LanesAre s m d x tag fun i => BitVec.ofNat _ (r i).1

/-- A block of a BFP register: its mantissas' codes and its exponent byte (R69). -/
def Sys2Proof.blockIs (x : VReg) (n b : Nat) (mants : Nat → Nat) (E : Nat) : Prop :=
  (∀ j, j < 32 → laneAt x n (32 * b + j) = mants j % 2 ^ n) ∧ blockExp x b = E % 256

/-- R169, R71, R72: the three moves between lanes and blocks. `vbfpn` writes one block and keeps or clears the others;
`vbfpx` gives sixteen elements as F32; `vbfpi` the mantissas as I8, the exponent byte in lane 32, then zeros. -/
def Sys2Proof.BlockFloatMovesWriteTheirResult : Prop :=
  ∀ (rnd : BitVec 3) (d a : VIdx) (n : BitVec 4) (b : BitVec 3) (s : State), 2 ≤ n.toNat → n.toNat ≤ 8 →
    b.toNat < 16 / n.toNat →
    (∀ (tag : BitVec 5) (srcs : List VIdx), bfpSources tag a = some srcs → (∀ r ∈ srcs, (s.v r).tag = tag) →
      VReady s true d (a :: srcs) →
      let md := RMode.of s.ctx.ctl.rmode rnd
      let e := toBfp md.rnd n.toNat (srcs.flatMap fun r => (lanesIn (s.v r) (laneWidth tag)).map ((Fmt.of tag).read md))
      ∃ t x, exec (.vbfpn rnd d a n b) s = .next t ∧ WritesV s t d x e.2.2 ∧ x.tag = bfpTagOf n.toNat ∧
        blockIs x n.toNat b.toNat (fun j => e.2.1.getD j 0) e.1 ∧
        ∀ c, c < 16 / n.toNat → c ≠ b.toNat →
          if (s.v d).tag = bfpTagOf n.toNat
            then blockIs x n.toNat c (fun j => laneAt (s.v d) n.toNat (32 * c + j)) (blockExp (s.v d) c)
            else blockIs x n.toNat c (fun _ => 0) 0) ∧
    ((s.v a).tag = bfpTagOf n.toNat → VReady s false d [a] →
      let mant (j : Nat) : Nat := laneAt (s.v a) n.toNat (32 * b.toNat + j)
      let E := blockExp (s.v a) b.toNat
      (∀ h : Bool,
        let r (i : Nat) : Nat × BitVec 5 :=
          bfpToF32 (s.ctx.ctl.rmode.getLsbD 4) n.toNat E (mant (i + if h then 16 else 0))
        ∃ t x, exec (.vbfpx d a b h) s = .next t ∧
          WritesV s t d x ((List.range 16).foldl (fun f i => f ||| (r i).2) 0) ∧ x.tag = 8 ∧
          ∀ i, i < 16 → laneAt x 32 i = (r i).1 % 2 ^ 32) ∧
      (∃ t x, exec (.vbfpi d a b) s = .next t ∧ WritesV s t d x 0 ∧ x.tag = 1 ∧ ∀ i, i < 64 → laneAt x 8 i =
        if i < 32 then ((BitVec.ofNat n.toNat (mant i)).signExtend 8).toNat else if i = 32 then E else 0)) ∧
    (∀ c : BitVec 3, 16 / n.toNat ≤ c.toNat → (s.v a).tag = bfpTagOf n.toNat → VReady s false d [a] → Delegated s 5 →
      ∃ t, exec (.vbfpx d a c false) s = .next t ∧ EntersHandler s t 5 (BitVec.ofNat 64 (bfpTagOf n.toNat).toNat))

/-- R59, R67, R71, R72, R167, R168, R169, R170, R171: the vector select, tags, moves, splats, lane extraction and
insertion, the conversions, and the moves of block-floating-point registers. -/
def Obligations.ConversionsAndMovesWriteTheirResult : Prop :=
  Sys2Proof.VectorMovesWriteTheirResult ∧
  Sys2Proof.ConversionsWriteTheirResult ∧
  Sys2Proof.BlockFloatMovesWriteTheirResult

/-- The source lane of lane i (R173). -/
def Sys2Proof.slideFrom (k : BitVec 17) (n i : Nat) : Option Nat :=
  if 0 ≤ (i : Int) - k.toInt ∧ (i : Int) - k.toInt < n then some ((i : Int) - k.toInt).toNat else none
def Sys2Proof.rotFrom (k : BitVec 17) (n i : Nat) : Option Nat := some (((i : Int) - k.toInt) % n).toNat

/-- R172, R173: each active lane takes its source lane, a source lane whose guard bit is clear faults with TLANES, or gives
zero with `.z`. -/
def Sys2Proof.CrossLaneFormsMoveLanes : Prop :=
  ∀ (m : VMod) (d a b : VIdx) (k : BitVec 17) (tag : BitVec 5) (s : State), hasLanes tag = true → (s.v a).tag = tag →
    ∀ p ∈ ([(.vperm m d a b, fun i => some (laneAt (s.v b) (laneWidth tag) i % lanesOf tag), [a, b]),
            (.vslide m d a k, slideFrom k (lanesOf tag), [a]), (.vrot m d a k, rotFrom k (lanesOf tag), [a])] :
          List (Instr × (Nat → Option Nat) × List VIdx)),
      VReady s (merges m) d p.2.2 → (b ∈ p.2.2 → b ≠ a → (s.v b).tag = intTagOf (laneWidth tag)) →
      (b = a → intTag tag = true) →
      let closed (j : Nat) : Prop := (s.p m.pg).getLsbD j = false
      let bad (j : Nat) : Prop := ∃ i, i < lanesOf tag ∧ s.active m i = true ∧ p.2.1 i = some j ∧ closed j
      ((m.u = true ∨ ∀ j, ¬ bad j) → ∃ t x, exec p.1 s = .next t ∧ WritesV s t d x 0 ∧
        LanesAre s m d x tag fun i => match p.2.1 i with
          | some j => if (s.p m.pg).getLsbD j then lane s tag a j else 0
          | none => 0) ∧
      (m.u = false → (∃ j, bad j) → s.ctx.ctl.mode = 0 → s.ctx.ctl.tdeleg.getLsbD 6 = true →
        ∃ t, exec p.1 s = .next t ∧ t.ctx.pc = s.ctx.ctl.thandler ∧ t.ctx.ctl.tcause = 6 ∧ t.ctx.ctl.tepc = s.ctx.pc ∧
          (∀ j, j < 64 → (t.ctx.ctl.tlanes.getLsbD j = true ↔ bad j)) ∧ t.ctx.regs = s.ctx.regs ∧ SameMachine s t)

/-- The reductions of R174 on integer lanes, with the identity. -/
structure Sys2Proof.RedForm where
  instr : VMod → VIdx → VIdx → Instr
  ident : (w : Nat) → Bool → BitVec w
  f : (w : Nat) → Bool → BitVec w → BitVec w → BitVec w
noncomputable def Sys2Proof.redForms : List RedForm := [
  ⟨.vredAdd, fun _ _ => 0, fun _ _ x y => x + y⟩, ⟨.vredAnd, fun w _ => BitVec.allOnes w, fun _ _ x y => x &&& y⟩,
  ⟨.vredOr, fun _ _ => 0, fun _ _ x y => x ||| y⟩, ⟨.vredXor, fun _ _ => 0, fun _ _ x y => x ^^^ y⟩,
  ⟨.vredMin, fun w u => if u then BitVec.allOnes w else BitVec.intMax w,
    fun _ u x y => if (if u then (x.toNat : Int) ≤ y.toNat else x.toInt ≤ y.toInt) then x else y⟩,
  ⟨.vredMax, fun w u => if u then 0 else BitVec.intMin w,
    fun _ u x y => if (if u then (x.toNat : Int) ≤ y.toNat else x.toInt ≤ y.toInt) then y else x⟩]
/-- The scans have the functions of the reductions. -/
noncomputable def Sys2Proof.scanForms : List RedForm := [
  ⟨.vscanAdd, fun _ _ => 0, fun _ _ x y => x + y⟩,
  ⟨.vscanMin, fun w u => if u then BitVec.allOnes w else BitVec.intMax w,
    fun _ u x y => if (if u then (x.toNat : Int) ≤ y.toNat else x.toInt ≤ y.toInt) then x else y⟩,
  ⟨.vscanMax, fun w u => if u then 0 else BitVec.intMin w,
    fun _ u x y => if (if u then (x.toNat : Int) ≤ y.toNat else x.toInt ≤ y.toInt) then y else x⟩]

/-- Floating-point lanes combined in lane order, each step rounded (R76): the value, and the flags of all steps. -/
def Sys2Proof.scanned (op : BinOp) (tag : BitVec 5) (md : RMode) (l : List Nat) : Nat × BitVec 5 :=
  match l with
  | [] => (redIdentity op tag false, 0)
  | x :: xs => xs.foldl (fun r y =>
      ((floatBin op (Fmt.of tag) md r.1 y).1, r.2 ||| (floatBin op (Fmt.of tag) md r.1 y).2)) (x, 0)

/-- R174, R75, R76: on integer lanes a reduction puts the combination of the active lanes into lane 0 and zeros above it,
and a scan puts into every lane that of the active lanes up to it; with none active it is the identity. On floating-point
lanes a reduction's order is the fixed tree's, and a scan's the lanes' own. The guard does not merge. -/
def Sys2Proof.ReductionsAndScansCombineLanes : Prop :=
  ∀ (m : VMod) (d a : VIdx) (tag : BitVec 5) (s : State), (s.v a).tag = tag → VReady s false d [a] →
    (intTag tag = true →
      let upTo (p : RedForm) (k : Nat) : BitVec (laneWidth tag) :=
        ((List.range k).filter fun i => s.active m i).foldl (fun x i => p.f (laneWidth tag) m.u x (lane s tag a i))
          (p.ident (laneWidth tag) m.u)
      (∀ p ∈ redForms, ∃ t x, exec (p.instr m d a) s = .next t ∧ WritesV s t d x 0 ∧ x.tag = tag ∧
        ∀ i, i < lanesOf tag → laneAt x (laneWidth tag) i = if i = 0 then (upTo p (lanesOf tag)).toNat else 0) ∧
      (∀ p ∈ scanForms, ∃ t x, exec (p.instr m d a) s = .next t ∧ WritesV s t d x 0 ∧ x.tag = tag ∧
        ∀ i, i < lanesOf tag → laneAt x (laneWidth tag) i = (upTo p (i + 1)).toNat)) ∧
    (arithFloat tag = true → m.u = false →
      ∀ p ∈ ([(.vredAdd, .add), (.vredMin, .min), (.vredMax, .max)] : List ((VMod → VIdx → VIdx → Instr) × BinOp)),
        let r := redTree (floatBin p.2 (Fmt.of tag) (s.rmodeOf m)) 6 ((List.range (lanesOf tag)).map fun i =>
          if s.active m i then some (lane s tag a i).toNat else none)
        ∃ t x, exec (p.1 m d a) s = .next t ∧ WritesV s t d x r.2 ∧ x.tag = tag ∧
          ∀ i, i < lanesOf tag → laneAt x (laneWidth tag) i =
            if i = 0 then (r.1.getD (redIdentity p.2 tag false)) % 2 ^ laneWidth tag else 0) ∧
    (arithFloat tag = true → m.u = false →
      let upTo (k : Nat) : List Nat := ((List.range k).filter fun i => s.active m i).map fun i => (lane s tag a i).toNat
      ∀ p ∈ ([(.vscanAdd, .add), (.vscanMin, .min), (.vscanMax, .max)] : List ((VMod → VIdx → VIdx → Instr) × BinOp)),
        let inOrder := scanned p.2 tag (s.rmodeOf m)
        ∃ t x, exec (p.1 m d a) s = .next t ∧ WritesV s t d x (inOrder (upTo (lanesOf tag))).2 ∧ x.tag = tag ∧
          ∀ i, i < lanesOf tag → laneAt x (laneWidth tag) i = (inOrder (upTo (i + 1))).1 % 2 ^ laneWidth tag)

/-- R175: the lanes named by a p-register, in ascending order, then zeros. -/
def Sys2Proof.CompressKeepsTheNamedLanes : Prop :=
  ∀ (d a : VIdx) (c : PReg) (tag : BitVec 5) (s : State), hasLanes tag = true → (s.v a).tag = tag → VReady s false d [a] →
    let kept := (List.range (lanesOf tag)).filter fun i => (s.p c).getLsbD i
    ∃ t x, exec (.vcompress d a c) s = .next t ∧ WritesV s t d x 0 ∧ x.tag = tag ∧ x.side = 0 ∧
      ∀ i, i < lanesOf tag → laneAt x (laneWidth tag) i = (kept[i]?).elim 0 fun j => (lane s tag a j).toNat

/-- R75, R76, R172, R173, R174, R175: the cross-lane moves, the compress, the reductions and the scans. -/
def Obligations.CrossLaneInstructionsWriteTheirResult : Prop :=
  Sys2Proof.CrossLaneFormsMoveLanes ∧
  Sys2Proof.CompressKeepsTheNamedLanes ∧
  Sys2Proof.ReductionsAndScansCombineLanes

/-- R176: the predicate instructions act on all 64 bits; p0 stays all ones. -/
def Sys2Proof.PredicateInstructionsWriteTheirResult : Prop :=
  ∀ (d a b : PReg) (g : GReg) (s : State),
    (∀ p ∈ ([(.pand d a b, s.p a &&& s.p b), (.por d a b, s.p a ||| s.p b), (.pxor d a b, s.p a ^^^ s.p b),
             (.pnot d a, ~~~s.p a)] : List (Instr × Word)),
      ∃ t, exec p.1 s = .next t ∧ (d ≠ 0 → t.p d = p.2) ∧ t.p 0 = BitVec.allOnes 64 ∧ SameG s t [] ∧ SameV s t [] ∧
        SameP s t [d] ∧ SameControl s t ∧ SameThread s t ∧ SameMachine s t ∧ Passes s t 8) ∧
    (s.hasG [g] = true → ∃ t, exec (.pset d g) s = .next t ∧ (d ≠ 0 → t.p d = s.g g) ∧ SameG s t [] ∧ SameV s t [] ∧
      SameP s t [d] ∧ SameControl s t ∧ SameThread s t ∧ SameMachine s t ∧ Passes s t 8) ∧
    (∃ t, exec (.pcnt g a) s = .next t ∧
      WritesG s t g (BitVec.ofNat 64 ((List.range 64).countP fun i => (s.p a).getLsbD i)) false 8) ∧
    (∃ t, exec (.pfirst g a) s = .next t ∧
      WritesG s t g (BitVec.ofNat 64 (((List.range 64).find? fun i => (s.p a).getLsbD i).getD 64)) false 8)

/-- R166, R176: the vector compares and the predicate instructions. -/
def Obligations.PredicatesAreWritten : Prop :=
  Sys2Proof.VectorComparesSetPredicates ∧ Sys2Proof.PredicateInstructionsWriteTheirResult

/-! ## Vector memory, streams, distribution tables (08_core_ops R177 to R186, 07_core R191, R192) -/

/-- n bytes from an address up lie one after the other in a local store of the super-group that is bound to the job, their
banks are free, no byte is poisoned, and no watchpoint is enabled (R117 to R119, R178, R200, R251). -/
def Sys2Proof.SpanHere (s : State) (a : Word) (n core off : Nat) : Prop :=
  (∀ i, i < n → targetOf s.myCore (a + BitVec.ofNat 64 i) = .ls core (off + i)) ∧ off + n ≤ s.lsSize core ∧
    s.boundTo core s.ctx.job = true ∧ near s.myCore core = true ∧
    (∀ i, i < n → (s.portsNow core).getLsbD (bankOf (off + i) (s.job s.ctx.job).bankKey) = false) ∧
    s.poisonIn (lsAddr core off) n = none ∧
    (s.ctx.skipWatch = true ∨ ∀ i : Fin 2, (s.cluster s.myCluster).dbg.wpc[i].getLsbD 0 = false)

/-- Bit j of the bytes from an address up. -/
def Sys2Proof.memBit (m : Memory) (at_ j : Nat) : Bool := (m.read (at_ + j / 8)).getLsbD (j % 8)

/-- The whole effect of a vector load of 8 bytes (R177). -/
def Sys2Proof.LoadsV (s t : State) (d : VIdx) (x : VReg) : Prop :=
  t.v d = x ∧ t.ctx.regs.vPres.getLsbD d.val = true ∧ SameV s t [d] ∧ SameG s t [] ∧ SameP s t [] ∧ SameControl s t ∧
    SameThread s t ∧ SameButCores s t ∧ Passes s t 8

/-- The address of a vector form (R36). -/
def Sys2Proof.vecAddr (s : State) (m : VMemArgs) : Word := s.g m.a + m.disp.signExtend 64

/-- R177, R61, R62, R70: a vector load from a local store in reach. Lane i takes its bits of the lane plane, a lane's
unused upper bits are zero, inactive lanes keep the destination's; a register without lanes is loaded whole; a BFP register
takes its mantissa plane and its exponent plane. -/
def Sys2Proof.VectorLoadsWriteTheirDestination : Prop :=
  ∀ (m : VMemArgs) (b : GReg) (tag : BitVec 5) (s : State) (core off : Nat), m.ord = .plain →
    VReady s (merges m.m) m.d [] → s.hasG [m.a] = true →
    (hasLanes tag = true → SpanHere s (vecAddr s m) (lanesOf tag * narrowBits tag / 8) core off →
      ∃ t x, exec (.vld m b tag) s = .next t ∧ LoadsV s t m.d x ∧ x.tag = tag ∧ x.side = 0 ∧
        ∀ i, i < lanesOf tag → if s.active m.m i = true
          then ∀ j, j < laneWidth tag → (laneAt x (laneWidth tag) i).testBit j =
            (decide (j < narrowBits tag) && memBit s.mem (lsAddr core off) (narrowBits tag * i + j))
          else laneAt x (laneWidth tag) i = laneAt (s.v m.d) (laneWidth tag) i) ∧
    (SpanHere s (vecAddr s m) 64 core off →
      ∃ t x, exec (.vld m b 0) s = .next t ∧ LoadsV s t m.d x ∧ x.tag = 0 ∧ x.side = 0 ∧
        ∀ j, j < 512 → x.bits.getLsbD j = memBit s.mem (lsAddr core off) j) ∧
    (∀ core' off', bfpTag tag = true → s.hasG [b] = true →
      SpanHere s (vecAddr s m) (bfpBytes (bfpN tag)) core off → SpanHere s (s.g b) (bfpBlocks (bfpN tag)) core' off' →
      ∃ t x, exec (.vld m b tag) s = .next t ∧ LoadsV s t m.d x ∧ x.tag = tag ∧
        (∀ j, j < 512 → x.bits.getLsbD j =
          (decide (j < 8 * bfpBytes (bfpN tag)) && memBit s.mem (lsAddr core off) j)) ∧
        (∀ j, j < 64 → x.side.getLsbD j =
          (decide (j < 8 * bfpBlocks (bfpN tag)) && memBit s.mem (lsAddr core' off') j)))

/-- R180: the widening load gives BFP8, from 64 E4M3 bytes by R71, or from two blocks of BFP4 exactly: each mantissa times
16 with its exponent byte. The result bears the tag 20, as R180 says. -/
def Sys2Proof.WideningLoadsWriteTheirDestination : Prop :=
  ∀ (m : VMemArgs) (b : GReg) (s : State) (core off : Nat), m.ord = .plain → VReady s false m.d [] →
    s.hasG [m.a] = true →
    (SpanHere s (vecAddr s m) 64 core off →
      let md := RMode.of s.ctx.ctl.rmode m.m.rnd
      let e (k : Nat) := toBfp md.rnd 8 ((List.range 32).map fun j => Fmt.e4m3.decode (s.mem.read (lsAddr core off + 32 * k + j)).toNat)
      ∃ t x, exec (.vldw m b 11) s = .next t ∧ t.v m.d = x ∧ x.tag = 20 ∧
        (∀ k, k < 2 → blockIs x 8 k (fun j => (e k).2.1.getD j 0) (e k).1) ∧
        t.ctx.ctl.fflags = s.ctx.ctl.fflags ||| (e 0).2.2 ||| (e 1).2.2 ∧ t.ctx.regs.vPres.getLsbD m.d.val = true ∧
        SameV s t [m.d] ∧ SameG s t [] ∧ SameP s t [] ∧ SameControlButFlags s t ∧ SameThread s t ∧ SameButCores s t ∧
        Passes s t 8) ∧
    (∀ core' off', s.hasG [b] = true → SpanHere s (vecAddr s m) 32 core off → SpanHere s (s.g b) 2 core' off' →
      ∃ t x, exec (.vldw m b 18) s = .next t ∧ LoadsV s t m.d x ∧ x.tag = 20 ∧
        ∀ k, k < 2 → blockIs x 8 k
          (fun j => (((BitVec.ofNat 4 (s.mem.readNat (lsAddr core off) 32 / 2 ^ (4 * (32 * k + j)))).signExtend 8) * 16).toNat)
          (s.mem.read (lsAddr core' off' + k)).toNat)

/-- R61, R62, R70, R177, R180: vector loads and their widening form. -/
def Obligations.VectorAndWideningLoads : Prop :=
  Sys2Proof.VectorLoadsWriteTheirDestination ∧ Sys2Proof.WideningLoadsWriteTheirDestination

/-- R177, R61, R62: a vector store into a local store in reach writes the bytes of its active lanes, of the whole register,
or of the two planes of a BFP register, and no others; it changes no register. A guard on a register that is stored whole is
a format fault with its tag in TVAL; that a B for a register that is not BFP is illegal is the model's reading of R36 (log 89). -/
def Obligations.VectorStoresWriteTheirBytes : Prop :=
  ∀ (m : VMemArgs) (b : GReg) (s : State) (core off : Nat), m.ord = .plain → VReady s false m.d [m.d] →
    s.hasG [m.a] = true → s.mem.wf = true → (s.core s.myCore).queue.length ≤ 64 →
    let tag := (s.v m.d).tag
    (b = 0 → hasLanes tag = true → (merges m.m = true → wholeTag tag = false) →
      SpanHere s (vecAddr s m) (lanesOf tag * narrowBits tag / 8) core off →
      ∃ t, exec (.vst m b) s = .next t ∧ SameRegisters s t ∧ Passes s t 8 ∧
        (∀ i, i < lanesOf tag → s.active m.m i = true → ∀ j, j < narrowBits tag →
          memBit t.mem (lsAddr core off) (narrowBits tag * i + j) = (laneAt (s.v m.d) (laneWidth tag) i).testBit j) ∧
        (∀ a, (∀ i j, i < lanesOf tag → s.active m.m i = true → j < narrowBits tag →
            a ≠ lsAddr core off + (narrowBits tag * i + j) / 8) → t.mem.read a = s.mem.read a)) ∧
    (b = 0 → tag = 0 → merges m.m = false → SpanHere s (vecAddr s m) 64 core off →
      ∃ t, exec (.vst m b) s = .next t ∧ SameRegisters s t ∧ Passes s t 8 ∧ SameBytesBut s t (lsAddr core off) 64 ∧
        ∀ j, j < 512 → memBit t.mem (lsAddr core off) j = (s.v m.d).bits.getLsbD j) ∧
    (∀ core' off', bfpTag tag = true → merges m.m = false → s.hasG [b] = true →
      let n := bfpBytes (bfpN tag)
      let k := bfpBlocks (bfpN tag)
      SpanHere s (vecAddr s m) n core off → SpanHere s (s.g b) k core' off' →
      (lsAddr core off + n ≤ lsAddr core' off' ∨ lsAddr core' off' + k ≤ lsAddr core off) →
      ∃ t, exec (.vst m b) s = .next t ∧ SameRegisters s t ∧ Passes s t 8 ∧
        (∀ j, j < 8 * n → memBit t.mem (lsAddr core off) j = (s.v m.d).bits.getLsbD j) ∧
        (∀ j, j < 8 * k → memBit t.mem (lsAddr core' off') j = (s.v m.d).side.getLsbD j) ∧
        ∀ a, (a < lsAddr core off ∨ lsAddr core off + n ≤ a) → (a < lsAddr core' off' ∨ lsAddr core' off' + k ≤ a) →
          t.mem.read a = s.mem.read a) ∧
    (merges m.m = true → wholeTag tag = true → s.hasG [b] = true → (bfpTag tag = false → b = 0) → Delegated s 5 →
      ∃ t, exec (.vst m b) s = .next t ∧ EntersHandler s t 5 (BitVec.ofNat 64 (tag.toNat * 2 ^ 24))) ∧
    (b ≠ 0 → bfpTag tag = false → Delegated s 1 →
      ∃ t, exec (.vst m b) s = .next t ∧ EntersHandler s t 1 s.word64)

/-- The address of the element of lane i (R181). -/
def Sys2Proof.elementAddr (s : State) (m : VMemArgs) (b : VIdx) (i : Nat) : Word :=
  s.g m.a + (lane s (s.v b).tag b i).signExtend 64 + m.disp.signExtend 64

/-- R181, R178, R179: a gather gives each active lane that has an index the bytes at its element's address, and lanes
without one zero; a scatter writes its active lanes' bytes at theirs, in rising lane order, and no others. The thread
leaves its position until the elements have completed. -/
def Sys2Proof.GatherAndScatterMoveElements : Prop :=
  ∀ (m : VMemArgs) (b : VIdx) (tag : BitVec 5) (s : State) (at_ : Nat → Nat × Nat), m.ord = .plain →
    s.hasG [m.a] = true → elementTag tag = true → intTag (s.v b).tag = true → s.ctx.inst = true →
    (s.core s.myCore).queue.length ≤ 64 →
    let w := laneWidth tag / 8
    let n := min (lanesOf tag) (lanesOf (s.v b).tag)
    (∀ i, i < n → s.active m.m i = true → SpanHere s (elementAddr s m b i) w (at_ i).1 (at_ i).2) →
    (VReady s (merges m.m) m.d [b] →
      ∃ t x, exec (.vgather m b tag) s = .next t ∧ LoadsV s t m.d x ∧ x.tag = tag ∧ x.side = 0 ∧
        (∀ i, i < lanesOf tag → laneAt x (laneWidth tag) i =
          if s.active m.m i = true then (if i < n then s.mem.readNat (lsAddr (at_ i).1 (at_ i).2) w else 0)
          else laneAt (s.v m.d) (laneWidth tag) i) ∧
        ∃ k, 1 ≤ k ∧ t.ctx.wait = .timed .timedMemory (s.cycle + k)) ∧
    ((s.v m.d).tag = tag → VReady s false m.d [m.d, b] →
      let cells : List Host.Cell := ((List.range n).filter fun i => s.active m.m i).flatMap fun i =>
        (List.range w).map fun j => (lsAddr (at_ i).1 (at_ i).2 + j, BitVec.ofNat 8 (laneAt (s.v m.d) (laneWidth tag) i / 2 ^ (8 * j)))
      ∃ t, exec (.vscatter m b) s = .next t ∧ SameRegisters s t ∧ Passes s t 8 ∧ t.mem = s.mem.writeCells cells ∧
        (∀ a, (∀ c ∈ cells, c.1 ≠ a) → t.mem.read a = s.mem.read a) ∧
        ∃ k, 1 ≤ k ∧ t.ctx.wait = .timed .timedMemory (s.cycle + k))

/-- R182, R183, R186: `sbind` binds the stream that the 48 bytes of its descriptor describe, at its first unit, and a read
stream starts to fetch; `sunbind` unbinds; an `sunbind` or a rebind of a stream whose pushed units have not performed waits:
to the time of those sent as messages, else until the queue moves. -/
def Sys2Proof.StreamsAreBoundAndUnbound : Prop :=
  ∀ (k : Fin 4) (a : GReg) (z write : Bool) (disp : BitVec 32) (s : State) (core off : Nat) (st : Stream),
    (s.hasG [a] = true → ReachesLocal s (s.g a + disp.signExtend 64) 48 true false core off →
      s.poisonIn (lsAddr core off) 48 = none →
      streamOf write z (s.mem.readBytes (lsAddr core off) 48) = some st → s.pushing k = false →
      ∃ t, exec (if write then .sbindWrite k a z disp else .sbindRead k a z disp) s = .next t ∧
        t.ctx.streams[k] = some st ∧ (∀ j : Fin 4, j ≠ k → t.ctx.streams[j] = s.ctx.streams[j]) ∧
        (write = false → (s.cycle + 1, Instr.streamFill s.cur k) ∈ t.agenda) ∧ t.mem = s.mem ∧ SameG s t [] ∧ SameV s t [] ∧
        SameP s t [] ∧ SameControl s t ∧ Passes s t 12) ∧
    (s.pushing k = false → ∃ t, exec (.sunbind k) s = .next t ∧ t.ctx.streams[k] = none ∧
      (∀ j : Fin 4, j ≠ k → t.ctx.streams[j] = s.ctx.streams[j]) ∧ SameG s t [] ∧ SameV s t [] ∧ SameP s t [] ∧
      SameControl s t ∧ SameMachine s t ∧ Passes s t 8) ∧
    (s.ctx.streams[k] = some st → s.pushing k = true →
      let wait : Wait := if s.cycle < st.sent then .timed .stream st.sent else .away .stream
      (∃ t, exec (.sunbind k) s = .next t ∧ t.ctx.wait = wait ∧ t.ctx.streams = s.ctx.streams ∧ SameRegisters s t ∧
        t.ctx.latch = s.ctx.latch ∧ SameMachine s t) ∧
      (s.hasG [a] = true → ReachesLocal s (s.g a + disp.signExtend 64) 48 true false core off →
        s.poisonIn (lsAddr core off) 48 = none → (streamOf write z (s.mem.readBytes (lsAddr core off) 48)).isSome →
        ∃ t, exec (if write then .sbindWrite k a z disp else .sbindRead k a z disp) s = .next t ∧ t.ctx.wait = wait ∧
          t.ctx.streams = s.ctx.streams ∧ SameRegisters s t ∧ t.ctx.latch = s.ctx.latch ∧ SameButCores s t))

/-- R184, R185: a source over a read stream is its next unit, and the stream moves on; a result over a write stream is
pushed, and performs as a store of 64 bytes at the unit's address; the next unit of a read stream is the 64 bytes at its
address. -/
def Sys2Proof.StreamsAreReadAndWritten : Prop :=
  ∀ (k : Fin 4) (r d : VIdx) (st : Stream) (x : Line) (rest : List StreamUnit) (s : State) (core off : Nat),
    r.val = 28 + k.val → d.val < 28 → s.ctx.streams[k] = some st →
    (st.write = false → st.next < st.units → st.buf = .data x :: rest →
      ∃ t, exec (.vmov d r) s = .next t ∧ t.v d = { bits := x, tag := st.tag, side := 0 } ∧
        t.ctx.streams[k] = some { st with next := st.next + 1, buf := rest } ∧
        (s.cycle + 1, Instr.streamFill s.cur k) ∈ t.agenda ∧ SameV s t [d] ∧ SameG s t [] ∧ SameP s t [] ∧
        SameControl s t ∧ t.mem = s.mem ∧ Passes s t 8) ∧
    (st.write = true → st.next < st.units → st.buf.length < 4 → s.ctx.regs.vPres.getLsbD d.val = true →
      (st.tag = 0 ∨ (s.v d).tag = st.tag) → SpanHere s (st.addr st.next) 64 core off →
      ∃ t, exec (.vmov r d) s = .next t ∧
        t.ctx.streams[k] = some { st with next := st.next + 1, buf := st.buf ++ [.data (s.v d).bits] } ∧
        (s.cycle + 1, Instr.streamPushPerform s.cur k) ∈ t.agenda ∧ SameV s t [] ∧ SameG s t [] ∧ SameP s t [] ∧
        SameControl s t ∧ t.mem = s.mem ∧ Passes s t 8) ∧
    (st.write = true → st.buf = .data x :: rest → st.sent ≤ s.cycle → s.ctx.inst = true → s.mem.wf = true →
      (s.core s.myCore).queue = [] → SpanHere s (st.addr (st.next - st.buf.length)) 64 core off →
      ∃ t, exec (.streamPushPerform s.cur k) s = .next t ∧ t.mem.readNat (lsAddr core off) 64 = x.toNat ∧
        SameBytesBut s t (lsAddr core off) 64 ∧ t.ctx.streams[k] = some { st with buf := rest, ids := [] } ∧ SameG s t [] ∧
        SameV s t [] ∧ SameControl s t) ∧
    (st.write = false → st.buf = [] → st.units = st.next + 1 → s.ctx.inst = true →
      s.behindPush [(st.addr st.next, 64)] = false → s.storeComing s.cur core = false →
      SpanHere s (st.addr st.next) 64 core off →
      ∃ t n, exec (.streamFill s.cur k) s = .next t ∧ (n, Instr.streamFill s.cur k) ∈ t.agenda ∧
        (t.ctx.streams[k]).map (·.buf) = some [.comes (BitVec.ofNat 512 (s.mem.readNat (lsAddr core off) 64)) n] ∧
        s.cycle ≤ n ∧ t.mem = s.mem ∧ SameG s t [] ∧ SameV s t [] ∧ SameControl s t) ∧
    (∀ n, st.write = false → st.buf = [.comes x n] → n ≤ s.cycle → st.units = st.next + 1 → s.ctx.inst = true →
      ∃ t, exec (.streamFill s.cur k) s = .next t ∧ (t.ctx.streams[k]).map (·.buf) = some [.data x] ∧
        (s.ctx.wait = .away .stream → t.ctx.wait = .ready s.cycle) ∧ t.mem = s.mem ∧ SameG s t [] ∧ SameV s t [] ∧
        SameControl s t)

/-- R182, R183, R184, R185, R186: streams are bound, read, written and unbound. -/
def Obligations.StreamsFeedAndDrain : Prop :=
  Sys2Proof.StreamsAreBoundAndUnbound ∧ Sys2Proof.StreamsAreReadAndWritten

/-- R191, R192: `dtset` defines a table from its descriptor's 16 bytes; an element's address is in the core that holds its
block, at its offset. An element beyond the machine's cores is an address fault. -/
def Sys2Proof.DistributionTablesGiveAddresses : Prop :=
  ∀ (t4 : BitVec 4) (d a : GReg) (vd va : VIdx) (tb : DistTable) (s : State),
    (∀ core off, s.hasG [a] = true → ReachesLocal s (s.g a) 16 true false core off → s.poisonIn (lsAddr core off) 16 = none →
      tableOf (s.mem.readBytes (lsAddr core off) 16) = some tb →
      ∃ t, exec (.dtset a t4) s = .next t ∧ (t.core s.myCore).tables.toList[t4.toNat]? = some (some tb) ∧
        t.mem = s.mem ∧ SameRegisters s t ∧ SameButCores s t ∧ Passes s t 8) ∧
    ((s.core s.myCore).tables.toList[t4.toNat]? = some (some tb) →
      let blk (x : Nat) : Nat := x / 2 ^ tb.b
      let core (x : Nat) : Int := tb.first + (blk x % tb.count : Nat) * tb.stride.toInt
      let addr (x : Nat) : Word := BitVec.ofNat 64 (0xFF00000000000000 + (core x).toNat * 2 ^ 19 +
        (tb.base.toNat + (blk x / tb.count * 2 ^ tb.b + x % 2 ^ tb.b) * 2 ^ tb.e))
      let inside (x : Nat) : Prop := 0 ≤ core x ∧ core x ≤ 4095
      (s.hasG [a] = true → inside (s.g a).toNat →
        ∃ t, exec (.gaddrScalar d a t4) s = .next t ∧ WritesG s t d (addr (s.g a).toNat) (s.taint a) 8) ∧
      (s.hasG [a] = true → ¬ inside (s.g a).toNat → Delegated s 10 →
        ∃ t, exec (.gaddrScalar d a t4) s = .next t ∧ EntersHandler s t 10 (s.g a)) ∧
      ((s.v va).tag = 4 → VReady s false vd [va] → (∀ i, i < 8 → inside (laneAt (s.v va) 64 i)) →
        ∃ t x, exec (.gaddrVector vd va t4) s = .next t ∧ WritesV s t vd x 0 ∧ x.tag = 4 ∧
          ∀ i, i < 8 → laneAt x 64 i = (addr (laneAt (s.v va) 64 i)).toNat))

/-- R178, R179, R181, R191, R192: gathers, scatters and distribution tables. -/
def Obligations.GatherScatterAndDistribution : Prop :=
  Sys2Proof.GatherAndScatterMoveElements ∧ Sys2Proof.DistributionTablesGiveAddresses

/-! ## The matrix unit (09_cluster R205 to R210, 10_cluster_ops R222 to R229) -/

/-- A sparse table's numbers rise (the form of every table that a run reaches). -/
def Sys2Proof.Rising {α : Type} (t : Table α) : Prop := (t.map (·.1)).Pairwise (· < ·)

/-- The matrix queue of the current thread's core. -/
def Sys2Proof.coreQueue (s : State) : List MatrixOp := (s.cluster s.myCluster).queues.toList.getD (s.myCore % 8) []

/-- An operation enters the queue of the thread's core, the arbiter looks two cycles later, and the thread goes on. -/
def Sys2Proof.Enqueued (s t : State) (o : MatrixOp) (n : Nat) : Prop :=
  coreQueue t = coreQueue s ++ [o] ∧ (s.cycle + 2, Instr.matrixStart s.myCluster) ∈ t.agenda ∧ t.mem = s.mem ∧
    SameV s t [] ∧ SameP s t [] ∧ SameControl s t ∧ SameThread s t ∧ Passes s t n

/-- R206, R209, R222 to R225, R228: `mma` on tiles in the cluster's local stores captures its operands and queues, with a
job identifier in its register where it asks for one; `aczero` queues a clear; both wait while the queue is full. A tile
outside the cluster is an address fault. -/
def Sys2Proof.MatrixOperationsAreQueued : Prop :=
  ∀ (m : MmaArgs) (acc : BitVec 5) (a : GReg) (s : State),
    (∀ ka oa kb ob, s.hasG [m.a, m.b, m.c] = true → targetOf s.myCore (s.g m.a) = .ls ka oa →
      targetOf s.myCore (s.g m.b) = .ls kb ob → clusterOf ka = s.myCluster → clusterOf kb = s.myCluster →
      s.boundTo ka s.ctx.job = true → s.boundTo kb s.ctx.job = true → oa % 32 = 0 → ob % 4 = 0 →
      oa + 96 * m.mm.toNat ≤ s.lsSize ka → ob + 12 * m.mm.toNat ≤ s.lsSize kb → (s.g m.c).toNat ≤ 575 →
      let op (jid : Option Nat) : MatrixOp :=
        { acc := m.acc.toNat, clear := m.clear, n := m.n.toNat, k := m.kk.toNat, cols := m.nn.toNat, rows := m.mm.toNat,
          ver := m.ver, aMant := lsAddr ka oa, aExp := lsAddr kb ob, row := (s.g m.c).toNat, jid := jid, thread := s.cur,
          at_ := s.cycle + 2 }
      ((coreQueue s).length < 16 → m.job = false →
        ∃ t, exec (.mma m) s = .next t ∧ Enqueued s t (op none) 16 ∧ SameG s t []) ∧
      ((coreQueue s).length < 16 → m.job = true → (s.freeJob s.myCluster).isSome →
        ∃ t jid e, exec (.mma m) s = .next t ∧ Enqueued s t (op (some jid)) 16 ∧ SameG s t [m.j] ∧
          HoldsG t m.j (BitVec.ofNat 64 jid) (s.taint m.a || s.taint m.b || s.taint m.c) ∧ t.jobOf s.myCluster jid = some e ∧ e.state = 0 ∧ e.thread = s.cur) ∧
      (16 ≤ (coreQueue s).length → ∃ t, exec (.mma m) s = .next t ∧
        t = { s with ctx := { s.ctx with wait := .away .matrixQueue, cls := 0 } })) ∧
    (∀ ka oa kb ob, s.hasG [m.a, m.b, m.c] = true → targetOf s.myCore (s.g m.a) = .ls ka oa →
      targetOf s.myCore (s.g m.b) = .ls kb ob → clusterOf ka ≠ s.myCluster → Delegated s 10 →
      ∃ t, exec (.mma m) s = .next t ∧ EntersHandler s t 10 (s.g m.a)) ∧
    (s.hasG [a] = true → (coreQueue s).length < 16 →
      ∃ t, exec (.aczero acc a) s = .next t ∧ SameG s t [] ∧
        Enqueued s t { acc := acc.toNat, clear := true, n := 2, k := 0, cols := 64, rows := 8, ver := (s.g a).setWidth 16,
                       aMant := 0, aExp := 0, row := noRow, jid := none, thread := s.cur, at_ := s.cycle + 2 } 8)

/-- R206, R210: where the array is free, the head of the one queue with an eligible operation starts: it leaves the queue,
its A tile is read, and it completes n + 2 cycles later. R207, R224: the completion replaces the elements of the corner
and adds one to the version; other accumulators stay. -/
def Sys2Proof.MatrixOperationsRun : Prop :=
  ∀ (c : Nat) (s : State),
    (∀ (j : Fin 8) (o : MatrixOp) (rest : List MatrixOp), (s.cluster c).dbg.halted = false →
      (∀ r ∈ (s.cluster c).running, r.start + r.op.n ≤ s.cycle) → (s.cluster c).queues[j] = o :: rest →
      s.eligible c o = true → 0 < (s.cluster c).credit[j] → (∀ i : Fin 8, i ≠ j → (s.cluster c).queues[i] = []) →
      ∃ t r, exec (.matrixStart c) s = .next t ∧ (t.cluster c).queues[j] = rest ∧ r ∈ (t.cluster c).running ∧ r.op = o ∧
        r.start = s.cycle ∧ r.mant = s.mem.readBytes o.aMant (96 * o.rows) ∧
        r.exp = s.mem.readBytes o.aExp (12 * o.rows) ∧ (s.cycle + (2 + o.n), Instr.matrixComplete c) ∈ t.agenda ∧
        t.mem = s.mem) ∧
    (∀ (r : MatrixRun), (s.cluster c).running = [r] → r.start + 2 + r.op.n ≤ s.cycle → r.op.jid = none →
      r.op.rows ≤ 8 → r.op.cols ≤ 64 → Rising ((s.cluster c).acc r.op.acc).data →
      ∃ t, exec (.matrixComplete c) s = .next t ∧ (t.cluster c).running = [] ∧ t.mem = s.mem ∧
        ((t.cluster c).acc r.op.acc).version = ((s.cluster c).acc r.op.acc).version + 1 ∧
        (r.op.clear = true ∨ r.op.k ≠ 0 → ∀ i j, i < r.op.rows → j < r.op.cols →
          Table.getD ((t.cluster c).acc r.op.acc).data (i * 64 + j) 0 = BitVec.ofNat 32
            (s.element c r i j (Table.getD ((s.cluster c).acc r.op.acc).data (i * 64 + j) 0).toNat)) ∧
        (∀ a, a ≠ r.op.acc → (t.cluster c).acc a = (s.cluster c).acc a))

/-- R206, R209, R210, R222 to R225, R228: matrix operations enter their queue, and the array runs them. -/
def Obligations.MatrixOperationsAreQueuedAndRun : Prop :=
  Sys2Proof.MatrixOperationsAreQueued ∧ Sys2Proof.MatrixOperationsRun

/-- R205, R226, R227, R229: an accumulator that is readable at the version gives a quarter of a row as F32 lanes, or its
rows as stored bytes: `acst` reads them, and 5 cycles later its beats of 64 bytes go one after the other to the local store,
where they are visible with the last one (the beats' use of the ports is the model's reading, log 72); `acver` gives the version; a version that has not been reached makes the thread wait, and a poisoned
accumulator is a data-lost fault. -/
def Obligations.AccumulatorsAreRead : Prop :=
  ∀ (d : VIdx) (g a b c : GReg) (acc : BitVec 5) (row : BitVec 3) (cg : BitVec 2) (tag : BitVec 5) (pitch : BitVec 16)
    (s : State),
    let x := (s.cluster s.myCluster).acc acc.toNat
    (∃ t, exec (.acver g acc) s = .next t ∧ WritesG s t g (x.version.setWidth 64) false 8) ∧
    (s.hasG [a] = true → s.accReadable acc.toNat (s.g a) = true → x.poison = false → VReady s false d [] →
      ∃ t y, exec (.acrd d a acc row cg) s = .next t ∧ WritesV s t d y 0 ∧ y.tag = 8 ∧
        ∀ i, i < 16 → laneAt y 32 i = (Table.getD x.data (row.toNat * 64 + 16 * cg.toNat + i) 0).toNat) ∧
    (s.hasG [a] = true → noStreams s → s.accReadable acc.toNat (s.g a) = false →
      ∃ t, exec (.acrd d a acc row cg) s = .next t ∧ t = { s with ctx := { s.ctx with wait := .away .accumulator, cls := 0 } }) ∧
    (s.hasG [a] = true → noStreams s → s.accReadable acc.toNat (s.g a) = true → x.poison = true → Delegated s 12 →
      ∃ t, exec (.acrd d a acc row cg) s = .next t ∧ EntersHandler s t 12 0) ∧
    (∀ k oa oc, s.hasG [a, b, c] = true → s.ctx.asked = [] → s.checkAcst (s.g a) (s.g c) tag pitch.toNat = .ok (k, oa, oc) →
      s.accReadable acc.toNat (s.g b) = true → x.poison = false →
      let rows := (List.range 8).map fun r =>
        accRow (RMode.of s.ctx.ctl.rmode 0) tag ((List.range 64).map fun j => (Table.getD x.data (64 * r + j) 0).toNat)
      let bytes := rows.flatMap fun w => w.1 ++ w.2.1
      ∃ t, exec (.acst acc a b c tag pitch) s = .next t ∧ t.ctx.asked = [acstMark, 0, k, oa, oc] ∧
        (t.ctx.gather.flatMap fun g => bytesOfLine g.data).take bytes.length = bytes ∧
        t.ctx.wait = .timed .timedMemory (s.cycle + 5) ∧ t.ctx.latch = s.ctx.latch ∧ t.ctx.pc = s.ctx.pc ∧
        t.ctx.ctl.fflags = s.ctx.ctl.fflags ||| rows.foldl (fun f w => f ||| w.2.2) 0 ∧ SameG s t [] ∧ SameV s t [] ∧
        SameP s t [] ∧ SameControlButFlags s t ∧ SameMachine s t) ∧
    (∀ n k oa oc, s.ctx.asked = [acstMark, n, k, oa, oc] →
      let places := acstPlaces k oa oc tag pitch.toNat
      let beat := (places.drop (64 * n)).take 64
      let cells := places.zip (s.ctx.gather.flatMap fun g => bytesOfLine g.data)
      ((s.beatPorts (s.cellRows s.ctx.job beat)).isSome → places.length ≤ 64 * (n + 1) →
        ∃ t, exec (.acst acc a b c tag pitch) s = .next t ∧ t.mem = s.mem.writeCells cells ∧
          (∀ p, (∀ q ∈ cells, q.1 ≠ p) → t.mem.read p = s.mem.read p) ∧ SameRegisters s t ∧ Passes s t 12) ∧
      (64 * (n + 1) < places.length → ∃ t, exec (.acst acc a b c tag pitch) s = .next t ∧
        t.ctx.asked = [acstMark, if (s.beatPorts (s.cellRows s.ctx.job beat)).isSome then n + 1 else n, k, oa, oc] ∧
        t.ctx.wait = .timed .timedMemory (s.cycle + 1) ∧ t.ctx.gather = s.ctx.gather ∧ t.ctx.latch = s.ctx.latch ∧
        SameRegisters s t ∧ SameButCores s t))

/-! ## The copy unit (09_cluster R212 to R221, 10_cluster_ops R230 to R245) -/

/-- A command is at the end of its channel's queue, with a new job-table entry whose identifier stands in the register. -/
def Sys2Proof.Submitted (s t : State) (d : GReg) (x : CopyCmd) (taint : Bool) (n : Nat) : Prop :=
  HoldsG t d (BitVec.ofNat 64 x.jid) taint ∧ (∃ e, t.jobOf s.myCluster x.jid = some e ∧ e.thread = s.cur ∧ e.state = 0) ∧
    (t.channel s.myCluster x.channel).queue = (s.channel s.myCluster x.channel).queue ++ [x] ∧
    (s.cycle + 1, Instr.copyBeat s.myCluster x.channel) ∈ t.agenda ∧ x.core = s.myCore ∧ x.thread = s.cur ∧
    t.mem = s.mem ∧ SameG s t [d] ∧ SameV s t [] ∧ SameP s t [] ∧ SameControl s t ∧ Passes s t n

/-- R213, R214, R230, R231, R244: `cpy` with its descriptor in a local store of the cluster that it can read, `btwalk` and `btapp` submit
their command with the addresses resolved; a full channel queue makes the thread wait. `cpyres` submits the remainder of a
faulted command, and gives all ones where its record names none. -/
def Obligations.CopyCommandsAreSubmitted : Prop :=
  ∀ (d a b c : GReg) (m : CpyArgs) (w : WalkArgs) (pos : BitVec 32) (ch : BitVec 4) (s : State), noStreams s →
    (s.freeJob s.myCluster).isSome →
    let at_ (r : GReg) : Word := resolve s.myCore (s.g r)
    let taint := s.taint a || s.taint b || s.taint c
    (∀ k off, s.hasG [a, b, c] = true → s.clusterSpan (s.g a) 32 8 = .ok (k, off) →
      ReachesLocal s (s.g a) 32 true false k off → s.poisonIn (lsAddr k off) 32 = none →
      ((s.channel s.myCluster m.ch.toNat).queue.length < 8 →
        ∃ t x, exec (.cpy d a b c m) s = .next t ∧ Submitted s t d x taint 16 ∧ x.kind = 1 ∧ x.conv = m.conv.toNat ∧
          x.channel = m.ch.toNat ∧ x.shadow = m.shadow ∧ x.remote = m.remote ∧ x.a = at_ a ∧ x.b = at_ b ∧ x.c = at_ c ∧
          x.desc = BitVec.ofNat 256 (s.mem.readNat (lsAddr k off) 32)) ∧
      (8 ≤ (s.channel s.myCluster m.ch.toNat).queue.length → ∃ t, exec (.cpy d a b c m) s = .next t ∧
        t.ctx.wait = .away .channelQueue ∧ t.ctx.latch = s.ctx.latch ∧ t.ctx.pc = s.ctx.pc ∧ SameRegisters s t ∧
        SameButCores s t)) ∧
    (s.hasG [a, b, c] = true → (s.channel s.myCluster w.ch.toNat).queue.length < 8 →
      ∃ t x, exec (.btwalk d a b c w) s = .next t ∧ Submitted s t d x taint 16 ∧ x.kind = 2 ∧ x.channel = w.ch.toNat ∧
        x.a = at_ a ∧ x.b = at_ b ∧ x.c = at_ c) ∧
    (s.hasG [a, b, c] = true → (s.channel s.myCluster ch.toNat).queue.length < 8 →
      ∃ t x, exec (.btapp d a b c pos ch) s = .next t ∧ Submitted s t d x taint 16 ∧ x.kind = 3 ∧ x.channel = ch.toNat ∧
        x.a = at_ a ∧ x.b = at_ b ∧ x.c = at_ c) ∧
    (∀ k off, s.hasG [a] = true → s.clusterSpan (s.g a) 64 8 = .ok (k, off) →
      ReachesLocal s (s.g a) 64 true false k off → s.poisonIn (lsAddr k off) 64 = none →
      let jid := s.mem.readNat (lsAddr k off + 18) 2
      (∀ e x, s.jobOf s.myCluster jid = some e → e.state = 3 → e.cmd = some x →
        (s.channel s.myCluster x.channel).queue.length < 8 →
        ∃ t y, exec (.cpyres d a) s = .next t ∧ Submitted s t d y false 8 ∧ y.kind = x.kind ∧ y.ext = x.ext ∧ y.a = x.a ∧
          y.b = x.b ∧ y.c = x.c ∧ y.desc = x.desc ∧ y.resume = x.resume) ∧
      (s.jobOf s.myCluster jid = none →
        ∃ t, exec (.cpyres d a) s = .next t ∧ HoldsG t d (BitVec.ofNat 64 (2 ^ 64 - 1)) false ∧ SameG s t [d] ∧ SameV s t [] ∧
          SameP s t [] ∧ SameControl s t ∧ SameThread s t ∧ SameButCores s t ∧ Passes s t 8))

/-- R214, R239 to R242: `jpoll` gives the status, 2 for a command that has ended well, and frees the entry of one that
has not; `jwait` goes on when the command has ended, `cwait` when the channel's write pointer has come so far; else the
thread waits. That the bytes of a command that has ended well stay to be read until its entry is taken again is the model's
reading (log 110). -/
def Obligations.CommandsAreObserved : Prop :=
  ∀ (d a : GReg) (ch : BitVec 4) (s : State), s.hasG [a] = true →
    ((s.g a).toNat < 65536 →
      (s.jobOf s.myCluster (s.g a).toNat = none →
        (let e := Table.getD (s.cluster s.myCluster).jobs ((s.g a).toNat % 64) JobEntry.reset
         ∃ t, exec (.jpoll d a) s = .next t ∧ WritesG s t d
           (if e.gen.toNat = (s.g a).toNat / 64 % 1024 then BitVec.ofNat 64 (2 + e.bytes.toNat * 2 ^ 32) else 2) false 8) ∧
        (∃ t, exec (.jwait a) s = .next t ∧ WritesNothing s t 8)) ∧
      (∀ e, s.jobOf s.myCluster (s.g a).toNat = some e →
        (∃ t v, exec (.jpoll d a) s = .next t ∧ HoldsG t d v false ∧ v.setWidth 3 = e.state ∧
          v.extractLsb' 32 32 = e.bytes ∧ (3 ≤ e.state → t.jobOf s.myCluster (s.g a).toNat = none) ∧ SameG s t [d] ∧
          SameV s t [] ∧ SameP s t [] ∧ SameControl s t ∧ t.mem = s.mem ∧ Passes s t 8) ∧
        (2 ≤ e.state → ∃ t, exec (.jwait a) s = .next t ∧ SameG s t [] ∧ SameV s t [] ∧ SameP s t [] ∧ SameControl s t ∧
          t.mem = s.mem ∧ Passes s t 8) ∧
        (e.state < 2 → ∃ t, exec (.jwait a) s = .next t ∧
          t = { s with ctx := { s.ctx with wait := .away .jobWait, cls := 0 } }))) ∧
    (65536 ≤ (s.g a).toNat → Delegated s 10 → ∃ t, exec (.jpoll d a) s = .next t ∧ EntersHandler s t 10 (s.g a)) ∧
    ((s.g a).toNat ≤ (s.channel s.myCluster ch.toNat).chwp.toNat →
      ∃ t, exec (.cwait a ch) s = .next t ∧ WritesNothing s t 8) ∧
    ((s.channel s.myCluster ch.toNat).chwp.toNat < (s.g a).toNat →
      ∃ t, exec (.cwait a ch) s = .next t ∧ t = { s with ctx := { s.ctx with wait := .away .counterWait, cls := 0 } })

/-- R212, R213, R216, R231: a beat of a plain copy between local stores moves the bytes up to the end of the span or of a
line of its source or destination, where no thread has taken their banks' ports, and the command's place moves on; nothing
else of memory changes. -/
def Sys2Proof.CopyBeatsMoveBytes : Prop :=
  ∀ (c : Nat) (ch : Fin 16) (r : CopyRun) (src : Word) (n ks os kd od : Nat) (sp : Span) (s : State),
    Debug.copyHalted (s.cluster c).dbg s.cycle = false → (s.cluster c).copyAt ≠ s.cycle →
    (∀ x ∈ s.agenda, ∀ j, x = (x.1, Instr.copyBeat c j) → x.1 ≤ s.cycle → j = ch.val) →
    (s.channel c ch.val).run = some r → r.cmd.kind = 1 → r.cmd.conv = 0 → r.cmd.remote = false → clusterOf r.cmd.core = c →
    r.cmd.channel = ch.val → r.fault = none → r.lost = [] → r.stop = false → r.snap = none → r.got = [] → r.pend = [] →
    r.cmd.spans[r.pos]? = some sp →
    sp.src = .bytes src n → r.off < n → s.mem.wf = true →
    let from_ := src + BitVec.ofNat 64 r.off
    let to_ := sp.dst + BitVec.ofNat 64 r.off
    let m := min (n - r.off) (min (64 - from_.toNat % 64) (64 - to_.toNat % 64))
    s.copyCheck r.cmd false from_ m = none → s.copyCheck r.cmd true to_ m = none →
    (∀ i, i < m → targetOf r.cmd.core (from_ + BitVec.ofNat 64 i) = .ls ks (os + i)) →
    (∀ i, i < m → targetOf r.cmd.core (to_ + BitVec.ofNat 64 i) = .ls kd (od + i)) → s.poisonIn (lsAddr ks os) m = none →
    let rows (a : Nat) : List (Nat × Nat) := s.cellRows r.cmd.job ((List.range m).map (a + ·))
    ((s.beatPorts (rows (lsAddr ks os))).any fun u => (u.beatPorts (rows (lsAddr kd od))).isSome) = true →
    ∃ t, exec (.copyBeat c ch.val) s = .next t ∧ t.mem.readNat (lsAddr kd od) m = s.mem.readNat (lsAddr ks os) m ∧
      SameBytesBut s t (lsAddr kd od) m ∧ t.ctx.regs = s.ctx.regs ∧
      ((t.channel c ch.val).run).map (fun x => (x.pos, x.off)) =
        some (if r.off + m < sp.len then (r.pos, r.off + m) else (r.pos + 1, 0))

/-- R213 to R215, R234, R243, R89, R111: a command whose last byte has performed frees its channel and its entry; a faulted
one leaves its record in the submitter's local store, its status is fault, and the submitter gets the signal and its
wake-pending bit. -/
def Sys2Proof.CopyCommandsEnd : Prop :=
  (∀ (c : Nat) (ch : Fin 16) (r : CopyRun) (e : JobEntry) (s : State), (s.channel c ch.val).run = some r →
    r.cmd.channel = ch.val → clusterOf r.cmd.core = c → s.jobOf c r.cmd.jid = some e →
    (r.unacked = 0 → r.isOver = true → r.cmd.remote = false → Debug.copyHalted (s.cluster c).dbg s.cycle = false →
      ∃ t, exec (.copyCommandDone c ch.val) s = .next t ∧ (t.channel c ch.val).run = none ∧
        t.jobOf c r.cmd.jid = none ∧ t.mem = s.mem) ∧
    (∀ kind addr, r.fault = some (kind, BitVec.ofNat 64 addr) → kind < 256 → addr < 2 ^ 64 → e.thread ≠ noThread →
      (r.snap = none ∨ Debug.copyHalted (s.cluster c).dbg s.cycle = false) → r.cmd.thread ≠ noThread → s.mem.wf = true →
      let record := lsAddr r.cmd.core (s.lsSize r.cmd.core - 4096 + 64 * (r.cmd.jid % 64))
      ∃ t f, exec (.copyCommandFault c ch.val kind addr) s = .next t ∧ (t.channel c ch.val).run = none ∧
        t.jobOf c r.cmd.jid = some f ∧ f.state = 3 ∧ t.mem.readNat record 8 = addr ∧ t.mem.readNat (record + 16) 1 = kind ∧
        t.mem.readNat (record + 18) 2 = r.cmd.jid % 65536 ∧ SameBytesBut s t record 64 ∧
        (s.cycle, Instr.engineFaultSignal r.cmd.thread r.cmd.jid) ∈ t.agenda)) ∧
  (∀ (u jid : Nat) (s : State), (s.ctxAt u).inst = true →
    ∃ t, exec (.engineFaultSignal u jid) s = .next t ∧ (t.ctxAt u).efaults = (s.ctxAt u).efaults ++ [jid] ∧
      (t.ctxAt u).ctl.wake = true ∧ (t.ctxAt u).regs = (s.ctxAt u).regs ∧ t.mem = s.mem)

/-- R89, R111, R212, R213, R213 to R215, R216, R231, R234, R243: the beats of a copy command, and its end. -/
def Obligations.CopyCommandsMoveAndEnd : Prop :=
  Sys2Proof.CopyBeatsMoveBytes ∧ Sys2Proof.CopyCommandsEnd

/-- R246 to R248: `barcfg` sets the count; an arrival on a barrier short of its count is counted with its flags, `bar`
waits and `barv` goes on; the arrival that completes the count releases the waiting threads 4 cycles later, and each
gets the merged flags. An unconfigured barrier and a count out of range are illegal. -/
def Obligations.BarriersCountAndRelease : Prop :=
  (∀ (d a : GReg) (b : BitVec 4) (s : State),
    let c := s.myCluster
    let x := s.barrier c b.toNat
    (s.ctx.asked ≠ [1] → x.count ≠ 0 → s.performed .clu false = true →
      (∃ t, exec (.bar d b) s = .next t ∧ t.ctx.wait = .away .barrier ∧ t.ctx.asked = [1] ∧ t.ctx.latch = s.ctx.latch ∧
        t.ctx.regs = s.ctx.regs ∧ t.ctx.ctl = s.ctx.ctl ∧ t.mem = s.mem ∧
        (x.arrivals + 1 < x.count → t.barrier c b.toNat = { x with
          arrivals := x.arrivals + 1, flags := x.flags ||| s.ctx.ctl.fflags, waiters := x.waiters ++ [(s.cur, d.val)] }) ∧
        (x.count ≤ x.arrivals + 1 → t.barrier c b.toNat = { x with arrivals := 0, flags := 0, waiters := [] } ∧
          (s.cycle + 4, Instr.barrierRelease c b.toNat (x.flags ||| s.ctx.ctl.fflags) (x.waiters ++ [(s.cur, d.val)]))
            ∈ t.agenda)) ∧
      (∃ t, exec (.barv b) s = .next t ∧ SameRegisters s t ∧ Passes s t 8 ∧ t.mem = s.mem ∧
        (x.arrivals + 1 < x.count → t.barrier c b.toNat = { x with
          arrivals := x.arrivals + 1, flags := x.flags ||| s.ctx.ctl.fflags }) ∧
        (x.count ≤ x.arrivals + 1 → (s.cycle + 4, Instr.barrierRelease c b.toNat (x.flags ||| s.ctx.ctl.fflags) x.waiters)
            ∈ t.agenda))) ∧
    (x.count ≠ 0 → noStreams s → ∃ t, exec (.barv b) s = .next t ∧ SameRegisters s t ∧ Passes s t 8 ∧ t.mem = s.mem) ∧
    (x.count = 0 → s.ctx.asked ≠ [1] → Delegated s 1 →
      (∃ t, exec (.bar d b) s = .next t ∧ EntersHandler s t 1 s.word64) ∧
      (∃ t, exec (.barv b) s = .next t ∧ EntersHandler s t 1 s.word64)) ∧
    (s.hasG [a] = true → 1 ≤ (s.g a).toNat → (s.g a).toNat ≤ 128 →
      ∃ t, exec (.barcfg a b) s = .next t ∧ (t.barrier c b.toNat).count = (s.g a).toNat ∧ SameRegisters s t ∧
        Passes s t 8 ∧ t.mem = s.mem) ∧
    (s.hasG [a] = true → ((s.g a).toNat = 0 ∨ 128 < (s.g a).toNat) → Delegated s 1 →
      ∃ t, exec (.barcfg a b) s = .next t ∧ EntersHandler s t 1 s.word64)) ∧
  (∀ (c b : Nat) (flags : BitVec 5) (d : GReg) (s : State), s.ctx.inst = true → s.ctx.asked = [1] →
    s.ctx.wait = .away .barrier → noStreams s → s.cur < 65536 →
    ∃ t, exec (.barrierRelease c b flags [(s.cur, d.val)]) s = .next t ∧ HoldsG t d (flags.setWidth 64) false ∧
      SameG s t [d] ∧ SameV s t [] ∧ SameP s t [] ∧ SameControl s t ∧ Passes s t 8 ∧ t.ctx.wait = .ready s.cycle ∧
      (∀ l ∈ (t.core s.myCore).l1, l.untracked = 0) ∧ t.mem = s.mem)

/-! ## Virtual caches (12_die_vcache R260 to R279, 15_die_ops R318 to R321) -/

/-- The two reads of a list with a head of 8 bytes and k two-byte entries reach their local store (R318). -/
def Sys2Proof.ListHere (s : State) (a : Word) (n core off : Nat) : Prop :=
  ReachesLocal s a 8 true false core off ∧ ReachesLocal s a n true false core off ∧ 8 ≤ n ∧
    s.poisonIn (lsAddr core off) n = none

/-- What an instruction that has written no register leaves, when it rests for d cycles. -/
def Sys2Proof.Rests (s t : State) (d n : Nat) : Prop :=
  SameRegisters s t ∧ Passes s t n ∧ t.ctx.wait = .timed .timedMemory (s.cycle + d)

/-- R265, R266, R268, R276 to R278, R318 to R321: `vcdef` defines a cache from its bank list; `vcbind` binds a region to a
defined cache and unbinds it, from its completion 40 cycles later on; `vcstat` gives a counter; `vcset` takes a job
identifier and freezes the cache. -/
def Sys2Proof.VirtualCachesAreConfigured : Prop :=
  (∀ (vc : BitVec 4) (a d : GReg) (cfg : CacheCfg) (banks : List Nat) (s : State) (core off : Nat), s.hasG [a] = true →
    let job := s.ctx.job
    let head := s.mem.readBytes (lsAddr core off) 8
    let n := 8 + 2 * bankCount head
    ListHere s (s.g a) n core off → bankCount head ≠ 0 →
    bankList head (s.mem.readBytes (lsAddr core off) n) = some banks → s.badParent vc.toNat 17 cfg.parent.toNat = false →
    s.badWays cfg banks = false →
    (s.cacheOf job vc.toNat = none →
      ∃ t, exec (.vcdef vc a cfg) s = .next t ∧ Rests s t (40 + banks.length) 16 ∧ t.mem = s.mem ∧
        t.cacheOf job vc.toNat =
          some { cfg := cfg, banks := banks, hits := 0, misses := 0, fills := 0, writebacks := 0, set := [] }) ∧
    (∀ v, s.cacheOf job vc.toNat = some v → v.set = [] → (s.freeJob s.myCluster).isSome = true →
      ∃ t jid e u, exec (.vcset d vc a cfg) s = .next t ∧ HoldsG t d (BitVec.ofNat 64 jid) (s.taint a) ∧
        t.jobOf s.myCluster jid = some e ∧ e.state = 1 ∧ t.cacheOf job vc.toNat = some { v with set := [u] } ∧
        u.cfg = cfg ∧ u.banks = banks ∧ u.jid = jid ∧ u.cluster = s.myCluster ∧ u.scan = none ∧ u.held = [] ∧
        (s.cycle + 1, Instr.vcsetSwitch job vc.toNat) ∈ t.agenda ∧ SameG s t [d] ∧ SameV s t [] ∧ SameControl s t ∧
        t.mem = s.mem ∧ Passes s t 12)) ∧
  (∀ (slot : BitVec 6) (vc : BitVec 4) (a d : GReg) (len : BitVec 32) (ctr : BitVec 3) (s : State),
    let bound (t : State) (c : Nat) : Option Region := Table.get? ((t.job s.ctx.job).regionsAt c) slot.toNat
    (s.hasG [a] = true → (s.g a).toNat % 65536 = 0 → (s.g a).toNat + len.toNat * 65536 ≤ 2 ^ 55 →
      (s.cacheOf s.ctx.job vc.toNat).isSome = true →
      ∃ t, exec (.vcbind slot vc a len) s = .next t ∧ Rests s t 40 12 ∧ t.mem = s.mem ∧
        bound t (s.cycle + 40) = some { base := (s.g a).toNat, len := len.toNat, vc := vc.toNat } ∧
        bound t s.cycle = bound s s.cycle) ∧
    (Rising (s.job s.ctx.job).regions → ∃ t, exec (.vcbindUnbind slot) s = .next t ∧ Rests s t 40 12 ∧ t.mem = s.mem ∧
      bound t (s.cycle + 40) = none ∧ bound t s.cycle = bound s s.cycle) ∧
    (∃ t, exec (.vcstat d vc ctr) s = .next t ∧ HoldsG t d (s.vcCounter s.ctx.job vc.toNat ctr.toNat) false ∧
      SameG s t [d] ∧ SameV s t [] ∧ SameP s t [] ∧ SameControl s t ∧ SameMachine s t ∧ Passes s t 8 ∧
      t.ctx.wait = .timed .timedMemory (s.cycle + 20)))

/-- R262, R264, R277, R278: a running `vcset` waits for the fills that are on their way, then scans one set of the cache's
range a cycle, whose lines that the change removes leave, and after the last acknowledgement the new configuration holds, its
job ends and the requests held at the cache go on. An allotment entry is written for a ready bank. When a job has
ended, its lines leave set by set, and after the last set its allotments, caches, bindings and trees are gone. -/
def Sys2Proof.BanksAreReorganized : Prop :=
  (∀ (job vc : Nat) (v : VCache) (u : VcsetRun) (us : List VcsetRun) (s : State), s.cacheOf job vc = some v → v.set = u :: us →
    (u.scan = none → s.fillsComing job vc = true → exec (.vcsetSwitch job vc) s =
      .next { s with agenda := insertDue (s.cycle + 1) (.vcsetSwitch job vc) s.agenda }) ∧
    (u.scan = none → s.fillsComing job vc = false → (u.cfg.parent = v.cfg.parent ∨ s.treeLines job vc = []) →
      ∃ t, exec (.vcsetSwitch job vc) s = .next t ∧
        t.cacheOf job vc = some { v with set := { u with scan := some 0 } :: us } ∧
        (s.cycle, Instr.vcsetSwitch job vc) ∈ t.agenda ∧ t.mem = s.mem ∧ t.ctx = s.ctx) ∧
    (∀ k, u.scan = some k → k < 2 ^ v.cfg.log.toNat →
      ∃ t w x, exec (.vcsetSwitch job vc) s = .next t ∧ t.cacheOf job vc = some w ∧ w.set = x :: us ∧
        x.scan = some (k + 1) ∧ (s.cycle + 1, Instr.vcsetSwitch job vc) ∈ t.agenda ∧ t.mem = s.mem ∧
        ∀ b ∈ t.ms.banks, b.job = job → b.alloc = vc → b.set = v.cfg.start.toNat + k →
          u.changes v = false ∧ u.cfg.mask.getLsbD b.way = true) ∧
    (∀ k, u.scan = some k → 2 ^ v.cfg.log.toNat ≤ k → s.ackComing (.vcset job vc) = true →
      exec (.vcsetSwitch job vc) s =
        .next { s with agenda := insertDue (s.cycle + 1) (.vcsetSwitch job vc) s.agenda }) ∧
    (∀ k, u.scan = some k → 2 ^ v.cfg.log.toNat ≤ k → s.ackComing (.vcset job vc) = false →
      (s.cycle < u.ends → exec (.vcsetSwitch job vc) s =
        .next { s with agenda := insertDue u.ends (.vcsetSwitch job vc) s.agenda }) ∧
      (∀ e, u.ends ≤ s.cycle → us = [] → s.jobOf u.cluster u.jid = some e →
        ∃ t, exec (.vcsetSwitch job vc) s = .next t ∧
          t.cacheOf job vc = some { v with cfg := u.cfg, banks := u.banks, set := [] } ∧ t.jobOf u.cluster u.jid = none ∧
          (∀ r ∈ u.held, (s.cycle, Instr.vcacheLookup r vc) ∈ t.agenda) ∧ t.mem = s.mem))) ∧
  (∀ (bank way : Nat) (entry : BitVec 16) (s : State), bank < 8192 → way < 16 → Rising s.ms.allot →
    (entry.getLsbD 15 && entry.getLsbD 14) = false →
    ((entry.getLsbD 15 = true → s.pkg.segmentReady.contains (bank / 16) = true) →
      ∃ t, exec (.allotmentChange bank way entry) s = .next t ∧
        t.allotted bank way = (if entry.getLsbD 15 then some (entry.toNat % 4096) else none) ∧
        (∀ b w, b * 16 + w ≠ bank * 16 + way → t.allotted b w = s.allotted b w) ∧ t.ctx = s.ctx ∧ t.mem = s.mem) ∧
    (entry.getLsbD 15 = true → s.pkg.segmentReady.contains (bank / 16) = false →
      exec (.allotmentChange bank way entry) s = .next s)) ∧
  (∀ (job set : Nat) (s : State),
    (set < 128 → ∃ t, exec (.jobEndBankScan (job, set)) s = .next t ∧ (∀ b ∈ t.ms.banks, b.job = job → b.set ≠ set) ∧
      (s.cycle + 1, Instr.jobEndBankScan (job, set + 1)) ∈ t.agenda ∧ t.mem = s.mem ∧ t.ctx = s.ctx ∧
      (set = 127 → (∀ b w, t.allotted b w ≠ some job) ∧ (t.job job).vcs = [] ∧ (t.job job).regions = [] ∧
        (t.job job).binds = [] ∧ (t.job job).trees = [])) ∧
    (128 ≤ set → s.wbComing job = true → exec (.jobEndBankScan (job, set)) s =
      .next { s with agenda := insertDue (s.cycle + 1) (.jobEndBankScan (job, set)) s.agenda }) ∧
    (128 ≤ set → s.wbComing job = false → ∀ n, (s.job job).ending = some n → n ≤ s.cycle →
      ∃ t, exec (.jobEndBankScan (job, set)) s = .next t ∧ (t.job job).ending = none ∧ t.mem = s.mem ∧ t.ctx = s.ctx))

/-- A request of a thread for words of a line, and its reply on its way. -/
def Sys2Proof.Replied (s t : State) (r : Req) (d : Nat) (p : Reply) : Prop :=
  ∃ q : Req, q.src = r.src ∧ q.line = r.line ∧ q.job = r.job ∧ (s.cycle + d, Instr.memoryReply q p) ∈ t.agenda

/-- A request goes on to home, and arrives in this cycle or later. -/
def Sys2Proof.GoesHome (s t : State) (r : Req) : Prop := ∃ n, s.cycle ≤ n ∧ (n, Instr.homeRequest r) ∈ t.agenda

/-- R268, R269, R271 to R276, R278, R406: a load that a cache holds current is answered there and counts a hit; one that it
does not hold counts a miss and goes on to the parent with the cache on its path; a store updates the copy that it
finds and goes on; an undefined cache passes a request, and one under `vcset` holds it. A writeback's words enter the copy,
or a new line, or pass to the parent where no way qualifies. -/
def Sys2Proof.VirtualCachesServeRequests : Prop :=
  (∀ (r : Req) (vc : Nat) (s : State), s.cacheOf r.job vc = none →
    ∃ t, exec (.vcacheLookup r vc) s = .next t ∧ GoesHome s t r ∧ t.mem = s.mem ∧ t.ctx = s.ctx) ∧
  (∀ (r : Req) (vc : Nat) (v : VCache) (w : VcsetRun) (ws : List VcsetRun) (s : State), s.cacheOf r.job vc = some v →
    v.set = w :: ws → ∃ t, exec (.vcacheLookup r vc) s = .next t ∧
      t.cacheOf r.job vc = some { v with set := { w with held := w.held ++ [r] } :: ws } ∧ t.mem = s.mem ∧ t.ctx = s.ctx ∧
      t.agenda = s.agenda) ∧
  (∀ (r : Req) (vc u : Nat) (v : VCache) (s : State), s.cacheOf r.job vc = some v → v.set = [] → r.pol = .wt →
    wordsOf r.mask ≠ 0 → s.treeHeld r.job vc r.line = (0, 0) →
    (∀ b, r.src = .load u → r.kind = .load → r.acq = false → s.copyIn r.job vc r.line = some b → b.shared = false →
      b.lease = none → wordsOf r.mask &&& ~~~b.valid = 0 →
      ∃ t p, exec (.vcacheLookup r vc) s = .next t ∧ Replied s t r 0 p ∧ p.st = .ok ∧ p.data = b.data ∧ p.words = b.valid ∧
        p.inst = .untracked ∧ t.cacheOf r.job vc = some { v with hits := v.hits + 1 } ∧ t.mem = s.mem ∧ t.ctx = s.ctx) ∧
    (r.kind = .load → s.copyIn r.job vc r.line = none → s.parentOf r.job vc = 16 →
      ∃ t, exec (.vcacheLookup r vc) s = .next t ∧ GoesHome s t { r with path := vc :: r.path } ∧
        t.cacheOf r.job vc = some { v with misses := v.misses + 1 } ∧ t.mem = s.mem ∧ t.ctx = s.ctx) ∧
    (∀ up w, r.kind = .load → s.copyIn r.job vc r.line = none → s.parentOf r.job vc = up → up ≠ vc →
      s.cacheOf r.job up = some w →
      ∃ t, exec (.vcacheLookup r vc) s = .next t ∧
        (s.cycle + bankCycles (baseOf (dieOf r.core)) (w.place r.line).1,
          Instr.vcacheLookup { r with path := vc :: r.path } up) ∈ t.agenda ∧
        t.cacheOf r.job vc = some { v with misses := v.misses + 1 } ∧ t.mem = s.mem ∧ t.ctx = s.ctx) ∧
    (∀ b, r.kind = .store → s.copyIn r.job vc r.line = some b → s.parentOf r.job vc = 16 →
      ∃ t, exec (.vcacheLookup r vc) s = .next t ∧ GoesHome s t { r with path := vc :: r.path } ∧
        t.copyIn r.job vc r.line =
          some { b with data := mergeLine (r.mask &&& bytesOfWords (b.valid &&& ~~~b.registered)) r.data b.data } ∧
        t.cacheOf r.job vc = some { v with hits := v.hits + 1 } ∧ t.mem = s.mem ∧ t.ctx = s.ctx)) ∧
  (∀ (w : Wb) (vc : Nat) (v : VCache) (s : State), s.cacheOf w.job vc = some v → v.set = [] → w.ack = none →
    (∀ b, s.copyIn w.job vc w.line = some b → b.valid ≠ 0 → w.held &&& ~~~b.valid = 0 →
      ∃ t, exec (.vcacheWriteback w vc) s = .next t ∧ t.copyIn w.job vc w.line = some { b with
          dirty := true, registered := b.registered ||| w.words, valid := b.valid ||| w.words,
          data := mergeLine (bytesOfWords w.words) w.data b.data, wts := tsMax b.wts w.wts } ∧
        t.cacheOf w.job vc = some { v with fills := v.fills + 1 } ∧ t.mem = s.mem ∧ t.ctx = s.ctx) ∧
    (∀ way, s.copyIn w.job vc w.line = none → s.bankWay v w.job w.line = some (way, none) →
      ∃ t b, exec (.vcacheWriteback w vc) s = .next t ∧ t.copyIn w.job vc w.line = some b ∧ b.way = way ∧ b.alloc = vc ∧
        b.dirty = true ∧ b.registered = w.words ∧ b.valid = w.words ||| w.held ∧
        t.cacheOf w.job vc = some { v with fills := v.fills + 1 } ∧ t.mem = s.mem ∧ t.ctx = s.ctx) ∧
    (s.copyIn w.job vc w.line = none → s.bankWay v w.job w.line = none → s.parentOf w.job vc = 16 →
      ∃ t n, exec (.vcacheWriteback w vc) s = .next t ∧ s.cycle ≤ n ∧ (n, Instr.homeWriteback w) ∈ t.agenda ∧
        t.mem = s.mem ∧ t.ctx = s.ctx))

/-- R262, R264, R265, R266, R268, R269, R271 to R276, R276 to R278, R277, R278, R318 to R321, R406: virtual caches are
defined, bound, set and observed, their banks are reorganized, and they answer requests. -/
def Obligations.VirtualCachesAreConfiguredAndServe : Prop :=
  Sys2Proof.VirtualCachesAreConfigured ∧ Sys2Proof.BanksAreReorganized ∧ Sys2Proof.VirtualCachesServeRequests

/-! ## Coherence at home and at the agents (13_die_coherence R280 to R295, 19_package R352, R353) -/

/-- A request reaches its home plainly: its page is mapped, the home is not fenced, no replica and no hold is in the way,
and the line has no entry and room for one; its memory is bonded DRAM. -/
def Sys2Proof.PlainHome (s : State) (r : Req) (pl : Place) : Prop :=
  s.placeFor r = some pl ∧ s.pkg.fenced.contains (slicePlace (sliceOf pl.dir)) = false ∧ s.replicaOf r = none ∧
    s.ms.holds = [] ∧ Table.get? s.ms.home pl.dir = none ∧ (s.mates pl.dir).length < 16 ∧ leafTier pl.leaf = 0 ∧
    lineInHost pl.dir = false ∧ leafRepl pl.leaf = false ∧ s.poisonWords pl.data = 0 ∧
    Table.get? s.ms.filter pl.dir = none ∧ r.shadow = false

/-- R283, R285, R287, R372, R401: at a line that nobody holds, a load is answered with the memory's data, a registering
load gets its words registered, and a store writes its bytes and is acknowledged. An unmapped page and a fenced home are
answered so, the unmapped page after 40 cycles, a time that no rule gives and the model chose (log 122); a line with a
transaction open queues the request. -/
def Obligations.HomeServesRequests : Prop :=
  ∀ (r : Req) (pl : Place) (s : State),
    (PlainHome s r pl → r.kind = .load → (∃ u, r.src = .load u) →
      (r.pol = .wt → ∃ t p, exec (.homeRequest r) s = .next t ∧ Replied s t r (replyCycles r pl.dir) p ∧ p.st = .ok ∧
        p.data = s.keyedLine pl.data pl.key ∧ p.words = 0xFFFF ∧ p.inst = .untracked ∧ t.mem = s.mem ∧ t.ctx = s.ctx) ∧
      (r.pol = .own → s.aliased pl.dir = false → wordsOf r.mask ≠ 0 → ∃ t p, exec (.homeRequest r) s = .next t ∧
        Replied s t r (replyCycles r pl.dir) p ∧ p.st = .ok ∧ p.data = s.keyedLine pl.data pl.key ∧
        p.inst = .registered (wordsOf r.mask) ∧ (t.homeLine pl.dir).registered = wordsOf r.mask ∧ t.ctx = s.ctx)) ∧
    (PlainHome s r pl → r.kind = .store → r.pol = .wt → (∃ k id, r.src = .queue k id) → r.mask ≠ 0 →
      Table.getD s.ms.lineKeys pl.data 0 = pl.key → s.mem.wf = true →
      ∃ t q p, exec (.homeRequest r) s = .next t ∧
        (s.cycle + replyCycles r pl.dir, Instr.storeQueueAck q p) ∈ t.agenda ∧ q.src = r.src ∧ p.st = .ok ∧
        (∀ i, i < 64 → t.mem.read (pl.data * 64 + i) =
          if r.mask.getLsbD i then lineByte r.data i else s.mem.read (pl.data * 64 + i)) ∧
        SameBytesBut s t (pl.data * 64) 64 ∧ t.ctx = s.ctx) ∧
    (s.placeFor r = none → r.kind = .load → (∃ u, r.src = .load u) → ∃ t p, exec (.homeRequest r) s = .next t ∧
      Replied s t r 40 p ∧ p.st = (if leafAbsent (s.walk (r.line * 64)).attr.leaf then .notPresent else .unmapped) ∧
      t.mem = s.mem ∧ t.ctx = s.ctx) ∧
    (s.placeFor r = some pl → s.pkg.fenced.contains (slicePlace (sliceOf pl.dir)) = true → (∃ u, r.src = .load u) →
      ∃ t p, exec (.homeRequest r) s = .next t ∧ Replied s t r (replyCycles r pl.dir) p ∧ p.st = .dataLost ∧
        t.mem = s.mem ∧ t.ctx = s.ctx) ∧
    (∀ h, s.placeFor r = some pl → s.pkg.fenced.contains (slicePlace (sliceOf pl.dir)) = false → s.replicaOf r = none →
      r.kind = .load ∨ r.kind = .store → r.shadow = false → s.ms.holds = [] → Table.get? s.ms.home pl.dir = some h →
      h.txn.isSome = true →
      ∃ t, exec (.homeRequest r) s = .next t ∧ (t.homeLine pl.dir).txn = h.txn ∧
        (t.homeLine pl.dir).queue = h.queue ++ [r] ∧ t.mem = s.mem ∧ t.ctx = s.ctx)

/-- Half of a probe's round trip has passed when it reaches its agent; the acknowledgement takes the rest (R288). -/
def Sys2Proof.ackAt (s : State) (p : Probe) : Nat :=
  s.cycle + (s.probeTrip p.pline p.agent - s.probeTrip p.pline p.agent / 2)

/-- R275, R286 to R288, R291, R292: a registrant returns the words that a forward or a revocation asks for, and a revocation
ends its registration; a root returns those of its tree; an agent that has already sent them back answers released. An
invalidation ends the shared copies and no others. Home takes a writeback's words from the registrant that sends them; an
acknowledgement frees the transaction of its agent, and with the last one the request performs. -/
def Sys2Proof.ProbesAreServed : Prop :=
  (∀ (p : Probe) (x : L1Line) (s : State), agentIsRoot p.agent = false →
    (s.core (agentCore p.agent)).l1 = [x] → (s.core (agentCore p.agent)).fills = [] →
    (s.place x.job x.line).any (fun q => q.dir = p.pline) = true → p.words &&& ~~~x.registered = 0 →
    let ack : ProbeAck := { agent := p.agent, pline := p.pline, words := p.words,
                            data := mergeLine (bytesOfWords x.registered) x.data 0, drop := p.drop }
    let left : List L1Line :=
      if p.drop then [{ x with registered := x.registered &&& ~~~p.words }].filter fun y => y.held ≠ 0 else [x]
    (∃ t, exec (.forward p) s = .next t ∧ (ackAt s p, Instr.probeAcknowledgement ack) ∈ t.agenda ∧
      (t.core (agentCore p.agent)).l1 = left ∧ t.mem = s.mem ∧ t.ctx = s.ctx) ∧
    (∃ t, exec (.revocation p) s = .next t ∧ (ackAt s p, Instr.probeAcknowledgement ack) ∈ t.agenda ∧
      (t.core (agentCore p.agent)).l1 = left ∧ t.mem = s.mem ∧ t.ctx = s.ctx)) ∧
  (∀ (p : Probe) (s : State), agentIsRoot p.agent = true →
    let job := agentJob p.agent
    let released : ProbeAck := { agent := p.agent, pline := p.pline, words := 0, data := 0, drop := p.drop }
    (s.vlinesOf job p.pline = [] →
      (∃ t, exec (.forward p) s = .next t ∧ (ackAt s p, Instr.probeAcknowledgement released) ∈ t.agenda ∧
        t.mem = s.mem ∧ t.ctx = s.ctx) ∧
      (∃ t, exec (.revocation p) s = .next t ∧ (ackAt s p, Instr.probeAcknowledgement released) ∈ t.agenda ∧
        t.mem = s.mem ∧ t.ctx = s.ctx)) ∧
    (∀ l, s.vlinesOf job p.pline = [l] → s.risingWb job l = false →
      let held := s.treeHeld job (agentVc p.agent) l
      let ack : ProbeAck := { released with words := p.words, data := mergeLine (bytesOfWords held.1) held.2 0 }
      p.words &&& ~~~held.1 = 0 →
      (p.drop = false → ∃ t, exec (.forward p) s = .next t ∧ (ackAt s p, Instr.probeAcknowledgement ack) ∈ t.agenda ∧
        t.ms = s.ms ∧ t.cores = s.cores ∧ t.mem = s.mem ∧ t.ctx = s.ctx) ∧
      (∃ t n, exec (.revocation p) s = .next t ∧ (n, Instr.probeAcknowledgement ack) ∈ t.agenda ∧ t.mem = s.mem ∧
        t.ctx = s.ctx))) ∧
  (∀ (p : Probe) (s : State), ∃ t, exec (.invalidation p) s = .next t ∧
    (ackAt s p, Instr.probeAcknowledgement
      { agent := p.agent, pline := p.pline, words := 0, data := 0, drop := true }) ∈ t.agenda ∧ t.mem = s.mem ∧
    (p.agent.getLsbD 31 = true →
      let hit (k : Nat) : Bool :=
        if p.agent.getLsbD 30 then dieOf k = p.agent.toNat % 8 else clusterOf k = p.agent.toNat % 512
      (∀ k, hit k = true → ∀ x ∈ (t.core k).l1,
        (s.place x.job x.line).any (fun q => q.dir = p.pline) = true → x.shared = 0) ∧
      (∀ k, hit k = true → ∀ x ∈ (s.core k).l1, (s.place x.job x.line).any (fun q => q.dir = p.pline) = true →
        ({ x with shared := 0 }).held ≠ 0 → { x with shared := 0 } ∈ (t.core k).l1))) ∧
  (∀ (w : Wb) (pl : Place) (ws : BitVec 16) (s : State), s.place w.job w.line = some pl → Rising s.ms.home → w.ack = none →
    Table.getD s.ms.lineKeys (s.front pl.dir) 0 = s.pageKeyOf (s.front pl.dir) →
    ((agentIsRoot w.agent = false ∧ (s.registrants pl.dir w.words).find? (fun x => x.1 = w.agent) = some (w.agent, ws)) ∨
      s.registrants pl.dir w.words = [(w.agent, ws)]) →
    (s.homeLine pl.dir).txn = none → (s.homeLine pl.dir).queue = [] → s.mem.wf = true →
    ∃ t, exec (.homeWriteback w) s = .next t ∧
      (t.homeLine pl.dir).registered = (s.homeLine pl.dir).registered &&& ~~~ws ∧
      (∀ i, i < 64 → t.mem.read (s.front pl.dir * 64 + i) =
        if (bytesOfWords ws).getLsbD i then lineByte w.data i else s.mem.read (s.front pl.dir * 64 + i)) ∧
      SameBytesBut s t (s.front pl.dir * 64) 64 ∧ t.ctx = s.ctx) ∧
  (∀ (w : Wb) (s : State),
    (s.place w.job w.line = none → exec (.homeWriteback w) s =
      .next { s with agenda := insertDue (s.cycle + 64) (.homeWriteback w) s.agenda }) ∧
    (∀ pl, s.place w.job w.line = some pl → w.ack = none → s.registrants pl.dir w.words = [] →
      exec (.homeWriteback w) s = .next s)) ∧
  (∀ (a : ProbeAck) (x : Txn) (s : State), (s.homeLine a.pline).txn = some x → a.agent ∈ x.waiting → a.drop = false →
    (s.registrants a.pline (x.words &&& ~~~(x.merged ||| a.words))).any (fun y => y.1 = a.agent) = false →
    let data := mergeLine (bytesOfWords a.words) a.data x.data
    ((∃ o ∈ x.waiting, o ≠ a.agent) →
      ∃ t, exec (.probeAcknowledgement a) s = .next t ∧ (t.homeLine a.pline).txn = some { x with
          merged := x.merged ||| a.words, data := data, waiting := x.waiting.filter (· ≠ a.agent) } ∧
        t.mem = s.mem ∧ t.ctx = s.ctx) ∧
    (∀ pl, Rising s.ms.home → x.waiting = [a.agent] → x.host = false → x.evict = false → (s.homeLine a.pline).queue = [] →
      s.placeFor x.req = some pl → pl.dir = a.pline → leafTier pl.leaf = 0 → lineInHost pl.dir = false →
      leafRepl pl.leaf = false → x.req.kind = .load → x.req.pol = .wt → (∃ u, x.req.src = .load u) →
      s.homeFenced pl.dir = false → (s.ownWords x.req pl).1 = 0 →
      wordsOf x.req.mask &&& ~~~x.words &&& (s.homeLine pl.dir).registered = 0 →
      ∃ t p, exec (.probeAcknowledgement a) s = .next t ∧
        Replied s t x.req (replyCycles x.req pl.dir + x.back - x.away) p ∧ p.st = .ok ∧ p.inst = .untracked ∧
        p.data = mergeLine (bytesOfWords (x.merged ||| a.words)) data (s.keyedLine pl.data pl.key) ∧
        (t.homeLine a.pline).txn = none ∧ t.mem = s.mem ∧ t.ctx = s.ctx))

/-- R284, R286, R295, R352, R353, R366: what home and the caches do by themselves. A sweep leaves no timestamp of its set
behind the floor's window and goes on to the next set; a lease ends 2^20 cycles after its grant; the words of a lost agent
are poisoned and registered no more, and it is no sharer; a replica enters its base die's area; the end of a window sets
every region's degree and starts its counts again. The set that a sweep is at in a cycle, and the set that a line lies in, are
the model's choice (logs 95 and 11); that a scan marks all words at once is its reading (log 104). -/
def Sys2Proof.CoherenceTimersAct : Prop :=
  (∀ (slice left : Nat) (s : State), ∃ t, exec (.sliceSweep (slice, left)) s = .next t ∧ t.mem = s.mem ∧ t.ctx = s.ctx ∧
    (1 < left → (s.cycle + 1, Instr.sliceSweep (slice, left - 1)) ∈ t.agenda) ∧
    ∀ x ∈ t.ms.home, sliceOf x.1 = slice → Config.directorySet x.1 = s.cycle % 1024 →
      let behind (w : BitVec 24) : Nat := (s.floorOf slice + 2 ^ 24 - w.toNat) % 2 ^ 24
      ¬ (2 ^ 22 ≤ behind x.2.wts ∧ behind x.2.wts < 2 ^ 23) ∧ ¬ (2 ^ 22 ≤ behind x.2.rts ∧ behind x.2.rts < 2 ^ 23)) ∧
  (∀ (core job line granted : Nat) (s : State), granted + 2 ^ 20 ≤ s.cycle →
    ∃ t, exec (.leaseTimeout core job line granted) s = .next t ∧ t.mem = s.mem ∧ t.ctx = s.ctx ∧
      (∀ x ∈ (t.core core).l1, x.job = job → x.line = line → ∀ l ∈ x.leases, l.granted ≠ granted) ∧
      ∀ x ∈ (s.core core).l1, ∀ l ∈ x.leases, l.words ≠ 0 → l.granted ≠ granted →
        ∃ y ∈ (t.core core).l1, y.job = x.job ∧ y.line = x.line ∧ l ∈ y.leases) ∧
  (∀ (agent : BitVec 32) (d : Nat) (h : HomeLine) (s : State), s.ms.home = [(d, h)] → h.txn = none → h.queue = [] →
    s.lastWords agent d = none →
    ∃ t, exec (.agentLostScan agent) s = .next t ∧ t.ctx = s.ctx ∧
      (agentIsRoot agent = true →
        ∀ x ∈ (t.homeLine d).roots, rootAgent (x.toNat / 16) (x.toNat % 16) ≠ agent) ∧
      (∀ ws, (s.registrants d 0xFFFF).find? (fun x => x.1 = agent) = some (agent, ws) →
        (t.homeLine d).registered &&& ws = 0 ∧
        ∀ i, i < 16 → ws.getLsbD i = true → s.front d * 16 + i ∈ t.ms.poison)) ∧
  (∀ (r : Req) (p : Reply) (pl : Place) (s : State), s.placeFor r = some pl → s.fillsReplica r pl = true →
    (s.homeLine pl.dir).wts.toNat = p.wts → p.words = 0xFFFF → s.replicaRoom (baseOf (dieOf r.core)) ≠ 0 →
    ∃ t x, exec (.replicaFill r p) s = .next t ∧ x ∈ t.ms.replicas ∧ x.base = baseOf (dieOf r.core) ∧ x.pline = pl.dir ∧
      x.data = p.data ∧ x.ends = none ∧ t.mem = s.mem ∧ t.ctx = s.ctx) ∧
  (∀ (n : Nat) (g : RepRegion) (s : State), Table.get? s.ms.regions n = some g → ∃ t, exec .replicaWindow s = .next t ∧
    let readers := ((List.range 4).filter fun b => g.reads.toList.getD b 0 ≥ 256).length
    let d := if g.collapses ≥ 64 then g.degree - 1 else min 3 readers
    (t.repRegion n).degree = (match g.pin, g.cap with | some p, _ => p | none, some c => min d c | none, none => d) ∧
      (t.repRegion n).reads = Vector.replicate 4 0 ∧ (t.repRegion n).collapses = 0 ∧ t.mem = s.mem ∧ t.ctx = s.ctx)

/-- R275, R284, R286 to R288, R286, R291, R292, R295, R352, R353, R366: probes are served, and what home and the
caches do by themselves. -/
def Obligations.ProbesAndCoherenceTimers : Prop :=
  Sys2Proof.ProbesAreServed ∧ Sys2Proof.CoherenceTimersAct

/-! ## Words of the spec, and two rules whole -/

/-- Bytes of numbers, the lowest address first. -/
def Sys2Proof.bytesOf (l : List Nat) : List Byte := l.map (BitVec.ofNat 8)

/-- R26 to R49: words that the spec works out decode to the instructions that it works them out for: `add g3, g4, 100000`
(R27), `nop`, `nopl` (R100), `lea g5, [g1+g3*8+64]`, a compare and branch (R105), `ldfe.w g3, [g8+4]` (R131),
`fence.acq.die.pr g6` (R134), `vld.f32 v4, [g5+128]` (R177), `rpt 4, 1` (R189), `mma.clr` (R223), `acrd` (R226), `vcdef`
(R318), `rfork` (R324), `xpub.pkg` and `tmove` (R374, R376), `cpy.raw.rem` (R395). -/
def Obligations.SpecWordsDecode : Prop :=
  decodeBytes (bytesOf [0x0D, 0xC0, 0x20, 0, 0, 0, 0, 0, 0xA0, 0x86, 1, 0]) = .ok (.addImm32 3 4 100000, []) ∧
  decodeBytes (bytesOf [0x14, 0, 0, 0, 0, 0, 0, 0]) = .ok (.nop, []) ∧
  decodeBytes (bytesOf [0x2D, 0, 0, 0, 0, 0, 0, 0, 0, 0, 0, 0]) = .ok (.nopl, []) ∧
  decodeBytes (bytesOf [0x28, 0x40, 0x09, 0x03, 0, 0x60, 0x20, 0]) = .ok (.lea 5 1 3 3 64, []) ∧
  decodeBytes (bytesOf [0x44, 0, 0x38, 0, 0, 0, 0x12, 0]) = .ok (.bcmpEq 7 0 36, []) ∧
  decodeBytes (bytesOf [0x94, 0xC0, 0x40, 0, 0x08, 0, 0x02, 0]) =
    .ok (.ldfe ⟨3, 8, 0, .w, false, .pd, .plain, .core, 0, 4⟩, []) ∧
  decodeBytes (bytesOf [0xA4, 0, 0x30, 0, 0, 0x28, 0, 0]) = .ok (.fenceAcq .die true 6, []) ∧
  decodeBytes (bytesOf [0x40, 0x01, 0x29, 0, 0x01, 0, 0x40, 0]) =
    .ok (.vld ⟨⟨0, false, 0, false⟩, 4, 5, .pd, .plain, .core, 128⟩ 0 8, []) ∧
  decodeBytes (bytesOf [0x78, 0, 0, 0, 0, 0, 0x02, 0x02]) = .ok (.rpt 4 1, []) ∧
  decodeBytes (bytesOf [0x82, 0x01, 0x38, 0x08, 0, 0, 0, 0, 0, 0, 0x82, 0x08, 0x0C, 0, 0, 0]) =
    .ok (.mma ⟨0, 7, 8, 0, 0, false, true, 8, 1, 8, 2, 0⟩, []) ∧
  decodeBytes (bytesOf [0x84, 0x81, 0x68, 0, 0, 0, 0, 0]) = .ok (.acrd 2 13 0 0 0, []) ∧
  decodeBytes (bytesOf [0xC2, 0x41, 0x28, 0, 0, 0, 0, 0, 0x04, 0xFD, 0x03, 0x40, 0, 0, 0, 0]) =
    .ok (.vcdef 1 5 ⟨16, 0xFF, 2, 4⟩, []) ∧
  decodeBytes (bytesOf [0xD9, 0x01, 0x28, 0xA6, 0x02, 0, 0, 0, 0x22, 0, 0, 0]) = .ok (.rfork 5 6 21 34, []) ∧
  decodeBytes (bytesOf [0, 0x02, 0x28, 0x06, 0, 0x0C, 0, 0]) = .ok (.xpub 5 6 .pkg, []) ∧
  decodeBytes (bytesOf [0x09, 0x02, 0x39, 0, 0, 0, 0, 0, 0x2C, 0x01, 0, 0]) = .ok (.tmoveDram 4 7 300, []) ∧
  decodeBytes (bytesOf [0x96, 0x41, 0x12, 0x83, 0, 0, 0, 0, 0x28, 0x01, 0x11, 0, 0, 0, 0, 0]) =
    .ok (.cpy 9 2 3 4 ⟨0, 5, false, true, 17⟩, [])

/-- R104: `lea` sets D to A + (B << log2 scale) + disp, modulo 2^64, tainted by either source; its scale stands in MOD[4:3]
(bits 46 and 45) and its displacement in IMM17; it checks no address and raises no fault. -/
def Obligations.LeaComputesAnAddress : Prop :=
  ∀ (d a b : GReg) (scale : BitVec 2) (disp : BitVec 17) (s : State),
    (s.hasG [a, b] = true → ∃ t, exec (.lea d a b scale disp) s = .next t ∧
      WritesG s t d (s.g a + (s.g b <<< scale.toNat) + disp.signExtend 64) (s.taint a || s.taint b) 8) ∧
    encode (.lea d a b scale disp) = some (0x0A * 2 ^ 2 + d.val * 2 ^ 14 + a.val * 2 ^ 19 + b.val * 2 ^ 24 +
      scale.toNat * 2 ^ 45 + disp.toNat * 2 ^ 47)

/-- R137: `untaint gD` clears the taint of gD and changes nothing else, whether gD is present or not; `untaint g0` has no
effect. -/
def Obligations.UntaintClearsOneTaint : Prop :=
  ∀ (d : GReg) (s : State), ∃ t, exec (.untaint d) s = .next t ∧ t.taint d = false ∧ (∀ r, t.g r = s.g r) ∧
    (∀ r, r ≠ d → t.taint r = s.taint r) ∧ (∀ r, t.ctx.regs.hasG r = s.ctx.regs.hasG r) ∧ SameV s t [] ∧ SameP s t [] ∧
    SameControl s t ∧ SameThread s t ∧ SameMachine s t ∧ Passes s t 8 ∧ (d = 0 → WritesNothing s t 8)

/-! ## Steps, cycles and reset (02 R27, R28, R51, 07 R143 to R148, R160, 20 R360) -/

/-- The bytes of a fetch block from an offset up, the lowest address first (R4, R28). -/
def Sys2Proof.blockBytes (b : FetchBlock) (off : Nat) : List Byte :=
  (List.range (32 - off)).map fun i => b.data.extractLsb' (8 * (off + i)) 8

/-- The current thread runs, outside a repeat and outside loop bodies, with its next word in its fetch block. -/
def Sys2Proof.AtWord (s : State) (b : FetchBlock) : Prop :=
  s.ctx.inst = true ∧ s.ctx.latch = none ∧ s.ctx.rep = none ∧ s.ctx.loops.active = 0 ∧ s.ctx.fblock = some b ∧
    b.addr = s.ctx.pc.toNat / 32 * 32 ∧ s.ctx.pc.toNat % 4 = 0

/-- The state in which a step that takes a turn runs the word of n bytes at the PC: the word stands in the latch (R87). -/
def Sys2Proof.turnTaken (s : State) (bs : List Byte) (n : Nat) : State :=
  { s with turn := false, ctx := { s.ctx with latch := some (BitVec.ofNat 128 (natOfBytes (bs.take n))) } }

/-- R27, R28, R50, R51, R53, R87, R148: a step in which a thread has its turn runs the instruction that the bytes at its PC
decode to, with the word in its latch (with an `rpt`, the word after it, which stands in the same block, is kept beside
it); a form that the mode does not allow is a privilege fault; a latched instruction is run again. The order of a cycle's
work is the model's (log 4): the turn, the events that are due, the latched instructions that go on, the visits of the
cores that hold a context, the lowest core first, then the next cycle. -/
def Obligations.StepRunsTheDecodedInstruction : Prop :=
  ∀ s : State,
    (∀ b i rest, s.turn = true → AtWord s b →
      decodeBytes (blockBytes b (s.ctx.pc.toNat % 32)) = .ok (i, rest) →
      (privilegeOk s.ctx.ctl.mode i = true → (∀ count stride, i ≠ .rpt count stride) →
        step s = exec i (turnTaken s (blockBytes b (s.ctx.pc.toNat % 32)) i.size)) ∧
      (privilegeOk s.ctx.ctl.mode i = true → ∀ count stride j more, i = .rpt count stride →
        decodeBytes rest = .ok (j, more) → privilegeOk s.ctx.ctl.mode j = true →
        let t := turnTaken s (blockBytes b (s.ctx.pc.toNat % 32)) 8
        step s = exec i { t with ctx := { t.ctx with follow := (BitVec.ofNat 128 (natOfBytes (rest.take j.size)), 0) } }) ∧
      (privilegeOk s.ctx.ctl.mode i = false → Delegated s 2 → ∃ t v, step s = .next t ∧
        EntersHandler { s with turn := false } t 2 v)) ∧
    (∀ w i, s.ctx.inst = true → s.ctx.latch = some w → decodeFields (Fields.unpack w.toNat) = .ok i →
      privilegeOk s.ctx.ctl.mode i = true →
      (s.turn = true → step s = exec i { s with turn := false }) ∧
      (s.turn = false → (∀ x ∈ s.agenda, s.cycle < x.1) → s.nextKick = some s.cur →
        step s = exec i { s with kicks := s.kicks.erase s.cur })) ∧
    (∀ c e rest, s.turn = false → s.agenda = (c, e) :: rest → c ≤ s.cycle → (s.kicks = [] ∨ eventOrder e < 3) →
      step s = exec e { s with agenda := rest }) ∧
    (s.turn = false → s.kicks = [] → (∀ x ∈ s.agenda, s.cycle < x.1) → s.replays = [] →
      (∀ u ∈ s.allThreads, s.visitFrom ≤ coreOf u →
        (∀ t ∈ s.allThreads, s.visitFrom ≤ coreOf t → coreOf u ≤ coreOf t) →
        step s = exec (.rotationVisit (coreOf u)) { s with visitFrom := coreOf u + 1 }) ∧
      ((∀ t ∈ s.allThreads, coreOf t < s.visitFrom) → ∃ t, step s = .next t ∧ t.cycle = s.cycle + 1 ∧
        t = { s with cycle := t.cycle, visitFrom := 0, kicks := t.kicks }))

/-- R86 to R88, R190, R215, R310: the spec names no stop of the machine: an error is a trap, a status, a report or a drop, after
which the machine goes on. So every instruction, with all its operands, and every event answers a next state in every state. -/
def Obligations.EveryInstructionAnswersANextState : Prop :=
  ∀ (i : Instr) (s : State), ∃ t, exec i s = .next t

/-- A context may issue in this cycle (R143, R144): it is ready since r, no swap is vacating its slot (R153), and it has
not issued in the last seven. -/
def Sys2Proof.ReadySince (s : State) (t r : Nat) : Prop :=
  (s.ctxAt t).inst = true ∧ s.vacating t = false ∧ (s.ctxAt t).wait.readyAt s.cycle = some r ∧
    ∀ l, (s.ctxAt t).lastIssue = some l → l < s.cycle → l + 8 ≤ s.cycle

/-- A slot of the core holds no position. -/
def Sys2Proof.NoPosition (s : State) (core i : Nat) : Prop := ∀ p : Fin 8, (s.core core).holders[p] ≠ some i

/-- The slot's context has the turn, and holds the position of this cycle. -/
def Sys2Proof.Selected (s t : State) (core i : Nat) : Prop :=
  t.turn = true ∧ t.cur = core * 16 + i ∧ t.ctx.lastIssue = some s.cycle ∧
    t.ctx.pc = (s.ctxAt (core * 16 + i)).pc ∧ t.ctx.regs = (s.ctxAt (core * 16 + i)).regs ∧
    t.ctx.latch = (s.ctxAt (core * 16 + i)).latch ∧ (t.core core).holders[s.cycle % 8]! = some i ∧ t.mem = s.mem ∧
    t.agenda = s.agenda

/-- R143, R144: the visit of position CYCLE mod 8 gives the turn to the context that holds it, if that may issue; else to
the one without a position that has waited longest, the lower slot on a tie, which then holds it; else nobody issues. A thread
in `exit` keeps its position (log 82). A core that has stopped, or whose cluster has been halted for 6 cycles, issues
nothing (R252). Here without pending cancels, engine faults, lost stores and breakpoints. -/
def Obligations.RotationVisitSelectsTheContext : Prop :=
  ∀ (core : Nat) (s : State), (∀ i, i < 16 → (s.ctxAt (core * 16 + i)).cancelled = false) →
    (∀ i, i < 16 → (s.ctxAt (core * 16 + i)).efaults = []) →
    (∀ i, i < 16 → (s.ctxAt (core * 16 + i)).lostStore = none) →
    (∀ i : Fin 4, (s.cluster (clusterOf core)).dbg.bpc[i].getLsbD 0 = false) →
    let mine (i : Nat) : Prop := (s.core core).holders[s.cycle % 8]! = some i
    ((s.cluster (clusterOf core)).dbg.halted = false →
      (∀ i r, i < 16 → mine i → ReadySince s (core * 16 + i) r →
        ∃ t, exec (.rotationVisit core) s = .next t ∧ Selected s t core i) ∧
      ((∀ i r, i < 16 → mine i → ¬ ReadySince s (core * 16 + i) r) →
        ((∃ i, mine i ∧ (s.ctxAt (core * 16 + i)).exiting = true) →
          ∃ t, exec (.rotationVisit core) s = .next t ∧ t = { s with cores := t.cores, clusters := t.clusters }) ∧
        (∀ i r, (∀ h, mine h → (s.ctxAt (core * 16 + h)).exiting = false) →
          i < 16 → ReadySince s (core * 16 + i) r → NoPosition s core i →
          (∀ j q, j < 16 → ReadySince s (core * 16 + j) q → NoPosition s core j → r < q ∨ (r = q ∧ i ≤ j)) →
          ∃ t, exec (.rotationVisit core) s = .next t ∧ Selected s t core i) ∧
        ((∀ i r, i < 16 → NoPosition s core i → ¬ ReadySince s (core * 16 + i) r) →
          ∃ t, exec (.rotationVisit core) s = .next t ∧ t = { s with cores := t.cores, clusters := t.clusters }))) ∧
    ((s.cluster (clusterOf core)).dbg.halted = true → ((s.cluster (clusterOf core)).dbg.haltAt + 6 ≤ s.cycle ∨
        (s.cluster (clusterOf core)).dbg.stopped.getLsbD (core % 8) = true) →
      exec (.rotationVisit core) s = .next s)

/-- R360, R80, R83, R110, R250, R257: after package reset CYCLE and the time base are 0, no thread is installed, every
readiness bit is 0 and no tile is fenced, a thread starts with zero registers that are all present, a watchpoint covers 8
bytes, the sampling interval is 256, memory lists no byte, so that every byte reads as the model chose for a byte that nothing
has written (log 3), and the first step does not stop. -/
def Obligations.ResetState : Prop :=
  State.reset.cycle = 0 ∧ State.reset.pkg.tbase = 0 ∧ (∀ t, (State.reset.ctxAt t).inst = false) ∧
    State.reset.pkg.coreReady = [] ∧ State.reset.pkg.clusterReady = [] ∧ State.reset.pkg.channelReady = [] ∧
    State.reset.pkg.segmentReady = [] ∧ State.reset.pkg.ringReady = 0 ∧ State.reset.pkg.fabReady = 0 ∧
    State.reset.pkg.dmgrReady = 0 ∧ State.reset.pkg.cmdpReady = 0 ∧ State.reset.pkg.xlatReady = 0 ∧ State.reset.pkg.fenced = [] ∧
    (∀ r, State.reset.g r = 0 ∧ State.reset.taint r = false ∧ State.reset.ctx.regs.hasG r = true) ∧
    (∀ r, State.reset.v r = VReg.zero) ∧ (∀ r : PReg, r ≠ 0 → State.reset.p r = 0) ∧
    State.reset.ctx.ctl.vlive = 0xFFFFFFFF ∧ State.reset.ctx.ctl.lease = 10 ∧ State.reset.ctx.ctl.retrylim = 64 ∧
    (∀ c (i : Fin 2), (State.reset.cluster c).dbg.wpc[i] = 0x1A) ∧
    (∀ d, (State.reset.die d).strainer.sctl.extractLsb' 32 32 = 256) ∧
    State.reset.mem.wf = true ∧ (∀ a, State.reset.mem.read a = Config.unwritten) ∧ ∃ t, step State.reset = .next t

/-- Every step keeps the canonical form of memory: addresses rise, and no byte is listed that reads the same unlisted. -/
def Obligations.StepKeepsMemoryCanonical : Prop :=
  ∀ s t : State, s.mem.wf = true → step s = .next t → t.mem.wf = true

/-! ## Events of threads, messages, migration and swaps (06, 07 R149 to R159, 14 R300 to R302, 15 R329 to R331, 19 R349) -/

/-- R119, R133, R135, R200, R314: the events that let a parked thread go on. A replay or a remote access's arrival runs
the latched instruction again; a full/empty replay does so at its core's turn, and is put off by 8 cycles while the thread's or
the bank's cluster is halted, where R252 says that it is suspended (the turn and the 8 cycles are the model's choice, logs 70
and 4); a returned allowance makes the core's waiting threads ready; a promotion probe that finds an empty
store queue and no registration on its way is answered at once. -/
def Sys2Proof.ParkedThreadsAreReplayed : Prop :=
  ∀ (t core : Nat) (s : State),
    ((s.ctxAt t).wait = .away .bank → ∃ u, exec (.bankConflictReplay t) s = .next u ∧ u = { s with kicks := s.kicks ++ [t] }) ∧
    ((s.ctxAt t).asked.contains remoteMark = true →
      (∀ x ∈ (s.core (coreOf t)).orphans, ¬ (x.1 = s.cycle ∧ x.2.1 = t)) →
      ∃ u, exec (.remoteReadMessage t) s = .next u ∧ u = { s with kicks := s.kicks ++ [t] }) ∧
    ((s.ctxAt t).wait = .away .fullEmpty →
      let bank := match (s.ctxAt t).firstAttempt with
        | some x => (x.2 * 4 - lsAddr 0 0) / 2 ^ 19
        | none => coreOf t
      let halted := (s.cluster (t / 128)).dbg.halted || (s.cluster (bank / 8)).dbg.halted
      (halted = false → ∃ u, exec (.fullEmptyReplay t) s = .next u ∧ t ∈ u.replays ∧ u = { s with replays := u.replays }) ∧
      (halted = true → ∃ u, exec (.fullEmptyReplay t) s = .next u ∧
        (s.cycle + 8, Instr.fullEmptyReplay t) ∈ u.agenda ∧ u = { s with agenda := u.agenda })) ∧
    (∃ u, exec (.sendAllowanceReturn core) s = .next u ∧ (u.core core).spent = (s.core core).spent - 1 ∧
      (coreOf t = core → (s.ctxAt t).inst = true → (s.ctxAt t).wait = .away .allowance →
        (u.ctxAt t).wait = .ready s.cycle) ∧
      (∀ x, (u.ctxAt x).regs = (s.ctxAt x).regs) ∧ u.mem = s.mem ∧ u.agenda = s.agenda) ∧
    ((s.ctxAt t).inst = true → (s.ctxAt t).asked = [1] → (s.core core).queue = [] →
      (∀ f ∈ (s.core core).fills, f.kind ≠ 1) → (∀ x ∈ (s.core core).promos, x.1 ≠ t) →
      ∃ u, exec (.promotionProbe t core false) s = .next u ∧ (u.ctxAt t).asked = [2] ∧
        (∃ c, (u.ctxAt t).wait = .timed .fence c ∧ s.cycle ≤ c) ∧ (u.ctxAt t).regs = (s.ctxAt t).regs ∧ u.mem = s.mem)

/-- R119, R133, R135, R200, R314: an access that loses its bank or finds its word in the other state is replayed, and
the replay events perform it. -/
def Obligations.ConflictsAndRetriesReplayTheAccess : Prop :=
  Sys2Proof.BankConflictReplaysTheAccess ∧
  Sys2Proof.FullEmptyRetriesUntilTheLimit ∧
  Sys2Proof.ParkedThreadsAreReplayed

/-- R118, R123, R160, R287, R316: a reply reaches the load that waits for it, which runs again with the line; an
acknowledgement takes its entry out of the store queue; a fetched line enters the instruction cache, and its thread is
ready. -/
def Sys2Proof.RepliesReachTheirAccess : Prop :=
  ∀ (t core id : Nat) (r : Req) (p : Reply) (s : State), (s.cluster (clusterOf r.core)).resetUntil ≤ s.cycle →
    (r.src = .load t → r.kind = .load → (s.ctxAt t).inst = true → (s.ctxAt t).job = r.job → (s.ctxAt t).latch ≠ none →
      r.line ∈ (s.ctxAt t).asked → (s.ctxAt t).wait = .away .access →
      ∃ u, exec (.memoryReply r p) s = .next u ∧ t ∈ u.kicks ∧
        (∃ g ∈ (u.ctxAt t).gather, g.line = r.line ∧ g.data = p.data ∧ g.st = p.st) ∧
        (u.ctxAt t).regs = (s.ctxAt t).regs ∧ (u.ctxAt t).pc = (s.ctxAt t).pc ∧ (u.ctxAt t).latch = (s.ctxAt t).latch) ∧
    (r.src = .queue core id → r.pol ≠ .own → (∃ e ∈ (s.core core).queue, e.id = id) →
      ∃ u, exec (.storeQueueAck r p) s = .next u ∧ ∀ e ∈ (u.core core).queue, e.id ≠ id) ∧
    (r.src = .fetch t → r.kind = .fetch → p.st = .ok → (s.ctxAt t).inst = true → (s.ctxAt t).job = r.job →
      (s.ctxAt t).latch = none → (s.ctxAt t).wait = .away .fetch → (∀ f ∈ (s.core r.core).fills, f.useOnce = false) →
      ∃ u, exec (.instructionCacheFill r p) s = .next u ∧ (u.ctxAt t).wait = .ready s.cycle ∧
        (u.ctxAt t).regs = (s.ctxAt t).regs ∧ (u.ctxAt t).pc = (s.ctxAt t).pc ∧
        ∃ l ∈ (u.core r.core).icache, l.job = r.job ∧ l.line = r.line ∧ l.data = p.data)

/-- R344, R346 to R349: an answer of the translation unit enters the core's attribute cache, or its rights, and its thread
looks again; a wake makes the thread ready in the next cycle, once every page that it waits for is mapped, and its core
forgets the pages that were not present; a page asked for is noted for the command processor; a leaf written as mapped stands
in the table, and wakes the threads recorded for the page 64 cycles later; a third mapping of a frame is refused, and the
leaf ends not mapped. A page that is written as not mapped loses its translations, and is gone once it is flushed and nothing
of it is held or on its way. That a wake forgets those pages, and comes after 64 cycles exactly, is the model's choice (log 71) where
R349 says within 64. -/
def Sys2Proof.PagesBecomeResident : Prop :=
  ∀ (t va : Nat) (leaf : Word) (s : State),
    ((s.ctxAt t).inst = true → (s.ctxAt t).wait = .away .access → findAttr (s.core (coreOf t)).attrs va = none →
      ∃ u, exec (.translationWalk t va) s = .next u ∧ t ∈ u.kicks ∧
        findAttr (u.core (coreOf t)).attrs va = some (match s.heldLeaf (baseOf (dieOf (coreOf t))) va with
          | some e => e.attr
          | none => (s.walk va).attr) ∧
        (u.ctxAt t) = s.ctxAt t ∧ u.mem = s.mem) ∧
    (∀ a, (s.ctxAt t).inst = true → (s.ctxAt t).wait = .away .access → findAttr (s.core (coreOf t)).attrs va = some a →
      leafMapped a.leaf = true → leafBad a.big a.leaf = false → findRights (s.core (coreOf t)).rights (leafDomain a.leaf) = none →
      ∃ u, exec (.translationWalk t va) s = .next u ∧ t ∈ u.kicks ∧
        findRights (u.core (coreOf t)).rights (leafDomain a.leaf) = some (s.rightsEntry (s.ctxAt t).job (leafDomain a.leaf)) ∧
        (u.ctxAt t) = s.ctxAt t ∧ u.mem = s.mem) ∧
    ((s.ctxAt t).inst = true → (s.ctxAt t).wait = .away .page →
      ∃ u, exec (.residencyWake t) s = .next u ∧
        (u.ctxAt t).wait = (if (s.ctxAt t).absent.all fun a => leafMapped (s.walk a).attr.leaf then .ready (s.cycle + 1)
          else .away .page) ∧
        (∀ a ∈ (u.core (coreOf t)).attrs, leafAbsent a.leaf = false) ∧ (u.ctxAt t).regs = (s.ctxAt t).regs ∧
        (u.ctxAt t).latch = (s.ctxAt t).latch ∧ u.mem = s.mem) ∧
    (let page := if (s.walk va).attr.big then va / 2 ^ 29 * 8192 else va / 2 ^ 16;
      (∃ p ∈ s.ms.parked, p.1 = page) → ∃ u, exec (.pageInRequest va) s = .next u ∧ page ∈ u.pkg.pageIns ∧
        u = { s with pkg := { s.pkg with pageIns := u.pkg.pageIns } }) ∧
    (∀ a big, s.leafAddr va = some (a, big) → s.mem.wf = true →
      let old : Attr := { page := if big then va / 2 ^ 29 else va / 2 ^ 16, big := big, leaf := BitVec.ofNat 64 (s.mem.readNat a 8) }
      let mapped (l : Word) : Bool := leafMapped l && !leafBad big l
      let page := if big then va / 2 ^ 29 * 8192 else va / 2 ^ 16
      ((∀ x ∈ s.ms.leaving, ¬ (x.attr.page = old.page ∧ x.attr.big = big)) →
        (mapped leaf = true → s.thirdMapping leaf big page = false → s.channelsReady leaf big = true →
          ∃ u, exec (.leafWriteValid va leaf) s = .next u ∧ u.mem.readNat a 8 = leaf.toNat ∧
            SameBytesBut s u a 8 ∧ u.ctx = s.ctx ∧ u.ctxs = s.ctxs ∧
            ∀ x, (va / 2 ^ 16, x) ∈ s.ms.parked → (s.cycle + 64, Instr.residencyWake x) ∈ u.agenda) ∧
        (mapped leaf = true → s.thirdMapping leaf big page = true →
          (leafMapped old.leaf = true → exec (.leafWriteValid va leaf) s =
            .next { s with agenda := insertDue s.cycle (.leafWriteValid va 0) s.agenda }) ∧
          (leafMapped old.leaf = false → ∃ u, exec (.leafWriteValid va leaf) s = .next u ∧ u.mem.readNat a 8 = 0 ∧
            SameBytesBut s u a 8 ∧ u.ctx = s.ctx ∧ u.ctxs = s.ctxs ∧ u.agenda = s.agenda)) ∧
        (mapped leaf = true → s.thirdMapping leaf big page = false → s.channelsReady leaf big = false →
          exec (.leafWriteValid va leaf) s = .next s) ∧
        (mapped leaf = false → mapped old.leaf = true →
          ∃ u, exec (.leafWriteValid va leaf) s = .next u ∧ u.mem.readNat a 8 = leaf.toNat ∧ SameBytesBut s u a 8 ∧
            (∀ k, ∀ x ∈ (u.core k).attrs, x.covers va = false) ∧ (∀ x ∈ u.ms.xlat, x.covers va = false) ∧
            { attr := old, flushed := false } ∈ u.ms.leaving ∧ (s.cycle + 120, Instr.leafWriteValid va leaf) ∈ u.agenda ∧
            u.ctx = s.ctx ∧ u.ctxs = s.ctxs)) ∧
      (∀ x, s.ms.leaving.find? (fun y => y.attr.page = old.page && y.attr.big = big) = some x → x.flushed = true →
        leaf = old.leaf →
        let pl := s.placeUnder 0 x.attr (x.attr.page * pageLines big)
        let held := s.ms.home.any fun h => pl.hits h.1 && (h.2.registered ≠ 0 || !h.2.noSharers)
        ((s.pageComing x.attr pl = true ∨ s.pageQuiet pl = false) → exec (.leafWriteValid va leaf) s =
          .next { s with agenda := insertDue (s.cycle + 1) (.leafWriteValid va leaf) s.agenda }) ∧
        (s.pageComing x.attr pl = false → s.pageQuiet pl = true → held = true →
          ∃ u, exec (.leafWriteValid va leaf) s = .next u ∧ x ∈ u.ms.leaving ∧
            (s.cycle + 1, Instr.leafWriteValid va leaf) ∈ u.agenda ∧ u = { s with agenda := u.agenda }) ∧
        (s.pageComing x.attr pl = false → s.pageQuiet pl = true → held = false →
          ∃ u, exec (.leafWriteValid va leaf) s = .next u ∧ u.ms.leaving = s.ms.leaving.filter (· ≠ x) ∧ u.mem = s.mem)))

/-- R136, R138, R344, R346 to R349: `cflush` and `ptouch`, and how a page becomes resident. -/
def Obligations.PagesAndLinesAreTouchedAndResident : Prop :=
  Sys2Proof.LinesAndPagesAreTouched ∧ Sys2Proof.PagesBecomeResident

/-- The cycle in which a message of the thread that takes d cycles arrives when its core has the allowances: none of its
stores is under way, at package scope, when it leaves (R313, R353). -/
def Sys2Proof.arrival (s : State) (d : Nat) : Nat := max s.cycle (max s.ctx.sent s.ctx.pkgAt) + d

/-- A message of two flits is on its way: it arrives in its time, or later where it waits for allowances (R314). -/
def Sys2Proof.OnItsWay (s t : State) (d : Nat) (m : Instr) : Prop :=
  ∃ c, (c, m) ∈ t.agenda ∧ arrival s d ≤ c ∧ ((s.core s.myCore).spent ≤ 6 → c = arrival s d)

/-- R329, R331, R314, R315, R330: `send` and `mcast` of a thread whose stores have performed send their value to the thread,
or to each member of the tree; a message to nobody is dropped; a member's `radd` adds its value to the round, and the last
one has the sum delivered, for which the root's thread waits; `ntree` defines a tree from its descriptor. -/
def Sys2Proof.MessagesLeaveTheThread : Prop :=
  ∀ (a b : GReg) (x : VIdx) (idx : BitVec 5) (s : State), noStreams s → s.covered s.cur false = [] → s.cur < 65536 →
    (s.hasG [a, b] = true →
      ((s.g a).toNat < 65536 → s.boundTo (coreOf (s.g a).toNat) s.ctx.job = true →
        (s.holdsThread (s.g a).toNat s.ctx.job = true → ∃ t, exec (.send a b idx) s = .next t ∧
          OnItsWay s t (msgCycles s.myCore (coreOf (s.g a).toNat)) (.sendDelivery (s.cur, (s.g a).toNat) s.ctx.job
            (Fin.ofNat 32 idx.toNat) (s.g b) s.ctx.ctl.ptime.toNat) ∧
          t.mem = s.mem ∧ SameRegisters s t ∧ Passes s t 8) ∧
        (s.holdsThread (s.g a).toNat s.ctx.job = false → ∃ t, exec (.send a b idx) s = .next t ∧ WritesNothing s t 8)) ∧
      (65536 ≤ (s.g a).toNat → Delegated s 10 → ∃ t, exec (.send a b idx) s = .next t ∧ EntersHandler s t 10 (s.g a)) ∧
      (∀ T, (s.g a).toNat < 16 → s.tree s.ctx.job (s.g a).toNat = some T →
        ∃ t, exec (.mcast a b idx) s = .next t ∧
          (∀ m ∈ T.members, OnItsWay s t (treeCycles T.members) (.sendDelivery (s.cur, m) s.ctx.job (Fin.ofNat 32 idx.toNat)
            (s.g b) s.ctx.ctl.ptime.toNat)) ∧
          t.mem = s.mem ∧ SameRegisters s t ∧ Passes s t 8)) ∧
    (∀ T, s.hasG [a] = true → s.ctx.regs.vPres.getLsbD x.val = true → (s.g a).toNat < 16 →
      s.tree s.ctx.job (s.g a).toNat = some T → s.cur ∈ T.members → (s.v x).tag = 8 →
      Table.get? T.contrib s.cur = none → s.performed .pkg false = true →
      ∃ t T', exec (.radd a x idx) s = .next t ∧ t.tree s.ctx.job (s.g a).toNat = some T' ∧ T'.members = T.members ∧
        Table.get? T'.contrib s.cur = some (s.v x) ∧ (T.members.headD 0 = s.cur → T'.idx = idx.toNat ∧
          t.ctx.wait = .away .round) ∧
        (T'.full = true →
          (s.cycle + treeCycles T.members, Instr.reductionDelivery s.ctx.job ((s.g a).toNat, none)) ∈ t.agenda) ∧
        t.mem = s.mem ∧ SameRegisters s t ∧ Passes s t 8) ∧
    (∀ (n : BitVec 4) (ms : List Nat) (core off : Nat), s.hasG [a] = true →
      ListHere s (s.g a) (8 + 4 * ms.length) core off →
      treeMembers (s.mem.readBytes (lsAddr core off) (8 + 4 * ms.length)) = some ms →
      (∀ m ∈ ms, s.boundTo (coreOf m) s.ctx.job = true) → s.tree s.ctx.job n.toNat = none →
      ∃ t, exec (.ntree a n) s = .next t ∧
        t.tree s.ctx.job n.toNat = some { members := ms, contrib := [], idx := 0, ptime := 0 } ∧
        Rests s t ((if allSame (· / 8192) ms then 40 else 100) + (ms.length + 7) / 8) 8 ∧ t.mem = s.mem)

/-- R69, R139, R314, R315, R329, R330, R331: `rput` in both forms, sends, multicasts, reductions and their trees. -/
def Obligations.RegisterMessagesLeaveTheirThread : Prop :=
  Sys2Proof.RputSendsTheValue ∧ Sys2Proof.VectorRputSendsTheValue ∧ Sys2Proof.MessagesLeaveTheThread

/-- R78, R139, R154, R199, R315, R330, R331: a value that arrives is in the register, which is present, and the wake-pending bit
is set; a store's bytes land where their banks are free, and no other byte changes; a full round's sum goes to its root,
whose thread is ready, here that of one core's two slots; and a sum follows a root that has moved on. -/
def Sys2Proof.MessagesArrive : Prop :=
  ∀ (t u job ptime : Nat) (d : GReg) (w : Word) (x : VIdx) (y : VReg) (s : State),
    (t < 65536 → (s.ctxAt t).inst = true → (s.ctxAt t).job = job →
      (d ≠ 0 →
        (∃ v, exec (.rputDelivery (u, t) job (.g d w)) s = .next v ∧ (v.ctxAt t).regs.g[d] = w ∧
          (v.ctxAt t).regs.hasG d = true ∧ (v.ctxAt t).regs.gTaint.getLsbD d.val = false ∧ (v.ctxAt t).ctl.wake = true ∧
          (v.ctxAt t).pc = (s.ctxAt t).pc ∧ v.mem = s.mem) ∧
        (∃ v, exec (.sendDelivery (u, t) job d w ptime) s = .next v ∧ (v.ctxAt t).regs.g[d] = w ∧
          (v.ctxAt t).regs.hasG d = true ∧ (v.ctxAt t).ctl.wake = true ∧ (v.ctxAt t).pc = (s.ctxAt t).pc ∧ v.mem = s.mem)) ∧
      (∃ v, exec (.rputDelivery (u, t) job (.v x y)) s = .next v ∧ (v.ctxAt t).regs.v[x] = y ∧
        (v.ctxAt t).regs.vPres.getLsbD x.val = true ∧ (v.ctxAt t).ctl.wake = true ∧ (v.ctxAt t).pc = (s.ctxAt t).pc ∧
        v.mem = s.mem) ∧
      (∀ n, ∃ v, exec (.reductionDelivery job (n, some (t, x, y, ptime))) s = .next v ∧ (v.ctxAt t).regs.v[x] = y ∧
        (v.ctxAt t).regs.vPres.getLsbD x.val = true ∧ (v.ctxAt t).ctl.wake = true ∧ v.mem = s.mem)) ∧
    (t < 65536 → (s.ctxAt t).inst = false → Table.get? (s.core (coreOf t)).forward t = none →
      ∃ v, exec (.rputDelivery (u, t) job (.g d w)) s = .next v ∧ v = { s with clusters := v.clusters }) ∧
    (∀ cells : List (Nat × Byte),
      ((∀ r ∈ s.cellRows (s.ctxAt t).job (cells.map (·.1)), (s.portsNow r.1).getLsbD r.2 = false) →
        (cells.map (·.1)).Nodup → s.mem.wf = true →
        ∃ v, exec (.remoteStoreMessage t cells) s = .next v ∧ (∀ c ∈ cells, v.mem.read c.1 = c.2) ∧
          (∀ a, a ∉ cells.map (·.1) → v.mem.read a = s.mem.read a) ∧ (∀ k, (v.ctxAt k).regs = (s.ctxAt k).regs)) ∧
      ((∃ r ∈ s.cellRows (s.ctxAt t).job (cells.map (·.1)), (s.portsNow r.1).getLsbD r.2 = true) →
        ∃ v, exec (.remoteStoreMessage t cells) s = .next v ∧
          (s.cycle + 1, Instr.remoteStoreMessage t cells) ∈ v.agenda ∧ v.mem = s.mem)) ∧
    (∀ n T a b y z, s.tree job n = some T → T.members.length = 2 → T.members.head? = some t → T.contrib = [(a, y), (b, z)] →
      a / 16 = b / 16 → t / 16 = a / 16 → t < 65536 → (s.ctxAt t).inst = true → (s.ctxAt t).job = job →
      ∃ v r, exec (.reductionDelivery job (n, none)) s = .next v ∧ (v.ctxAt t).regs.v[Fin.ofNat 32 T.idx] = r ∧ r.tag = 8 ∧
        (∀ i, i < 16 → laneAt r 32 i = (Fmt.f32.add RMode.rne (laneAt y 32 i) (laneAt z 32 i)).1) ∧
        (v.ctxAt t).regs.vPres.getLsbD (T.idx % 32) = true ∧ (v.ctxAt t).ctl.wake = true ∧
        ((s.ctxAt t).wait = .away .round → (s.ctxAt t).latch = none → (s.ctxAt t).asked = [roundMark, n] → (v.ctxAt t).wait = .ready s.cycle) ∧
        v.tree job n = some { T with contrib := [] })

/-- R78, R118, R123, R139, R154, R160, R199, R287, R315, R316, R330, R331: replies reach their access, and messages
their register, their bytes or their root. -/
def Obligations.RepliesAndMessagesArrive : Prop :=
  Sys2Proof.RepliesReachTheirAccess ∧ Sys2Proof.MessagesArrive

/-- R155 to R159: a packet that finds a free slot runs there, with its PC, its g-registers and the v-registers that VLIVE
names, and the slot that it left forwards to it; a full buffer refuses it for 8 cycles; one that is held takes a slot that has
come free, and what came for it follows; one that has waited 4,096 cycles goes back and reads by a message. The status of a unit that ends elsewhere comes to its slot, where a task's record is marked and the next
index of a bind record starts. -/
def Sys2Proof.ThreadsMigrate : Prop :=
  ∀ (t core : Nat) (s : State), Rising s.ctxs → core < 4096 → core ≠ coreOf t →
    ((s.ctxAt t).inst = true → (s.ctxAt t).asked = [core] → (s.ctxAt t).wait = .away .access →
      (∀ i, (s.core core).packets.length < 4 → s.freeSlot core = some i →
        ∃ u w, exec (.migrationArrival t) s = .next u ∧ exec (.migrationRetry t) s = .next w ∧ u = w ∧
          (u.ctxAt (core * 16 + i)).inst = true ∧ (u.ctxAt (core * 16 + i)).pc = (s.ctxAt t).pc ∧
          (u.ctxAt (core * 16 + i)).regs.g = (s.ctxAt t).regs.g ∧
          (∀ r : Fin 32, (s.ctxAt t).ctl.vlive.getLsbD r.val = true →
            (u.ctxAt (core * 16 + i)).regs.v[r] = (s.ctxAt t).regs.v[r]) ∧
          (u.ctxAt t).inst = false ∧ Table.get? (u.core (coreOf t)).forward t = some (core * 16 + i) ∧
          core * 16 + i ∈ u.kicks) ∧
      (4 ≤ (s.core core).packets.length →
        ∃ u, exec (.migrationArrival t) s = .next u ∧ (s.cycle + 8, Instr.migrationRetry t) ∈ u.agenda ∧
          (u.ctxAt t) = s.ctxAt t ∧ u.mem = s.mem)) ∧
    (∀ p i, (s.ctxAt t).inst = false → Table.get? (s.core (coreOf t)).forward t = some (inBuffer + core) →
      (s.core core).packets.find? (fun q => q.src = t) = some p → s.freeSlot core = some i →
      ∃ u, exec (.migrationArrival t) s = .next u ∧ (u.ctxAt (core * 16 + i)).inst = true ∧
        (u.ctxAt (core * 16 + i)).pc = p.ctx.pc ∧ (u.ctxAt (core * 16 + i)).regs = p.ctx.regs ∧
        (∀ q ∈ (u.core core).packets, q.src ≠ t) ∧ (∀ m ∈ p.held, (s.cycle, readdress (core * 16 + i) m.2) ∈ u.agenda) ∧
        Table.get? (u.core (coreOf t)).forward t = some (core * 16 + i) ∧ core * 16 + i ∈ u.kicks) ∧
    (∀ p, Table.get? (s.core (coreOf t)).forward t = some (inBuffer + core) →
      (s.core core).packets.find? (fun q => q.src = t) = some p → p.arrived + 4096 ≤ s.cycle →
      ∃ u, exec (.migrationTimeout t) s = .next u ∧ (u.ctxAt t).inst = true ∧ (u.ctxAt t).pc = p.ctx.pc ∧
        (u.ctxAt t).regs = p.ctx.regs ∧ (u.ctxAt t).asked = [remoteMark] ∧
        (s.cycle + msgCycles core (coreOf t), Instr.remoteReadMessage t) ∈ u.agenda ∧
        ∀ q ∈ (u.core core).packets, q.src ≠ t) ∧
    (∀ (e : UnitEnd) (x : UnitInfo), Table.get? (s.core (coreOf t)).reserved (slotOf t) = some x →
      (∀ y, Table.get? (s.core (coreOf t)).forward t = some y →
        y ≠ t ∧ Table.get? (s.core (coreOf y)).forward y = none) →
      (∀ rec, x.duty = .task rec → s.mem.wf = true →
        ∃ u, exec (.migratedUnitStatus t e) s = .next u ∧ u.mem.read (rec + 18) = 4 ∧ SameBytesBut s u (rec + 18) 1) ∧
      (∀ entry arg i last res, x.duty = .record entry arg i last res → i < last →
        ∃ u, exec (.migratedUnitStatus t e) s = .next u ∧ (s.cycle + 8, Instr.unitRestart t) ∈ u.agenda ∧
          (∃ c n f, (c, Instr.doneMessage n f) ∈ u.agenda ∧ f.lid = e.lid) ∧ u.mem = s.mem))

/-- R152 to R154, R302, R380: a swap of a context that owes nothing begins, and its slot is vacant; 52 cycles later, and the time
of the entry's fill, which the spec leaves open (log 86), the two contexts have changed places: the slot runs the cached one, and
the cache holds the one that ran. A deferred swap changes nothing and is tried again; one whose context still owes a reply
vacates the slot first. What defers a swap and what a context owes is the model's reading of R153 (log 50). `ctxswap` starts a
swap of another slot of its cluster and waits for its end; the address fault of one that has failed is the model's choice (logs
50 and 78). A kind-2 record starts a swap. -/
def Sys2Proof.ContextsAreSwapped : Prop :=
  ∀ (t e : Nat) (iss : Option Nat) (s : State), t < 65536 → e < 256 →
    (Rising s.ctxs → s.swapAt t = none → s.entryIdle t e = true → s.entryFits t e = true → (s.ctxAt t).inst = true →
      (s.swapReady t = true → ∃ u o, exec (.contextSwap (t, iss) e) s = .next u ∧ u.swapAt t = some (e, some o) ∧
        o.regs = (s.ctxAt t).regs ∧ o.pc = (s.ctxAt t).pc ∧ o.ctl = (s.ctxAt t).ctl ∧ o.wait = (s.ctxAt t).wait ∧
        (u.ctxAt t).inst = false ∧ (∀ p : Fin 8, (u.core (coreOf t)).holders[p] ≠ some (slotOf t)) ∧
        (s.cycle + (52 + (if (Table.get? (s.cluster (t / 128)).cache e).isSome then Config.swapFill (t / 128) e s.cycle else 0)),
          Instr.contextSwap (t, iss) (e + 256)) ∈ u.agenda ∧ u.mem = s.mem) ∧
      (s.swapDeferred t = true → ∃ u, exec (.contextSwap (t, iss) e) s = .next u ∧ u.swapAt t = none ∧
        u.ctxAt t = s.ctxAt t ∧ (s.cycle + 1, Instr.contextSwap (t, iss) e) ∈ u.agenda ∧ u.mem = s.mem) ∧
      (s.swapDeferred t = false → s.swapOwes t = true → ∃ u, exec (.contextSwap (t, iss) e) s = .next u ∧
        u.swapAt t = some (e + 256, none) ∧ (u.ctxAt t).inst = true ∧ (u.ctxAt t).regs = (s.ctxAt t).regs ∧
        (∀ p : Fin 8, (u.core (coreOf t)).holders[p] ≠ some (slotOf t)) ∧
        (s.cycle + 1, Instr.contextSwap (t, iss) e) ∈ u.agenda ∧ u.mem = s.mem)) ∧
    (∀ x c o, s.swapAt t = some (e, some o) → Table.get? (s.cluster (t / 128)).cache e = some (x, c) → c.inst = true →
      ∃ u, exec (.contextSwap (t, iss) (e + 256)) s = .next u ∧ (u.ctxAt t).inst = true ∧ (u.ctxAt t).regs = c.regs ∧
        (u.ctxAt t).pc = c.pc ∧ (u.ctxAt t).job = c.job ∧ Table.get? (u.cluster (t / 128)).cache e = some (t, o) ∧
        u.mem = s.mem) ∧
    (∀ a b : GReg, s.hasG [a, b] = true → (s.g a).toNat = e → (s.g b).toNat = t →
      (s.ctx.asked = [] → t / 128 = s.myCluster → t ≠ s.cur →
        (∀ x c, Table.get? (s.cluster s.myCluster).cache e = some (x, c) → x = t ∧ c.job = s.ctx.job) →
        ∃ u, exec (.ctxswap a b) s = .next u ∧ u.ctx.wait = .away .jobWait ∧ u.ctx.asked = [swapMark, t, e] ∧
          u.ctx.latch = s.ctx.latch ∧ u.ctx.regs = s.ctx.regs ∧ (s.cycle, Instr.contextSwap (t, some s.cur) e) ∈ u.agenda ∧
          u = { s with ctx := u.ctx, agenda := u.agenda }) ∧
      (s.ctx.asked = [swapMark + 1, 0] → ∃ u, exec (.ctxswap a b) s = .next u ∧ WritesNothing s u 8) ∧
      (s.ctx.asked = [swapMark + 1, 1] → Delegated s 10 →
        ∃ u, exec (.ctxswap a b) s = .next u ∧ EntersHandler s u 10 (s.g b))) ∧
    (∀ r : BindRec, recordOk 2 r = true → r.entry.toNat = e →
      ∃ u, exec (.bindRecordSwap t (some r)) s = .next u ∧ (s.cycle, Instr.contextSwap (t, none) e) ∈ u.agenda ∧
        u.ctx = s.ctx ∧ u.ctxs = s.ctxs ∧ u.mem = s.mem) ∧
    (∀ r : BindRec, (recordOk 2 r = false ∨ 256 ≤ r.entry.toNat) →
      ∃ u, exec (.bindRecordSwap t (some r)) s = .next u ∧ t % 8192 ∈ (u.die (dieOf (coreOf t))).errors ∧
        u.agenda = s.agenda ∧ u.cores = s.cores ∧ u.ctxs = s.ctxs)

/-- R152 to R154, R155 to R159, R302, R380: threads migrate, and contexts are swapped. -/
def Obligations.ThreadsMigrateAndSwap : Prop :=
  Sys2Proof.ThreadsMigrate ∧ Sys2Proof.ContextsAreSwapped

/-- R195, R300 to R302: a bind record that the scheduler may act on binds the core to the launch's job with its partition
and reserves the slot; one that breaks a rule is an error, one whose partition is not its launch's too (the model's reading,
log 92); the unit's context starts with its index, its argument and its
launch in g1 to g3; a kind-3 record of an empty core releases it; a freed cluster is cleared in 1,024 cycles, after which its
local stores and its weight layers read as cleared. -/
def Obligations.BindRecordsStartUnits : Prop :=
  ∀ (t : Nat) (r : BindRec) (s : State), t < 65536 →
    (s.dispatchOk t r = true → s.slotOpen t = true → s.mayBind (coreOf t) r.job.toNat r.ls.toNat = true →
      ∃ u x, exec (.bindRecordDispatch t (some r)) s = .next u ∧ (u.core (coreOf t)).job = some r.job.toNat ∧
        u.lsSize (coreOf t) = r.ls.toNat * 16384 ∧
        Table.get? (u.core (coreOf t)).reserved (slotOf t) = some x ∧ x.lid = r.lid.toNat ∧
        ∃ c, s.cycle + 16 ≤ c ∧ x.due = some c ∧ (c, Instr.unitRestart t) ∈ u.agenda) ∧
    (s.dispatchOk t r = true → (s.slotOpen t && s.mayBind (coreOf t) r.job.toNat r.ls.toNat) = false →
      ∃ u, exec (.bindRecordDispatch t (some r)) s = .next u ∧
        (s.cycle + 1, Instr.bindRecordDispatch t none) ∈ u.agenda ∧ u.cores = s.cores ∧ u.ctxs = s.ctxs ∧ u.mem = s.mem) ∧
    (s.dispatchOk t r = false →
      ∃ u, exec (.bindRecordDispatch t (some r)) s = .next u ∧ t % 8192 ∈ (u.die (dieOf (coreOf t))).errors ∧
        u.cores = s.cores ∧ u.ctxs = s.ctxs) ∧
    (recordOk 3 r = true → s.coreEmpty (coreOf t) = true →
      ∃ u, exec (.bindRecordReleaseCore t (some r)) s = .next u ∧ (u.core (coreOf t)).job = none ∧ u.mem = s.mem) ∧
    (recordOk 3 r = false → ∃ u, exec (.bindRecordReleaseCore t (some r)) s = .next u ∧
      t % 8192 ∈ (u.die (dieOf (coreOf t))).errors ∧ u.cores = s.cores ∧ u.ctxs = s.ctxs) ∧
    (∀ x entry arg i last res c l, Table.get? (s.core (coreOf t)).reserved (slotOf t) = some x → x.due = some c →
      x.duty = .record entry arg i last res → c ≤ s.cycle → (s.ctxAt t).inst = false → s.launch? x.lid = some l →
      ∃ u, exec (.unitRestart t) s = .next u ∧ (u.ctxAt t).inst = true ∧ (u.ctxAt t).pc = entry ∧
        (u.ctxAt t).job = l.job ∧ (u.ctxAt t).regs.g[1] = BitVec.ofNat 64 i ∧ (u.ctxAt t).regs.g[2] = arg ∧
        (u.ctxAt t).regs.g[3] = BitVec.ofNat 64 x.lid ∧ (∀ k : Fin 32, 3 < k.val → (u.ctxAt t).regs.g[k] = 0) ∧
        (u.ctxAt t).ctl.mode = (if res then 2 else 0) ∧ u.mem = s.mem) ∧
    (∀ k, ∃ u v, exec (.clusterClear k) s = .next u ∧ (u.cluster k).clearing = true ∧
      (s.cycle + 1024, Instr.clusterClearDone k) ∈ u.agenda ∧ exec (.clusterClearDone k) s = .next v ∧
      (v.cluster k).clearing = false ∧ (v.cluster k).accs = [] ∧ (v.cluster k).barriers = [] ∧ (v.cluster k).jobs = [] ∧
      (∀ i off, i < 8 → off < 2 ^ 19 → v.mem.read (lsAddr (k * 8 + i) off) = Config.unwritten) ∧
      (∀ off, off < 2 ^ 22 → v.mem.read (weightAddr k off) = Config.unwritten))

/-! ## Tasks, forks and launches (14_die_work R296 to R313, 15_die_ops R322 to R328) -/

/-- An operand names n bytes, n-aligned, in a local store bound to the job (R322). -/
def Sys2Proof.CellHere (s : State) (a : Word) (n core off : Nat) : Prop :=
  targetOf s.myCore a = .ls core off ∧ off % n = 0 ∧ off + n ≤ s.lsSize core ∧ s.boundTo core s.ctx.job = true
/-- The bank of the cell serves the thread now: its store lies in the super-group and the ports are free (R130, R200). -/
def Sys2Proof.BankFree (s : State) (n core off : Nat) : Prop :=
  near s.myCore core = true ∧ s.portsNow core &&& banksOf off n (s.job s.ctx.job).bankKey = 0

/-- The bytes of a task record (R304): entry, argument, dependence count, state, launch. -/
def Sys2Proof.RecordHolds (t : State) (rec : Nat) (entry arg : Word) (count st lid : Nat) : Prop :=
  t.mem.readNat rec 8 = entry.toNat ∧ t.mem.readNat (rec + 8) 8 = arg.toNat ∧ t.mem.readNat (rec + 16) 2 = count ∧
    (t.mem.read (rec + 18)).toNat = st ∧ t.mem.readNat (rec + 24) 4 = lid % 2 ^ 32

/-- R304 to R306, R322, R323: `spawn` writes a task record, waiting, or ready and in the die's ready queue; `tdec` sends a
decrement; the decrement that reaches zero makes the task ready on its core's run list, an early one counts as a fault of
the launch; the oldest task of a run list starts in the lowest free slot with its record, its argument and its launch in g1
to g3, and a task of a ready queue in the slot that the Infuser chooses, here of a core bound to its job (log 8); an idle die
asks a neighbour, which gives half of a launch's range. -/
def Obligations.TasksAreSpawnedAndRun : Prop :=
  (∀ (d a b c : GReg) (any : Bool) (disp : BitVec 32) (core off : Nat) (s : State), s.hasG [d, a, b, c] = true →
    CellHere s (s.g d) 32 core off → BankFree s 32 core off → s.performed .pkg false = true → s.mem.wf = true →
    (s.g b).toNat ≤ 65535 →
    (any = true ∨ (1 ≤ (s.g c).toNat ∧ (s.g c).toNat < 256)) →
    (s.mem.read (lsAddr core off + 18) = 0 ∨ s.mem.read (lsAddr core off + 18) = 4) →
    (∀ l, s.launch? s.ctx.unit.lid = some l → l.cancelled = false) →
    (s.ctx.skipWatch = true ∨ s.watchHit [((s.g d).toNat, 32)] true true = none) →
    ((s.g b) ≠ 0 → ∃ t, exec (.spawn d a b c any disp) s = .next t ∧
      RecordHolds t (lsAddr core off) (s.ctx.pc + disp.signExtend 64 * 4) (s.g a) (s.g b).toNat 1 s.ctx.unit.lid ∧
      SameBytesBut s t (lsAddr core off) 32 ∧ SameRegisters s t ∧ Passes s t 12) ∧
    ((s.g b) = 0 → any = true → readyRoom s s.myDie = true → ∃ t, exec (.spawn d a b c any disp) s = .next t ∧
      RecordHolds t (lsAddr core off) (s.ctx.pc + disp.signExtend 64 * 4) (s.g a) 0 2 s.ctx.unit.lid ∧
      ReadyItem.task (lsAddr core off) s.ctx.job s.ctx.unit.lid ∈ (t.die s.myDie).ready ∧
      SameBytesBut s t (lsAddr core off) 32 ∧ SameRegisters s t ∧ Passes s t 12)) ∧
  (∀ (a : GReg) (core off : Nat) (s : State), s.hasG [a] = true → CellHere s (s.g a) 32 core off → noStreams s →
    s.covered s.cur false = [] → s.cur < 65536 →
    ∃ t, exec (.tdec a) s = .next t ∧
      OnItsWay s t (msgCycles s.myCore core) (.taskDecrement (lsAddr core off) s.ctx.job s.ctx.ctl.ptime.toNat) ∧
      t.mem = s.mem ∧ SameRegisters s t ∧ Passes s t 8) ∧
  (∀ (rec job ptime : Nat) (s : State), s.mem.wf = true →
    let n := s.mem.readNat (rec + 16) 2
    (1 < n → s.mem.read (rec + 18) ≠ 4 → ∃ t, exec (.taskDecrement rec job ptime) s = .next t ∧
      t.mem.readNat (rec + 16) 2 = n - 1 ∧ SameBytesBut s t (rec + 16) 2) ∧
    (n = 1 → s.mem.read (rec + 18) = 1 → ∃ t, exec (.taskDecrement rec job ptime) s = .next t ∧
      t.mem.readNat (rec + 16) 2 = 0 ∧ t.mem.read (rec + 18) = 2 ∧ SameBytesBut s t (rec + 16) 3 ∧
      rec ∈ (t.core (cellCore rec)).runList ∧ (s.cycle + 16, Instr.runListInstall (cellCore rec, none)) ∈ t.agenda) ∧
    (n = 0 → s.mem.read (rec + 18) ≠ 4 → ∀ l, s.launch? (s.mem.readNat (rec + 24) 4) = some l →
      ∃ t L, exec (.taskDecrement rec job ptime) s = .next t ∧ t.mem = s.mem ∧
        t.launch? (s.mem.readNat (rec + 24) 4) = some L ∧ L.flags = l.flags ||| stTdx)) ∧
  (∀ (core i rec : Nat) (rest : List Nat) (l : Launch) (s : State), s.freeSlot core = some i → s.mem.wf = true →
    (s.core core).runList = rec :: rest → s.launch? (s.mem.readNat (rec + 24) 4) = some l →
    ∃ t, exec (.runListInstall (core, none)) s = .next t ∧ (t.ctxAt (core * 16 + i)).inst = true ∧
      (t.ctxAt (core * 16 + i)).pc = BitVec.ofNat 64 (s.mem.readNat rec 8) ∧
      (t.ctxAt (core * 16 + i)).regs.g[1] = BitVec.ofNat 64 rec ∧
      (t.ctxAt (core * 16 + i)).regs.g[2] = BitVec.ofNat 64 (s.mem.readNat (rec + 8) 8) ∧
      (t.ctxAt (core * 16 + i)).regs.g[3] = BitVec.ofNat 64 (s.mem.readNat (rec + 24) 4) ∧
      t.mem.read (rec + 18) = 3 ∧ SameBytesBut s t (rec + 18) 1 ∧ (t.core core).runList = rest) ∧
  (∀ (core i rec job lid : Nat) (l : Launch) (s : State), i < 16 → s.mem.wf = true → s.launch? lid = some l →
    (s.die (dieOf core)).readyTask rec = some (job, lid) → s.mem.readNat (rec + 24) 4 = lid →
    (s.slotOpen (core * 16 + i) = true → s.boundTo core job = true → (s.core core).slices = l.desc.ls →
      s.mayBind core job l.desc.ls = true →
      ∃ t, exec (.runListInstall (core, some (i, rec))) s = .next t ∧ (t.ctxAt (core * 16 + i)).inst = true ∧
        (t.ctxAt (core * 16 + i)).pc = BitVec.ofNat 64 (s.mem.readNat rec 8) ∧
        (t.ctxAt (core * 16 + i)).regs.g[1] = BitVec.ofNat 64 rec ∧
        t.mem.read (rec + 18) = 3 ∧ SameBytesBut s t (rec + 18) 1 ∧
        ∀ x ∈ (t.die (dieOf core)).ready, x.isTask rec = false) ∧
    ((s.slotOpen (core * 16 + i) && s.mayBind core job l.desc.ls) = false → s.taskDue (core * 16 + i) rec = none →
      exec (.runListInstall (core, some (i, rec))) s = .next s)) ∧
  (∀ (die victim lid lo hi : Nat) (m : List ReadyItem) (s : State),
    (∃ t, exec (.stealRequest die) s = .next t ∧ (s.cycle + 1024, Instr.stealRequest die) ∈ t.agenda ∧
      (s.dieIdle die = true → (s.die die).stealNext = false →
        (s.cycle + 64, Instr.stealReply die ((die + 1) % 8)) ∈ t.agenda ∧ (t.die die).stealNext = true)) ∧
    (die ≠ victim → (s.die victim).ready = .launch lid lo hi :: m → lo + 2 ≤ hi →
      (∀ l, s.launch? lid = some l → l.desc.mask = 0) →
      ∃ t, exec (.stealReply die victim) s = .next t ∧
        (t.die victim).ready = .launch lid lo (hi - (hi - lo) / 2) :: m ∧
        (t.die die).ready = (s.die die).ready ++ [.launch lid (hi - (hi - lo) / 2) hi] ∧ t.mem = s.mem))

/-- R307, R308, R324, R325: `rfork` divides its range among itself and the slots it finds: the forker keeps the first
chunk, each recruit starts at the next instruction with its chunk and the forker's upper registers, and the join cell counts
them all. `rjoin` counts an arrival: all but the last free themselves, the last goes on at the continuation with the flags of
all, and a member of a fork then runs the forker's unit; a cell that counts nothing is an address fault. -/
def Obligations.RangesForkAndJoin : Prop :=
  (∀ (a b c : GReg) (disp : BitVec 32) (core off : Nat) (s : State), s.hasG [a, b, c] = true →
    CellHere s (s.g c) 16 core off → s.performed .pkg false = true → s.mem.wf = true → (s.g a).toNat < 2 ^ 32 →
    s.g b ≠ 0 → (s.g b).toNat < 2 ^ 32 → (s.ctx.skipWatch = true ∨ s.watchHit [((s.g c).toNat, 16)] false true = none) →
    let n := (s.g a).toNat
    let slots := (s.findSlots s.myCore s.ctx.job (min ((n + (s.g b).toNat - 1) / (s.g b).toNat) 256 - 1) 5 0 []).1
    let k := slots.length + 1
    ∃ t, exec (.rfork a b c disp) s = .next t ∧ t.g 1 = 0 ∧ t.g 2 = BitVec.ofNat 64 (n / k) ∧ t.g 3 = s.g c ∧
      SameG s t [1, 2, 3] ∧ SameV s t [] ∧ SameP s t [] ∧ SameControl s t ∧ Passes s t 12 ∧
      t.mem.readNat (lsAddr core off) 4 = k ∧ t.mem.readNat (lsAddr core off + 4) 4 = 0 ∧
      t.mem.readNat (lsAddr core off + 8) 8 = (s.ctx.pc + disp.signExtend 64 * 4).toNat ∧
      SameBytesBut s t (lsAddr core off) 16 ∧
      ∀ i x, slots[i]? = some x → ∃ m, (s.cycle + msgCycles s.myCore (coreOf x), Instr.recruitStart m) ∈ t.agenda ∧
        m.slot = x ∧ m.lo = BitVec.ofNat 64 ((i + 1) * n / k) ∧ m.hi = BitVec.ofNat 64 ((i + 2) * n / k) ∧
        m.cell = s.g c ∧ m.pc = s.ctx.pc + 12 ∧ m.job = s.ctx.job ∧
        ∀ r : Fin 32, 16 ≤ r.val → m.regs.getD (r.val - 16) 0 = s.ctx.regs.g[r]) ∧
  (∀ (m : RecruitMsg) (s : State), (Table.get? (s.core (coreOf m.slot)).reserved (slotOf m.slot)).isSome = true →
    ∃ t, exec (.recruitStart m) s = .next t ∧ (t.ctxAt m.slot).inst = true ∧ (t.ctxAt m.slot).pc = m.pc ∧
      (t.ctxAt m.slot).job = m.job ∧ (t.ctxAt m.slot).regs.g[1] = m.lo ∧ (t.ctxAt m.slot).regs.g[2] = m.hi ∧
      (t.ctxAt m.slot).regs.g[3] = m.cell ∧
      (∀ r : Fin 32, 16 ≤ r.val → (t.ctxAt m.slot).regs.g[r] = m.regs.getD (r.val - 16) 0) ∧
      (t.ctxAt m.slot).ctl.mode = 0 ∧ t.mem = s.mem) ∧
  (∀ (a : GReg) (core off : Nat) (s : State), s.hasG [a] = true → s.ctx.sent ≤ s.cycle → s.ctx.pkgAt ≤ s.cycle →
    s.ctx.msgAt ≤ s.cycle → s.storesDone s.cur = true → s.messagesDone s.cur = true → s.enginesDone s.cur = true → s.ctx.efaults = [] →
    CellHere s (s.g a) 16 core off → BankFree s 16 core off → s.poisonIn (lsAddr core off) 16 = none → s.mem.wf = true →
    (s.ctx.skipWatch = true ∨ s.watchHit [((s.g a).toNat, 16)] true true = none) →
    let n := s.mem.readNat (lsAddr core off) 4
    let flags := BitVec.ofNat 32 (s.mem.readNat (lsAddr core off + 4) 4) ||| s.ctx.ctl.fflags.setWidth 32
    (1 < n → ∃ t, exec (.rjoin a) s = .next t ∧ (t.ctxAt s.cur).inst = false ∧
      t.mem.readNat (lsAddr core off) 4 = n - 1 ∧ t.mem.readNat (lsAddr core off + 4) 4 = flags.toNat ∧
      SameBytesBut s t (lsAddr core off) 8) ∧
    (n = 1 → s.ctx.unit.group = none → ∃ t, exec (.rjoin a) s = .next t ∧
      t.ctx.pc = BitVec.ofNat 64 (s.mem.readNat (lsAddr core off + 8) 8) ∧ t.ctx.regs = s.ctx.regs ∧ t.ctx.latch = none ∧
      t.ctx.ctl.fflags = s.ctx.ctl.fflags ||| flags.setWidth 5 ∧ t.mem.readNat (lsAddr core off) 4 = 0 ∧
      SameBytesBut s t (lsAddr core off) 8) ∧
    (∀ g f k, n = 1 → s.ctx.unit.group = some g → (Table.get? (s.job s.ctx.job).units g).isSome →
      s.ctx.unit.fork = some f → Table.get? (s.job s.ctx.job).forks f = some k → Rising (s.job s.ctx.job).forks → ∃ t, exec (.rjoin a) s = .next t ∧
      t.ctx.pc = BitVec.ofNat 64 (s.mem.readNat (lsAddr core off + 8) 8) ∧ t.ctx.regs = s.ctx.regs ∧ t.ctx.latch = none ∧
      t.ctx.ctl.fflags = s.ctx.ctl.fflags ||| flags.setWidth 5 ∧ t.mem.readNat (lsAddr core off) 4 = 0 ∧
      t.ctx.unit.fork = k.parent ∧ t.ctx.unit.own = k.own ∧ Table.get? (t.job s.ctx.job).forks f = none ∧
      SameBytesBut s t (lsAddr core off) 8) ∧
    (n = 0 → Delegated s 10 → ∃ t, exec (.rjoin a) s = .next t ∧ t.ctx.pc = s.ctx.ctl.thandler ∧ t.ctx.ctl.tcause = 10 ∧
      t.ctx.ctl.tval = s.g a ∧ t.ctx.regs = s.ctx.regs ∧ t.mem = s.mem))

/-- R296 to R300, R303, R309 to R311, R326: `launch` sends the descriptor and waits for its identifier; the scheduler takes
a free entry, and a sound launch with no predecessor is queued whole; a done message climbs cluster, group, super-group, die
and root, which counts the units and gathers the flags; with nothing left of it the launch is done; one that a full table has
turned away counts in its graph once its report has performed. The cycles of the hops are the model's reading of R309 (log 35);
that a launch counts after its report, one turned away too, is its reading of R296 and R298 (logs 34 and 36), and that a launch
is taken 40 cycles after its `launch` issues, or when its read is done where that is later, its choice (log 107). -/
def Obligations.LaunchesRunToCompletion : Prop :=
  (∀ (d a : GReg) (core off : Nat) (s : State), s.hasG [a] = true →
    (s.ctx.asked = [] → (s.g a).toNat % 64 = 0 → ReachesLocal s (s.g a) 64 true false core off →
      s.poisonIn (lsAddr core off) 64 = none → s.performed .pkg false = true →
      ∃ t, exec (.launch d a) s = .next t ∧ t.ctx.wait = .away .jobWait ∧ t.ctx.latch = s.ctx.latch ∧
        t.ctx.regs = s.ctx.regs ∧ t.mem = s.mem ∧
        (max (s.ctx.lastIssue.getD s.cycle + 40) s.cycle, Instr.launchTake ⟨s.myDie, s.ctx.job, BitVec.ofNat 512 (s.mem.readNat (lsAddr core off) 64),
          some s.cur, s.ctx.ctl.ptime.toNat⟩) ∈ t.agenda) ∧
    (∀ lid, s.ctx.asked = [launchMark, lid] →
      ∃ t, exec (.launch d a) s = .next t ∧ WritesG s t d (BitVec.ofNat 64 lid) false 8)) ∧
  (∀ (l : LaunchSub) (u : Nat) (s : State), l.thread = some u → u < 65536 → l.die < 8 → (s.ctxAt u).inst = true →
    (s.ctxAt u).asked = [launchMark] →
    ((s.die l.die).freeEntry = none → ∃ t, exec (.launchTake l) s = .next t ∧ (t.ctxAt u).asked = [launchMark, 0] ∧
      u ∈ t.kicks) ∧
    ((s.die l.die).freeEntry ≠ none → s.descOk l.job l.raw = true →
      (∀ p ∈ (launchDesc l.raw).preds, p = 0) → readyRoom s (readyDie l.die (launchDesc l.raw).mask) = true →
      s.nameLevels l.job (launchDesc l.raw).graph (launchDesc l.raw).phase (launchDesc l.raw).close ≠ none →
      ∃ t lid L, exec (.launchTake l) s = .next t ∧ (t.ctxAt u).asked = [launchMark, lid] ∧ u ∈ t.kicks ∧
        t.launch? lid = some L ∧ L.st = .queued ∧ L.job = l.job ∧ L.desc.pc = (launchDesc l.raw).pc ∧ L.counter = 0 ∧
        ReadyItem.launch lid 0 (launchDesc l.raw).units ∈ (t.die (readyDie l.die (launchDesc l.raw).mask)).ready) ∧
    ((s.die l.die).freeEntry ≠ none → s.descOk l.job l.raw = false →
      ∃ t lid L, exec (.launchTake l) s = .next t ∧ (t.ctxAt u).asked = [launchMark, lid] ∧ t.launch? lid = some L ∧
        L.flags = stRes)) ∧
  (∀ (lid : Nat) (l : Launch) (s : State), s.launch? lid = some l →
    (l.st = .held → l.preds = [] → l.doomed = false → readyRoom s (readyDie (lidDie lid) l.desc.mask) = true →
      ∃ t L, exec (.predecessorComplete lid) s = .next t ∧ t.launch? lid = some L ∧ L.st = .queued ∧
        ReadyItem.launch lid 0 l.desc.units ∈ (t.die (readyDie (lidDie lid) l.desc.mask)).ready) ∧
    (s.launchOver lid l = true → ∃ t L, exec (.launchComplete lid) s = .next t ∧ t.launch? lid = some L ∧ L.st = .done ∧
      L.counter = l.counter ∧ L.flags = l.flags ∧ t.mem = s.mem)) ∧
  (∀ (d : Nat) (x : Launch) (rest : List Launch) (s : State), d < 8 → (s.die d).turned = x :: rest →
    s.launch? (turnedLid d) = none →
    ∃ t, exec (.launchComplete (turnedLid d)) s = .next t ∧ (t.die d).turned = rest ∧ t.mem = s.mem ∧
      ∀ g, findLevel (s.die (levelDie x.job)).graphs x.job x.desc.graph = some g →
        ∃ G, findLevel (t.die (levelDie x.job)).graphs x.job x.desc.graph = some G ∧ G.counter = g.counter + 1) ∧
  (∀ (n : Nat) (e : UnitEnd) (s : State),
    (∃ t f, exec (.doneMessage (.cluster n) e) s = .next t ∧ f.lid = e.lid ∧
      (s.cycle + 1, Instr.doneMessage (.group (n / 4)) f) ∈ t.agenda) ∧
    (∃ t f, exec (.doneMessage (.group n) e) s = .next t ∧ f.lid = e.lid ∧
      (s.cycle + 1, Instr.doneMessage (.super (n / 4)) f) ∈ t.agenda) ∧
    (∃ t f, exec (.doneMessage (.super n) e) s = .next t ∧ f.lid = e.lid ∧
      (s.cycle + 1, Instr.doneMessage (.die (n / 4)) f) ∈ t.agenda) ∧
    (∃ t f, exec (.doneMessage (.die n) e) s = .next t ∧ f.lid = e.lid ∧
      (s.cycle + (if n = lidDie e.lid then 0 else 30), Instr.doneMessage .root f) ∈ t.agenda) ∧
    (∀ l, s.launch? e.lid = some l → ∃ t L, exec (.doneMessage .root e) s = .next t ∧ t.launch? e.lid = some L ∧
      L.counter = l.counter + (e.status &&& 0xFFFF) ∧ L.flags = l.flags ||| (e.status &&& 0xFFFF0000)))

/-- The identifier of a level in a register (R327), by the level's code: launch, graph, phase, job. -/
def Sys2Proof.levelId (lvl : Nat) (x : Word) : Nat :=
  match lvl with
  | 0 => x.toNat % 2 ^ 32
  | 3 => 0
  | _ => x.toNat % 65536
/-- The level that a register names is the thread's job's own. -/
def Sys2Proof.LevelMine (s : State) (lvl : Nat) (x : Word) : Prop :=
  (lvl = 0 → ∀ l, s.launch? (levelId 0 x) = some l → l.job = s.ctx.job) ∧ (lvl = 3 → x.toNat = s.ctx.job)
noncomputable def Sys2Proof.waitForms : List (Nat × (GReg → GReg → Instr)) := [(0, .lvwaitLaunch), (1, .lvwaitGraph), (2, .lvwaitPhase), (3, .lvwaitJob)]

/-- R297, R312, R327, R328: a cancel marks the launch, or every launch of the level that has not completed, and goes to the
job's cores, where it arrives at the end of the time that R312 gives it, 40 or 80 cycles (the model's choice, log 1); the units
of a launch that has not started end with CANCEL; a cancel that arrives marks the launch's threads on the core. `lvwait` ends when the level's counter has reached its target, and waits
until then; a target of 2^32 or more is illegal. -/
def Obligations.LevelsAreCancelledAndAwaited : Prop :=
  (∀ (a : GReg) (s : State), s.hasG [a] = true →
    (∀ l, s.launch? (levelId 0 (s.g a)) = some l → l.job = s.ctx.job → l.st ≠ .done →
      ∃ t L, exec (.cancelLaunch a) s = .next t ∧ t.launch? (levelId 0 (s.g a)) = some L ∧ L.cancelled = true ∧
        L.flags = l.flags ∧ t.ctx.regs = s.ctx.regs ∧ Passes s t 8 ∧
        (∀ k ∈ s.coresOf s.ctx.job, (s.cycle + (if dieOf k = s.myDie then 40 else 80),
          Instr.cancelArrival k (levelId 0 (s.g a))) ∈ t.agenda) ∧
        (l.st = .held → l.desc.units ≠ 0 → ∃ c e, (c, Instr.doneMessage (.die (lidDie (levelId 0 (s.g a)))) e) ∈ t.agenda ∧
          e.lid = levelId 0 (s.g a) ∧ e.status &&& stCancel = stCancel)) ∧
    (∃ t u, exec (.cancelGraph a) s = .next t ∧ exec (.cancelPhase a) s = .next u ∧
      t.ctx.regs = s.ctx.regs ∧ Passes s t 8 ∧ u.ctx.regs = s.ctx.regs ∧ Passes s u 8 ∧
      ∀ lid l, s.launch? lid = some l → l.st ≠ .done →
        (lid ∈ s.launchesOf s.ctx.job 1 (levelId 1 (s.g a)) → ∃ L, t.launch? lid = some L ∧ L.cancelled = true) ∧
        (lid ∈ s.launchesOf s.ctx.job 2 (levelId 2 (s.g a)) → ∃ L, u.launch? lid = some L ∧ L.cancelled = true)) ∧
    ((s.g a).toNat = s.ctx.job → ∃ t, exec (.cancelJob a) s = .next t ∧ t.ctx.regs = s.ctx.regs ∧ Passes s t 8 ∧
      ∀ lid l, s.launch? lid = some l → l.st ≠ .done → lid ∈ s.launchesOf s.ctx.job 3 0 →
        ∃ L, t.launch? lid = some L ∧ L.cancelled = true) ∧
    ((s.g a).toNat ≠ s.ctx.job → Delegated s 11 → ∃ t, exec (.cancelJob a) s = .next t ∧ EntersHandler s t 11 (s.g a))) ∧
  (∀ (t core lid : Nat) (s : State), coreOf t = core → (s.ctxAt t).inst = true → (s.ctxAt t).unit.lid = lid →
    ∃ u, exec (.cancelArrival core lid) s = .next u ∧ (u.ctxAt t).cancelled = true ∧ (u.ctxAt t).regs = (s.ctxAt t).regs ∧
      u.mem = s.mem) ∧
  (∀ p ∈ waitForms, ∀ (a b : GReg) (s : State), s.hasG [a, b] = true → LevelMine s p.1 (s.g a) →
    ((s.g b).toNat < 2 ^ 32 →
      (s.reached s.ctx.job p.1 (levelId p.1 (s.g a)) (s.g b).toNat = true →
        ∃ t, exec (p.2 a b) s = .next t ∧ t.ctx.regs = s.ctx.regs ∧ t.mem = s.mem ∧ Passes s t 8) ∧
      (s.reached s.ctx.job p.1 (levelId p.1 (s.g a)) (s.g b).toNat = false →
        ∃ t, exec (p.2 a b) s = .next t ∧ t.ctx.wait = .away .counterWait ∧ t.ctx.latch = s.ctx.latch ∧
          t.ctx.regs = s.ctx.regs ∧ SameMachine s t)) ∧
    (2 ^ 32 ≤ (s.g b).toNat → Delegated s 1 → ∃ t, exec (p.2 a b) s = .next t ∧ EntersHandler s t 1 s.word64))

/-! ## Pages and replicas (19_package R351 to R359, 21_package_ops R374 to R379) -/

/-- R359, R374, R375: `xpub` of an empty range is a release fence; of code on one page it removes the marks of its lines,
empties the loop buffers of the cores in its scope and the fetch blocks of their contexts that lie in the range, and the thread
rests for 16, 40 or 100 cycles, by the scope; an absent page parks the thread. That the page is found by the table walk is the
model's choice (log 79). `bufpub` is for TWIN pages: it asks the page's home and goes on with its
answer. -/
def Sys2Proof.PagesArePublished : Prop :=
  ∀ (a b : GReg) (scope : Scope) (s : State),
    (s.hasG [a, b] = true → s.performed scope false = true →
      (s.g b = 0 → ∃ t, exec (.xpub a b scope) s = .next t ∧ WritesNothing s t 8) ∧
      (∀ x, (s.g b).toNat < 2 ^ 32 → s.g b ≠ 0 → (s.g a).toNat + (s.g b).toNat ≤ 2 ^ 55 →
        s.rangePages ((s.g a).toNat + (s.g b).toNat - 1) 65537 (s.g a).toNat = [x] → leafMapped x.attr.leaf = true →
        leafBad x.attr.big x.attr.leaf = false → leafCode x.attr.leaf = true →
        (s.rightsEntry s.ctx.job (leafDomain x.attr.leaf)).rights ≠ 0 → (∀ h ∈ s.ms.home, h.2.txn = none) →
        ∃ t, exec (.xpub a b scope) s = .next t ∧ SameRegisters s t ∧ Passes s t 8 ∧ t.mem = s.mem ∧
          t.ctx.wait = .timed .timedMemory (s.cycle + match scope with
            | .core => 16
            | .clu => 16
            | .die => 40
            | .pkg => 100
            | .sys => 100) ∧
          (∀ k, s.inCodeScope scope k = true → (t.core k).loopBuf = []) ∧
          (∀ u f, (s.ctxAt u).inst = true → s.inCodeScope scope (coreOf u) = true → (t.ctxAt u).fblock = some f →
            f.addr / 64 < (s.g a).toNat / 64 ∨ ((s.g a).toNat + (s.g b).toNat - 1) / 64 < f.addr / 64) ∧
          (∀ d, (s.rangeDirs x).1 ≤ d → d < (s.rangeDirs x).1 + (s.rangeDirs x).2 → d ∉ t.ms.marks) ∧
          (∀ d, d < (s.rangeDirs x).1 ∨ (s.rangeDirs x).1 + (s.rangeDirs x).2 ≤ d → (d ∈ t.ms.marks ↔ d ∈ s.ms.marks)))) ∧
    (∀ x, s.hasG [a, b] = true → (s.g b).toNat < 2 ^ 32 → s.g b ≠ 0 → (s.g a).toNat + (s.g b).toNat ≤ 2 ^ 55 →
      s.rangePages ((s.g a).toNat + (s.g b).toNat - 1) 65537 (s.g a).toNat = [x] → leafAbsent x.attr.leaf = true →
      ∃ t, exec (.xpub a b scope) s = .next t ∧ t.ctx.wait = .away .page ∧ t.ctx.absent = [x.first] ∧
        t.ctx.latch = s.ctx.latch ∧ t.ctx.regs = s.ctx.regs ∧ t.mem = s.mem) ∧
    (s.hasG [a, b] = true → 2 ^ 32 ≤ (s.g b).toNat → Delegated s 1 →
      ∃ t, exec (.xpub a b scope) s = .next t ∧ EntersHandler s t 1 s.word64) ∧
    (s.hasG [a] = true → (s.g a).toNat < 2 ^ 55 →
      (leafMapped (s.walk (s.g a).toNat).attr.leaf = true → leafTwin (s.walk (s.g a).toNat).attr.leaf = false →
        Delegated s 10 → ∃ t, exec (.bufpub a) s = .next t ∧ EntersHandler s t 10 (s.g a)) ∧
      (∀ x, leafTwin (s.walk (s.g a).toNat).attr.leaf = true → PageAtHand s (s.g a).toNat .write x →
        (s.ctx.asked = [] → s.ctx.gather = [] → ∃ t, exec (.bufpub a) s = .next t ∧ t.ctx.wait = .away .access ∧
          t.ctx.asked = [(s.g a).toNat / 64] ∧ t.ctx.latch = s.ctx.latch ∧ t.ctx.regs = s.ctx.regs ∧ t.mem = s.mem) ∧
        (∀ y, s.ctx.gather = [y] → y.line = (s.g a).toNat / 64 → y.st = .ok →
          ∃ t, exec (.bufpub a) s = .next t ∧ WritesNothing s t 8)))

/-- R351, R376: `tmove` gives the identifier of its job at once, and waits for a free entry of the job table; an address
that is not a page's is an address fault. When the transfer is done, the page stands in its new frame, its leaf names it,
the requests held go on and the job has ended. -/
def Sys2Proof.PagesAreMoved : Prop :=
  (∀ (d a : GReg) (ch : BitVec 12) (s : State), s.hasG [a] = true →
    ∀ i ∈ [Instr.tmoveDram d a ch, Instr.tmoveHost d a],
      ((s.g a).toNat < 2 ^ 55 → (s.g a).toNat % 65536 = 0 →
        ((s.freeJob s.myCluster).isSome = true → ∃ t jid e, exec i s = .next t ∧ HoldsG t d (BitVec.ofNat 64 jid) false ∧
          t.jobOf s.myCluster jid = some e ∧ e.state = 0 ∧ e.thread = s.cur ∧ SameG s t [d] ∧ SameV s t [] ∧ SameP s t [] ∧
          SameControl s t ∧ t.mem = s.mem ∧ Passes s t 12) ∧
        (s.freeJob s.myCluster = none → ∃ t, exec i s = .next t ∧
          t = { s with ctx := { s.ctx with wait := .away .jobTable, cls := 0 } })) ∧
      ((s.g a).toNat % 65536 ≠ 0 → Delegated s 10 → ∃ t, exec i s = .next t ∧ EntersHandler s t 10 (s.g a))) ∧
  (∀ (c jid p at_ : Nat) (h : PageHold) (e : JobEntry) (s : State), s.mem.wf = true →
    s.ms.holds.find? (fun x => x.jid = some jid && x.cluster = c) = some h → s.jobOf c jid = some e →
    Table.getD s.ms.frames h.frame [] = [p] → s.leafAddr (p * 65536) = some (at_, false) →
    leafTwin (BitVec.ofNat 64 (s.mem.readNat at_ 8)) = false → h.dest < 2 ^ 26 →
    frameKey (BitVec.ofNat 64 (s.mem.readNat at_ 8)) false = h.frame →
    (∀ x ∈ s.ms.lineKeys, h.frame * 1024 ≤ x.1 → x.1 < (h.frame + 1) * 1024 → x.2 = s.pageKeyOf x.1) →
    (at_ + 8 ≤ h.frame * 65536 ∨ (h.frame + 1) * 65536 ≤ at_) → (at_ + 8 ≤ h.dest * 65536 ∨ (h.dest + 1) * 65536 ≤ at_) →
    ∃ t, exec (.tmoveTransferDone c jid) s = .next t ∧
      (∀ k, k < 65536 → t.mem.read (h.dest * 65536 + k) = s.mem.read (h.frame * 65536 + k)) ∧
      leafFrame (BitVec.ofNat 64 (t.mem.readNat at_ 8)) = h.dest ∧
      (BitVec.ofNat 64 (t.mem.readNat at_ 8)).extractLsb' 0 10 = (BitVec.ofNat 64 (s.mem.readNat at_ 8)).extractLsb' 0 10 ∧
      (∀ x ∈ t.ms.holds, ∃ y ∈ s.ms.holds, y ≠ h ∧ x.frame = y.frame ∧ x.held = y.held) ∧ (∀ r ∈ h.held, (s.cycle, Instr.homeRequest r) ∈ t.agenda) ∧ t.jobOf c jid = none)

/-- R351, R359, R374, R375, R376: `xpub` and `bufpub` publish pages, `tmove` moves them. -/
def Obligations.PagesArePublishedAndMoved : Prop :=
  Sys2Proof.PagesArePublished ∧ Sys2Proof.PagesAreMoved

/-- R352, R377 to R379: a hint pins, caps or frees the degree of the address's region, and waits where replicas are dropped;
`repstat` gives its hits, its collapses, its changes and its degree as they stand 20 cycles after issue; `plbinv` and `tlbinv` make every core forget the rights or the attributes they name,
and the thread rests for 120 cycles. -/
def Obligations.HintsAndShootdowns : Prop :=
  ∀ (d a : GReg) (deg : BitVec 2) (s : State), s.hasG [a] = true →
    let n := (s.g a).toNat / 2 ^ 21
    ((s.g a).toNat < 2 ^ 55 →
      (∃ t, exec (.rephintClear a) s = .next t ∧ (t.repRegion n).pin = none ∧ (t.repRegion n).cap = none ∧
        (t.repRegion n).degree = (s.repRegion n).degree ∧ t.mem = s.mem ∧ SameRegisters s t ∧ Passes s t 8) ∧
      (∃ t, exec (.rephintPin a deg) s = .next t ∧ (t.repRegion n).pin = some deg.toNat ∧ (t.repRegion n).cap = none ∧
        (t.repRegion n).degree = deg.toNat ∧ t.mem = s.mem ∧ SameRegisters s t ∧ Passes s t 8 ∧
        (deg.toNat < (s.repRegion n).degree → ∃ c, t.ctx.wait = .timed .timedMemory c ∧ s.cycle ≤ c)) ∧
      (∃ t, exec (.rephintCap a deg) s = .next t ∧ (t.repRegion n).cap = some deg.toNat ∧ (t.repRegion n).pin = none ∧
        (t.repRegion n).degree = min (s.repRegion n).degree deg.toNat ∧ t.mem = s.mem ∧ SameRegisters s t ∧ Passes s t 8) ∧
      (∀ x ctr, s.ctx.asked = [] → PageAtHand s (s.g a).toNat .read x → ∃ t, exec (.repstat d a ctr) s = .next t ∧
        t.ctx.asked = [remoteMark] ∧ t.ctx.wait = .away .timedMemory ∧ t.ctx.latch = s.ctx.latch ∧ t.ctx.regs = s.ctx.regs ∧
        (s.cycle + 20, Instr.remoteReadMessage s.cur) ∈ t.agenda ∧ t.mem = s.mem) ∧
      (∀ ctr, s.ctx.asked.contains remoteMark = true → ∃ t, exec (.repstat d a ctr) s = .next t ∧
        WritesG s t d (if ctr = 0 then (s.repRegion n).hits else if ctr = 1 then (s.repRegion n).collapsed
          else if ctr = 2 then (s.repRegion n).changes else BitVec.ofNat 64 (s.repRegion n).degree) false 8)) ∧
    ((s.g a).toNat < 65536 → ∃ t, exec (.plbinvOne a) s = .next t ∧ Rests s t 120 8 ∧ t.mem = s.mem ∧
      ∀ k, ∀ r ∈ (t.core k).rights, r.domain.toNat ≠ (s.g a).toNat) ∧
    (∃ t, exec .plbinvAll s = .next t ∧ Rests s t 120 8 ∧ t.mem = s.mem ∧ ∀ k, (t.core k).rights = []) ∧
    (∃ t, exec (.tlbinvOne a) s = .next t ∧ Rests s t 120 8 ∧ t.mem = s.mem ∧
      (∀ k, findAttr (t.core k).attrs (s.g a).toNat = none) ∧ ∀ x ∈ t.ms.xlat, x.covers (s.g a).toNat = false) ∧
    (∃ t, exec .tlbinvAll s = .next t ∧ Rests s t 120 8 ∧ t.mem = s.mem ∧ (∀ k, (t.core k).attrs = []) ∧ t.ms.xlat = [])

/-! ## Debug, failures, bring-up and the fabric (11 R249 to R259, 20, 23) -/

/-- R249 to R254, R257, R258: a halt command stops the cluster with cause 1, a resume starts it, a step lets it run for 8
cycles and halts it with cause 6, a cross-trigger halts the die's other clusters that listen, with cause 5. A context can be
read and written through the window only while its cluster is halted; else ERR is set, and a read gives zero. A write to a
register replaces its fields, a reserved watchpoint code is ignored. A sample that is due adds a row, or counts a drop where the ring is full. -/
def Obligations.DebugModuleObserves : Prop :=
  (∀ (c : Nat) (s : State),
    ((s.cluster c).dbg.halted = false →
      (∃ t, exec (.dcmdHalt c) s = .next t ∧ (t.cluster c).dbg.halted = true ∧ (t.cluster c).dbg.cause = 1 ∧
        (t.cluster c).dbg.haltAt = s.cycle ∧ t.ctx = s.ctx ∧ t.mem = s.mem) ∧
      exec (.dcmdResume c) s = .next s ∧ exec (.dcmdStep c) s = .next s ∧
      (∃ t, exec (.stepDone c) s = .next t ∧ (t.cluster c).dbg.halted = true ∧ (t.cluster c).dbg.cause = 6 ∧
        t.ctx = s.ctx ∧ t.mem = s.mem)) ∧
    ((s.cluster c).dbg.halted = true →
      exec (.dcmdHalt c) s = .next s ∧
      (∃ t, exec (.dcmdResume c) s = .next t ∧ (t.cluster c).dbg.halted = false ∧ t.ctx = s.ctx ∧ t.mem = s.mem) ∧
      (∃ t, exec (.dcmdStep c) s = .next t ∧ (t.cluster c).dbg.halted = false ∧
        (s.cycle + 8, Instr.stepDone c) ∈ t.agenda ∧ t.ctx = s.ctx ∧ t.mem = s.mem)) ∧
    (∀ source, source / 64 = c / 64 → ∃ t, exec (.crossTriggerHalt source) s = .next t ∧ t.ctx = s.ctx ∧ t.mem = s.mem ∧
      (c ≠ source → (s.cluster c).dbg.dctl.getLsbD 6 = true → (s.cluster c).dbg.halted = false →
        (t.cluster c).dbg.halted = true ∧ (t.cluster c).dbg.cause = 5) ∧
      ((c = source ∨ (s.cluster c).dbg.dctl.getLsbD 6 = false) → t.cluster c = s.cluster c))) ∧
  (∀ (c core slot : Nat) (v : Word) (wr : Option Word) (off : Nat) (s : State), core < 8 → slot < 16 →
    let t := (c * 8 + core) * 16 + slot
    ((s.cluster c).dbg.halted = false ∨ (s.ctxAt t).inst = false →
      ∃ u, exec (.contextWindowAccess c core slot off wr) s = .next u ∧ (u.cluster c).dbg.err = true ∧
        (wr = none → u.pkg.readData = 0) ∧ u = { s with clusters := u.clusters, pkg := u.pkg }) ∧
    ((s.cluster c).dbg.halted = true → (s.ctxAt t).inst = true →
      (∃ u, exec (.contextWindowAccess c core slot off none) s = .next u ∧
        u = { s with pkg := { s.pkg with readData := u.pkg.readData } } ∧
        (∀ r : Fin 32, off = 8 * r.val → u.pkg.readData = if r = 0 then 0 else (s.ctxAt t).regs.g[r]) ∧
        (off = 8 * 340 → u.pkg.readData = (s.ctxAt t).pc)) ∧
      (∀ r : Fin 32, r ≠ 0 → ∃ u, exec (.contextWindowAccess c core slot (8 * r.val) (some v)) s = .next u ∧
        (u.ctxAt t).regs.g[r] = v ∧ (∀ k : Fin 32, k ≠ r → (u.ctxAt t).regs.g[k] = (s.ctxAt t).regs.g[k]) ∧
        (u.ctxAt t).pc = (s.ctxAt t).pc ∧ u.mem = s.mem) ∧
      (∃ u, exec (.contextWindowAccess c core slot (8 * 340) (some v)) s = .next u ∧ (u.ctxAt t).pc = v ∧
        (u.ctxAt t).regs = (s.ctxAt t).regs ∧ u.mem = s.mem))) ∧
  (∀ (die k q : Nat) (i : Fin 4) (j : Fin 2) (v : Word) (s : State), die < 8 → k < 64 → q < 256 →
    let block := die * 0x20000000 + 0x10000000 + k * 0x100000
    (∃ t, exec (.registerWrite 2 (block + 0x40 + 16 * i.val) v) s = .next t ∧
      (t.cluster (die * 64 + k)).dbg.bpa[i] = v ∧ t.ctx = s.ctx ∧ t.mem = s.mem) ∧
    (∃ t, exec (.registerWrite 2 (block + 0x10) 1) s = .next t ∧ (s.cycle, Instr.dcmdHalt (die * 64 + k)) ∈ t.agenda ∧
      t = { s with agenda := t.agenda }) ∧
    (v.extractLsb' 1 2 = 0 → exec (.registerWrite 2 (block + 0x88 + 16 * j.val) v) s = .next s) ∧
    (∃ t, exec (.registerWrite 0 (0x80000 + 8 * q) v) s = .next t ∧
      (s.cycle, Instr.doorbellWrite q (v.toNat % 2 ^ 32)) ∈ t.agenda ∧ t = { s with agenda := t.agenda })) ∧
  (∀ (die : Nat) (bs : List Byte) (s : State),
    let x := (s.die die).strainer
    x.stored = x.produced → x.rows = [] →
    (x.sctl.getLsbD 0 = false → ∃ t, exec (.strainerSample die) s = .next t ∧ (t.die die).strainer = x ∧
      t = { s with dies := t.dies }) ∧
    (x.sctl.getLsbD 0 = true → x.next ≤ s.cycle → x.ssize ≠ 0 → s.physBytes (x.sring.toNat + 8) 8 = some bs →
      (x.produced < natOfBytes bs + x.ssize.toNat → ∃ t, exec (.strainerSample die) s = .next t ∧
        (t.die die).strainer.produced = x.produced + 1 ∧ (t.die die).strainer.seq = x.seq + 1 ∧
        (t.die die).strainer.sdrop = x.sdrop ∧ (t.die die).strainer.next = x.next + x.sctl.toNat / 2 ^ 32 ∧ t.ctx = s.ctx) ∧
      (natOfBytes bs + x.ssize.toNat ≤ x.produced → ∃ t, exec (.strainerSample die) s = .next t ∧
        (t.die die).strainer.produced = x.produced ∧ (t.die die).strainer.seq = x.seq + 1 ∧
        (t.die die).strainer.sdrop = x.sdrop + 1 ∧ t.ctx = s.ctx)))

/-- The contexts stand in one place each. -/
def Sys2Proof.Tidy (s : State) : Prop := Rising s.ctxs ∧ Table.get? s.ctxs s.cur = none

/-- R195, R316, R364 to R368: a poisoned packet is dropped and counted, and the access that waited for it is lost; a
request whose reply was dropped ends with data-lost; an uncorrected error poisons its word, ends its thread or resets its
cluster, a corrected one is only logged; an event leaves the log for an I/O die's queue; a cluster that is reset holds no
context, but for what is on its way to another core, and is cleared. -/
def Sys2Proof.ErrorsAreContained : Prop :=
  ∀ (c t core off die : Nat) (r : Req) (s : State), Tidy s →
    (∃ u, exec (.poisonedPacketDrop c none) s = .next u ∧
      (u.die (c / 64 % 8)).poisoned = (s.die (c / 64 % 8)).poisoned + 1 ∧ u = { s with dies := u.dies }) ∧
    ((s.ctxAt t).inst = true → (s.ctxAt t).asked.contains remoteMark = true →
      ∃ u, exec (.poisonedPacketDrop c (some t)) s = .next u ∧ (u.ctxAt t).asked = [lostMark] ∧ t ∈ u.kicks ∧
        (u.ctxAt t).regs = (s.ctxAt t).regs ∧ u.mem = s.mem) ∧
    (∀ n e q, (s.ctxAt t).asked.contains remoteMark = false → s.replyComing t = some (n, e, q) → q.src = .load t →
      ∃ u p, exec (.poisonedPacketDrop c (some t)) s = .next u ∧ Replied s u q 0 p ∧ p.st = .dataLost ∧ u.mem = s.mem) ∧
    (r.src = .load t → r.kind = .load → r.mask ≠ 0 →
      ∃ u p, exec (.droppedReplyTimeout r) s = .next u ∧ Replied s u r 0 p ∧ p.st = .dataLost ∧ u.mem = s.mem) ∧
    (r.src = .load t → r.kind = .load → r.mask = 0 → (s.ctxAt t).inst = true → (s.ctxAt t).wait = .away .access →
      (s.ctxAt t).asked.head? = some remoteMark →
      ∃ u, exec (.droppedReplyTimeout r) s = .next u ∧ (u.ctxAt t).asked = [lostMark] ∧ t ∈ u.kicks ∧
        (u.ctxAt t).regs = (s.ctxAt t).regs ∧ u.mem = s.mem) ∧
    (∀ e, r.kind = .move → s.jobOf (clusterOf r.core) r.data2.toNat = some e → e.thread ≠ noThread →
      ∃ u f, exec (.droppedReplyTimeout r) s = .next u ∧ u.jobOf (clusterOf r.core) r.data2.toNat = some f ∧ f.state = 3 ∧
        u.mem = s.mem) ∧
    (∃ u, exec (.eccError (.localStore core off) true) s = .next u ∧ wordNo (lsAddr core off) ∈ u.ms.poison ∧
      (∀ x, x ≠ wordNo (lsAddr core off) → (x ∈ u.ms.poison ↔ x ∈ s.ms.poison)) ∧ u.mem = s.mem ∧ u.ctx = s.ctx) ∧
    ((s.die (dieOf core)).log = [] → ∃ u, exec (.eccError (.localStore core off) false) s = .next u ∧ u.ms = s.ms ∧
      u.mem = s.mem ∧ u.ctx = s.ctx ∧
      (u.die (dieOf core)).log = [⟨BitVec.ofNat 64 s.cycle, 1, BitVec.ofNat 16 core, 1, BitVec.ofNat 64 (lsAddr core off)⟩]) ∧
    (t < 65536 → (s.ctxAt t).inst = true → ∃ u, exec (.eccError (.context t) true) s = .next u ∧ (u.ctxAt t).inst = false) ∧
    (∃ u, exec (.eccError (.clusterState c) true) s = .next u ∧ (s.cycle, Instr.clusterReset c) ∈ u.agenda) ∧
    (∀ e rest, die < 8 → (s.die die).log = e :: rest → s.pkg.events[0].length < 256 → s.reaches die 0 = true →
      ∃ u, exec (.faultLogDelivery die) s = .next u ∧ (u.die die).log = rest ∧ u.pkg.events[0] = s.pkg.events[0] ++ [e] ∧
        u.pkg.events[1] = s.pkg.events[1] ∧ u.mem = s.mem) ∧
    (∃ u, exec (.clusterReset c) s = .next u ∧
      (∀ x, x / 128 = c → (∀ n, (n, Instr.migrationArrival x) ∉ s.agenda) → (u.ctxAt x).inst = false) ∧
      (u.cluster c).clearing = true ∧ (s.cycle, Instr.clusterClear c) ∈ u.agenda ∧ c ∉ u.pkg.clusterReady)

/-- R363, R371, R372: a ring link that fails loses its bit, and the tables are written again 4,096 cycles later, or at the
second failure the ring splits; the half with fewer live dies fences itself, on a tie the one without I/O die 0, and at the
split only where it has a ready command processor; the half that goes on records the split; a fenced half holds no
context. -/
def Sys2Proof.TheRingSplits : Prop :=
  ∀ (i : Nat) (half : List Nat) (s : State), i < 6 →
    (s.pkg.ringReady.getLsbD i = false → exec (.ringLinkFailure i) s = .next s) ∧
    (s.pkg.ringReady.getLsbD i = true → ∃ t, exec (.ringLinkFailure i) s = .next t ∧
      (∀ k, k < 6 → t.pkg.ringReady.getLsbD k = (s.pkg.ringReady.getLsbD k && decide (k ≠ i))) ∧
      ((bitsOf (setBit s.pkg.downLinks i true)).length = 2 → s.pkg.fenced = [] → (s.cycle, Instr.ringSplit) ∈ t.agenda) ∧
      (((bitsOf (setBit s.pkg.downLinks i true)).length ≠ 2 ∨ s.pkg.fenced ≠ []) →
        (s.cycle + 4096, Instr.routingSetup) ∈ t.agenda) ∧
      t.mem = s.mem ∧
      ∀ x, (s.ctxAt x).inst = true → (t.ctxAt x).inst = true ∧ (t.ctxAt x).ctl = (s.ctxAt x).ctl) ∧
    (∀ j, s.failedLinks = [i, j] →
      let halves := splitHalves i j
      let live (h : List Nat) : Nat := ((halfDies h).filter s.liveDie).length
      let first : Bool := decide (live halves.2 < live halves.1) || (live halves.1 = live halves.2 && halves.1.contains 0)
      let on := if first then halves.1 else halves.2
      let loser := if first then halves.2 else halves.1
      ∃ t, exec .ringSplit s = .next t ∧ t.mem = s.mem ∧ t.ctx = s.ctx ∧ t.ctxs = s.ctxs ∧ t.cores = s.cores ∧
        (s.halfReady loser = true → (s.cycle, Instr.halfFence loser) ∈ t.agenda) ∧
        (s.halfReady loser = false → (s.cycle, Instr.halfFence loser) ∈ t.agenda →
          (s.cycle, Instr.halfFence loser) ∈ s.agenda) ∧
        (on.contains 0 = true → s.pkg.events[0].length < 256 →
          ∃ e ∈ t.pkg.events[0], e.kind = 6 ∧ e.cycle = BitVec.ofNat 64 s.cycle) ∧
        (∀ h ∈ [halves.1, halves.2], s.halfReady h = false → (s.cycle + 65536, Instr.selfFenceTimeout h) ∈ t.agenda)) ∧
    (Tidy s → (∃ t, exec (.halfFence half) s = .next t ∧ (∀ p ∈ half, p ∈ t.pkg.fenced) ∧
        ∀ x, dieOf (coreOf x) ∈ halfDies half → (t.ctxAt x).inst = false) ∧
      (s.halfReady half = false → (∃ p ∈ half, p ∉ s.pkg.fenced) → ∃ t, exec (.selfFenceTimeout half) s = .next t ∧
        (∀ p ∈ half, p ∈ t.pkg.fenced) ∧ ∀ x, dieOf (coreOf x) ∈ halfDies half → (t.ctxAt x).inst = false)) ∧
    (s.halfReady half = true → exec (.selfFenceTimeout half) s = .next s)

/-- R195, R316, R363, R364 to R368, R371, R372: errors, resets and a broken ring are contained. -/
def Obligations.FailuresAreContained : Prop :=
  Sys2Proof.ErrorsAreContained ∧ Sys2Proof.TheRingSplits

/-- R360 to R363, R397: package reset leaves the reset state but for the memory outside the dies; a function that passes its
self-test sets its readiness bit; a management core runs only a signed image, and boots the stored one again when its watchdog
has gone 2^24 cycles unserviced; a command processor's explore packet is answered once at each place, with the links trained
there; the primary command processor's tables complete the bring-up, and the first time set the root of the page tables. That the
memory outside the dies is kept over package reset is the model's reading (log 63); where the table root stands, and that
nothing services the watchdog before it expires, are outside inputs (log 8). -/
def Obligations.ThePackageComesUp : Prop :=
  ∀ (i p from_ : Nat) (image : Option Nat) (s : State),
    (∃ t, exec .packageReset s = .next t ∧ t.cycle = 0 ∧ t.ctx = State.reset.ctx ∧ t.ctxs = [] ∧ t.agenda = [] ∧
      t.cores = [] ∧ t.clusters = [] ∧ t.dies = [] ∧ t.jobs = [] ∧ t.pkg = { State.reset.pkg with image := s.pkg.image } ∧
      (∀ a, a < weightAddr 0 0 → t.mem.read a = s.mem.read a) ∧
      ∀ a, weightAddr 0 0 ≤ a → t.mem.read a = Config.unwritten) ∧
    (∃ t, exec (.selfTestPass (.core i)) s = .next t ∧ i ∈ t.pkg.coreReady ∧ t = { s with pkg := t.pkg }) ∧
    (exec (.selfTestPass (.dmgr i)) s = .next s) ∧
    ((s.cluster i).cleared = false → (s.cluster i).clearing = false →
      ∃ t, exec (.selfTestPass (.cluster i)) s = .next t ∧ i ∈ t.pkg.clusterReady ∧ (t.cluster i).clearing = true ∧
        (s.cycle, Instr.clusterClear i) ∈ t.agenda) ∧
    (i < 6 → ∃ t, exec (.selfTestPass (.ring i)) s = .next t ∧ t.pkg.ringReady.getLsbD i = true ∧ t.pkg.downLinks.getLsbD i = false ∧
      (s.cycle + 4096, Instr.routingSetup) ∈ t.agenda) ∧
    (let stored := image.getD s.pkg.image;
      (i < 8 → ∃ t, exec (.firmwareBoot (.dmgr i) image) s = .next t ∧ t.pkg.dmgrReady.getLsbD i = Config.imageSigned stored ∧
        t.pkg.image = stored ∧ Table.get? t.pkg.bootAt i = some s.cycle ∧ t.mem = s.mem) ∧
      (i < 4 → ∃ t, exec (.firmwareBoot (.cmdp i) image) s = .next t ∧ t.pkg.cmdpReady.getLsbD i = Config.imageSigned stored ∧
        t.pkg.image = stored ∧ (Config.imageSigned stored = true →
          (s.cycle, Instr.explorePacket (ringPlace i + 6 * i) (ringPlace i)) ∈ t.agenda))) ∧
    (i < 8 → s.pkg.dmgrReady.getLsbD i = true → Table.getD s.pkg.bootAt i 0 + 2 ^ 24 ≤ s.cycle →
      ∃ t, exec (.watchdogExpiry (.dmgr i)) s = .next t ∧ t.pkg.dmgrReady.getLsbD i = false ∧
        (s.cycle, Instr.firmwareBoot (.dmgr i) none) ∈ t.agenda) ∧
    (i < 8 → (s.pkg.dmgrReady.getLsbD i = false ∨ s.cycle < Table.getD s.pkg.bootAt i 0 + 2 ^ 24) →
      exec (.watchdogExpiry (.dmgr i)) s = .next s) ∧
    (p < 6 → i < 4 → let seen (t : State) : BitVec 6 := t.pkg.explored.toList.getD i 0;
      ((seen s).getLsbD p = true → exec (.explorePacket (p + 6 * i) from_) s = .next s) ∧
      ((seen s).getLsbD p = false → ∃ t, exec (.explorePacket (p + 6 * i) from_) s = .next t ∧
        (seen t).getLsbD p = true ∧ Table.get? t.pkg.answers (p + 6 * i) = some (s.pkg.linksAt p) ∧
        (s.pkg.ringReady.getLsbD p = true → (p + 1) % 6 ≠ from_ →
          (s.cycle + 200, Instr.explorePacket ((p + 1) % 6 + 6 * i) p) ∈ t.agenda) ∧
        (s.pkg.ringReady.getLsbD ((p + 5) % 6) = true → (p + 5) % 6 ≠ from_ →
          (s.cycle + 200, Instr.explorePacket ((p + 5) % 6 + 6 * i) p) ∈ t.agenda) ∧ t.mem = s.mem)) ∧
    (s.primaryOf = none → exec .routingSetup s = .next s) ∧
    (∀ b, s.primaryOf = some b → ∃ t, exec .routingSetup s = .next t ∧ t.pkg.primary = some b ∧ t.pkg.bringUp = true ∧
      (s.pkg.bringUp = false → t.pkg.tbase = 0 ∧ t.ms.ptroot = 65536 * Config.tableRoot.toNat ∧ ∀ d, d < 8 → (s.cycle + 1024, Instr.stealRequest d) ∈ t.agenda) ∧
      (s.pkg.bringUp = true → t.pkg.tbase = s.pkg.tbase ∧ t.agenda = s.agenda) ∧ t.mem = s.mem)

/-- The queue's command processor runs a command of the opcode, whose operand's n bytes it has (R388, R389). -/
def Sys2Proof.Commanded (s : State) (q op n : Nat) (bs : List Byte) : Prop :=
  (s.queue q).stage = 1 ∧ (s.queue q).entry.toNat % 256 = op ∧ s.physBytes ((s.queue q).field 8 8) n = some bs

/-- R388, R389, R396, R397: a doorbell moves the tail, or sets QERR where it says more than the queue holds; an idle
queue's next entry is taken; a launch command submits its descriptor for the queue's job, a cancel ends the job's launches, a
key enters the slot named if that is the job's, an attestation is written before its completion, a debug command reaches only
the job's clusters, and a read's value is that of the register. A job that is ending launches nothing. The die that a queue submits to and the physical operand addresses are the model's choice (logs 57, 58). -/
def Obligations.CommandQueuesRun : Prop :=
  ∀ (q tail : Nat) (bs : List Byte) (s : State), q < 256 →
    ((s.queue q).qbase.getLsbD 0 = false → exec (.doorbellWrite q tail) s = .next s) ∧
    ((s.queue q).qbase.getLsbD 0 = true → tail < 2 ^ 32 →
      ((BitVec.ofNat 32 tail - (s.queue q).qhead).toNat ≤ (s.queue q).qsize.toNat →
        (∃ t, exec (.doorbellWrite q tail) s = .next t ∧ (t.queue q).tail = BitVec.ofNat 32 tail ∧ t.ctx = s.ctx) ∧
        (∀ e, (s.queue q).stage = 0 → s.pkg.cmdpReady.getLsbD (q % 4) = true → (s.queue q).qctl.getLsbD 12 = false →
          (s.queue q).qhead ≠ BitVec.ofNat 32 tail →
          s.physLine (((s.queue q).qbase.toNat / 4096 * 4096 + (s.queue q).qhead.toNat % (s.queue q).qsize.toNat * 64) / 64) =
            some e →
          entryOk e = true → ∃ t, exec (.doorbellWrite q tail) s = .next t ∧ (t.queue q).entry = e ∧ (t.queue q).stage = 1 ∧
            (t.queue q).qhead = (s.queue q).qhead + 1 ∧ (s.cycle, commandOf (e.toNat % 256) q) ∈ t.agenda)) ∧
      ((s.queue q).qsize.toNat < (BitVec.ofNat 32 tail - (s.queue q).qhead).toNat →
        ∃ t, exec (.doorbellWrite q tail) s = .next t ∧ (t.queue q).qctl.getLsbD 12 = true ∧
          (t.queue q).tail = (s.queue q).tail)) ∧
    (Commanded s q 1 64 bs → (s.job (s.queue q).job).ending.isSome = true →
      exec (.commandLaunch q) s = .next { s with agenda := insertDue (s.cycle + 1) (.commandLaunch q) s.agenda }) ∧
    (Commanded s q 1 64 bs → (s.job (s.queue q).job).ending = none → ∃ t l, exec (.commandLaunch q) s = .next t ∧ (t.queue q).stage = 4 ∧
      (s.cycle + 40, Instr.launchTake l) ∈ t.agenda ∧ l.raw = BitVec.ofNat 512 (natOfBytes bs) ∧
      l.job = (s.queue q).qctl.toNat % 4096 ∧ t.mem = s.mem) ∧
    ((s.queue q).stage = 1 → (s.queue q).entry.toNat % 256 = 2 → ∃ t, exec (.commandCancelJob q) s = .next t ∧
      (t.queue q).stage = 3 ∧ ∀ lid l, s.launch? lid = some l → l.st ≠ .done →
        lid ∈ s.launchesOf (s.queue q).job 3 0 → ∃ L, t.launch? lid = some L ∧ L.cancelled = true) ∧
    (Commanded s q 3 128 bs → ∃ t, exec (.commandLoadKey q) s = .next t ∧ (t.queue q).stage = 3 ∧ t.mem = s.mem ∧
      (∀ slot key, Config.unwrapKey bs = some (slot, key) →
        (Table.get? s.pkg.keySlots slot = some (s.queue q).job → Table.get? t.ms.keys slot = some key) ∧
        (Table.get? s.pkg.keySlots slot ≠ some (s.queue q).job → t.ms.keys = s.ms.keys)) ∧
      (Config.unwrapKey bs = none → t.ms.keys = s.ms.keys)) ∧
    (Commanded s q 4 256 bs → ∃ t, exec (.commandAttest q) s = .next t ∧ (t.queue q).stage = 2 ∧ t.mem = s.mem) ∧
    (Commanded s q 5 64 bs → ∃ t, exec (.commandDebug q) s = .next t ∧ (t.queue q).stage = 3 ∧ t.mem = s.mem ∧
      ∀ off wr c o, Config.debugRequest bs = (off, wr) → debugBlock off = some (c, o) →
        ((s.cluster c).job ≠ some (s.queue q).job → t.clusters = s.clusters) ∧
        ((s.cluster c).job = some (s.queue q).job → wr = none → t.pkg.readData = s.readRegister 2 off ∧
          (o = 8 → t.pkg.readData.getLsbD 3 = (s.cluster c).dbg.halted)))

/-- R386, R391, R392, R394, R395: a host access becomes a request at the line's home; a back-invalidation takes the line out
of the host's filter and writes the bytes it brings; a port's bit follows its link; another device's beat is a store of the
named job to a page that is RW to it, and else is dropped; a remote copy whose beats are acknowledged adds to its flag, and has
ended when that is acknowledged; a link that fails ends the copies that have a beat on it in a fault of kind 4, at the first such
beat, and no other. -/
def Obligations.TheFabricReachesMemory : Prop :=
  ∀ (pa i : Nat) (wr : Option Byte) (own : Bool) (b : Byte) (job : Nat) (s : State),
    (∃ t r, exec (.hostDeviceAccess pa wr own) s = .next t ∧ (s.cycle, Instr.homeRequest r) ∈ t.agenda ∧
      r.src = .host own ∧ r.line = physBase + pa / 64 ∧ (r.kind = .load ↔ own = false ∧ wr = none) ∧
      (∀ x, wr = some x → lineByte r.data (pa % 64) = x ∧ r.mask.getLsbD (pa % 64) = true) ∧
      t = { s with agenda := t.agenda }) ∧
    (i < 64 → Rising s.ms.filter → s.mem.wf = true → Table.get? s.ms.home (s.physPlace pa).dir = none →
      s.backInvAt (s.physPlace pa).dir = 0 → Table.getD s.ms.lineKeys (s.physPlace pa).data 0 = (s.physPlace pa).key →
      ∃ t, exec (.backInvalidation pa [(i, b)]) s = .next t ∧ Table.get? t.ms.filter (s.physPlace pa).dir = none ∧
        t.mem.read ((s.physPlace pa).data * 64 + i) = b ∧ SameBytesBut s t ((s.physPlace pa).data * 64 + i) 1) ∧
    (i < 2 → ∃ t u, exec (.hostPortDown i) s = .next t ∧ exec (.hostPortUp i) s = .next u ∧
      t.pkg.portUp.getLsbD i = false ∧ u.pkg.portUp.getLsbD i = true ∧
      t.pkg.portUp.getLsbD (1 - i) = s.pkg.portUp.getLsbD (1 - i) ∧ t = { s with pkg := t.pkg } ∧ u = { s with pkg := u.pkg }) ∧
    (∀ a, a < 2 ^ 55 →
      let l := (s.walk (a / 64 * 64)).attr
      let rw := leafMapped l.leaf = true ∧ leafBad l.big l.leaf = false ∧ (s.rightsEntry job (leafDomain l.leaf)).rights = 2
      (rw → s.boundCache job (a / 64 * 64) = 16 → ∃ t c r, exec (.remoteBeatArrival job [(a, b)]) s = .next t ∧
        (c, Instr.homeRequest r) ∈ t.agenda ∧ r.kind = .store ∧ r.job = job ∧ r.line = a / 64 ∧
        lineByte r.data (a % 64) = b ∧ r.mask.getLsbD (a % 64) = true ∧ t.mem = s.mem ∧ t.ctx = s.ctx) ∧
      (¬ rw → exec (.remoteBeatArrival job [(a, b)]) s = .next s)) ∧
    (∀ (c ch : Nat) (r : CopyRun) (e : JobEntry) (x : RemoteEntry), c < 512 → ch < 16 → (s.channel c ch).run = some r →
      clusterOf r.cmd.core = c → r.cmd.channel = ch → r.cmd.remote = true → r.isOver = true →
      Table.get? s.pkg.remote r.cmd.dev = some x → s.jobOf c r.cmd.jid = some e →
      (s.cycle < r.lastAck → exec (.remoteFlagAdd c ch r.cmd.dev) s = .next s) ∧
      (r.lastAck ≤ s.cycle → r.next = none → s.remoteLinks r.cmd.dev ≠ 0 →
        ∃ t u, exec (.remoteFlagAdd c ch r.cmd.dev) s = .next t ∧ (t.channel c ch).run = some u ∧ u.next.isSome = true ∧
          u.cmd = r.cmd ∧ (s.cycle + remoteTrip, Instr.remoteFlagAdd c ch r.cmd.dev) ∈ t.agenda ∧ t.mem = s.mem ∧
          t.pkg.remoteOut = s.pkg.remoteOut ++ [(r.cmd.dev, [(x.offset.toNat, 1), (x.offset.toNat + 1, 0),
            (x.offset.toNat + 2, 0), (x.offset.toNat + 3, 0)])]) ∧
      (r.lastAck ≤ s.cycle → r.next.isSome = true →
        ∃ t, exec (.remoteFlagAdd c ch r.cmd.dev) s = .next t ∧ t.jobOf c r.cmd.jid = none ∧ t.mem = s.mem)) ∧
    (i < 32 → Rising s.clusters → ∃ t, exec (.fabricLinkFailure i) s = .next t ∧ t.pkg.fabReady.getLsbD i = false ∧
      t.mem = s.mem ∧ ∀ c ch r, ch < 16 → (s.channel c ch).run = some r →
        (∀ b, r.onFabric s.cycle i = some b →
          ∃ u, (t.channel c ch).run = some u ∧ u.fault = some (4, b.dst) ∧ u.pos = b.pos ∧ u.off = b.off ∧ u.cmd = r.cmd) ∧
        (r.onFabric s.cycle i = none → t.channel c ch = s.channel c ch))
end

