-- ==== Sys2Proof/Laws/Memory.lean ====
section
/-! SUPPORT. The laws of memory (log 3): every operation keeps the canonical form, a byte reads as written, and no
other byte changes. -/
namespace Sys2Proof.Machine

theorem Memory.wfFrom_mono {lo lo' : Nat} {m : Memory} (hl : lo' ≤ lo) (h : Memory.wfFrom lo m = true) :
    Memory.wfFrom lo' m = true := by
  cases m with
  | nil => rfl
  | cons x m =>
    obtain ⟨x, b⟩ := x
    simp only [Memory.wfFrom, Bool.and_eq_true, decide_eq_true_eq] at h ⊢
    exact ⟨⟨by omega, h.1.2⟩, h.2⟩

/-- An address below every listed one reads as unlisted. -/
theorem Memory.read_below {lo a : Nat} {m : Memory} (h : Memory.wfFrom lo m = true) (ha : a < lo) :
    m.read a = Config.unwritten := by
  induction m generalizing lo with
  | nil => rfl
  | cons x m ih =>
    obtain ⟨x, b⟩ := x
    simp only [Memory.wfFrom, Bool.and_eq_true, decide_eq_true_eq] at h
    have hx : x ≠ a := by omega
    simp only [Memory.read, hx, if_false]
    exact ih h.2 (by omega)

/-- A write keeps the canonical form. -/
theorem Memory.write_wfFrom {lo a : Nat} {m : Memory} (b : Byte) (h : Memory.wfFrom lo m = true) (ha : lo ≤ a) :
    Memory.wfFrom lo (m.write a b) = true := by
  induction m generalizing lo with
  | nil =>
    simp only [Memory.write]
    split
    · rfl
    · simp_all [Memory.wfFrom]
  | cons x m ih =>
    obtain ⟨x, c⟩ := x
    simp only [Memory.wfFrom, Bool.and_eq_true, decide_eq_true_eq] at h
    simp only [Memory.write]
    split
    · split
      · simp [Memory.wfFrom, h]
      · rename_i h1 h2
        simp only [Memory.wfFrom, Bool.and_eq_true, decide_eq_true_eq]
        exact ⟨⟨ha, h2⟩, ⟨by omega, h.1.2⟩, h.2⟩
    · split
      · split
        · exact Memory.wfFrom_mono (by omega) h.2
        · rename_i h1 h2 h3
          subst h2
          simp [Memory.wfFrom, h, h3]
      · simp only [Memory.wfFrom, Bool.and_eq_true, decide_eq_true_eq]
        exact ⟨h.1, ih h.2 (by omega)⟩

theorem Memory.write_wf {m : Memory} (a : Nat) (b : Byte) (h : m.wf = true) : (m.write a b).wf = true :=
  Memory.write_wfFrom b h (Nat.zero_le a)

theorem Memory.writeBytes_wf {m : Memory} (a : Nat) (bs : List Byte) (h : m.wf = true) :
    (m.writeBytes a bs).wf = true := by
  induction bs generalizing m a with
  | nil => exact h
  | cons b bs ih => exact ih (a + 1) (Memory.write_wf a b h)

theorem Memory.writeNat_wf {m : Memory} (a n v : Nat) (h : m.wf = true) : (m.writeNat a n v).wf = true :=
  Memory.writeBytes_wf a _ h

theorem Memory.writeCells_wf {m : Memory} (cs : List Host.Cell) (h : m.wf = true) : (m.writeCells cs).wf = true := by
  induction cs generalizing m with
  | nil => exact h
  | cons c cs ih => exact ih (Memory.write_wf c.1 c.2 h)

theorem Memory.filter_wfFrom {lo : Nat} {m : Memory} (f : Host.Cell → Bool) (h : Memory.wfFrom lo m = true) :
    Memory.wfFrom lo (m.filter f) = true := by
  induction m generalizing lo with
  | nil => rfl
  | cons x m ih =>
    obtain ⟨x, b⟩ := x
    simp only [Memory.wfFrom, Bool.and_eq_true, decide_eq_true_eq] at h
    rw [List.filter_cons]
    split
    · simp only [Memory.wfFrom, Bool.and_eq_true, decide_eq_true_eq]
      exact ⟨h.1, ih h.2⟩
    · exact Memory.wfFrom_mono (by omega) (ih h.2)

theorem Memory.filter_wf {m : Memory} (f : Host.Cell → Bool) (h : m.wf = true) : Memory.wf (m.filter f) = true :=
  Memory.filter_wfFrom f h

/-- A byte written reads back. -/
theorem Memory.read_write_self {lo a : Nat} {m : Memory} (b : Byte) (h : Memory.wfFrom lo m = true) :
    (m.write a b).read a = b := by
  induction m generalizing lo with
  | nil =>
    simp only [Memory.write]
    split <;> simp_all [Memory.read]
  | cons x m ih =>
    obtain ⟨x, c⟩ := x
    have h0 := h
    simp only [Memory.wfFrom, Bool.and_eq_true, decide_eq_true_eq] at h
    simp only [Memory.write]
    split
    · rename_i hlt
      split
      · rename_i hb
        have hx : x ≠ a := by omega
        simp only [Memory.read, hx, if_false, hb]
        exact Memory.read_below h.2 (by omega)
      · simp [Memory.read]
    · split
      · split
        · rename_i _ he hb
          rw [hb]
          exact Memory.read_below h.2 (by omega)
        · simp [Memory.read]
      · rename_i _ hne
        simp only [Memory.read, Ne.symm hne, if_false]
        exact ih h.2

/-- A write leaves every other byte alone. -/
theorem Memory.read_write_ne {a x : Nat} (m : Memory) (b : Byte) (hx : x ≠ a) : (m.write a b).read x = m.read x := by
  induction m with
  | nil =>
    simp only [Memory.write]
    split <;> simp [Memory.read, Ne.symm hx]
  | cons y m ih =>
    obtain ⟨y, c⟩ := y
    simp only [Memory.write]
    split
    · split <;> simp [Memory.read, Ne.symm hx]
    · split
      · rename_i _ he
        subst he
        split <;> simp [Memory.read, Ne.symm hx]
      · simp only [Memory.read, ih]

/-- Bytes written from an address up leave every address outside them alone. -/
theorem Memory.read_writeBytes_ne {a x : Nat} (m : Memory) (bs : List Byte) (hx : x < a ∨ a + bs.length ≤ x) :
    (m.writeBytes a bs).read x = m.read x := by
  induction bs generalizing m a with
  | nil => rfl
  | cons b bs ih =>
    simp only [List.length_cons] at hx
    rw [Memory.writeBytes, ih (m.write a b) (by omega), Memory.read_write_ne m b (by omega)]

theorem bytesOfNat_length (n w : Nat) : (bytesOfNat n w).length = n := by
  induction n generalizing w with
  | zero => rfl
  | succ n ih => simp [bytesOfNat, ih]

/-- Bytes written from an address up read back. -/
theorem Memory.readBytes_writeBytes {a : Nat} {m : Memory} (bs : List Byte) (h : m.wf = true) :
    (m.writeBytes a bs).readBytes a bs.length = bs := by
  induction bs generalizing m a with
  | nil => rfl
  | cons b bs ih =>
    have hw := Memory.write_wf a b h
    simp only [Memory.writeBytes, List.length_cons, Memory.readBytes, List.cons.injEq]
    refine ⟨?_, ih hw⟩
    rw [Memory.read_writeBytes_ne _ bs (by omega)]
    exact Memory.read_write_self b h

theorem natOfBytes_bytesOfNat (n w : Nat) : natOfBytes (bytesOfNat n w) = w % 2 ^ (8 * n) := by
  induction n generalizing w with
  | zero => simp [bytesOfNat, natOfBytes, Nat.mod_one]
  | succ n ih =>
    simp only [bytesOfNat, natOfBytes, ih, BitVec.toNat_ofNat]
    rw [show 8 * (n + 1) = 8 + 8 * n by omega, Nat.pow_add, Nat.mod_mul]

/-- A number written in `n` bytes reads back, modulo its width (R4). -/
theorem Memory.readNat_writeNat {m : Memory} (a n v : Nat) (h : m.wf = true) :
    (m.writeNat a n v).readNat a n = v % 2 ^ (8 * n) := by
  unfold Memory.readNat Memory.writeNat
  have := Memory.readBytes_writeBytes (a := a) (bytesOfNat n v) h
  rw [bytesOfNat_length] at this
  rw [this, natOfBytes_bytesOfNat]

/-- Bytes outside a number's do not change. -/
theorem Memory.read_writeNat_ne {a x : Nat} (m : Memory) (n v : Nat) (hx : x < a ∨ a + n ≤ x) :
    (m.writeNat a n v).read x = m.read x :=
  Memory.read_writeBytes_ne m _ (by rwa [bytesOfNat_length])

theorem Memory.read_writeCells_ne {x : Nat} (m : Memory) (cs : List Host.Cell) (hx : ∀ c ∈ cs, x ≠ c.1) :
    (m.writeCells cs).read x = m.read x := by
  induction cs generalizing m with
  | nil => rfl
  | cons c cs ih =>
    have h1 := ih (m.write c.1 c.2) fun d hd => hx d (List.mem_cons_of_mem _ hd)
    rw [← Memory.read_write_ne m c.2 (hx c (List.mem_cons_self ..)), ← h1]
    rfl

theorem Memory.reset_wf : State.reset.mem.wf = true := rfl

end Sys2Proof.Machine
end

