-- ==== Sys2Proof/Laws/State.lean ====
section
/-! SUPPORT. The frame of every update of Machine/Ops.lean, one lemma per field it leaves alone, and what the updates
of one part of the state by its number do to that part and to the others. -/
namespace Sys2Proof.Machine

/-! ## Tables -/

theorem Table.get?_set_self {α : Type} (m : Table α) (n : Nat) (a : α) : Table.get? (Table.set m n a) n = some a := by
  induction m with
  | nil => simp [Table.set, Table.get?]
  | cons x m ih =>
    obtain ⟨x, b⟩ := x
    simp only [Table.set]
    split
    · simp [Table.get?]
    · split
      · simp [Table.get?]
      · rename_i h1 h2
        simp [Table.get?, Ne.symm h2, ih]

theorem Table.get?_set_ne {α : Type} (m : Table α) {n k : Nat} (a : α) (h : k ≠ n) :
    Table.get? (Table.set m n a) k = Table.get? m k := by
  induction m with
  | nil => simp [Table.set, Table.get?, Ne.symm h]
  | cons x m ih =>
    obtain ⟨x, b⟩ := x
    simp only [Table.set]
    split
    · simp [Table.get?, Ne.symm h]
    · split
      · rename_i h1 h2
        subst h2
        simp [Table.get?, Ne.symm h]
      · simp [Table.get?, ih]

@[simp] theorem Table.getD_set_self {α : Type} (m : Table α) (n : Nat) (a d : α) : Table.getD (Table.set m n a) n d = a := by
  simp [Table.getD, Table.get?_set_self]

theorem Table.getD_set_ne {α : Type} (m : Table α) {n k : Nat} (a d : α) (h : k ≠ n) :
    Table.getD (Table.set m n a) k d = Table.getD m k d := by
  simp [Table.getD, Table.get?_set_ne m a h]

/-- The numbers of a table rise: every table of the state is kept so. -/
def Table.rising {α : Type} : Nat → Table α → Prop
  | _, [] => True
  | lo, (x, _) :: m => lo ≤ x ∧ Table.rising (x + 1) m

/-! ## Frames -/

/-- The end of an instruction changes the current context only. -/
theorem State.finish_only_ctx (s : State) (n : Nat) : ∃ c, s.finish n = { s with ctx := c } := by
  unfold State.finish
  dsimp only
  split
  · split
    · exact ⟨_, rfl⟩
    · exact ⟨_, rfl⟩
  · exact ⟨_, rfl⟩

/-! ### setCore -/

@[simp] theorem State.setCore_cycle (s : State) (k : Nat) (c : Core) : (s.setCore k c).cycle = s.cycle := rfl
@[simp] theorem State.setCore_turn (s : State) (k : Nat) (c : Core) : (s.setCore k c).turn = s.turn := rfl
@[simp] theorem State.setCore_cur (s : State) (k : Nat) (c : Core) : (s.setCore k c).cur = s.cur := rfl
@[simp] theorem State.setCore_ctx (s : State) (k : Nat) (c : Core) : (s.setCore k c).ctx = s.ctx := rfl
@[simp] theorem State.setCore_ctxs (s : State) (k : Nat) (c : Core) : (s.setCore k c).ctxs = s.ctxs := rfl
@[simp] theorem State.setCore_kicks (s : State) (k : Nat) (c : Core) : (s.setCore k c).kicks = s.kicks := rfl
@[simp] theorem State.setCore_replays (s : State) (k : Nat) (c : Core) : (s.setCore k c).replays = s.replays := rfl
@[simp] theorem State.setCore_visitFrom (s : State) (k : Nat) (c : Core) : (s.setCore k c).visitFrom = s.visitFrom := rfl
@[simp] theorem State.setCore_agenda (s : State) (k : Nat) (c : Core) : (s.setCore k c).agenda = s.agenda := rfl
@[simp] theorem State.setCore_mem (s : State) (k : Nat) (c : Core) : (s.setCore k c).mem = s.mem := rfl
@[simp] theorem State.setCore_clusters (s : State) (k : Nat) (c : Core) : (s.setCore k c).clusters = s.clusters := rfl
@[simp] theorem State.setCore_dies (s : State) (k : Nat) (c : Core) : (s.setCore k c).dies = s.dies := rfl
@[simp] theorem State.setCore_jobs (s : State) (k : Nat) (c : Core) : (s.setCore k c).jobs = s.jobs := rfl
@[simp] theorem State.setCore_ms (s : State) (k : Nat) (c : Core) : (s.setCore k c).ms = s.ms := rfl
@[simp] theorem State.setCore_pkg (s : State) (k : Nat) (c : Core) : (s.setCore k c).pkg = s.pkg := rfl

/-! ### modCore -/

@[simp] theorem State.modCore_cycle (s : State) (k : Nat) (f : Core → Core) : (s.modCore k f).cycle = s.cycle := rfl
@[simp] theorem State.modCore_turn (s : State) (k : Nat) (f : Core → Core) : (s.modCore k f).turn = s.turn := rfl
@[simp] theorem State.modCore_cur (s : State) (k : Nat) (f : Core → Core) : (s.modCore k f).cur = s.cur := rfl
@[simp] theorem State.modCore_ctx (s : State) (k : Nat) (f : Core → Core) : (s.modCore k f).ctx = s.ctx := rfl
@[simp] theorem State.modCore_ctxs (s : State) (k : Nat) (f : Core → Core) : (s.modCore k f).ctxs = s.ctxs := rfl
@[simp] theorem State.modCore_kicks (s : State) (k : Nat) (f : Core → Core) : (s.modCore k f).kicks = s.kicks := rfl
@[simp] theorem State.modCore_replays (s : State) (k : Nat) (f : Core → Core) : (s.modCore k f).replays = s.replays := rfl
@[simp] theorem State.modCore_visitFrom (s : State) (k : Nat) (f : Core → Core) : (s.modCore k f).visitFrom = s.visitFrom := rfl
@[simp] theorem State.modCore_agenda (s : State) (k : Nat) (f : Core → Core) : (s.modCore k f).agenda = s.agenda := rfl
@[simp] theorem State.modCore_mem (s : State) (k : Nat) (f : Core → Core) : (s.modCore k f).mem = s.mem := rfl
@[simp] theorem State.modCore_clusters (s : State) (k : Nat) (f : Core → Core) : (s.modCore k f).clusters = s.clusters := rfl
@[simp] theorem State.modCore_dies (s : State) (k : Nat) (f : Core → Core) : (s.modCore k f).dies = s.dies := rfl
@[simp] theorem State.modCore_jobs (s : State) (k : Nat) (f : Core → Core) : (s.modCore k f).jobs = s.jobs := rfl
@[simp] theorem State.modCore_ms (s : State) (k : Nat) (f : Core → Core) : (s.modCore k f).ms = s.ms := rfl
@[simp] theorem State.modCore_pkg (s : State) (k : Nat) (f : Core → Core) : (s.modCore k f).pkg = s.pkg := rfl

/-! ### setCluster -/

@[simp] theorem State.setCluster_cycle (s : State) (k : Nat) (c : Cluster) : (s.setCluster k c).cycle = s.cycle := rfl
@[simp] theorem State.setCluster_turn (s : State) (k : Nat) (c : Cluster) : (s.setCluster k c).turn = s.turn := rfl
@[simp] theorem State.setCluster_cur (s : State) (k : Nat) (c : Cluster) : (s.setCluster k c).cur = s.cur := rfl
@[simp] theorem State.setCluster_ctx (s : State) (k : Nat) (c : Cluster) : (s.setCluster k c).ctx = s.ctx := rfl
@[simp] theorem State.setCluster_ctxs (s : State) (k : Nat) (c : Cluster) : (s.setCluster k c).ctxs = s.ctxs := rfl
@[simp] theorem State.setCluster_kicks (s : State) (k : Nat) (c : Cluster) : (s.setCluster k c).kicks = s.kicks := rfl
@[simp] theorem State.setCluster_replays (s : State) (k : Nat) (c : Cluster) : (s.setCluster k c).replays = s.replays := rfl
@[simp] theorem State.setCluster_visitFrom (s : State) (k : Nat) (c : Cluster) : (s.setCluster k c).visitFrom = s.visitFrom := rfl
@[simp] theorem State.setCluster_agenda (s : State) (k : Nat) (c : Cluster) : (s.setCluster k c).agenda = s.agenda := rfl
@[simp] theorem State.setCluster_mem (s : State) (k : Nat) (c : Cluster) : (s.setCluster k c).mem = s.mem := rfl
@[simp] theorem State.setCluster_cores (s : State) (k : Nat) (c : Cluster) : (s.setCluster k c).cores = s.cores := rfl
@[simp] theorem State.setCluster_dies (s : State) (k : Nat) (c : Cluster) : (s.setCluster k c).dies = s.dies := rfl
@[simp] theorem State.setCluster_jobs (s : State) (k : Nat) (c : Cluster) : (s.setCluster k c).jobs = s.jobs := rfl
@[simp] theorem State.setCluster_ms (s : State) (k : Nat) (c : Cluster) : (s.setCluster k c).ms = s.ms := rfl
@[simp] theorem State.setCluster_pkg (s : State) (k : Nat) (c : Cluster) : (s.setCluster k c).pkg = s.pkg := rfl

/-! ### modCluster -/

@[simp] theorem State.modCluster_cycle (s : State) (k : Nat) (f : Cluster → Cluster) : (s.modCluster k f).cycle = s.cycle := rfl
@[simp] theorem State.modCluster_turn (s : State) (k : Nat) (f : Cluster → Cluster) : (s.modCluster k f).turn = s.turn := rfl
@[simp] theorem State.modCluster_cur (s : State) (k : Nat) (f : Cluster → Cluster) : (s.modCluster k f).cur = s.cur := rfl
@[simp] theorem State.modCluster_ctx (s : State) (k : Nat) (f : Cluster → Cluster) : (s.modCluster k f).ctx = s.ctx := rfl
@[simp] theorem State.modCluster_ctxs (s : State) (k : Nat) (f : Cluster → Cluster) : (s.modCluster k f).ctxs = s.ctxs := rfl
@[simp] theorem State.modCluster_kicks (s : State) (k : Nat) (f : Cluster → Cluster) : (s.modCluster k f).kicks = s.kicks := rfl
@[simp] theorem State.modCluster_replays (s : State) (k : Nat) (f : Cluster → Cluster) : (s.modCluster k f).replays = s.replays := rfl
@[simp] theorem State.modCluster_visitFrom (s : State) (k : Nat) (f : Cluster → Cluster) : (s.modCluster k f).visitFrom = s.visitFrom := rfl
@[simp] theorem State.modCluster_agenda (s : State) (k : Nat) (f : Cluster → Cluster) : (s.modCluster k f).agenda = s.agenda := rfl
@[simp] theorem State.modCluster_mem (s : State) (k : Nat) (f : Cluster → Cluster) : (s.modCluster k f).mem = s.mem := rfl
@[simp] theorem State.modCluster_cores (s : State) (k : Nat) (f : Cluster → Cluster) : (s.modCluster k f).cores = s.cores := rfl
@[simp] theorem State.modCluster_dies (s : State) (k : Nat) (f : Cluster → Cluster) : (s.modCluster k f).dies = s.dies := rfl
@[simp] theorem State.modCluster_jobs (s : State) (k : Nat) (f : Cluster → Cluster) : (s.modCluster k f).jobs = s.jobs := rfl
@[simp] theorem State.modCluster_ms (s : State) (k : Nat) (f : Cluster → Cluster) : (s.modCluster k f).ms = s.ms := rfl
@[simp] theorem State.modCluster_pkg (s : State) (k : Nat) (f : Cluster → Cluster) : (s.modCluster k f).pkg = s.pkg := rfl

/-! ### setDie -/

@[simp] theorem State.setDie_cycle (s : State) (k : Nat) (c : Die) : (s.setDie k c).cycle = s.cycle := rfl
@[simp] theorem State.setDie_turn (s : State) (k : Nat) (c : Die) : (s.setDie k c).turn = s.turn := rfl
@[simp] theorem State.setDie_cur (s : State) (k : Nat) (c : Die) : (s.setDie k c).cur = s.cur := rfl
@[simp] theorem State.setDie_ctx (s : State) (k : Nat) (c : Die) : (s.setDie k c).ctx = s.ctx := rfl
@[simp] theorem State.setDie_ctxs (s : State) (k : Nat) (c : Die) : (s.setDie k c).ctxs = s.ctxs := rfl
@[simp] theorem State.setDie_kicks (s : State) (k : Nat) (c : Die) : (s.setDie k c).kicks = s.kicks := rfl
@[simp] theorem State.setDie_replays (s : State) (k : Nat) (c : Die) : (s.setDie k c).replays = s.replays := rfl
@[simp] theorem State.setDie_visitFrom (s : State) (k : Nat) (c : Die) : (s.setDie k c).visitFrom = s.visitFrom := rfl
@[simp] theorem State.setDie_agenda (s : State) (k : Nat) (c : Die) : (s.setDie k c).agenda = s.agenda := rfl
@[simp] theorem State.setDie_mem (s : State) (k : Nat) (c : Die) : (s.setDie k c).mem = s.mem := rfl
@[simp] theorem State.setDie_cores (s : State) (k : Nat) (c : Die) : (s.setDie k c).cores = s.cores := rfl
@[simp] theorem State.setDie_clusters (s : State) (k : Nat) (c : Die) : (s.setDie k c).clusters = s.clusters := rfl
@[simp] theorem State.setDie_jobs (s : State) (k : Nat) (c : Die) : (s.setDie k c).jobs = s.jobs := rfl
@[simp] theorem State.setDie_ms (s : State) (k : Nat) (c : Die) : (s.setDie k c).ms = s.ms := rfl
@[simp] theorem State.setDie_pkg (s : State) (k : Nat) (c : Die) : (s.setDie k c).pkg = s.pkg := rfl

/-! ### modDie -/

@[simp] theorem State.modDie_cycle (s : State) (k : Nat) (f : Die → Die) : (s.modDie k f).cycle = s.cycle := rfl
@[simp] theorem State.modDie_turn (s : State) (k : Nat) (f : Die → Die) : (s.modDie k f).turn = s.turn := rfl
@[simp] theorem State.modDie_cur (s : State) (k : Nat) (f : Die → Die) : (s.modDie k f).cur = s.cur := rfl
@[simp] theorem State.modDie_ctx (s : State) (k : Nat) (f : Die → Die) : (s.modDie k f).ctx = s.ctx := rfl
@[simp] theorem State.modDie_ctxs (s : State) (k : Nat) (f : Die → Die) : (s.modDie k f).ctxs = s.ctxs := rfl
@[simp] theorem State.modDie_kicks (s : State) (k : Nat) (f : Die → Die) : (s.modDie k f).kicks = s.kicks := rfl
@[simp] theorem State.modDie_replays (s : State) (k : Nat) (f : Die → Die) : (s.modDie k f).replays = s.replays := rfl
@[simp] theorem State.modDie_visitFrom (s : State) (k : Nat) (f : Die → Die) : (s.modDie k f).visitFrom = s.visitFrom := rfl
@[simp] theorem State.modDie_agenda (s : State) (k : Nat) (f : Die → Die) : (s.modDie k f).agenda = s.agenda := rfl
@[simp] theorem State.modDie_mem (s : State) (k : Nat) (f : Die → Die) : (s.modDie k f).mem = s.mem := rfl
@[simp] theorem State.modDie_cores (s : State) (k : Nat) (f : Die → Die) : (s.modDie k f).cores = s.cores := rfl
@[simp] theorem State.modDie_clusters (s : State) (k : Nat) (f : Die → Die) : (s.modDie k f).clusters = s.clusters := rfl
@[simp] theorem State.modDie_jobs (s : State) (k : Nat) (f : Die → Die) : (s.modDie k f).jobs = s.jobs := rfl
@[simp] theorem State.modDie_ms (s : State) (k : Nat) (f : Die → Die) : (s.modDie k f).ms = s.ms := rfl
@[simp] theorem State.modDie_pkg (s : State) (k : Nat) (f : Die → Die) : (s.modDie k f).pkg = s.pkg := rfl

/-! ### setJob -/

@[simp] theorem State.setJob_cycle (s : State) (k : Nat) (c : Job) : (s.setJob k c).cycle = s.cycle := rfl
@[simp] theorem State.setJob_turn (s : State) (k : Nat) (c : Job) : (s.setJob k c).turn = s.turn := rfl
@[simp] theorem State.setJob_cur (s : State) (k : Nat) (c : Job) : (s.setJob k c).cur = s.cur := rfl
@[simp] theorem State.setJob_ctx (s : State) (k : Nat) (c : Job) : (s.setJob k c).ctx = s.ctx := rfl
@[simp] theorem State.setJob_ctxs (s : State) (k : Nat) (c : Job) : (s.setJob k c).ctxs = s.ctxs := rfl
@[simp] theorem State.setJob_kicks (s : State) (k : Nat) (c : Job) : (s.setJob k c).kicks = s.kicks := rfl
@[simp] theorem State.setJob_replays (s : State) (k : Nat) (c : Job) : (s.setJob k c).replays = s.replays := rfl
@[simp] theorem State.setJob_visitFrom (s : State) (k : Nat) (c : Job) : (s.setJob k c).visitFrom = s.visitFrom := rfl
@[simp] theorem State.setJob_agenda (s : State) (k : Nat) (c : Job) : (s.setJob k c).agenda = s.agenda := rfl
@[simp] theorem State.setJob_mem (s : State) (k : Nat) (c : Job) : (s.setJob k c).mem = s.mem := rfl
@[simp] theorem State.setJob_cores (s : State) (k : Nat) (c : Job) : (s.setJob k c).cores = s.cores := rfl
@[simp] theorem State.setJob_clusters (s : State) (k : Nat) (c : Job) : (s.setJob k c).clusters = s.clusters := rfl
@[simp] theorem State.setJob_dies (s : State) (k : Nat) (c : Job) : (s.setJob k c).dies = s.dies := rfl
@[simp] theorem State.setJob_ms (s : State) (k : Nat) (c : Job) : (s.setJob k c).ms = s.ms := rfl
@[simp] theorem State.setJob_pkg (s : State) (k : Nat) (c : Job) : (s.setJob k c).pkg = s.pkg := rfl

/-! ### modJob -/

@[simp] theorem State.modJob_cycle (s : State) (k : Nat) (f : Job → Job) : (s.modJob k f).cycle = s.cycle := rfl
@[simp] theorem State.modJob_turn (s : State) (k : Nat) (f : Job → Job) : (s.modJob k f).turn = s.turn := rfl
@[simp] theorem State.modJob_cur (s : State) (k : Nat) (f : Job → Job) : (s.modJob k f).cur = s.cur := rfl
@[simp] theorem State.modJob_ctx (s : State) (k : Nat) (f : Job → Job) : (s.modJob k f).ctx = s.ctx := rfl
@[simp] theorem State.modJob_ctxs (s : State) (k : Nat) (f : Job → Job) : (s.modJob k f).ctxs = s.ctxs := rfl
@[simp] theorem State.modJob_kicks (s : State) (k : Nat) (f : Job → Job) : (s.modJob k f).kicks = s.kicks := rfl
@[simp] theorem State.modJob_replays (s : State) (k : Nat) (f : Job → Job) : (s.modJob k f).replays = s.replays := rfl
@[simp] theorem State.modJob_visitFrom (s : State) (k : Nat) (f : Job → Job) : (s.modJob k f).visitFrom = s.visitFrom := rfl
@[simp] theorem State.modJob_agenda (s : State) (k : Nat) (f : Job → Job) : (s.modJob k f).agenda = s.agenda := rfl
@[simp] theorem State.modJob_mem (s : State) (k : Nat) (f : Job → Job) : (s.modJob k f).mem = s.mem := rfl
@[simp] theorem State.modJob_cores (s : State) (k : Nat) (f : Job → Job) : (s.modJob k f).cores = s.cores := rfl
@[simp] theorem State.modJob_clusters (s : State) (k : Nat) (f : Job → Job) : (s.modJob k f).clusters = s.clusters := rfl
@[simp] theorem State.modJob_dies (s : State) (k : Nat) (f : Job → Job) : (s.modJob k f).dies = s.dies := rfl
@[simp] theorem State.modJob_ms (s : State) (k : Nat) (f : Job → Job) : (s.modJob k f).ms = s.ms := rfl
@[simp] theorem State.modJob_pkg (s : State) (k : Nat) (f : Job → Job) : (s.modJob k f).pkg = s.pkg := rfl

/-! ### modMS -/

@[simp] theorem State.modMS_cycle (s : State) (f : MemSys → MemSys) : (s.modMS f).cycle = s.cycle := rfl
@[simp] theorem State.modMS_turn (s : State) (f : MemSys → MemSys) : (s.modMS f).turn = s.turn := rfl
@[simp] theorem State.modMS_cur (s : State) (f : MemSys → MemSys) : (s.modMS f).cur = s.cur := rfl
@[simp] theorem State.modMS_ctx (s : State) (f : MemSys → MemSys) : (s.modMS f).ctx = s.ctx := rfl
@[simp] theorem State.modMS_ctxs (s : State) (f : MemSys → MemSys) : (s.modMS f).ctxs = s.ctxs := rfl
@[simp] theorem State.modMS_kicks (s : State) (f : MemSys → MemSys) : (s.modMS f).kicks = s.kicks := rfl
@[simp] theorem State.modMS_replays (s : State) (f : MemSys → MemSys) : (s.modMS f).replays = s.replays := rfl
@[simp] theorem State.modMS_visitFrom (s : State) (f : MemSys → MemSys) : (s.modMS f).visitFrom = s.visitFrom := rfl
@[simp] theorem State.modMS_agenda (s : State) (f : MemSys → MemSys) : (s.modMS f).agenda = s.agenda := rfl
@[simp] theorem State.modMS_mem (s : State) (f : MemSys → MemSys) : (s.modMS f).mem = s.mem := rfl
@[simp] theorem State.modMS_cores (s : State) (f : MemSys → MemSys) : (s.modMS f).cores = s.cores := rfl
@[simp] theorem State.modMS_clusters (s : State) (f : MemSys → MemSys) : (s.modMS f).clusters = s.clusters := rfl
@[simp] theorem State.modMS_dies (s : State) (f : MemSys → MemSys) : (s.modMS f).dies = s.dies := rfl
@[simp] theorem State.modMS_jobs (s : State) (f : MemSys → MemSys) : (s.modMS f).jobs = s.jobs := rfl
@[simp] theorem State.modMS_pkg (s : State) (f : MemSys → MemSys) : (s.modMS f).pkg = s.pkg := rfl

/-! ### modPkg -/

@[simp] theorem State.modPkg_cycle (s : State) (f : Pkg → Pkg) : (s.modPkg f).cycle = s.cycle := rfl
@[simp] theorem State.modPkg_turn (s : State) (f : Pkg → Pkg) : (s.modPkg f).turn = s.turn := rfl
@[simp] theorem State.modPkg_cur (s : State) (f : Pkg → Pkg) : (s.modPkg f).cur = s.cur := rfl
@[simp] theorem State.modPkg_ctx (s : State) (f : Pkg → Pkg) : (s.modPkg f).ctx = s.ctx := rfl
@[simp] theorem State.modPkg_ctxs (s : State) (f : Pkg → Pkg) : (s.modPkg f).ctxs = s.ctxs := rfl
@[simp] theorem State.modPkg_kicks (s : State) (f : Pkg → Pkg) : (s.modPkg f).kicks = s.kicks := rfl
@[simp] theorem State.modPkg_replays (s : State) (f : Pkg → Pkg) : (s.modPkg f).replays = s.replays := rfl
@[simp] theorem State.modPkg_visitFrom (s : State) (f : Pkg → Pkg) : (s.modPkg f).visitFrom = s.visitFrom := rfl
@[simp] theorem State.modPkg_agenda (s : State) (f : Pkg → Pkg) : (s.modPkg f).agenda = s.agenda := rfl
@[simp] theorem State.modPkg_mem (s : State) (f : Pkg → Pkg) : (s.modPkg f).mem = s.mem := rfl
@[simp] theorem State.modPkg_cores (s : State) (f : Pkg → Pkg) : (s.modPkg f).cores = s.cores := rfl
@[simp] theorem State.modPkg_clusters (s : State) (f : Pkg → Pkg) : (s.modPkg f).clusters = s.clusters := rfl
@[simp] theorem State.modPkg_dies (s : State) (f : Pkg → Pkg) : (s.modPkg f).dies = s.dies := rfl
@[simp] theorem State.modPkg_jobs (s : State) (f : Pkg → Pkg) : (s.modPkg f).jobs = s.jobs := rfl
@[simp] theorem State.modPkg_ms (s : State) (f : Pkg → Pkg) : (s.modPkg f).ms = s.ms := rfl

/-! ### modCtx -/

@[simp] theorem State.modCtx_cycle (s : State) (f : Ctx → Ctx) : (s.modCtx f).cycle = s.cycle := rfl
@[simp] theorem State.modCtx_turn (s : State) (f : Ctx → Ctx) : (s.modCtx f).turn = s.turn := rfl
@[simp] theorem State.modCtx_cur (s : State) (f : Ctx → Ctx) : (s.modCtx f).cur = s.cur := rfl
@[simp] theorem State.modCtx_ctxs (s : State) (f : Ctx → Ctx) : (s.modCtx f).ctxs = s.ctxs := rfl
@[simp] theorem State.modCtx_kicks (s : State) (f : Ctx → Ctx) : (s.modCtx f).kicks = s.kicks := rfl
@[simp] theorem State.modCtx_replays (s : State) (f : Ctx → Ctx) : (s.modCtx f).replays = s.replays := rfl
@[simp] theorem State.modCtx_visitFrom (s : State) (f : Ctx → Ctx) : (s.modCtx f).visitFrom = s.visitFrom := rfl
@[simp] theorem State.modCtx_agenda (s : State) (f : Ctx → Ctx) : (s.modCtx f).agenda = s.agenda := rfl
@[simp] theorem State.modCtx_mem (s : State) (f : Ctx → Ctx) : (s.modCtx f).mem = s.mem := rfl
@[simp] theorem State.modCtx_cores (s : State) (f : Ctx → Ctx) : (s.modCtx f).cores = s.cores := rfl
@[simp] theorem State.modCtx_clusters (s : State) (f : Ctx → Ctx) : (s.modCtx f).clusters = s.clusters := rfl
@[simp] theorem State.modCtx_dies (s : State) (f : Ctx → Ctx) : (s.modCtx f).dies = s.dies := rfl
@[simp] theorem State.modCtx_jobs (s : State) (f : Ctx → Ctx) : (s.modCtx f).jobs = s.jobs := rfl
@[simp] theorem State.modCtx_ms (s : State) (f : Ctx → Ctx) : (s.modCtx f).ms = s.ms := rfl
@[simp] theorem State.modCtx_pkg (s : State) (f : Ctx → Ctx) : (s.modCtx f).pkg = s.pkg := rfl

/-! ### modCtl -/

@[simp] theorem State.modCtl_cycle (s : State) (f : Ctrl → Ctrl) : (s.modCtl f).cycle = s.cycle := rfl
@[simp] theorem State.modCtl_turn (s : State) (f : Ctrl → Ctrl) : (s.modCtl f).turn = s.turn := rfl
@[simp] theorem State.modCtl_cur (s : State) (f : Ctrl → Ctrl) : (s.modCtl f).cur = s.cur := rfl
@[simp] theorem State.modCtl_ctxs (s : State) (f : Ctrl → Ctrl) : (s.modCtl f).ctxs = s.ctxs := rfl
@[simp] theorem State.modCtl_kicks (s : State) (f : Ctrl → Ctrl) : (s.modCtl f).kicks = s.kicks := rfl
@[simp] theorem State.modCtl_replays (s : State) (f : Ctrl → Ctrl) : (s.modCtl f).replays = s.replays := rfl
@[simp] theorem State.modCtl_visitFrom (s : State) (f : Ctrl → Ctrl) : (s.modCtl f).visitFrom = s.visitFrom := rfl
@[simp] theorem State.modCtl_agenda (s : State) (f : Ctrl → Ctrl) : (s.modCtl f).agenda = s.agenda := rfl
@[simp] theorem State.modCtl_mem (s : State) (f : Ctrl → Ctrl) : (s.modCtl f).mem = s.mem := rfl
@[simp] theorem State.modCtl_cores (s : State) (f : Ctrl → Ctrl) : (s.modCtl f).cores = s.cores := rfl
@[simp] theorem State.modCtl_clusters (s : State) (f : Ctrl → Ctrl) : (s.modCtl f).clusters = s.clusters := rfl
@[simp] theorem State.modCtl_dies (s : State) (f : Ctrl → Ctrl) : (s.modCtl f).dies = s.dies := rfl
@[simp] theorem State.modCtl_jobs (s : State) (f : Ctrl → Ctrl) : (s.modCtl f).jobs = s.jobs := rfl
@[simp] theorem State.modCtl_ms (s : State) (f : Ctrl → Ctrl) : (s.modCtl f).ms = s.ms := rfl
@[simp] theorem State.modCtl_pkg (s : State) (f : Ctrl → Ctrl) : (s.modCtl f).pkg = s.pkg := rfl

/-! ### modRegs -/

@[simp] theorem State.modRegs_cycle (s : State) (f : Regs → Regs) : (s.modRegs f).cycle = s.cycle := rfl
@[simp] theorem State.modRegs_turn (s : State) (f : Regs → Regs) : (s.modRegs f).turn = s.turn := rfl
@[simp] theorem State.modRegs_cur (s : State) (f : Regs → Regs) : (s.modRegs f).cur = s.cur := rfl
@[simp] theorem State.modRegs_ctxs (s : State) (f : Regs → Regs) : (s.modRegs f).ctxs = s.ctxs := rfl
@[simp] theorem State.modRegs_kicks (s : State) (f : Regs → Regs) : (s.modRegs f).kicks = s.kicks := rfl
@[simp] theorem State.modRegs_replays (s : State) (f : Regs → Regs) : (s.modRegs f).replays = s.replays := rfl
@[simp] theorem State.modRegs_visitFrom (s : State) (f : Regs → Regs) : (s.modRegs f).visitFrom = s.visitFrom := rfl
@[simp] theorem State.modRegs_agenda (s : State) (f : Regs → Regs) : (s.modRegs f).agenda = s.agenda := rfl
@[simp] theorem State.modRegs_mem (s : State) (f : Regs → Regs) : (s.modRegs f).mem = s.mem := rfl
@[simp] theorem State.modRegs_cores (s : State) (f : Regs → Regs) : (s.modRegs f).cores = s.cores := rfl
@[simp] theorem State.modRegs_clusters (s : State) (f : Regs → Regs) : (s.modRegs f).clusters = s.clusters := rfl
@[simp] theorem State.modRegs_dies (s : State) (f : Regs → Regs) : (s.modRegs f).dies = s.dies := rfl
@[simp] theorem State.modRegs_jobs (s : State) (f : Regs → Regs) : (s.modRegs f).jobs = s.jobs := rfl
@[simp] theorem State.modRegs_ms (s : State) (f : Regs → Regs) : (s.modRegs f).ms = s.ms := rfl
@[simp] theorem State.modRegs_pkg (s : State) (f : Regs → Regs) : (s.modRegs f).pkg = s.pkg := rfl

/-! ### setG -/

@[simp] theorem State.setG_cycle (s : State) (d : GReg) (v : Word) (b : Bool) : (s.setG d v b).cycle = s.cycle := rfl
@[simp] theorem State.setG_turn (s : State) (d : GReg) (v : Word) (b : Bool) : (s.setG d v b).turn = s.turn := rfl
@[simp] theorem State.setG_cur (s : State) (d : GReg) (v : Word) (b : Bool) : (s.setG d v b).cur = s.cur := rfl
@[simp] theorem State.setG_ctxs (s : State) (d : GReg) (v : Word) (b : Bool) : (s.setG d v b).ctxs = s.ctxs := rfl
@[simp] theorem State.setG_kicks (s : State) (d : GReg) (v : Word) (b : Bool) : (s.setG d v b).kicks = s.kicks := rfl
@[simp] theorem State.setG_replays (s : State) (d : GReg) (v : Word) (b : Bool) : (s.setG d v b).replays = s.replays := rfl
@[simp] theorem State.setG_visitFrom (s : State) (d : GReg) (v : Word) (b : Bool) : (s.setG d v b).visitFrom = s.visitFrom := rfl
@[simp] theorem State.setG_agenda (s : State) (d : GReg) (v : Word) (b : Bool) : (s.setG d v b).agenda = s.agenda := rfl
@[simp] theorem State.setG_mem (s : State) (d : GReg) (v : Word) (b : Bool) : (s.setG d v b).mem = s.mem := rfl
@[simp] theorem State.setG_cores (s : State) (d : GReg) (v : Word) (b : Bool) : (s.setG d v b).cores = s.cores := rfl
@[simp] theorem State.setG_clusters (s : State) (d : GReg) (v : Word) (b : Bool) : (s.setG d v b).clusters = s.clusters := rfl
@[simp] theorem State.setG_dies (s : State) (d : GReg) (v : Word) (b : Bool) : (s.setG d v b).dies = s.dies := rfl
@[simp] theorem State.setG_jobs (s : State) (d : GReg) (v : Word) (b : Bool) : (s.setG d v b).jobs = s.jobs := rfl
@[simp] theorem State.setG_ms (s : State) (d : GReg) (v : Word) (b : Bool) : (s.setG d v b).ms = s.ms := rfl
@[simp] theorem State.setG_pkg (s : State) (d : GReg) (v : Word) (b : Bool) : (s.setG d v b).pkg = s.pkg := rfl

/-! ### setV -/

@[simp] theorem State.setV_cycle (s : State) (d : VIdx) (v : VReg) : (s.setV d v).cycle = s.cycle := rfl
@[simp] theorem State.setV_turn (s : State) (d : VIdx) (v : VReg) : (s.setV d v).turn = s.turn := rfl
@[simp] theorem State.setV_cur (s : State) (d : VIdx) (v : VReg) : (s.setV d v).cur = s.cur := rfl
@[simp] theorem State.setV_ctxs (s : State) (d : VIdx) (v : VReg) : (s.setV d v).ctxs = s.ctxs := rfl
@[simp] theorem State.setV_kicks (s : State) (d : VIdx) (v : VReg) : (s.setV d v).kicks = s.kicks := rfl
@[simp] theorem State.setV_replays (s : State) (d : VIdx) (v : VReg) : (s.setV d v).replays = s.replays := rfl
@[simp] theorem State.setV_visitFrom (s : State) (d : VIdx) (v : VReg) : (s.setV d v).visitFrom = s.visitFrom := rfl
@[simp] theorem State.setV_agenda (s : State) (d : VIdx) (v : VReg) : (s.setV d v).agenda = s.agenda := rfl
@[simp] theorem State.setV_mem (s : State) (d : VIdx) (v : VReg) : (s.setV d v).mem = s.mem := rfl
@[simp] theorem State.setV_cores (s : State) (d : VIdx) (v : VReg) : (s.setV d v).cores = s.cores := rfl
@[simp] theorem State.setV_clusters (s : State) (d : VIdx) (v : VReg) : (s.setV d v).clusters = s.clusters := rfl
@[simp] theorem State.setV_dies (s : State) (d : VIdx) (v : VReg) : (s.setV d v).dies = s.dies := rfl
@[simp] theorem State.setV_jobs (s : State) (d : VIdx) (v : VReg) : (s.setV d v).jobs = s.jobs := rfl
@[simp] theorem State.setV_ms (s : State) (d : VIdx) (v : VReg) : (s.setV d v).ms = s.ms := rfl
@[simp] theorem State.setV_pkg (s : State) (d : VIdx) (v : VReg) : (s.setV d v).pkg = s.pkg := rfl

/-! ### setP -/

@[simp] theorem State.setP_cycle (s : State) (d : PReg) (v : Word) : (s.setP d v).cycle = s.cycle := rfl
@[simp] theorem State.setP_turn (s : State) (d : PReg) (v : Word) : (s.setP d v).turn = s.turn := rfl
@[simp] theorem State.setP_cur (s : State) (d : PReg) (v : Word) : (s.setP d v).cur = s.cur := rfl
@[simp] theorem State.setP_ctxs (s : State) (d : PReg) (v : Word) : (s.setP d v).ctxs = s.ctxs := rfl
@[simp] theorem State.setP_kicks (s : State) (d : PReg) (v : Word) : (s.setP d v).kicks = s.kicks := rfl
@[simp] theorem State.setP_replays (s : State) (d : PReg) (v : Word) : (s.setP d v).replays = s.replays := rfl
@[simp] theorem State.setP_visitFrom (s : State) (d : PReg) (v : Word) : (s.setP d v).visitFrom = s.visitFrom := rfl
@[simp] theorem State.setP_agenda (s : State) (d : PReg) (v : Word) : (s.setP d v).agenda = s.agenda := rfl
@[simp] theorem State.setP_mem (s : State) (d : PReg) (v : Word) : (s.setP d v).mem = s.mem := rfl
@[simp] theorem State.setP_cores (s : State) (d : PReg) (v : Word) : (s.setP d v).cores = s.cores := rfl
@[simp] theorem State.setP_clusters (s : State) (d : PReg) (v : Word) : (s.setP d v).clusters = s.clusters := rfl
@[simp] theorem State.setP_dies (s : State) (d : PReg) (v : Word) : (s.setP d v).dies = s.dies := rfl
@[simp] theorem State.setP_jobs (s : State) (d : PReg) (v : Word) : (s.setP d v).jobs = s.jobs := rfl
@[simp] theorem State.setP_ms (s : State) (d : PReg) (v : Word) : (s.setP d v).ms = s.ms := rfl
@[simp] theorem State.setP_pkg (s : State) (d : PReg) (v : Word) : (s.setP d v).pkg = s.pkg := rfl

/-! ### raise -/

@[simp] theorem State.raise_cycle (s : State) (f : BitVec 5) : (s.raise f).cycle = s.cycle := rfl
@[simp] theorem State.raise_turn (s : State) (f : BitVec 5) : (s.raise f).turn = s.turn := rfl
@[simp] theorem State.raise_cur (s : State) (f : BitVec 5) : (s.raise f).cur = s.cur := rfl
@[simp] theorem State.raise_ctxs (s : State) (f : BitVec 5) : (s.raise f).ctxs = s.ctxs := rfl
@[simp] theorem State.raise_kicks (s : State) (f : BitVec 5) : (s.raise f).kicks = s.kicks := rfl
@[simp] theorem State.raise_replays (s : State) (f : BitVec 5) : (s.raise f).replays = s.replays := rfl
@[simp] theorem State.raise_visitFrom (s : State) (f : BitVec 5) : (s.raise f).visitFrom = s.visitFrom := rfl
@[simp] theorem State.raise_agenda (s : State) (f : BitVec 5) : (s.raise f).agenda = s.agenda := rfl
@[simp] theorem State.raise_mem (s : State) (f : BitVec 5) : (s.raise f).mem = s.mem := rfl
@[simp] theorem State.raise_cores (s : State) (f : BitVec 5) : (s.raise f).cores = s.cores := rfl
@[simp] theorem State.raise_clusters (s : State) (f : BitVec 5) : (s.raise f).clusters = s.clusters := rfl
@[simp] theorem State.raise_dies (s : State) (f : BitVec 5) : (s.raise f).dies = s.dies := rfl
@[simp] theorem State.raise_jobs (s : State) (f : BitVec 5) : (s.raise f).jobs = s.jobs := rfl
@[simp] theorem State.raise_ms (s : State) (f : BitVec 5) : (s.raise f).ms = s.ms := rfl
@[simp] theorem State.raise_pkg (s : State) (f : BitVec 5) : (s.raise f).pkg = s.pkg := rfl

/-! ### jump -/

@[simp] theorem State.jump_cycle (s : State) (a : Word) : (s.jump a).cycle = s.cycle := rfl
@[simp] theorem State.jump_turn (s : State) (a : Word) : (s.jump a).turn = s.turn := rfl
@[simp] theorem State.jump_cur (s : State) (a : Word) : (s.jump a).cur = s.cur := rfl
@[simp] theorem State.jump_ctxs (s : State) (a : Word) : (s.jump a).ctxs = s.ctxs := rfl
@[simp] theorem State.jump_kicks (s : State) (a : Word) : (s.jump a).kicks = s.kicks := rfl
@[simp] theorem State.jump_replays (s : State) (a : Word) : (s.jump a).replays = s.replays := rfl
@[simp] theorem State.jump_visitFrom (s : State) (a : Word) : (s.jump a).visitFrom = s.visitFrom := rfl
@[simp] theorem State.jump_agenda (s : State) (a : Word) : (s.jump a).agenda = s.agenda := rfl
@[simp] theorem State.jump_mem (s : State) (a : Word) : (s.jump a).mem = s.mem := rfl
@[simp] theorem State.jump_cores (s : State) (a : Word) : (s.jump a).cores = s.cores := rfl
@[simp] theorem State.jump_clusters (s : State) (a : Word) : (s.jump a).clusters = s.clusters := rfl
@[simp] theorem State.jump_dies (s : State) (a : Word) : (s.jump a).dies = s.dies := rfl
@[simp] theorem State.jump_jobs (s : State) (a : Word) : (s.jump a).jobs = s.jobs := rfl
@[simp] theorem State.jump_ms (s : State) (a : Word) : (s.jump a).ms = s.ms := rfl
@[simp] theorem State.jump_pkg (s : State) (a : Word) : (s.jump a).pkg = s.pkg := rfl

/-! ### park -/

@[simp] theorem State.park_cycle (s : State) (r : Reason) : (s.park r).cycle = s.cycle := rfl
@[simp] theorem State.park_turn (s : State) (r : Reason) : (s.park r).turn = s.turn := rfl
@[simp] theorem State.park_cur (s : State) (r : Reason) : (s.park r).cur = s.cur := rfl
@[simp] theorem State.park_ctxs (s : State) (r : Reason) : (s.park r).ctxs = s.ctxs := rfl
@[simp] theorem State.park_kicks (s : State) (r : Reason) : (s.park r).kicks = s.kicks := rfl
@[simp] theorem State.park_replays (s : State) (r : Reason) : (s.park r).replays = s.replays := rfl
@[simp] theorem State.park_visitFrom (s : State) (r : Reason) : (s.park r).visitFrom = s.visitFrom := rfl
@[simp] theorem State.park_agenda (s : State) (r : Reason) : (s.park r).agenda = s.agenda := rfl
@[simp] theorem State.park_mem (s : State) (r : Reason) : (s.park r).mem = s.mem := rfl
@[simp] theorem State.park_cores (s : State) (r : Reason) : (s.park r).cores = s.cores := rfl
@[simp] theorem State.park_clusters (s : State) (r : Reason) : (s.park r).clusters = s.clusters := rfl
@[simp] theorem State.park_dies (s : State) (r : Reason) : (s.park r).dies = s.dies := rfl
@[simp] theorem State.park_jobs (s : State) (r : Reason) : (s.park r).jobs = s.jobs := rfl
@[simp] theorem State.park_ms (s : State) (r : Reason) : (s.park r).ms = s.ms := rfl
@[simp] theorem State.park_pkg (s : State) (r : Reason) : (s.park r).pkg = s.pkg := rfl

/-! ### rest -/

@[simp] theorem State.rest_cycle (s : State) (r : Reason) (d : Nat) : (s.rest r d).cycle = s.cycle := rfl
@[simp] theorem State.rest_turn (s : State) (r : Reason) (d : Nat) : (s.rest r d).turn = s.turn := rfl
@[simp] theorem State.rest_cur (s : State) (r : Reason) (d : Nat) : (s.rest r d).cur = s.cur := rfl
@[simp] theorem State.rest_ctxs (s : State) (r : Reason) (d : Nat) : (s.rest r d).ctxs = s.ctxs := rfl
@[simp] theorem State.rest_kicks (s : State) (r : Reason) (d : Nat) : (s.rest r d).kicks = s.kicks := rfl
@[simp] theorem State.rest_replays (s : State) (r : Reason) (d : Nat) : (s.rest r d).replays = s.replays := rfl
@[simp] theorem State.rest_visitFrom (s : State) (r : Reason) (d : Nat) : (s.rest r d).visitFrom = s.visitFrom := rfl
@[simp] theorem State.rest_agenda (s : State) (r : Reason) (d : Nat) : (s.rest r d).agenda = s.agenda := rfl
@[simp] theorem State.rest_mem (s : State) (r : Reason) (d : Nat) : (s.rest r d).mem = s.mem := rfl
@[simp] theorem State.rest_cores (s : State) (r : Reason) (d : Nat) : (s.rest r d).cores = s.cores := rfl
@[simp] theorem State.rest_clusters (s : State) (r : Reason) (d : Nat) : (s.rest r d).clusters = s.clusters := rfl
@[simp] theorem State.rest_dies (s : State) (r : Reason) (d : Nat) : (s.rest r d).dies = s.dies := rfl
@[simp] theorem State.rest_jobs (s : State) (r : Reason) (d : Nat) : (s.rest r d).jobs = s.jobs := rfl
@[simp] theorem State.rest_ms (s : State) (r : Reason) (d : Nat) : (s.rest r d).ms = s.ms := rfl
@[simp] theorem State.rest_pkg (s : State) (r : Reason) (d : Nat) : (s.rest r d).pkg = s.pkg := rfl

/-! ### trapReturn -/

@[simp] theorem State.trapReturn_cycle (s : State) (a : Word) : (s.trapReturn a).cycle = s.cycle := rfl
@[simp] theorem State.trapReturn_turn (s : State) (a : Word) : (s.trapReturn a).turn = s.turn := rfl
@[simp] theorem State.trapReturn_cur (s : State) (a : Word) : (s.trapReturn a).cur = s.cur := rfl
@[simp] theorem State.trapReturn_ctxs (s : State) (a : Word) : (s.trapReturn a).ctxs = s.ctxs := rfl
@[simp] theorem State.trapReturn_kicks (s : State) (a : Word) : (s.trapReturn a).kicks = s.kicks := rfl
@[simp] theorem State.trapReturn_replays (s : State) (a : Word) : (s.trapReturn a).replays = s.replays := rfl
@[simp] theorem State.trapReturn_visitFrom (s : State) (a : Word) : (s.trapReturn a).visitFrom = s.visitFrom := rfl
@[simp] theorem State.trapReturn_agenda (s : State) (a : Word) : (s.trapReturn a).agenda = s.agenda := rfl
@[simp] theorem State.trapReturn_mem (s : State) (a : Word) : (s.trapReturn a).mem = s.mem := rfl
@[simp] theorem State.trapReturn_cores (s : State) (a : Word) : (s.trapReturn a).cores = s.cores := rfl
@[simp] theorem State.trapReturn_clusters (s : State) (a : Word) : (s.trapReturn a).clusters = s.clusters := rfl
@[simp] theorem State.trapReturn_dies (s : State) (a : Word) : (s.trapReturn a).dies = s.dies := rfl
@[simp] theorem State.trapReturn_jobs (s : State) (a : Word) : (s.trapReturn a).jobs = s.jobs := rfl
@[simp] theorem State.trapReturn_ms (s : State) (a : Word) : (s.trapReturn a).ms = s.ms := rfl
@[simp] theorem State.trapReturn_pkg (s : State) (a : Word) : (s.trapReturn a).pkg = s.pkg := rfl

/-! ### schedule -/

@[simp] theorem State.schedule_cycle (s : State) (d : Nat) (e : Instr) : (s.schedule d e).cycle = s.cycle := rfl
@[simp] theorem State.schedule_turn (s : State) (d : Nat) (e : Instr) : (s.schedule d e).turn = s.turn := rfl
@[simp] theorem State.schedule_cur (s : State) (d : Nat) (e : Instr) : (s.schedule d e).cur = s.cur := rfl
@[simp] theorem State.schedule_ctx (s : State) (d : Nat) (e : Instr) : (s.schedule d e).ctx = s.ctx := rfl
@[simp] theorem State.schedule_ctxs (s : State) (d : Nat) (e : Instr) : (s.schedule d e).ctxs = s.ctxs := rfl
@[simp] theorem State.schedule_kicks (s : State) (d : Nat) (e : Instr) : (s.schedule d e).kicks = s.kicks := rfl
@[simp] theorem State.schedule_replays (s : State) (d : Nat) (e : Instr) : (s.schedule d e).replays = s.replays := rfl
@[simp] theorem State.schedule_visitFrom (s : State) (d : Nat) (e : Instr) : (s.schedule d e).visitFrom = s.visitFrom := rfl
@[simp] theorem State.schedule_mem (s : State) (d : Nat) (e : Instr) : (s.schedule d e).mem = s.mem := rfl
@[simp] theorem State.schedule_cores (s : State) (d : Nat) (e : Instr) : (s.schedule d e).cores = s.cores := rfl
@[simp] theorem State.schedule_clusters (s : State) (d : Nat) (e : Instr) : (s.schedule d e).clusters = s.clusters := rfl
@[simp] theorem State.schedule_dies (s : State) (d : Nat) (e : Instr) : (s.schedule d e).dies = s.dies := rfl
@[simp] theorem State.schedule_jobs (s : State) (d : Nat) (e : Instr) : (s.schedule d e).jobs = s.jobs := rfl
@[simp] theorem State.schedule_ms (s : State) (d : Nat) (e : Instr) : (s.schedule d e).ms = s.ms := rfl
@[simp] theorem State.schedule_pkg (s : State) (d : Nat) (e : Instr) : (s.schedule d e).pkg = s.pkg := rfl

/-! ### kick -/

@[simp] theorem State.kick_cycle (s : State) (t : Nat) : (s.kick t).cycle = s.cycle := rfl
@[simp] theorem State.kick_turn (s : State) (t : Nat) : (s.kick t).turn = s.turn := rfl
@[simp] theorem State.kick_cur (s : State) (t : Nat) : (s.kick t).cur = s.cur := rfl
@[simp] theorem State.kick_ctx (s : State) (t : Nat) : (s.kick t).ctx = s.ctx := rfl
@[simp] theorem State.kick_ctxs (s : State) (t : Nat) : (s.kick t).ctxs = s.ctxs := rfl
@[simp] theorem State.kick_replays (s : State) (t : Nat) : (s.kick t).replays = s.replays := rfl
@[simp] theorem State.kick_visitFrom (s : State) (t : Nat) : (s.kick t).visitFrom = s.visitFrom := rfl
@[simp] theorem State.kick_agenda (s : State) (t : Nat) : (s.kick t).agenda = s.agenda := rfl
@[simp] theorem State.kick_mem (s : State) (t : Nat) : (s.kick t).mem = s.mem := rfl
@[simp] theorem State.kick_cores (s : State) (t : Nat) : (s.kick t).cores = s.cores := rfl
@[simp] theorem State.kick_clusters (s : State) (t : Nat) : (s.kick t).clusters = s.clusters := rfl
@[simp] theorem State.kick_dies (s : State) (t : Nat) : (s.kick t).dies = s.dies := rfl
@[simp] theorem State.kick_jobs (s : State) (t : Nat) : (s.kick t).jobs = s.jobs := rfl
@[simp] theorem State.kick_ms (s : State) (t : Nat) : (s.kick t).ms = s.ms := rfl
@[simp] theorem State.kick_pkg (s : State) (t : Nat) : (s.kick t).pkg = s.pkg := rfl

/-! ### kickWaiting -/

@[simp] theorem State.kickWaiting_cycle (s : State) (r : Reason) (ts : List Nat) : (s.kickWaiting r ts).cycle = s.cycle := rfl
@[simp] theorem State.kickWaiting_turn (s : State) (r : Reason) (ts : List Nat) : (s.kickWaiting r ts).turn = s.turn := rfl
@[simp] theorem State.kickWaiting_cur (s : State) (r : Reason) (ts : List Nat) : (s.kickWaiting r ts).cur = s.cur := rfl
@[simp] theorem State.kickWaiting_ctx (s : State) (r : Reason) (ts : List Nat) : (s.kickWaiting r ts).ctx = s.ctx := rfl
@[simp] theorem State.kickWaiting_ctxs (s : State) (r : Reason) (ts : List Nat) : (s.kickWaiting r ts).ctxs = s.ctxs := rfl
@[simp] theorem State.kickWaiting_replays (s : State) (r : Reason) (ts : List Nat) : (s.kickWaiting r ts).replays = s.replays := rfl
@[simp] theorem State.kickWaiting_visitFrom (s : State) (r : Reason) (ts : List Nat) : (s.kickWaiting r ts).visitFrom = s.visitFrom := rfl
@[simp] theorem State.kickWaiting_agenda (s : State) (r : Reason) (ts : List Nat) : (s.kickWaiting r ts).agenda = s.agenda := rfl
@[simp] theorem State.kickWaiting_mem (s : State) (r : Reason) (ts : List Nat) : (s.kickWaiting r ts).mem = s.mem := rfl
@[simp] theorem State.kickWaiting_cores (s : State) (r : Reason) (ts : List Nat) : (s.kickWaiting r ts).cores = s.cores := rfl
@[simp] theorem State.kickWaiting_clusters (s : State) (r : Reason) (ts : List Nat) : (s.kickWaiting r ts).clusters = s.clusters := rfl
@[simp] theorem State.kickWaiting_dies (s : State) (r : Reason) (ts : List Nat) : (s.kickWaiting r ts).dies = s.dies := rfl
@[simp] theorem State.kickWaiting_jobs (s : State) (r : Reason) (ts : List Nat) : (s.kickWaiting r ts).jobs = s.jobs := rfl
@[simp] theorem State.kickWaiting_ms (s : State) (r : Reason) (ts : List Nat) : (s.kickWaiting r ts).ms = s.ms := rfl
@[simp] theorem State.kickWaiting_pkg (s : State) (r : Reason) (ts : List Nat) : (s.kickWaiting r ts).pkg = s.pkg := rfl

/-! ### writeLocal -/

@[simp] theorem State.writeLocal_cycle (s : State) (cs : List Host.Cell) : (s.writeLocal cs).cycle = s.cycle := rfl
@[simp] theorem State.writeLocal_turn (s : State) (cs : List Host.Cell) : (s.writeLocal cs).turn = s.turn := rfl
@[simp] theorem State.writeLocal_cur (s : State) (cs : List Host.Cell) : (s.writeLocal cs).cur = s.cur := rfl
@[simp] theorem State.writeLocal_ctx (s : State) (cs : List Host.Cell) : (s.writeLocal cs).ctx = s.ctx := rfl
@[simp] theorem State.writeLocal_ctxs (s : State) (cs : List Host.Cell) : (s.writeLocal cs).ctxs = s.ctxs := rfl
@[simp] theorem State.writeLocal_kicks (s : State) (cs : List Host.Cell) : (s.writeLocal cs).kicks = s.kicks := rfl
@[simp] theorem State.writeLocal_replays (s : State) (cs : List Host.Cell) : (s.writeLocal cs).replays = s.replays := rfl
@[simp] theorem State.writeLocal_visitFrom (s : State) (cs : List Host.Cell) : (s.writeLocal cs).visitFrom = s.visitFrom := rfl
@[simp] theorem State.writeLocal_agenda (s : State) (cs : List Host.Cell) : (s.writeLocal cs).agenda = s.agenda := rfl
@[simp] theorem State.writeLocal_cores (s : State) (cs : List Host.Cell) : (s.writeLocal cs).cores = s.cores := rfl
@[simp] theorem State.writeLocal_clusters (s : State) (cs : List Host.Cell) : (s.writeLocal cs).clusters = s.clusters := rfl
@[simp] theorem State.writeLocal_dies (s : State) (cs : List Host.Cell) : (s.writeLocal cs).dies = s.dies := rfl
@[simp] theorem State.writeLocal_jobs (s : State) (cs : List Host.Cell) : (s.writeLocal cs).jobs = s.jobs := rfl
@[simp] theorem State.writeLocal_pkg (s : State) (cs : List Host.Cell) : (s.writeLocal cs).pkg = s.pkg := rfl

/-! ### dropPosition -/

@[simp] theorem State.dropPosition_cycle (s : State) (t : Nat) : (s.dropPosition t).cycle = s.cycle := rfl
@[simp] theorem State.dropPosition_turn (s : State) (t : Nat) : (s.dropPosition t).turn = s.turn := rfl
@[simp] theorem State.dropPosition_cur (s : State) (t : Nat) : (s.dropPosition t).cur = s.cur := rfl
@[simp] theorem State.dropPosition_ctx (s : State) (t : Nat) : (s.dropPosition t).ctx = s.ctx := rfl
@[simp] theorem State.dropPosition_ctxs (s : State) (t : Nat) : (s.dropPosition t).ctxs = s.ctxs := rfl
@[simp] theorem State.dropPosition_kicks (s : State) (t : Nat) : (s.dropPosition t).kicks = s.kicks := rfl
@[simp] theorem State.dropPosition_replays (s : State) (t : Nat) : (s.dropPosition t).replays = s.replays := rfl
@[simp] theorem State.dropPosition_visitFrom (s : State) (t : Nat) : (s.dropPosition t).visitFrom = s.visitFrom := rfl
@[simp] theorem State.dropPosition_agenda (s : State) (t : Nat) : (s.dropPosition t).agenda = s.agenda := rfl
@[simp] theorem State.dropPosition_mem (s : State) (t : Nat) : (s.dropPosition t).mem = s.mem := rfl
@[simp] theorem State.dropPosition_clusters (s : State) (t : Nat) : (s.dropPosition t).clusters = s.clusters := rfl
@[simp] theorem State.dropPosition_dies (s : State) (t : Nat) : (s.dropPosition t).dies = s.dies := rfl
@[simp] theorem State.dropPosition_jobs (s : State) (t : Nat) : (s.dropPosition t).jobs = s.jobs := rfl
@[simp] theorem State.dropPosition_ms (s : State) (t : Nat) : (s.dropPosition t).ms = s.ms := rfl
@[simp] theorem State.dropPosition_pkg (s : State) (t : Nat) : (s.dropPosition t).pkg = s.pkg := rfl

/-! ### finish -/

@[simp] theorem State.finish_cycle (s : State) (n : Nat) : (s.finish n).cycle = s.cycle := by obtain ⟨c, h⟩ := State.finish_only_ctx s n; rw [h]
@[simp] theorem State.finish_turn (s : State) (n : Nat) : (s.finish n).turn = s.turn := by obtain ⟨c, h⟩ := State.finish_only_ctx s n; rw [h]
@[simp] theorem State.finish_cur (s : State) (n : Nat) : (s.finish n).cur = s.cur := by obtain ⟨c, h⟩ := State.finish_only_ctx s n; rw [h]
@[simp] theorem State.finish_ctxs (s : State) (n : Nat) : (s.finish n).ctxs = s.ctxs := by obtain ⟨c, h⟩ := State.finish_only_ctx s n; rw [h]
@[simp] theorem State.finish_kicks (s : State) (n : Nat) : (s.finish n).kicks = s.kicks := by obtain ⟨c, h⟩ := State.finish_only_ctx s n; rw [h]
@[simp] theorem State.finish_replays (s : State) (n : Nat) : (s.finish n).replays = s.replays := by obtain ⟨c, h⟩ := State.finish_only_ctx s n; rw [h]
@[simp] theorem State.finish_visitFrom (s : State) (n : Nat) : (s.finish n).visitFrom = s.visitFrom := by obtain ⟨c, h⟩ := State.finish_only_ctx s n; rw [h]
@[simp] theorem State.finish_agenda (s : State) (n : Nat) : (s.finish n).agenda = s.agenda := by obtain ⟨c, h⟩ := State.finish_only_ctx s n; rw [h]
@[simp] theorem State.finish_mem (s : State) (n : Nat) : (s.finish n).mem = s.mem := by obtain ⟨c, h⟩ := State.finish_only_ctx s n; rw [h]
@[simp] theorem State.finish_cores (s : State) (n : Nat) : (s.finish n).cores = s.cores := by obtain ⟨c, h⟩ := State.finish_only_ctx s n; rw [h]
@[simp] theorem State.finish_clusters (s : State) (n : Nat) : (s.finish n).clusters = s.clusters := by obtain ⟨c, h⟩ := State.finish_only_ctx s n; rw [h]
@[simp] theorem State.finish_dies (s : State) (n : Nat) : (s.finish n).dies = s.dies := by obtain ⟨c, h⟩ := State.finish_only_ctx s n; rw [h]
@[simp] theorem State.finish_jobs (s : State) (n : Nat) : (s.finish n).jobs = s.jobs := by obtain ⟨c, h⟩ := State.finish_only_ctx s n; rw [h]
@[simp] theorem State.finish_ms (s : State) (n : Nat) : (s.finish n).ms = s.ms := by obtain ⟨c, h⟩ := State.finish_only_ctx s n; rw [h]
@[simp] theorem State.finish_pkg (s : State) (n : Nat) : (s.finish n).pkg = s.pkg := by obtain ⟨c, h⟩ := State.finish_only_ctx s n; rw [h]

/-! ### setCtxAt -/

@[simp] theorem State.setCtxAt_cycle (s : State) (t : Nat) (c : Ctx) : (s.setCtxAt t c).cycle = s.cycle := by unfold State.setCtxAt; split <;> rfl
@[simp] theorem State.setCtxAt_turn (s : State) (t : Nat) (c : Ctx) : (s.setCtxAt t c).turn = s.turn := by unfold State.setCtxAt; split <;> rfl
@[simp] theorem State.setCtxAt_cur (s : State) (t : Nat) (c : Ctx) : (s.setCtxAt t c).cur = s.cur := by unfold State.setCtxAt; split <;> rfl
@[simp] theorem State.setCtxAt_kicks (s : State) (t : Nat) (c : Ctx) : (s.setCtxAt t c).kicks = s.kicks := by unfold State.setCtxAt; split <;> rfl
@[simp] theorem State.setCtxAt_replays (s : State) (t : Nat) (c : Ctx) : (s.setCtxAt t c).replays = s.replays := by unfold State.setCtxAt; split <;> rfl
@[simp] theorem State.setCtxAt_visitFrom (s : State) (t : Nat) (c : Ctx) : (s.setCtxAt t c).visitFrom = s.visitFrom := by unfold State.setCtxAt; split <;> rfl
@[simp] theorem State.setCtxAt_agenda (s : State) (t : Nat) (c : Ctx) : (s.setCtxAt t c).agenda = s.agenda := by unfold State.setCtxAt; split <;> rfl
@[simp] theorem State.setCtxAt_mem (s : State) (t : Nat) (c : Ctx) : (s.setCtxAt t c).mem = s.mem := by unfold State.setCtxAt; split <;> rfl
@[simp] theorem State.setCtxAt_cores (s : State) (t : Nat) (c : Ctx) : (s.setCtxAt t c).cores = s.cores := by unfold State.setCtxAt; split <;> rfl
@[simp] theorem State.setCtxAt_clusters (s : State) (t : Nat) (c : Ctx) : (s.setCtxAt t c).clusters = s.clusters := by unfold State.setCtxAt; split <;> rfl
@[simp] theorem State.setCtxAt_dies (s : State) (t : Nat) (c : Ctx) : (s.setCtxAt t c).dies = s.dies := by unfold State.setCtxAt; split <;> rfl
@[simp] theorem State.setCtxAt_jobs (s : State) (t : Nat) (c : Ctx) : (s.setCtxAt t c).jobs = s.jobs := by unfold State.setCtxAt; split <;> rfl
@[simp] theorem State.setCtxAt_ms (s : State) (t : Nat) (c : Ctx) : (s.setCtxAt t c).ms = s.ms := by unfold State.setCtxAt; split <;> rfl
@[simp] theorem State.setCtxAt_pkg (s : State) (t : Nat) (c : Ctx) : (s.setCtxAt t c).pkg = s.pkg := by unfold State.setCtxAt; split <;> rfl

/-! ### modCtxAt -/

@[simp] theorem State.modCtxAt_cycle (s : State) (t : Nat) (f : Ctx → Ctx) : (s.modCtxAt t f).cycle = s.cycle := State.setCtxAt_cycle _ _ _
@[simp] theorem State.modCtxAt_turn (s : State) (t : Nat) (f : Ctx → Ctx) : (s.modCtxAt t f).turn = s.turn := State.setCtxAt_turn _ _ _
@[simp] theorem State.modCtxAt_cur (s : State) (t : Nat) (f : Ctx → Ctx) : (s.modCtxAt t f).cur = s.cur := State.setCtxAt_cur _ _ _
@[simp] theorem State.modCtxAt_kicks (s : State) (t : Nat) (f : Ctx → Ctx) : (s.modCtxAt t f).kicks = s.kicks := State.setCtxAt_kicks _ _ _
@[simp] theorem State.modCtxAt_replays (s : State) (t : Nat) (f : Ctx → Ctx) : (s.modCtxAt t f).replays = s.replays := State.setCtxAt_replays _ _ _
@[simp] theorem State.modCtxAt_visitFrom (s : State) (t : Nat) (f : Ctx → Ctx) : (s.modCtxAt t f).visitFrom = s.visitFrom := State.setCtxAt_visitFrom _ _ _
@[simp] theorem State.modCtxAt_agenda (s : State) (t : Nat) (f : Ctx → Ctx) : (s.modCtxAt t f).agenda = s.agenda := State.setCtxAt_agenda _ _ _
@[simp] theorem State.modCtxAt_mem (s : State) (t : Nat) (f : Ctx → Ctx) : (s.modCtxAt t f).mem = s.mem := State.setCtxAt_mem _ _ _
@[simp] theorem State.modCtxAt_cores (s : State) (t : Nat) (f : Ctx → Ctx) : (s.modCtxAt t f).cores = s.cores := State.setCtxAt_cores _ _ _
@[simp] theorem State.modCtxAt_clusters (s : State) (t : Nat) (f : Ctx → Ctx) : (s.modCtxAt t f).clusters = s.clusters := State.setCtxAt_clusters _ _ _
@[simp] theorem State.modCtxAt_dies (s : State) (t : Nat) (f : Ctx → Ctx) : (s.modCtxAt t f).dies = s.dies := State.setCtxAt_dies _ _ _
@[simp] theorem State.modCtxAt_jobs (s : State) (t : Nat) (f : Ctx → Ctx) : (s.modCtxAt t f).jobs = s.jobs := State.setCtxAt_jobs _ _ _
@[simp] theorem State.modCtxAt_ms (s : State) (t : Nat) (f : Ctx → Ctx) : (s.modCtxAt t f).ms = s.ms := State.setCtxAt_ms _ _ _
@[simp] theorem State.modCtxAt_pkg (s : State) (t : Nat) (f : Ctx → Ctx) : (s.modCtxAt t f).pkg = s.pkg := State.setCtxAt_pkg _ _ _

/-! ### unpark -/

@[simp] theorem State.unpark_cycle (s : State) (t : Nat) : (s.unpark t).cycle = s.cycle := State.modCtxAt_cycle _ _ _
@[simp] theorem State.unpark_turn (s : State) (t : Nat) : (s.unpark t).turn = s.turn := State.modCtxAt_turn _ _ _
@[simp] theorem State.unpark_cur (s : State) (t : Nat) : (s.unpark t).cur = s.cur := State.modCtxAt_cur _ _ _
@[simp] theorem State.unpark_kicks (s : State) (t : Nat) : (s.unpark t).kicks = s.kicks := State.modCtxAt_kicks _ _ _
@[simp] theorem State.unpark_replays (s : State) (t : Nat) : (s.unpark t).replays = s.replays := State.modCtxAt_replays _ _ _
@[simp] theorem State.unpark_visitFrom (s : State) (t : Nat) : (s.unpark t).visitFrom = s.visitFrom := State.modCtxAt_visitFrom _ _ _
@[simp] theorem State.unpark_agenda (s : State) (t : Nat) : (s.unpark t).agenda = s.agenda := State.modCtxAt_agenda _ _ _
@[simp] theorem State.unpark_mem (s : State) (t : Nat) : (s.unpark t).mem = s.mem := State.modCtxAt_mem _ _ _
@[simp] theorem State.unpark_cores (s : State) (t : Nat) : (s.unpark t).cores = s.cores := State.modCtxAt_cores _ _ _
@[simp] theorem State.unpark_clusters (s : State) (t : Nat) : (s.unpark t).clusters = s.clusters := State.modCtxAt_clusters _ _ _
@[simp] theorem State.unpark_dies (s : State) (t : Nat) : (s.unpark t).dies = s.dies := State.modCtxAt_dies _ _ _
@[simp] theorem State.unpark_jobs (s : State) (t : Nat) : (s.unpark t).jobs = s.jobs := State.modCtxAt_jobs _ _ _
@[simp] theorem State.unpark_ms (s : State) (t : Nat) : (s.unpark t).ms = s.ms := State.modCtxAt_ms _ _ _
@[simp] theorem State.unpark_pkg (s : State) (t : Nat) : (s.unpark t).pkg = s.pkg := State.modCtxAt_pkg _ _ _

/-! ### switch -/

@[simp] theorem State.switch_cycle (s : State) (t : Nat) : (s.switch t).cycle = s.cycle := by unfold State.switch; split <;> rfl
@[simp] theorem State.switch_turn (s : State) (t : Nat) : (s.switch t).turn = s.turn := by unfold State.switch; split <;> rfl
@[simp] theorem State.switch_kicks (s : State) (t : Nat) : (s.switch t).kicks = s.kicks := by unfold State.switch; split <;> rfl
@[simp] theorem State.switch_replays (s : State) (t : Nat) : (s.switch t).replays = s.replays := by unfold State.switch; split <;> rfl
@[simp] theorem State.switch_visitFrom (s : State) (t : Nat) : (s.switch t).visitFrom = s.visitFrom := by unfold State.switch; split <;> rfl
@[simp] theorem State.switch_agenda (s : State) (t : Nat) : (s.switch t).agenda = s.agenda := by unfold State.switch; split <;> rfl
@[simp] theorem State.switch_mem (s : State) (t : Nat) : (s.switch t).mem = s.mem := by unfold State.switch; split <;> rfl
@[simp] theorem State.switch_cores (s : State) (t : Nat) : (s.switch t).cores = s.cores := by unfold State.switch; split <;> rfl
@[simp] theorem State.switch_clusters (s : State) (t : Nat) : (s.switch t).clusters = s.clusters := by unfold State.switch; split <;> rfl
@[simp] theorem State.switch_dies (s : State) (t : Nat) : (s.switch t).dies = s.dies := by unfold State.switch; split <;> rfl
@[simp] theorem State.switch_jobs (s : State) (t : Nat) : (s.switch t).jobs = s.jobs := by unfold State.switch; split <;> rfl
@[simp] theorem State.switch_ms (s : State) (t : Nat) : (s.switch t).ms = s.ms := by unfold State.switch; split <;> rfl
@[simp] theorem State.switch_pkg (s : State) (t : Nat) : (s.switch t).pkg = s.pkg := by unfold State.switch; split <;> rfl

/-! ### count -/

@[simp] theorem State.count_cycle (s : State) (k code sub : Nat) : (s.count k code sub).cycle = s.cycle := by unfold State.count; split <;> rfl
@[simp] theorem State.count_turn (s : State) (k code sub : Nat) : (s.count k code sub).turn = s.turn := by unfold State.count; split <;> rfl
@[simp] theorem State.count_cur (s : State) (k code sub : Nat) : (s.count k code sub).cur = s.cur := by unfold State.count; split <;> rfl
@[simp] theorem State.count_ctx (s : State) (k code sub : Nat) : (s.count k code sub).ctx = s.ctx := by unfold State.count; split <;> rfl
@[simp] theorem State.count_ctxs (s : State) (k code sub : Nat) : (s.count k code sub).ctxs = s.ctxs := by unfold State.count; split <;> rfl
@[simp] theorem State.count_kicks (s : State) (k code sub : Nat) : (s.count k code sub).kicks = s.kicks := by unfold State.count; split <;> rfl
@[simp] theorem State.count_replays (s : State) (k code sub : Nat) : (s.count k code sub).replays = s.replays := by unfold State.count; split <;> rfl
@[simp] theorem State.count_visitFrom (s : State) (k code sub : Nat) : (s.count k code sub).visitFrom = s.visitFrom := by unfold State.count; split <;> rfl
@[simp] theorem State.count_agenda (s : State) (k code sub : Nat) : (s.count k code sub).agenda = s.agenda := by unfold State.count; split <;> rfl
@[simp] theorem State.count_mem (s : State) (k code sub : Nat) : (s.count k code sub).mem = s.mem := by unfold State.count; split <;> rfl
@[simp] theorem State.count_clusters (s : State) (k code sub : Nat) : (s.count k code sub).clusters = s.clusters := by unfold State.count; split <;> rfl
@[simp] theorem State.count_dies (s : State) (k code sub : Nat) : (s.count k code sub).dies = s.dies := by unfold State.count; split <;> rfl
@[simp] theorem State.count_jobs (s : State) (k code sub : Nat) : (s.count k code sub).jobs = s.jobs := by unfold State.count; split <;> rfl
@[simp] theorem State.count_ms (s : State) (k code sub : Nat) : (s.count k code sub).ms = s.ms := by unfold State.count; split <;> rfl
@[simp] theorem State.count_pkg (s : State) (k code sub : Nat) : (s.count k code sub).pkg = s.pkg := by unfold State.count; split <;> rfl

/-! ### countCluster -/

@[simp] theorem State.countCluster_cycle (s : State) (k code sub n : Nat) : (s.countCluster k code sub n).cycle = s.cycle := by unfold State.countCluster; split <;> rfl
@[simp] theorem State.countCluster_turn (s : State) (k code sub n : Nat) : (s.countCluster k code sub n).turn = s.turn := by unfold State.countCluster; split <;> rfl
@[simp] theorem State.countCluster_cur (s : State) (k code sub n : Nat) : (s.countCluster k code sub n).cur = s.cur := by unfold State.countCluster; split <;> rfl
@[simp] theorem State.countCluster_ctx (s : State) (k code sub n : Nat) : (s.countCluster k code sub n).ctx = s.ctx := by unfold State.countCluster; split <;> rfl
@[simp] theorem State.countCluster_ctxs (s : State) (k code sub n : Nat) : (s.countCluster k code sub n).ctxs = s.ctxs := by unfold State.countCluster; split <;> rfl
@[simp] theorem State.countCluster_kicks (s : State) (k code sub n : Nat) : (s.countCluster k code sub n).kicks = s.kicks := by unfold State.countCluster; split <;> rfl
@[simp] theorem State.countCluster_replays (s : State) (k code sub n : Nat) : (s.countCluster k code sub n).replays = s.replays := by unfold State.countCluster; split <;> rfl
@[simp] theorem State.countCluster_visitFrom (s : State) (k code sub n : Nat) : (s.countCluster k code sub n).visitFrom = s.visitFrom := by unfold State.countCluster; split <;> rfl
@[simp] theorem State.countCluster_agenda (s : State) (k code sub n : Nat) : (s.countCluster k code sub n).agenda = s.agenda := by unfold State.countCluster; split <;> rfl
@[simp] theorem State.countCluster_mem (s : State) (k code sub n : Nat) : (s.countCluster k code sub n).mem = s.mem := by unfold State.countCluster; split <;> rfl
@[simp] theorem State.countCluster_cores (s : State) (k code sub n : Nat) : (s.countCluster k code sub n).cores = s.cores := by unfold State.countCluster; split <;> rfl
@[simp] theorem State.countCluster_dies (s : State) (k code sub n : Nat) : (s.countCluster k code sub n).dies = s.dies := by unfold State.countCluster; split <;> rfl
@[simp] theorem State.countCluster_jobs (s : State) (k code sub n : Nat) : (s.countCluster k code sub n).jobs = s.jobs := by unfold State.countCluster; split <;> rfl
@[simp] theorem State.countCluster_ms (s : State) (k code sub n : Nat) : (s.countCluster k code sub n).ms = s.ms := by unfold State.countCluster; split <;> rfl
@[simp] theorem State.countCluster_pkg (s : State) (k code sub n : Nat) : (s.countCluster k code sub n).pkg = s.pkg := by unfold State.countCluster; split <;> rfl

/-! ### unissue -/

@[simp] theorem State.unissue_cycle (s : State) (code : Nat) : (s.unissue code).cycle = s.cycle := by unfold State.unissue; dsimp only; split <;> (try split) <;> rfl
@[simp] theorem State.unissue_turn (s : State) (code : Nat) : (s.unissue code).turn = s.turn := by unfold State.unissue; dsimp only; split <;> (try split) <;> rfl
@[simp] theorem State.unissue_cur (s : State) (code : Nat) : (s.unissue code).cur = s.cur := by unfold State.unissue; dsimp only; split <;> (try split) <;> rfl
@[simp] theorem State.unissue_ctxs (s : State) (code : Nat) : (s.unissue code).ctxs = s.ctxs := by unfold State.unissue; dsimp only; split <;> (try split) <;> rfl
@[simp] theorem State.unissue_kicks (s : State) (code : Nat) : (s.unissue code).kicks = s.kicks := by unfold State.unissue; dsimp only; split <;> (try split) <;> rfl
@[simp] theorem State.unissue_replays (s : State) (code : Nat) : (s.unissue code).replays = s.replays := by unfold State.unissue; dsimp only; split <;> (try split) <;> rfl
@[simp] theorem State.unissue_visitFrom (s : State) (code : Nat) : (s.unissue code).visitFrom = s.visitFrom := by unfold State.unissue; dsimp only; split <;> (try split) <;> rfl
@[simp] theorem State.unissue_agenda (s : State) (code : Nat) : (s.unissue code).agenda = s.agenda := by unfold State.unissue; dsimp only; split <;> (try split) <;> rfl
@[simp] theorem State.unissue_mem (s : State) (code : Nat) : (s.unissue code).mem = s.mem := by unfold State.unissue; dsimp only; split <;> (try split) <;> rfl
@[simp] theorem State.unissue_clusters (s : State) (code : Nat) : (s.unissue code).clusters = s.clusters := by unfold State.unissue; dsimp only; split <;> (try split) <;> rfl
@[simp] theorem State.unissue_dies (s : State) (code : Nat) : (s.unissue code).dies = s.dies := by unfold State.unissue; dsimp only; split <;> (try split) <;> rfl
@[simp] theorem State.unissue_jobs (s : State) (code : Nat) : (s.unissue code).jobs = s.jobs := by unfold State.unissue; dsimp only; split <;> (try split) <;> rfl
@[simp] theorem State.unissue_ms (s : State) (code : Nat) : (s.unissue code).ms = s.ms := by unfold State.unissue; dsimp only; split <;> (try split) <;> rfl
@[simp] theorem State.unissue_pkg (s : State) (code : Nat) : (s.unissue code).pkg = s.pkg := by unfold State.unissue; dsimp only; split <;> (try split) <;> rfl

/-! ### parkAbsent -/

@[simp] theorem State.parkAbsent_cycle (s : State) (gs vs : List (Fin 32)) : (s.parkAbsent gs vs).cycle = s.cycle := State.unissue_cycle s 0x03
@[simp] theorem State.parkAbsent_turn (s : State) (gs vs : List (Fin 32)) : (s.parkAbsent gs vs).turn = s.turn := State.unissue_turn s 0x03
@[simp] theorem State.parkAbsent_cur (s : State) (gs vs : List (Fin 32)) : (s.parkAbsent gs vs).cur = s.cur := State.unissue_cur s 0x03
@[simp] theorem State.parkAbsent_ctxs (s : State) (gs vs : List (Fin 32)) : (s.parkAbsent gs vs).ctxs = s.ctxs := State.unissue_ctxs s 0x03
@[simp] theorem State.parkAbsent_kicks (s : State) (gs vs : List (Fin 32)) : (s.parkAbsent gs vs).kicks = s.kicks := State.unissue_kicks s 0x03
@[simp] theorem State.parkAbsent_replays (s : State) (gs vs : List (Fin 32)) : (s.parkAbsent gs vs).replays = s.replays := State.unissue_replays s 0x03
@[simp] theorem State.parkAbsent_visitFrom (s : State) (gs vs : List (Fin 32)) : (s.parkAbsent gs vs).visitFrom = s.visitFrom := State.unissue_visitFrom s 0x03
@[simp] theorem State.parkAbsent_agenda (s : State) (gs vs : List (Fin 32)) : (s.parkAbsent gs vs).agenda = s.agenda := State.unissue_agenda s 0x03
@[simp] theorem State.parkAbsent_mem (s : State) (gs vs : List (Fin 32)) : (s.parkAbsent gs vs).mem = s.mem := State.unissue_mem s 0x03
@[simp] theorem State.parkAbsent_clusters (s : State) (gs vs : List (Fin 32)) : (s.parkAbsent gs vs).clusters = s.clusters := State.unissue_clusters s 0x03
@[simp] theorem State.parkAbsent_dies (s : State) (gs vs : List (Fin 32)) : (s.parkAbsent gs vs).dies = s.dies := State.unissue_dies s 0x03
@[simp] theorem State.parkAbsent_jobs (s : State) (gs vs : List (Fin 32)) : (s.parkAbsent gs vs).jobs = s.jobs := State.unissue_jobs s 0x03
@[simp] theorem State.parkAbsent_ms (s : State) (gs vs : List (Fin 32)) : (s.parkAbsent gs vs).ms = s.ms := State.unissue_ms s 0x03
@[simp] theorem State.parkAbsent_pkg (s : State) (gs vs : List (Fin 32)) : (s.parkAbsent gs vs).pkg = s.pkg := State.unissue_pkg s 0x03

/-! ## The part that an update changes -/

@[simp] theorem State.modCore_core (s : State) (k : Nat) (f : Core → Core) : (s.modCore k f).core k = f (s.core k) :=
  Table.getD_set_self _ _ _ _
theorem State.modCore_core_ne (s : State) {k j : Nat} (f : Core → Core) (h : j ≠ k) : (s.modCore k f).core j = s.core j :=
  Table.getD_set_ne _ _ _ h

@[simp] theorem State.modCluster_cluster (s : State) (k : Nat) (f : Cluster → Cluster) : (s.modCluster k f).cluster k = f (s.cluster k) :=
  Table.getD_set_self _ _ _ _
theorem State.modCluster_cluster_ne (s : State) {k j : Nat} (f : Cluster → Cluster) (h : j ≠ k) : (s.modCluster k f).cluster j = s.cluster j :=
  Table.getD_set_ne _ _ _ h

@[simp] theorem State.modDie_die (s : State) (k : Nat) (f : Die → Die) : (s.modDie k f).die k = f (s.die k) :=
  Table.getD_set_self _ _ _ _
theorem State.modDie_die_ne (s : State) {k j : Nat} (f : Die → Die) (h : j ≠ k) : (s.modDie k f).die j = s.die j :=
  Table.getD_set_ne _ _ _ h

@[simp] theorem State.modJob_job (s : State) (k : Nat) (f : Job → Job) : (s.modJob k f).job k = f (s.job k) :=
  Table.getD_set_self _ _ _ _
theorem State.modJob_job_ne (s : State) {k j : Nat} (f : Job → Job) (h : j ≠ k) : (s.modJob k f).job j = s.job j :=
  Table.getD_set_ne _ _ _ h

@[simp] theorem State.modMS_ms (s : State) (f : MemSys → MemSys) : (s.modMS f).ms = f s.ms := rfl
@[simp] theorem State.modPkg_pkg (s : State) (f : Pkg → Pkg) : (s.modPkg f).pkg = f s.pkg := rfl
@[simp] theorem State.modCtx_ctx (s : State) (f : Ctx → Ctx) : (s.modCtx f).ctx = f s.ctx := rfl
@[simp] theorem State.modCtl_ctx (s : State) (f : Ctrl → Ctrl) : (s.modCtl f).ctx = { s.ctx with ctl := f s.ctx.ctl } := rfl
@[simp] theorem State.modRegs_ctx (s : State) (f : Regs → Regs) : (s.modRegs f).ctx = { s.ctx with regs := f s.ctx.regs } := rfl
@[simp] theorem State.setG_ctx (s : State) (d : GReg) (v : Word) (b : Bool) :
    (s.setG d v b).ctx = { s.ctx with regs := s.ctx.regs.setG d v b } := rfl
@[simp] theorem State.setV_ctx (s : State) (d : VIdx) (v : VReg) :
    (s.setV d v).ctx = { s.ctx with regs := s.ctx.regs.setV d v } := rfl
@[simp] theorem State.setP_ctx (s : State) (d : PReg) (v : Word) :
    (s.setP d v).ctx = { s.ctx with regs := s.ctx.regs.setP d v } := rfl
@[simp] theorem State.park_ctx (s : State) (r : Reason) : (s.park r).ctx = { s.ctx with wait := .away r, cls := 0 } := rfl
@[simp] theorem State.rest_ctx (s : State) (r : Reason) (d : Nat) :
    (s.rest r d).ctx = { s.ctx with wait := .timed r (s.cycle + d) } := rfl
@[simp] theorem State.jump_ctx (s : State) (a : Word) : (s.jump a).ctx = { s.ctx.settled s.cycle with pc := a } := rfl
@[simp] theorem State.schedule_agenda (s : State) (d : Nat) (e : Instr) :
    (s.schedule d e).agenda = insertDue (s.cycle + d) e s.agenda := rfl
@[simp] theorem State.kick_kicks (s : State) (t : Nat) : (s.kick t).kicks = s.kicks ++ [t] := rfl

/-- An event scheduled stands in the agenda with its cycle. -/
theorem mem_insertDue (c : Nat) (e : Instr) (m : List (Nat × Instr)) : (c, e) ∈ insertDue c e m := by
  induction m with
  | nil => simp [insertDue]
  | cons x m ih =>
    obtain ⟨d, y⟩ := x
    simp only [insertDue]
    split <;> simp [ih]

/-- Scheduling drops no event of the agenda. -/
theorem mem_insertDue_of_mem (c : Nat) (e : Instr) {x : Nat × Instr} {m : List (Nat × Instr)} (h : x ∈ m) :
    x ∈ insertDue c e m := by
  induction m with
  | nil => cases h
  | cons y m ih =>
    obtain ⟨d, y⟩ := y
    simp only [insertDue]
    split
    · exact List.mem_cons_of_mem _ h
    · rcases List.mem_cons.1 h with h | h
      · simp [h]
      · exact List.mem_cons_of_mem _ (ih h)

@[simp] theorem State.setCtxAt_ctxAt (s : State) (t : Nat) (c : Ctx) (h : c.inst = true) : (s.setCtxAt t c).ctxAt t = c := by
  unfold State.setCtxAt State.ctxAt
  by_cases ht : t = s.cur
  · simp [ht]
  · simp [ht, h]

@[simp] theorem State.modCtxAt_ctxAt (s : State) (t : Nat) (f : Ctx → Ctx) (h : (f (s.ctxAt t)).inst = true) :
    (s.modCtxAt t f).ctxAt t = f (s.ctxAt t) := State.setCtxAt_ctxAt _ _ _ h

@[simp] theorem State.ctxAt_cur (s : State) : s.ctxAt s.cur = s.ctx := by simp [State.ctxAt]

@[simp] theorem State.switch_cur (s : State) (t : Nat) : (s.switch t).cur = t := by
  unfold State.switch; split <;> simp_all

@[simp] theorem State.switch_ctx (s : State) (t : Nat) : (s.switch t).ctx = s.ctxAt t := by
  unfold State.switch State.ctxAt; split <;> simp_all

/-! ### Packets on the request network (R314) -/

/-- Events change the agenda only. -/
theorem State.scheduleAll_only (d : Nat → Nat) (e : Instr) (l : List Nat) (s : State) :
    ∃ a, l.foldl (fun s i => s.schedule (d i) e) s = { s with agenda := a } := by
  induction l generalizing s with
  | nil => exact ⟨_, rfl⟩
  | cons i l ih =>
    obtain ⟨a, h⟩ := ih (s.schedule (d i) e)
    exact ⟨a, h⟩

/-- The flits of a packet change the agenda and the cores only. -/
theorem State.sendFlits_only (s : State) (core n : Nat) :
    ∃ a k, (s.sendFlits core n).1 = { s with agenda := a, cores := k } := by
  unfold State.sendFlits
  dsimp only
  split
  · exact ⟨_, _, rfl⟩
  · split
    · obtain ⟨a, h⟩ := State.scheduleAll_only (fun i => s.flitWait core n + i + 2) (.sendAllowanceReturn core) (List.range n)
        (s.modCore core fun c => { c with spent := c.spent + n })
      exact ⟨a, _, h⟩
    · obtain ⟨a, h⟩ := State.scheduleAll_only (fun i => s.flitWait core n + i + 2) (.sendAllowanceReturn core) (List.range n)
        ((s.schedule (2 ^ 20) (.clusterReset (clusterOf core))).modCore core fun c => { c with spent := c.spent + n })
      exact ⟨a, _, h⟩

/-- A packet of no flit waits as the others do and spends nothing. -/
theorem State.sendFlits_zero (s : State) (core : Nat) : (s.sendFlits core 0).1 = s := rfl

/-- A packet that leaves changes the agenda and the cores only. -/
theorem State.post_only (s : State) (core n after d : Nat) (msg : Instr) :
    ∃ a k, (s.post core n after d msg).1 = { s with agenda := a, cores := k } := by
  obtain ⟨a, k, h⟩ := State.sendFlits_only s core n
  unfold State.post
  dsimp only
  rw [h]
  exact ⟨_, _, rfl⟩

/-- The wait of a packet is the longer of what its sender has to wait and what its flits have to. -/
theorem State.post_wait (s : State) (core n after d : Nat) (msg : Instr) :
    (s.post core n after d msg).2 = max after (s.flitWait core n) := by
  unfold State.post State.sendFlits
  dsimp only
  split <;> rfl

end Sys2Proof.Machine
end

