-- ==== Sys2Proof/Laws/Ops.lean ====
section
/-! SUPPORT. What the shared operations of Machine/Ops.lean can do: registers, the end of an instruction, parking, traps. -/
namespace Sys2Proof.Machine

set_option linter.unusedSimpArgs false

/-! ## Bits -/

theorem bit_getLsbD {w : Nat} (i j : Nat) (h : j < w) : (bit i : BitVec w).getLsbD j = decide (i = j) := by
  simp only [bit, BitVec.getLsbD_ofNat, h, decide_true, Bool.true_and, Nat.testBit_two_pow]

theorem bit_getElem {w : Nat} (i j : Nat) (h : j < w) : (bit i : BitVec w)[j] = decide (i = j) := by
  rw [← BitVec.getLsbD_eq_getElem, bit_getLsbD i j h]

theorem setBit_getElem {w : Nat} (x : BitVec w) (i j : Nat) (b : Bool) (h : j < w) :
    (setBit x i b)[j] = if i = j then b else x[j] := by
  cases b
  · by_cases hij : i = j <;> simp [setBit, bit_getElem, h, hij]
  · by_cases hij : i = j <;> simp [setBit, bit_getElem, h, hij]

theorem setBit_getLsbD {w : Nat} (x : BitVec w) (i j : Nat) (b : Bool) (h : j < w) :
    (setBit x i b).getLsbD j = if i = j then b else x.getLsbD j := by
  rw [BitVec.getLsbD_eq_getElem h, setBit_getElem _ _ _ _ h, BitVec.getLsbD_eq_getElem h]

/-! ## Registers -/

theorem State.g_setG (s : State) (d : GReg) (v : Word) (b : Bool) (h : d ≠ 0) : (s.setG d v b).g d = v := by
  simp [State.g, State.setG, State.modRegs, Regs.setG, h]

theorem State.g_zero (s : State) : s.g 0 = 0 := by simp [State.g]
theorem State.taint_zero (s : State) : s.taint 0 = false := by simp [State.taint]

theorem State.g_setG_ne (s : State) {d r : GReg} (v : Word) (b : Bool) (h : r ≠ d) : (s.setG d v b).g r = s.g r := by
  by_cases hd : d = 0
  · simp [State.g, State.setG, State.modRegs, Regs.setG, hd]
  · have h' : d ≠ r := Ne.symm h
    by_cases hr : r = 0
    · simp [State.g, hr]
    · simp [State.g, State.setG, State.modRegs, Regs.setG, hd, hr, Vector.getElem_set, Fin.val_ne_of_ne h']

theorem State.taint_setG (s : State) (d : GReg) (v : Word) (b : Bool) (h : d ≠ 0) : (s.setG d v b).taint d = b := by
  simp [State.taint, State.setG, State.modRegs, Regs.setG, h, setBit_getElem]

theorem State.taint_setG_ne (s : State) {d r : GReg} (v : Word) (b : Bool) (h : r ≠ d) :
    (s.setG d v b).taint r = s.taint r := by
  by_cases hd : d = 0
  · simp [State.taint, State.setG, State.modRegs, Regs.setG, hd]
  · have h' : d.val ≠ r.val := Fin.val_ne_of_ne (Ne.symm h)
    simp [State.taint, State.setG, State.modRegs, Regs.setG, hd, setBit_getElem, h']

theorem Regs.hasG_setG (x : Regs) (d r : GReg) (v : Word) (b : Bool) :
    (x.setG d v b).hasG r = (x.hasG r || decide (r = d)) := by
  by_cases hd : d = 0
  · by_cases hr : r = 0
    · simp [Regs.hasG, Regs.setG, hd, hr]
    · have h2 : r ≠ d := by rw [hd]; exact hr
      simp [Regs.hasG, Regs.setG, hd, hr]
  · by_cases h : d = r
    · subst h; simp [Regs.hasG, Regs.setG, hd, setBit_getElem]
    · have h' : d.val ≠ r.val := Fin.val_ne_of_ne h
      simp [Regs.hasG, Regs.setG, hd, setBit_getElem, h', Ne.symm h]

/-! ## Absent sources (R81) -/

theorem withG_present {rs : List GReg} {s : State} {k : Res} (h : s.hasG rs = true) : withG rs s k = k := by
  simp [withG, h]
theorem withG_absent {rs : List GReg} {s : State} {k : Res} (h : s.hasG rs = false) :
    withG rs s k = .next (s.parkAbsent rs []) := by simp [withG, h]

/-! ## The end of an instruction (R188 to R190) -/

theorem Ctx.settled_regs (c : Ctx) (n : Nat) : (c.settled n).regs = c.regs := rfl

theorem Loops.endTest_inactive (l : Loops) (a b : Word) (h : l.active = 0) : l.endTest a b = (l, b) := by
  have h0 : ∀ k, l.active.getLsbD k = false := by intro k; rw [h]; simp
  simp only [Loops.endTest, Loops.endTest.go, h0, Bool.false_and, Bool.false_eq_true, if_false]

/-- What the end of an instruction leaves of the context. -/
theorem State.finish_ctx (s : State) (n : Nat) :
    (s.finish n).ctx.regs = s.ctx.regs ∧ (s.finish n).ctx.latch = none ∧ (s.finish n).ctx.inst = s.ctx.inst ∧
    (s.finish n).ctx.job = s.ctx.job ∧ (s.finish n).ctx.unit = s.ctx.unit ∧ (s.finish n).ctx.streams = s.ctx.streams ∧
    (s.finish n).ctx.efaults = s.ctx.efaults ∧ (s.finish n).ctx.cancelled = s.ctx.cancelled ∧
    (s.finish n).ctx.ctl = { s.ctx.ctl with rptix := (s.finish n).ctx.ctl.rptix, rpta := (s.finish n).ctx.ctl.rpta } ∧
    (s.finish n).ctx.wait = s.ctx.wait.rejoin s.cycle ∧ (s.finish n).ctx.msgAt = s.ctx.msgAt ∧
    (s.finish n).ctx.sent = s.ctx.sent := by
  unfold State.finish
  dsimp only [Ctx.settled]
  split
  · split
    · exact ⟨rfl, rfl, rfl, rfl, rfl, rfl, rfl, rfl, rfl, rfl, rfl, rfl⟩
    · exact ⟨rfl, rfl, rfl, rfl, rfl, rfl, rfl, rfl, rfl, rfl, rfl, rfl⟩
  · exact ⟨rfl, rfl, rfl, rfl, rfl, rfl, rfl, rfl, rfl, rfl, rfl, rfl⟩

@[simp] theorem State.finish_regs (s : State) (n : Nat) : (s.finish n).ctx.regs = s.ctx.regs := (s.finish_ctx n).1
@[simp] theorem State.finish_latch (s : State) (n : Nat) : (s.finish n).ctx.latch = none := (s.finish_ctx n).2.1
@[simp] theorem State.finish_inst (s : State) (n : Nat) : (s.finish n).ctx.inst = s.ctx.inst := (s.finish_ctx n).2.2.1

/-- Outside a repeat and outside loops the PC passes the instruction. -/
theorem State.finish_pc (s : State) (n : Nat) (hr : s.ctx.rep = none) (hl : s.ctx.loops.active = 0) :
    (s.finish n).ctx.pc = s.ctx.pc + BitVec.ofNat 64 n ∧ (s.finish n).ctx.loops = s.ctx.loops := by
  unfold State.finish
  dsimp only [Ctx.settled]
  rw [hr]
  dsimp only
  rw [Loops.endTest_inactive _ _ _ hl]
  exact ⟨rfl, rfl⟩

theorem State.g_of_regs {s t : State} (h : t.ctx.regs = s.ctx.regs) (r : GReg) : t.g r = s.g r := by simp [State.g, h]
theorem State.taint_of_regs {s t : State} (h : t.ctx.regs = s.ctx.regs) (r : GReg) : t.taint r = s.taint r := by
  simp [State.taint, h]
theorem State.v_of_regs {s t : State} (h : t.ctx.regs = s.ctx.regs) (r : VIdx) : t.v r = s.v r := by simp [State.v, h]
theorem State.p_of_regs {s t : State} (h : t.ctx.regs = s.ctx.regs) (r : PReg) : t.p r = s.p r := by simp [State.p, h]

/-- The end of an instruction after it has changed the registers of its thread alone. -/
theorem State.finish_passes (s : State) (n : Nat) : Passes s (s.finish n) n :=
  ⟨s.finish_latch n, fun hr hl => s.finish_pc n hr hl⟩

theorem State.finish_writesNothing (s : State) (n : Nat) : WritesNothing s (s.finish n) n := by
  have h := s.finish_ctx n
  have hr := s.finish_regs n
  refine ⟨fun r _ => ⟨State.g_of_regs hr r, State.taint_of_regs hr r, by rw [hr]⟩,
    fun r _ => ⟨State.v_of_regs hr r, by rw [hr]⟩, fun r _ => State.p_of_regs hr r, h.2.2.2.2.2.2.2.2.1,
    ⟨h.2.2.1, h.2.2.2.1, h.2.2.2.2.1, h.2.2.2.2.2.1, h.2.2.2.2.2.2.1, h.2.2.2.2.2.2.2.1⟩, ?_, s.finish_passes n⟩
  obtain ⟨c, hc⟩ := s.finish_only_ctx n
  rw [SameMachine, hc]

/-- One g-register written, then the end of the instruction. -/
theorem State.setG_finish_writesG (s : State) (d : GReg) (v : Word) (b : Bool) (n : Nat) :
    WritesG s ((s.setG d v b).finish n) d v b n := by
  have h := (s.setG d v b).finish_ctx n
  have hr := (s.setG d v b).finish_regs n
  have hg : ∀ r, ((s.setG d v b).finish n).g r = (s.setG d v b).g r := fun r => State.g_of_regs hr r
  have ht : ∀ r, ((s.setG d v b).finish n).taint r = (s.setG d v b).taint r := fun r => State.taint_of_regs hr r
  refine ⟨⟨fun hd => ⟨by rw [hg, State.g_setG s d v b hd], by rw [ht, State.taint_setG s d v b hd]⟩, State.g_zero _,
      State.taint_zero _, ?_⟩, ?_, ?_, ?_, h.2.2.2.2.2.2.2.2.1,
    ⟨h.2.2.1, h.2.2.2.1, h.2.2.2.2.1, h.2.2.2.2.2.1, h.2.2.2.2.2.2.1, h.2.2.2.2.2.2.2.1⟩, ?_, ?_⟩
  · rw [hr, State.setG_ctx, Regs.hasG_setG]; simp
  · intro r hrd
    have hne : r ≠ d := by simpa using hrd
    refine ⟨by rw [hg, State.g_setG_ne s v b hne], by rw [ht, State.taint_setG_ne s v b hne], ?_⟩
    rw [hr, State.setG_ctx, Regs.hasG_setG]; simp [hne]
  · intro r _
    constructor
    · rw [State.v_of_regs hr]; simp only [State.v, State.setG_ctx, Regs.setG]; split <;> rfl
    · rw [hr]; simp only [State.setG_ctx, Regs.setG]; split <;> rfl
  · intro r _
    rw [State.p_of_regs hr]; simp only [State.p, State.setG_ctx, Regs.setG]; split <;> (try split) <;> rfl
  · obtain ⟨c, hc⟩ := (s.setG d v b).finish_only_ctx n
    rw [SameMachine, hc]; rfl
  · exact ⟨h.2.1, fun hr hl => (s.setG d v b).finish_pc n hr hl⟩

end Sys2Proof.Machine
end

