-- ==== Sys2Proof/Laws/PerInstr.lean ====
section
/-! SUPPORT. Per-instruction laws. RoundTrip: the decoder's choice by major and minor finds the instruction, with all of
its operands, in the fields of the instruction's own encoding (R26 to R49). -/
namespace Sys2Proof.Laws

set_option linter.unusedSimpArgs false

/-- The fields of a well-formed instruction's encoding give the instruction back. -/
def RoundTrip.Statement (i : Instr) : Prop := ∀ f, fieldsOf i = some f → i.wellFormed = true → candidate f = some i

/-! ## The enumerated fields and the parts of a field -/

theorem Width.of_code (x : Width) : Width.of x.code = x := by cases x <;> rfl
theorem SrcWidth.of_code (x : SrcWidth) : SrcWidth.of x.code = x := by cases x <;> rfl
theorem Policy.of_code (x : Policy) : Policy.of x.code = x := by cases x <;> rfl
theorem MemOrd.of_code (x : MemOrd) : MemOrd.of x.code = x := by cases x <;> rfl
theorem Scope.of_code (x : Scope) : Scope.of x.code = x := by cases x <;> rfl
theorem pOf_p5 (p : PReg) : pOf (p5 p) = p := Fin.ext (Nat.mod_eq_of_lt p.isLt)
theorem kOf_k5 (k : Fin 4) : kOf (k5 k) = k := Fin.ext (Nat.mod_eq_of_lt k.isLt)
theorem v4_v5 (v : BitVec 4) : v4 (v5 v) = v := BitVec.eq_of_toNat_eq (by simp [v4, v5])
theorem bv5_r5 (x : BitVec 5) : bv5 (r5 x) = x := BitVec.eq_of_toNat_eq (by simp [bv5, r5])
theorem r5_bv5 (x : Fin 32) : r5 (bv5 x) = x := Fin.ext (by simp [bv5, r5])
theorem lvlOf_lvl5 (k : Fin 3) : lvlOf (lvl5 k) = k := by revert k; decide

/-- The low part of a concatenation. -/
theorem low_part {n m : Nat} (x : BitVec n) (y : BitVec m) (k l : Nat) (h : k + l ≤ m) :
    (x ++ y).extractLsb' k l = y.extractLsb' k l := by
  apply BitVec.eq_of_getLsbD_eq
  intro i hi
  rw [BitVec.getLsbD_extractLsb', BitVec.getLsbD_extractLsb', BitVec.getLsbD_append, if_pos (by omega)]

/-- The high part of a concatenation. -/
theorem high_part {n m : Nat} (x : BitVec n) (y : BitVec m) (k l : Nat) (h : m ≤ k) :
    (x ++ y).extractLsb' k l = x.extractLsb' (k - m) l := by
  apply BitVec.eq_of_getLsbD_eq
  intro i hi
  rw [BitVec.getLsbD_extractLsb', BitVec.getLsbD_extractLsb', BitVec.getLsbD_append, if_neg (by omega),
    show k + i - m = k - m + i by omega]

theorem whole_part {n : Nat} (x : BitVec n) : x.extractLsb' 0 n = x := by
  apply BitVec.eq_of_getLsbD_eq
  intro i hi
  simp [BitVec.getLsbD_extractLsb', hi]

theorem low_bit {n m : Nat} (x : BitVec n) (y : BitVec m) (k : Nat) (h : k < m) :
    (x ++ y).getLsbD k = y.getLsbD k := by rw [BitVec.getLsbD_append, if_pos h]
theorem high_bit {n m : Nat} (x : BitVec n) (y : BitVec m) (k : Nat) (h : m ≤ k) :
    (x ++ y).getLsbD k = x.getLsbD (k - m) := by rw [BitVec.getLsbD_append, if_neg (by omega)]
theorem ofBool_bit (b : Bool) : (BitVec.ofBool b).getLsbD 0 = b := by cases b <;> rfl

theorem w32_low (x : BitVec 32) : (w32 x).extractLsb' 0 32 = x := by rw [w32, low_part _ _ _ _ (by omega), whole_part]
theorem bit17_low (b : Bool) : (bit17 b).getLsbD 0 = b := by cases b <;> rfl

theorem Fields.mem_eq {f : Fields} {m : MemArgs} (hd : f.d = m.d) (ha : f.a = m.a) (hb : f.b = m.b)
    (hn : f.minor = m.minorBits) (hm : f.mod = m.modBits) (hi : f.imm = m.disp) : f.mem = m := by
  simp (disch := omega) only [Fields.mem, Fields.scope, Fields.scale, hd, ha, hb, hn, hm, hi, MemArgs.minorBits,
    MemArgs.modBits, low_part, high_part, low_bit, high_bit, Nat.reduceSub, whole_part, ofBool_bit, Width.of_code,
    Policy.of_code, MemOrd.of_code, Scope.of_code]

theorem Fields.amo_eq {f : Fields} {m : AmoArgs} (hd : f.d = m.d) (ha : f.a = m.a) (hb : f.b = m.b) (hc : f.c = m.c)
    (hn : f.minor = m.minorBits) (hm : f.mod = m.modBits) : f.amo = m := by
  simp (disch := omega) only [Fields.amo, Fields.scope, Fields.scale, hd, ha, hb, hc, hn, hm, AmoArgs.minorBits,
    AmoArgs.modBits, low_part, high_part, Nat.reduceSub, whole_part, Width.of_code, Policy.of_code, MemOrd.of_code,
    Scope.of_code]

theorem Fields.vmod_eq {f : Fields} {m : VMod} (hp : f.pg = m.pg) (hm : f.mod = m.modBits) : f.vmod = m := by
  simp (disch := omega) only [Fields.vmod, hp, hm, VMod.modBits, low_part, high_part, low_bit, high_bit, Nat.reduceSub,
    whole_part, ofBool_bit]

theorem Fields.vmem_eq {f : Fields} {m : VMemArgs} (hp : f.pg = m.m.pg) (hm : f.mod = m.m.modBits) (hd : f.d = m.d)
    (ha : f.a = m.a) (hn : f.minor = m.minorBits) (hi : f.imm = m.immBits) : f.vmem = m := by
  simp (disch := omega) only [Fields.vmem, Fields.vmod_eq hp hm, hd, ha, hn, hi, VMemArgs.minorBits, VMemArgs.immBits,
    low_part, high_part, Nat.reduceSub, whole_part, Policy.of_code, MemOrd.of_code, Scope.of_code]

theorem Fields.mma_eq {f : Fields} {m : MmaArgs} (hd : f.d = r5 m.acc) (ha : f.a = m.a) (hb : f.b = m.b) (hc : f.c = m.c)
    (hm : f.mod = bv5 m.j) (he : f.ext = m.ext) : f.mma = m := by
  simp (disch := omega) only [Fields.mma, hd, ha, hb, hc, hm, he, MmaArgs.ext, low_part, high_part, low_bit, high_bit,
    Nat.reduceSub, whole_part, ofBool_bit, bv5_r5, r5_bv5]

theorem Fields.cpy_eq {f : Fields} {m : CpyArgs} (he : f.ext = m.ext) : f.cpy = m := by
  simp (disch := omega) only [Fields.cpy, he, CpyArgs.ext, low_part, high_part, low_bit, high_bit, Nat.reduceSub,
    whole_part, ofBool_bit]

theorem Fields.walk_eq {f : Fields} {m : WalkArgs} (he : f.ext = m.ext) : f.walk = m := by
  simp (disch := omega) only [Fields.walk, he, WalkArgs.ext, low_part, high_part, Nat.reduceSub, whole_part]

theorem CacheCfg.of_word (c : CacheCfg) : CacheCfg.of c.word = c := by
  simp (disch := omega) only [CacheCfg.of, CacheCfg.word, low_part, high_part, Nat.reduceSub, whole_part]

theorem minor_low (t : BitVec 5) : (0#3 ++ t : BitVec 8).extractLsb' 0 5 = t := by
  rw [low_part _ _ _ _ (by omega), whole_part]

theorem MemArgs.minor_sx (m : MemArgs) : m.minorBits.getLsbD 2 = m.sx := by
  simp (disch := omega) only [MemArgs.minorBits, low_bit, high_bit, Nat.reduceSub, ofBool_bit]

theorem candidate_rephint (a : GReg) (imm : BitVec 17) :
    candidate { Fields.base 0x83 0 0 with a := a, imm := imm } =
    (match (imm.extractLsb' 2 2).toNat with
      | 0 => some (.rephintClear a)
      | 1 => some (.rephintPin a (imm.extractLsb' 0 2))
      | 2 => some (.rephintCap a (imm.extractLsb' 0 2))
      | _ => none) := rfl

/-! ## One lemma per constructor -/

theorem RoundTrip.dividerResult (t : Nat) (d : GReg) (v : Word) (taint : Bool) : RoundTrip.Statement (.dividerResult t d v taint) := by intro f h; cases h
theorem RoundTrip.specialFunctionResult (t : Nat) (d : VIdx) (v : VReg) (flags : BitVec 5) : RoundTrip.Statement (.specialFunctionResult t d v flags) := by intro f h; cases h
theorem RoundTrip.streamFill (t : Nat) (k : Fin 4) : RoundTrip.Statement (.streamFill t k) := by intro f h; cases h
theorem RoundTrip.streamPushPerform (t : Nat) (k : Fin 4) : RoundTrip.Statement (.streamPushPerform t k) := by intro f h; cases h
theorem RoundTrip.rotationVisit (core : Nat) : RoundTrip.Statement (.rotationVisit core) := by intro f h; cases h
theorem RoundTrip.memoryReply (r : Req) (p : Reply) : RoundTrip.Statement (.memoryReply r p) := by intro f h; cases h
theorem RoundTrip.instructionCacheFill (r : Req) (p : Reply) : RoundTrip.Statement (.instructionCacheFill r p) := by intro f h; cases h
theorem RoundTrip.bankConflictReplay (t : Nat) : RoundTrip.Statement (.bankConflictReplay t) := by intro f h; cases h
theorem RoundTrip.fullEmptyReplay (t : Nat) : RoundTrip.Statement (.fullEmptyReplay t) := by intro f h; cases h
theorem RoundTrip.storeQueueAck (r : Req) (p : Reply) : RoundTrip.Statement (.storeQueueAck r p) := by intro f h; cases h
theorem RoundTrip.wakeDelivery (t job : Nat) : RoundTrip.Statement (.wakeDelivery t job) := by intro f h; cases h
theorem RoundTrip.rputDelivery (way : Nat × Nat) (job : Nat) (m : PutMsg) : RoundTrip.Statement (.rputDelivery way job m) := by intro f h; cases h
theorem RoundTrip.sendDelivery (way : Nat × Nat) (job : Nat) (idx : GReg) (v : Word) (ptime : Nat) : RoundTrip.Statement (.sendDelivery way job idx v ptime) := by intro f h; cases h
theorem RoundTrip.reductionDelivery (job : Nat) (round : Nat × Option (Nat × VIdx × VReg × Nat)) : RoundTrip.Statement (.reductionDelivery job round) := by intro f h; cases h
theorem RoundTrip.remoteStoreMessage (t : Nat) (cells : List (Nat × Byte)) : RoundTrip.Statement (.remoteStoreMessage t cells) := by intro f h; cases h
theorem RoundTrip.engineFaultSignal (t jid : Nat) : RoundTrip.Statement (.engineFaultSignal t jid) := by intro f h; cases h
theorem RoundTrip.residencyWake (t : Nat) : RoundTrip.Statement (.residencyWake t) := by intro f h; cases h
theorem RoundTrip.migrationArrival (t : Nat) : RoundTrip.Statement (.migrationArrival t) := by intro f h; cases h
theorem RoundTrip.migrationRetry (t : Nat) : RoundTrip.Statement (.migrationRetry t) := by intro f h; cases h
theorem RoundTrip.migrationTimeout (t : Nat) : RoundTrip.Statement (.migrationTimeout t) := by intro f h; cases h
theorem RoundTrip.migratedUnitStatus (holder : Nat) (e : UnitEnd) : RoundTrip.Statement (.migratedUnitStatus holder e) := by intro f h; cases h
theorem RoundTrip.contextSwap (slot : Nat × Option Nat) (entry : Nat) : RoundTrip.Statement (.contextSwap slot entry) := by intro f h; cases h
theorem RoundTrip.bindRecordDispatch (slot : Nat) (r : Option BindRec) : RoundTrip.Statement (.bindRecordDispatch slot r) := by intro f h; cases h
theorem RoundTrip.bindRecordSwap (slot : Nat) (r : Option BindRec) : RoundTrip.Statement (.bindRecordSwap slot r) := by intro f h; cases h
theorem RoundTrip.bindRecordReleaseCore (slot : Nat) (r : Option BindRec) : RoundTrip.Statement (.bindRecordReleaseCore slot r) := by intro f h; cases h
theorem RoundTrip.unitRestart (slot : Nat) : RoundTrip.Statement (.unitRestart slot) := by intro f h; cases h
theorem RoundTrip.clusterClear (c : Nat) : RoundTrip.Statement (.clusterClear c) := by intro f h; cases h
theorem RoundTrip.clusterClearDone (c : Nat) : RoundTrip.Statement (.clusterClearDone c) := by intro f h; cases h
theorem RoundTrip.matrixStart (c : Nat) : RoundTrip.Statement (.matrixStart c) := by intro f h; cases h
theorem RoundTrip.matrixComplete (c : Nat) : RoundTrip.Statement (.matrixComplete c) := by intro f h; cases h
theorem RoundTrip.copyBeat (c ch : Nat) : RoundTrip.Statement (.copyBeat c ch) := by intro f h; cases h
theorem RoundTrip.copyCommandDone (c ch : Nat) : RoundTrip.Statement (.copyCommandDone c ch) := by intro f h; cases h
theorem RoundTrip.copyCommandFault (c ch kind addr : Nat) : RoundTrip.Statement (.copyCommandFault c ch kind addr) := by intro f h; cases h
theorem RoundTrip.barrierRelease (c b : Nat) (flags : BitVec 5) (waiters : List (Nat × Nat)) : RoundTrip.Statement (.barrierRelease c b flags waiters) := by intro f h; cases h
theorem RoundTrip.dcmdHalt (c : Nat) : RoundTrip.Statement (.dcmdHalt c) := by intro f h; cases h
theorem RoundTrip.dcmdResume (c : Nat) : RoundTrip.Statement (.dcmdResume c) := by intro f h; cases h
theorem RoundTrip.dcmdStep (c : Nat) : RoundTrip.Statement (.dcmdStep c) := by intro f h; cases h
theorem RoundTrip.stepDone (c : Nat) : RoundTrip.Statement (.stepDone c) := by intro f h; cases h
theorem RoundTrip.crossTriggerHalt (c : Nat) : RoundTrip.Statement (.crossTriggerHalt c) := by intro f h; cases h
theorem RoundTrip.contextWindowAccess (c core slot off : Nat) (wr : Option Word) : RoundTrip.Statement (.contextWindowAccess c core slot off wr) := by intro f h; cases h
theorem RoundTrip.strainerSample (die : Nat) : RoundTrip.Statement (.strainerSample die) := by intro f h; cases h
theorem RoundTrip.registerWrite (bar off : Nat) (v : Word) : RoundTrip.Statement (.registerWrite bar off v) := by intro f h; cases h
theorem RoundTrip.vcsetSwitch (job vc : Nat) : RoundTrip.Statement (.vcsetSwitch job vc) := by intro f h; cases h
theorem RoundTrip.homeRequest (r : Req) : RoundTrip.Statement (.homeRequest r) := by intro f h; cases h
theorem RoundTrip.homeWriteback (w : Wb) : RoundTrip.Statement (.homeWriteback w) := by intro f h; cases h
theorem RoundTrip.vcacheWriteback (w : Wb) (vc : Nat) : RoundTrip.Statement (.vcacheWriteback w vc) := by intro f h; cases h
theorem RoundTrip.vcacheLookup (r : Req) (vc : Nat) : RoundTrip.Statement (.vcacheLookup r vc) := by intro f h; cases h
theorem RoundTrip.invalidation (p : Probe) : RoundTrip.Statement (.invalidation p) := by intro f h; cases h
theorem RoundTrip.forward (p : Probe) : RoundTrip.Statement (.forward p) := by intro f h; cases h
theorem RoundTrip.revocation (p : Probe) : RoundTrip.Statement (.revocation p) := by intro f h; cases h
theorem RoundTrip.promotionProbe (t core : Nat) (wide : Bool) : RoundTrip.Statement (.promotionProbe t core wide) := by intro f h; cases h
theorem RoundTrip.sliceSweep (sweep : Nat × Nat) : RoundTrip.Statement (.sliceSweep sweep) := by intro f h; cases h
theorem RoundTrip.leaseTimeout (core job line granted : Nat) : RoundTrip.Statement (.leaseTimeout core job line granted) := by intro f h; cases h
theorem RoundTrip.agentLostScan (agent : BitVec 32) : RoundTrip.Statement (.agentLostScan agent) := by intro f h; cases h
theorem RoundTrip.jobEndBankScan (scan : Nat × Nat) : RoundTrip.Statement (.jobEndBankScan scan) := by intro f h; cases h
theorem RoundTrip.allotmentChange (bank way : Nat) (entry : BitVec 16) : RoundTrip.Statement (.allotmentChange bank way entry) := by intro f h; cases h
theorem RoundTrip.launchTake (l : LaunchSub) : RoundTrip.Statement (.launchTake l) := by intro f h; cases h
theorem RoundTrip.predecessorComplete (lid : Nat) : RoundTrip.Statement (.predecessorComplete lid) := by intro f h; cases h
theorem RoundTrip.doneMessage (n : DoneNode) (e : UnitEnd) : RoundTrip.Statement (.doneMessage n e) := by intro f h; cases h
theorem RoundTrip.launchComplete (lid : Nat) : RoundTrip.Statement (.launchComplete lid) := by intro f h; cases h
theorem RoundTrip.taskDecrement (rec job ptime : Nat) : RoundTrip.Statement (.taskDecrement rec job ptime) := by intro f h; cases h
theorem RoundTrip.runListInstall (place : Nat × Option (Nat × Nat)) : RoundTrip.Statement (.runListInstall place) := by intro f h; cases h
theorem RoundTrip.stealRequest (die : Nat) : RoundTrip.Statement (.stealRequest die) := by intro f h; cases h
theorem RoundTrip.stealReply (die victim : Nat) : RoundTrip.Statement (.stealReply die victim) := by intro f h; cases h
theorem RoundTrip.recruitStart (m : RecruitMsg) : RoundTrip.Statement (.recruitStart m) := by intro f h; cases h
theorem RoundTrip.cancelArrival (core lid : Nat) : RoundTrip.Statement (.cancelArrival core lid) := by intro f h; cases h
theorem RoundTrip.sendAllowanceReturn (core : Nat) : RoundTrip.Statement (.sendAllowanceReturn core) := by intro f h; cases h
theorem RoundTrip.poisonedPacketDrop (c : Nat) (req : Option Nat) : RoundTrip.Statement (.poisonedPacketDrop c req) := by intro f h; cases h
theorem RoundTrip.clusterReset (c : Nat) : RoundTrip.Statement (.clusterReset c) := by intro f h; cases h
theorem RoundTrip.packageReset : RoundTrip.Statement (.packageReset) := by intro f h; cases h
theorem RoundTrip.selfTestPass (f : FnId) : RoundTrip.Statement (.selfTestPass f) := by intro f h; cases h
theorem RoundTrip.firmwareBoot (f : FnId) (image : Nat) : RoundTrip.Statement (.firmwareBoot f image) := by intro f h; cases h
theorem RoundTrip.watchdogExpiry (f : FnId) : RoundTrip.Statement (.watchdogExpiry f) := by intro f h; cases h
theorem RoundTrip.explorePacket (die : Nat) (from_ : Nat) : RoundTrip.Statement (.explorePacket die from_) := by intro f h; cases h
theorem RoundTrip.routingSetup : RoundTrip.Statement (.routingSetup) := by intro f h; cases h
theorem RoundTrip.ringLinkFailure (i : Nat) : RoundTrip.Statement (.ringLinkFailure i) := by intro f h; cases h
theorem RoundTrip.droppedReplyTimeout (r : Req) : RoundTrip.Statement (.droppedReplyTimeout r) := by intro f h; cases h
theorem RoundTrip.eccError (w : EccWhere) (multi : Bool) : RoundTrip.Statement (.eccError w multi) := by intro f h; cases h
theorem RoundTrip.faultLogDelivery (die : Nat) : RoundTrip.Statement (.faultLogDelivery die) := by intro f h; cases h
theorem RoundTrip.ringSplit : RoundTrip.Statement (.ringSplit) := by intro f h; cases h
theorem RoundTrip.halfFence (half : List Nat) : RoundTrip.Statement (.halfFence half) := by intro f h; cases h
theorem RoundTrip.selfFenceTimeout (half : List Nat) : RoundTrip.Statement (.selfFenceTimeout half) := by intro f h; cases h
theorem RoundTrip.pageInRequest (va : Nat) : RoundTrip.Statement (.pageInRequest va) := by intro f h; cases h
theorem RoundTrip.leafWriteValid (va : Nat) (leaf : Word) : RoundTrip.Statement (.leafWriteValid va leaf) := by intro f h; cases h
theorem RoundTrip.translationWalk (t va : Nat) : RoundTrip.Statement (.translationWalk t va) := by intro f h; cases h
theorem RoundTrip.tmoveTransferDone (c jid : Nat) : RoundTrip.Statement (.tmoveTransferDone c jid) := by intro f h; cases h
theorem RoundTrip.replicaWindow : RoundTrip.Statement (.replicaWindow) := by intro f h; cases h
theorem RoundTrip.replicaFill (r : Req) (p : Reply) : RoundTrip.Statement (.replicaFill r p) := by intro f h; cases h
theorem RoundTrip.doorbellWrite (q tail : Nat) : RoundTrip.Statement (.doorbellWrite q tail) := by intro f h; cases h
theorem RoundTrip.commandLaunch (q : Nat) : RoundTrip.Statement (.commandLaunch q) := by intro f h; cases h
theorem RoundTrip.commandCancelJob (q : Nat) : RoundTrip.Statement (.commandCancelJob q) := by intro f h; cases h
theorem RoundTrip.commandLoadKey (q : Nat) : RoundTrip.Statement (.commandLoadKey q) := by intro f h; cases h
theorem RoundTrip.commandAttest (q : Nat) : RoundTrip.Statement (.commandAttest q) := by intro f h; cases h
theorem RoundTrip.commandDebug (q : Nat) : RoundTrip.Statement (.commandDebug q) := by intro f h; cases h
theorem RoundTrip.hostDeviceAccess (pa : Nat) (wr : Option Byte) (own : Bool) : RoundTrip.Statement (.hostDeviceAccess pa wr own) := by intro f h; cases h
theorem RoundTrip.backInvalidation (line : Nat) (wb : List (Nat × Byte)) : RoundTrip.Statement (.backInvalidation line wb) := by intro f h; cases h
theorem RoundTrip.remoteBeatArrival (job : Nat) (cells : List (Nat × Byte)) : RoundTrip.Statement (.remoteBeatArrival job cells) := by intro f h; cases h
theorem RoundTrip.remoteFlagAdd (c ch dev : Nat) : RoundTrip.Statement (.remoteFlagAdd c ch dev) := by intro f h; cases h
theorem RoundTrip.fabricLinkFailure (i : Nat) : RoundTrip.Statement (.fabricLinkFailure i) := by intro f h; cases h
theorem RoundTrip.hostPortDown (i : Nat) : RoundTrip.Statement (.hostPortDown i) := by intro f h; cases h
theorem RoundTrip.hostPortUp (i : Nat) : RoundTrip.Statement (.hostPortUp i) := by intro f h; cases h
theorem RoundTrip.remoteReadMessage (t : Nat) : RoundTrip.Statement (.remoteReadMessage t) := by intro f h; cases h
theorem RoundTrip.probeAcknowledgement (a : ProbeAck) : RoundTrip.Statement (.probeAcknowledgement a) := by intro f h; cases h
theorem RoundTrip.addReg (d a b : GReg) : RoundTrip.Statement (.addReg d a b) := by intro f h _; cases h; rfl
theorem RoundTrip.addImm (d a : GReg) (imm : BitVec 17) : RoundTrip.Statement (.addImm d a imm) := by intro f h _; cases h; rfl
theorem RoundTrip.addImm32 (d a : GReg) (imm : BitVec 32) : RoundTrip.Statement (.addImm32 d a imm) := by
  intro f h hw; cases h
  refine Eq.trans (b := some (.addImm32 ({ Fields.base 0x03 1 0 with d := d, a := a, ext := w32 imm } : Fields).d ({ Fields.base 0x03 1 0 with d := d, a := a, ext := w32 imm } : Fields).a ({ Fields.base 0x03 1 0 with d := d, a := a, ext := w32 imm } : Fields).ext32)) rfl ?_
  simp (disch := omega) only [Fields.base, Fields.ext32, Fields.scope, Fields.scale, Scope.of_code, w32_low, pOf_p5, kOf_k5, v4_v5, bv5_r5, lvlOf_lvl5, SrcWidth.of_code, CacheCfg.of_word, low_part, high_part, low_bit, high_bit, Nat.reduceSub, whole_part, ofBool_bit, bit17_low]
theorem RoundTrip.subReg (d a b : GReg) : RoundTrip.Statement (.subReg d a b) := by intro f h _; cases h; rfl
theorem RoundTrip.subImm (d a : GReg) (imm : BitVec 17) : RoundTrip.Statement (.subImm d a imm) := by intro f h _; cases h; rfl
theorem RoundTrip.subImm32 (d a : GReg) (imm : BitVec 32) : RoundTrip.Statement (.subImm32 d a imm) := by
  intro f h hw; cases h
  refine Eq.trans (b := some (.subImm32 ({ Fields.base 0x03 1 1 with d := d, a := a, ext := w32 imm } : Fields).d ({ Fields.base 0x03 1 1 with d := d, a := a, ext := w32 imm } : Fields).a ({ Fields.base 0x03 1 1 with d := d, a := a, ext := w32 imm } : Fields).ext32)) rfl ?_
  simp (disch := omega) only [Fields.base, Fields.ext32, Fields.scope, Fields.scale, Scope.of_code, w32_low, pOf_p5, kOf_k5, v4_v5, bv5_r5, lvlOf_lvl5, SrcWidth.of_code, CacheCfg.of_word, low_part, high_part, low_bit, high_bit, Nat.reduceSub, whole_part, ofBool_bit, bit17_low]
theorem RoundTrip.mulReg (d a b : GReg) : RoundTrip.Statement (.mulReg d a b) := by intro f h _; cases h; rfl
theorem RoundTrip.mulImm (d a : GReg) (imm : BitVec 17) : RoundTrip.Statement (.mulImm d a imm) := by intro f h _; cases h; rfl
theorem RoundTrip.mulImm32 (d a : GReg) (imm : BitVec 32) : RoundTrip.Statement (.mulImm32 d a imm) := by
  intro f h hw; cases h
  refine Eq.trans (b := some (.mulImm32 ({ Fields.base 0x03 1 2 with d := d, a := a, ext := w32 imm } : Fields).d ({ Fields.base 0x03 1 2 with d := d, a := a, ext := w32 imm } : Fields).a ({ Fields.base 0x03 1 2 with d := d, a := a, ext := w32 imm } : Fields).ext32)) rfl ?_
  simp (disch := omega) only [Fields.base, Fields.ext32, Fields.scope, Fields.scale, Scope.of_code, w32_low, pOf_p5, kOf_k5, v4_v5, bv5_r5, lvlOf_lvl5, SrcWidth.of_code, CacheCfg.of_word, low_part, high_part, low_bit, high_bit, Nat.reduceSub, whole_part, ofBool_bit, bit17_low]
theorem RoundTrip.mulhReg (d a b : GReg) : RoundTrip.Statement (.mulhReg d a b) := by intro f h _; cases h; rfl
theorem RoundTrip.mulhImm (d a : GReg) (imm : BitVec 17) : RoundTrip.Statement (.mulhImm d a imm) := by intro f h _; cases h; rfl
theorem RoundTrip.mulhImm32 (d a : GReg) (imm : BitVec 32) : RoundTrip.Statement (.mulhImm32 d a imm) := by
  intro f h hw; cases h
  refine Eq.trans (b := some (.mulhImm32 ({ Fields.base 0x03 1 3 with d := d, a := a, ext := w32 imm } : Fields).d ({ Fields.base 0x03 1 3 with d := d, a := a, ext := w32 imm } : Fields).a ({ Fields.base 0x03 1 3 with d := d, a := a, ext := w32 imm } : Fields).ext32)) rfl ?_
  simp (disch := omega) only [Fields.base, Fields.ext32, Fields.scope, Fields.scale, Scope.of_code, w32_low, pOf_p5, kOf_k5, v4_v5, bv5_r5, lvlOf_lvl5, SrcWidth.of_code, CacheCfg.of_word, low_part, high_part, low_bit, high_bit, Nat.reduceSub, whole_part, ofBool_bit, bit17_low]
theorem RoundTrip.mulhuReg (d a b : GReg) : RoundTrip.Statement (.mulhuReg d a b) := by intro f h _; cases h; rfl
theorem RoundTrip.mulhuImm (d a : GReg) (imm : BitVec 17) : RoundTrip.Statement (.mulhuImm d a imm) := by intro f h _; cases h; rfl
theorem RoundTrip.mulhuImm32 (d a : GReg) (imm : BitVec 32) : RoundTrip.Statement (.mulhuImm32 d a imm) := by
  intro f h hw; cases h
  refine Eq.trans (b := some (.mulhuImm32 ({ Fields.base 0x03 1 4 with d := d, a := a, ext := w32 imm } : Fields).d ({ Fields.base 0x03 1 4 with d := d, a := a, ext := w32 imm } : Fields).a ({ Fields.base 0x03 1 4 with d := d, a := a, ext := w32 imm } : Fields).ext32)) rfl ?_
  simp (disch := omega) only [Fields.base, Fields.ext32, Fields.scope, Fields.scale, Scope.of_code, w32_low, pOf_p5, kOf_k5, v4_v5, bv5_r5, lvlOf_lvl5, SrcWidth.of_code, CacheCfg.of_word, low_part, high_part, low_bit, high_bit, Nat.reduceSub, whole_part, ofBool_bit, bit17_low]
theorem RoundTrip.andReg (d a b : GReg) : RoundTrip.Statement (.andReg d a b) := by intro f h _; cases h; rfl
theorem RoundTrip.andImm (d a : GReg) (imm : BitVec 17) : RoundTrip.Statement (.andImm d a imm) := by intro f h _; cases h; rfl
theorem RoundTrip.andImm32 (d a : GReg) (imm : BitVec 32) : RoundTrip.Statement (.andImm32 d a imm) := by
  intro f h hw; cases h
  refine Eq.trans (b := some (.andImm32 ({ Fields.base 0x03 1 5 with d := d, a := a, ext := w32 imm } : Fields).d ({ Fields.base 0x03 1 5 with d := d, a := a, ext := w32 imm } : Fields).a ({ Fields.base 0x03 1 5 with d := d, a := a, ext := w32 imm } : Fields).ext32)) rfl ?_
  simp (disch := omega) only [Fields.base, Fields.ext32, Fields.scope, Fields.scale, Scope.of_code, w32_low, pOf_p5, kOf_k5, v4_v5, bv5_r5, lvlOf_lvl5, SrcWidth.of_code, CacheCfg.of_word, low_part, high_part, low_bit, high_bit, Nat.reduceSub, whole_part, ofBool_bit, bit17_low]
theorem RoundTrip.orReg (d a b : GReg) : RoundTrip.Statement (.orReg d a b) := by intro f h _; cases h; rfl
theorem RoundTrip.orImm (d a : GReg) (imm : BitVec 17) : RoundTrip.Statement (.orImm d a imm) := by intro f h _; cases h; rfl
theorem RoundTrip.orImm32 (d a : GReg) (imm : BitVec 32) : RoundTrip.Statement (.orImm32 d a imm) := by
  intro f h hw; cases h
  refine Eq.trans (b := some (.orImm32 ({ Fields.base 0x03 1 6 with d := d, a := a, ext := w32 imm } : Fields).d ({ Fields.base 0x03 1 6 with d := d, a := a, ext := w32 imm } : Fields).a ({ Fields.base 0x03 1 6 with d := d, a := a, ext := w32 imm } : Fields).ext32)) rfl ?_
  simp (disch := omega) only [Fields.base, Fields.ext32, Fields.scope, Fields.scale, Scope.of_code, w32_low, pOf_p5, kOf_k5, v4_v5, bv5_r5, lvlOf_lvl5, SrcWidth.of_code, CacheCfg.of_word, low_part, high_part, low_bit, high_bit, Nat.reduceSub, whole_part, ofBool_bit, bit17_low]
theorem RoundTrip.xorReg (d a b : GReg) : RoundTrip.Statement (.xorReg d a b) := by intro f h _; cases h; rfl
theorem RoundTrip.xorImm (d a : GReg) (imm : BitVec 17) : RoundTrip.Statement (.xorImm d a imm) := by intro f h _; cases h; rfl
theorem RoundTrip.xorImm32 (d a : GReg) (imm : BitVec 32) : RoundTrip.Statement (.xorImm32 d a imm) := by
  intro f h hw; cases h
  refine Eq.trans (b := some (.xorImm32 ({ Fields.base 0x03 1 7 with d := d, a := a, ext := w32 imm } : Fields).d ({ Fields.base 0x03 1 7 with d := d, a := a, ext := w32 imm } : Fields).a ({ Fields.base 0x03 1 7 with d := d, a := a, ext := w32 imm } : Fields).ext32)) rfl ?_
  simp (disch := omega) only [Fields.base, Fields.ext32, Fields.scope, Fields.scale, Scope.of_code, w32_low, pOf_p5, kOf_k5, v4_v5, bv5_r5, lvlOf_lvl5, SrcWidth.of_code, CacheCfg.of_word, low_part, high_part, low_bit, high_bit, Nat.reduceSub, whole_part, ofBool_bit, bit17_low]
theorem RoundTrip.andnReg (d a b : GReg) : RoundTrip.Statement (.andnReg d a b) := by intro f h _; cases h; rfl
theorem RoundTrip.andnImm (d a : GReg) (imm : BitVec 17) : RoundTrip.Statement (.andnImm d a imm) := by intro f h _; cases h; rfl
theorem RoundTrip.andnImm32 (d a : GReg) (imm : BitVec 32) : RoundTrip.Statement (.andnImm32 d a imm) := by
  intro f h hw; cases h
  refine Eq.trans (b := some (.andnImm32 ({ Fields.base 0x03 1 8 with d := d, a := a, ext := w32 imm } : Fields).d ({ Fields.base 0x03 1 8 with d := d, a := a, ext := w32 imm } : Fields).a ({ Fields.base 0x03 1 8 with d := d, a := a, ext := w32 imm } : Fields).ext32)) rfl ?_
  simp (disch := omega) only [Fields.base, Fields.ext32, Fields.scope, Fields.scale, Scope.of_code, w32_low, pOf_p5, kOf_k5, v4_v5, bv5_r5, lvlOf_lvl5, SrcWidth.of_code, CacheCfg.of_word, low_part, high_part, low_bit, high_bit, Nat.reduceSub, whole_part, ofBool_bit, bit17_low]
theorem RoundTrip.shlReg (d a b : GReg) : RoundTrip.Statement (.shlReg d a b) := by intro f h _; cases h; rfl
theorem RoundTrip.shlImm (d a : GReg) (imm : BitVec 17) : RoundTrip.Statement (.shlImm d a imm) := by intro f h _; cases h; rfl
theorem RoundTrip.shlImm32 (d a : GReg) (imm : BitVec 32) : RoundTrip.Statement (.shlImm32 d a imm) := by
  intro f h hw; cases h
  refine Eq.trans (b := some (.shlImm32 ({ Fields.base 0x03 1 9 with d := d, a := a, ext := w32 imm } : Fields).d ({ Fields.base 0x03 1 9 with d := d, a := a, ext := w32 imm } : Fields).a ({ Fields.base 0x03 1 9 with d := d, a := a, ext := w32 imm } : Fields).ext32)) rfl ?_
  simp (disch := omega) only [Fields.base, Fields.ext32, Fields.scope, Fields.scale, Scope.of_code, w32_low, pOf_p5, kOf_k5, v4_v5, bv5_r5, lvlOf_lvl5, SrcWidth.of_code, CacheCfg.of_word, low_part, high_part, low_bit, high_bit, Nat.reduceSub, whole_part, ofBool_bit, bit17_low]
theorem RoundTrip.shrReg (d a b : GReg) : RoundTrip.Statement (.shrReg d a b) := by intro f h _; cases h; rfl
theorem RoundTrip.shrImm (d a : GReg) (imm : BitVec 17) : RoundTrip.Statement (.shrImm d a imm) := by intro f h _; cases h; rfl
theorem RoundTrip.shrImm32 (d a : GReg) (imm : BitVec 32) : RoundTrip.Statement (.shrImm32 d a imm) := by
  intro f h hw; cases h
  refine Eq.trans (b := some (.shrImm32 ({ Fields.base 0x03 1 10 with d := d, a := a, ext := w32 imm } : Fields).d ({ Fields.base 0x03 1 10 with d := d, a := a, ext := w32 imm } : Fields).a ({ Fields.base 0x03 1 10 with d := d, a := a, ext := w32 imm } : Fields).ext32)) rfl ?_
  simp (disch := omega) only [Fields.base, Fields.ext32, Fields.scope, Fields.scale, Scope.of_code, w32_low, pOf_p5, kOf_k5, v4_v5, bv5_r5, lvlOf_lvl5, SrcWidth.of_code, CacheCfg.of_word, low_part, high_part, low_bit, high_bit, Nat.reduceSub, whole_part, ofBool_bit, bit17_low]
theorem RoundTrip.sarReg (d a b : GReg) : RoundTrip.Statement (.sarReg d a b) := by intro f h _; cases h; rfl
theorem RoundTrip.sarImm (d a : GReg) (imm : BitVec 17) : RoundTrip.Statement (.sarImm d a imm) := by intro f h _; cases h; rfl
theorem RoundTrip.sarImm32 (d a : GReg) (imm : BitVec 32) : RoundTrip.Statement (.sarImm32 d a imm) := by
  intro f h hw; cases h
  refine Eq.trans (b := some (.sarImm32 ({ Fields.base 0x03 1 11 with d := d, a := a, ext := w32 imm } : Fields).d ({ Fields.base 0x03 1 11 with d := d, a := a, ext := w32 imm } : Fields).a ({ Fields.base 0x03 1 11 with d := d, a := a, ext := w32 imm } : Fields).ext32)) rfl ?_
  simp (disch := omega) only [Fields.base, Fields.ext32, Fields.scope, Fields.scale, Scope.of_code, w32_low, pOf_p5, kOf_k5, v4_v5, bv5_r5, lvlOf_lvl5, SrcWidth.of_code, CacheCfg.of_word, low_part, high_part, low_bit, high_bit, Nat.reduceSub, whole_part, ofBool_bit, bit17_low]
theorem RoundTrip.rotrReg (d a b : GReg) : RoundTrip.Statement (.rotrReg d a b) := by intro f h _; cases h; rfl
theorem RoundTrip.rotrImm (d a : GReg) (imm : BitVec 17) : RoundTrip.Statement (.rotrImm d a imm) := by intro f h _; cases h; rfl
theorem RoundTrip.rotrImm32 (d a : GReg) (imm : BitVec 32) : RoundTrip.Statement (.rotrImm32 d a imm) := by
  intro f h hw; cases h
  refine Eq.trans (b := some (.rotrImm32 ({ Fields.base 0x03 1 12 with d := d, a := a, ext := w32 imm } : Fields).d ({ Fields.base 0x03 1 12 with d := d, a := a, ext := w32 imm } : Fields).a ({ Fields.base 0x03 1 12 with d := d, a := a, ext := w32 imm } : Fields).ext32)) rfl ?_
  simp (disch := omega) only [Fields.base, Fields.ext32, Fields.scope, Fields.scale, Scope.of_code, w32_low, pOf_p5, kOf_k5, v4_v5, bv5_r5, lvlOf_lvl5, SrcWidth.of_code, CacheCfg.of_word, low_part, high_part, low_bit, high_bit, Nat.reduceSub, whole_part, ofBool_bit, bit17_low]
theorem RoundTrip.minReg (d a b : GReg) : RoundTrip.Statement (.minReg d a b) := by intro f h _; cases h; rfl
theorem RoundTrip.minImm (d a : GReg) (imm : BitVec 17) : RoundTrip.Statement (.minImm d a imm) := by intro f h _; cases h; rfl
theorem RoundTrip.minImm32 (d a : GReg) (imm : BitVec 32) : RoundTrip.Statement (.minImm32 d a imm) := by
  intro f h hw; cases h
  refine Eq.trans (b := some (.minImm32 ({ Fields.base 0x03 1 13 with d := d, a := a, ext := w32 imm } : Fields).d ({ Fields.base 0x03 1 13 with d := d, a := a, ext := w32 imm } : Fields).a ({ Fields.base 0x03 1 13 with d := d, a := a, ext := w32 imm } : Fields).ext32)) rfl ?_
  simp (disch := omega) only [Fields.base, Fields.ext32, Fields.scope, Fields.scale, Scope.of_code, w32_low, pOf_p5, kOf_k5, v4_v5, bv5_r5, lvlOf_lvl5, SrcWidth.of_code, CacheCfg.of_word, low_part, high_part, low_bit, high_bit, Nat.reduceSub, whole_part, ofBool_bit, bit17_low]
theorem RoundTrip.maxReg (d a b : GReg) : RoundTrip.Statement (.maxReg d a b) := by intro f h _; cases h; rfl
theorem RoundTrip.maxImm (d a : GReg) (imm : BitVec 17) : RoundTrip.Statement (.maxImm d a imm) := by intro f h _; cases h; rfl
theorem RoundTrip.maxImm32 (d a : GReg) (imm : BitVec 32) : RoundTrip.Statement (.maxImm32 d a imm) := by
  intro f h hw; cases h
  refine Eq.trans (b := some (.maxImm32 ({ Fields.base 0x03 1 14 with d := d, a := a, ext := w32 imm } : Fields).d ({ Fields.base 0x03 1 14 with d := d, a := a, ext := w32 imm } : Fields).a ({ Fields.base 0x03 1 14 with d := d, a := a, ext := w32 imm } : Fields).ext32)) rfl ?_
  simp (disch := omega) only [Fields.base, Fields.ext32, Fields.scope, Fields.scale, Scope.of_code, w32_low, pOf_p5, kOf_k5, v4_v5, bv5_r5, lvlOf_lvl5, SrcWidth.of_code, CacheCfg.of_word, low_part, high_part, low_bit, high_bit, Nat.reduceSub, whole_part, ofBool_bit, bit17_low]
theorem RoundTrip.minuReg (d a b : GReg) : RoundTrip.Statement (.minuReg d a b) := by intro f h _; cases h; rfl
theorem RoundTrip.minuImm (d a : GReg) (imm : BitVec 17) : RoundTrip.Statement (.minuImm d a imm) := by intro f h _; cases h; rfl
theorem RoundTrip.minuImm32 (d a : GReg) (imm : BitVec 32) : RoundTrip.Statement (.minuImm32 d a imm) := by
  intro f h hw; cases h
  refine Eq.trans (b := some (.minuImm32 ({ Fields.base 0x03 1 15 with d := d, a := a, ext := w32 imm } : Fields).d ({ Fields.base 0x03 1 15 with d := d, a := a, ext := w32 imm } : Fields).a ({ Fields.base 0x03 1 15 with d := d, a := a, ext := w32 imm } : Fields).ext32)) rfl ?_
  simp (disch := omega) only [Fields.base, Fields.ext32, Fields.scope, Fields.scale, Scope.of_code, w32_low, pOf_p5, kOf_k5, v4_v5, bv5_r5, lvlOf_lvl5, SrcWidth.of_code, CacheCfg.of_word, low_part, high_part, low_bit, high_bit, Nat.reduceSub, whole_part, ofBool_bit, bit17_low]
theorem RoundTrip.maxuReg (d a b : GReg) : RoundTrip.Statement (.maxuReg d a b) := by intro f h _; cases h; rfl
theorem RoundTrip.maxuImm (d a : GReg) (imm : BitVec 17) : RoundTrip.Statement (.maxuImm d a imm) := by intro f h _; cases h; rfl
theorem RoundTrip.maxuImm32 (d a : GReg) (imm : BitVec 32) : RoundTrip.Statement (.maxuImm32 d a imm) := by
  intro f h hw; cases h
  refine Eq.trans (b := some (.maxuImm32 ({ Fields.base 0x03 1 16 with d := d, a := a, ext := w32 imm } : Fields).d ({ Fields.base 0x03 1 16 with d := d, a := a, ext := w32 imm } : Fields).a ({ Fields.base 0x03 1 16 with d := d, a := a, ext := w32 imm } : Fields).ext32)) rfl ?_
  simp (disch := omega) only [Fields.base, Fields.ext32, Fields.scope, Fields.scale, Scope.of_code, w32_low, pOf_p5, kOf_k5, v4_v5, bv5_r5, lvlOf_lvl5, SrcWidth.of_code, CacheCfg.of_word, low_part, high_part, low_bit, high_bit, Nat.reduceSub, whole_part, ofBool_bit, bit17_low]
theorem RoundTrip.clz (d a : GReg) : RoundTrip.Statement (.clz d a) := by intro f h _; cases h; rfl
theorem RoundTrip.ctz (d a : GReg) : RoundTrip.Statement (.ctz d a) := by intro f h _; cases h; rfl
theorem RoundTrip.popc (d a : GReg) : RoundTrip.Statement (.popc d a) := by intro f h _; cases h; rfl
theorem RoundTrip.sext (d a : GReg) (sw : SrcWidth) : RoundTrip.Statement (.sext d a sw) := by cases sw <;> (intro f h _; cases h; rfl)
theorem RoundTrip.zext (d a : GReg) (sw : SrcWidth) : RoundTrip.Statement (.zext d a sw) := by cases sw <;> (intro f h _; cases h; rfl)
theorem RoundTrip.madd (d a b c : GReg) : RoundTrip.Statement (.madd d a b c) := by intro f h _; cases h; rfl
theorem RoundTrip.divReg (d a b : GReg) : RoundTrip.Statement (.divReg d a b) := by intro f h _; cases h; rfl
theorem RoundTrip.divImm (d a : GReg) (imm : BitVec 17) : RoundTrip.Statement (.divImm d a imm) := by intro f h _; cases h; rfl
theorem RoundTrip.divImm32 (d a : GReg) (imm : BitVec 32) : RoundTrip.Statement (.divImm32 d a imm) := by
  intro f h hw; cases h
  refine Eq.trans (b := some (.divImm32 ({ Fields.base 0x03 1 32 with d := d, a := a, ext := w32 imm } : Fields).d ({ Fields.base 0x03 1 32 with d := d, a := a, ext := w32 imm } : Fields).a ({ Fields.base 0x03 1 32 with d := d, a := a, ext := w32 imm } : Fields).ext32)) rfl ?_
  simp (disch := omega) only [Fields.base, Fields.ext32, Fields.scope, Fields.scale, Scope.of_code, w32_low, pOf_p5, kOf_k5, v4_v5, bv5_r5, lvlOf_lvl5, SrcWidth.of_code, CacheCfg.of_word, low_part, high_part, low_bit, high_bit, Nat.reduceSub, whole_part, ofBool_bit, bit17_low]
theorem RoundTrip.divuReg (d a b : GReg) : RoundTrip.Statement (.divuReg d a b) := by intro f h _; cases h; rfl
theorem RoundTrip.divuImm (d a : GReg) (imm : BitVec 17) : RoundTrip.Statement (.divuImm d a imm) := by intro f h _; cases h; rfl
theorem RoundTrip.divuImm32 (d a : GReg) (imm : BitVec 32) : RoundTrip.Statement (.divuImm32 d a imm) := by
  intro f h hw; cases h
  refine Eq.trans (b := some (.divuImm32 ({ Fields.base 0x03 1 33 with d := d, a := a, ext := w32 imm } : Fields).d ({ Fields.base 0x03 1 33 with d := d, a := a, ext := w32 imm } : Fields).a ({ Fields.base 0x03 1 33 with d := d, a := a, ext := w32 imm } : Fields).ext32)) rfl ?_
  simp (disch := omega) only [Fields.base, Fields.ext32, Fields.scope, Fields.scale, Scope.of_code, w32_low, pOf_p5, kOf_k5, v4_v5, bv5_r5, lvlOf_lvl5, SrcWidth.of_code, CacheCfg.of_word, low_part, high_part, low_bit, high_bit, Nat.reduceSub, whole_part, ofBool_bit, bit17_low]
theorem RoundTrip.remReg (d a b : GReg) : RoundTrip.Statement (.remReg d a b) := by intro f h _; cases h; rfl
theorem RoundTrip.remImm (d a : GReg) (imm : BitVec 17) : RoundTrip.Statement (.remImm d a imm) := by intro f h _; cases h; rfl
theorem RoundTrip.remImm32 (d a : GReg) (imm : BitVec 32) : RoundTrip.Statement (.remImm32 d a imm) := by
  intro f h hw; cases h
  refine Eq.trans (b := some (.remImm32 ({ Fields.base 0x03 1 34 with d := d, a := a, ext := w32 imm } : Fields).d ({ Fields.base 0x03 1 34 with d := d, a := a, ext := w32 imm } : Fields).a ({ Fields.base 0x03 1 34 with d := d, a := a, ext := w32 imm } : Fields).ext32)) rfl ?_
  simp (disch := omega) only [Fields.base, Fields.ext32, Fields.scope, Fields.scale, Scope.of_code, w32_low, pOf_p5, kOf_k5, v4_v5, bv5_r5, lvlOf_lvl5, SrcWidth.of_code, CacheCfg.of_word, low_part, high_part, low_bit, high_bit, Nat.reduceSub, whole_part, ofBool_bit, bit17_low]
theorem RoundTrip.remuReg (d a b : GReg) : RoundTrip.Statement (.remuReg d a b) := by intro f h _; cases h; rfl
theorem RoundTrip.remuImm (d a : GReg) (imm : BitVec 17) : RoundTrip.Statement (.remuImm d a imm) := by intro f h _; cases h; rfl
theorem RoundTrip.remuImm32 (d a : GReg) (imm : BitVec 32) : RoundTrip.Statement (.remuImm32 d a imm) := by
  intro f h hw; cases h
  refine Eq.trans (b := some (.remuImm32 ({ Fields.base 0x03 1 35 with d := d, a := a, ext := w32 imm } : Fields).d ({ Fields.base 0x03 1 35 with d := d, a := a, ext := w32 imm } : Fields).a ({ Fields.base 0x03 1 35 with d := d, a := a, ext := w32 imm } : Fields).ext32)) rfl ?_
  simp (disch := omega) only [Fields.base, Fields.ext32, Fields.scope, Fields.scale, Scope.of_code, w32_low, pOf_p5, kOf_k5, v4_v5, bv5_r5, lvlOf_lvl5, SrcWidth.of_code, CacheCfg.of_word, low_part, high_part, low_bit, high_bit, Nat.reduceSub, whole_part, ofBool_bit, bit17_low]
theorem RoundTrip.movi (d : GReg) (v : BitVec 64) : RoundTrip.Statement (.movi d v) := by intro f h _; cases h; rfl
theorem RoundTrip.nop : RoundTrip.Statement (.nop) := by intro f h _; cases h; rfl
theorem RoundTrip.nopl : RoundTrip.Statement (.nopl) := by intro f h _; cases h; rfl
theorem RoundTrip.cmpEqReg (d a b : GReg) : RoundTrip.Statement (.cmpEqReg d a b) := by intro f h _; cases h; rfl
theorem RoundTrip.cmpEqImm (d a : GReg) (imm : BitVec 17) : RoundTrip.Statement (.cmpEqImm d a imm) := by intro f h _; cases h; rfl
theorem RoundTrip.cmpNeReg (d a b : GReg) : RoundTrip.Statement (.cmpNeReg d a b) := by intro f h _; cases h; rfl
theorem RoundTrip.cmpNeImm (d a : GReg) (imm : BitVec 17) : RoundTrip.Statement (.cmpNeImm d a imm) := by intro f h _; cases h; rfl
theorem RoundTrip.cmpLtReg (d a b : GReg) : RoundTrip.Statement (.cmpLtReg d a b) := by intro f h _; cases h; rfl
theorem RoundTrip.cmpLtImm (d a : GReg) (imm : BitVec 17) : RoundTrip.Statement (.cmpLtImm d a imm) := by intro f h _; cases h; rfl
theorem RoundTrip.cmpGeReg (d a b : GReg) : RoundTrip.Statement (.cmpGeReg d a b) := by intro f h _; cases h; rfl
theorem RoundTrip.cmpGeImm (d a : GReg) (imm : BitVec 17) : RoundTrip.Statement (.cmpGeImm d a imm) := by intro f h _; cases h; rfl
theorem RoundTrip.cmpLtuReg (d a b : GReg) : RoundTrip.Statement (.cmpLtuReg d a b) := by intro f h _; cases h; rfl
theorem RoundTrip.cmpLtuImm (d a : GReg) (imm : BitVec 17) : RoundTrip.Statement (.cmpLtuImm d a imm) := by intro f h _; cases h; rfl
theorem RoundTrip.cmpGeuReg (d a b : GReg) : RoundTrip.Statement (.cmpGeuReg d a b) := by intro f h _; cases h; rfl
theorem RoundTrip.cmpGeuImm (d a : GReg) (imm : BitVec 17) : RoundTrip.Statement (.cmpGeuImm d a imm) := by intro f h _; cases h; rfl
theorem RoundTrip.sel (d a b c : GReg) : RoundTrip.Statement (.sel d a b c) := by intro f h _; cases h; rfl
theorem RoundTrip.bfxUnsigned (d a : GReg) (pos : BitVec 6) (len : BitVec 7) : RoundTrip.Statement (.bfxUnsigned d a pos len) := by
  intro f h hw; cases h
  refine Eq.trans (b := some (.bfxUnsigned ({ Fields.base 0x08 0 0 with d := d, a := a, imm := (0#4 ++ len ++ pos : BitVec 17) } : Fields).d ({ Fields.base 0x08 0 0 with d := d, a := a, imm := (0#4 ++ len ++ pos : BitVec 17) } : Fields).a (({ Fields.base 0x08 0 0 with d := d, a := a, imm := (0#4 ++ len ++ pos : BitVec 17) } : Fields).imm.extractLsb' 0 6) (({ Fields.base 0x08 0 0 with d := d, a := a, imm := (0#4 ++ len ++ pos : BitVec 17) } : Fields).imm.extractLsb' 6 7))) rfl ?_
  simp (disch := omega) only [Fields.base, Fields.ext32, Fields.scope, Fields.scale, Scope.of_code, w32_low, pOf_p5, kOf_k5, v4_v5, bv5_r5, lvlOf_lvl5, SrcWidth.of_code, CacheCfg.of_word, low_part, high_part, low_bit, high_bit, Nat.reduceSub, whole_part, ofBool_bit, bit17_low]
theorem RoundTrip.bfxSigned (d a : GReg) (pos : BitVec 6) (len : BitVec 7) : RoundTrip.Statement (.bfxSigned d a pos len) := by
  intro f h hw; cases h
  refine Eq.trans (b := some (.bfxSigned ({ Fields.base 0x08 0 1 with d := d, a := a, imm := (0#4 ++ len ++ pos : BitVec 17) } : Fields).d ({ Fields.base 0x08 0 1 with d := d, a := a, imm := (0#4 ++ len ++ pos : BitVec 17) } : Fields).a (({ Fields.base 0x08 0 1 with d := d, a := a, imm := (0#4 ++ len ++ pos : BitVec 17) } : Fields).imm.extractLsb' 0 6) (({ Fields.base 0x08 0 1 with d := d, a := a, imm := (0#4 ++ len ++ pos : BitVec 17) } : Fields).imm.extractLsb' 6 7))) rfl ?_
  simp (disch := omega) only [Fields.base, Fields.ext32, Fields.scope, Fields.scale, Scope.of_code, w32_low, pOf_p5, kOf_k5, v4_v5, bv5_r5, lvlOf_lvl5, SrcWidth.of_code, CacheCfg.of_word, low_part, high_part, low_bit, high_bit, Nat.reduceSub, whole_part, ofBool_bit, bit17_low]
theorem RoundTrip.bfi (d a : GReg) (pos : BitVec 6) (len : BitVec 7) : RoundTrip.Statement (.bfi d a pos len) := by
  intro f h hw; cases h
  refine Eq.trans (b := some (.bfi ({ Fields.base 0x09 0 0 with d := d, a := a, imm := (0#4 ++ len ++ pos : BitVec 17) } : Fields).d ({ Fields.base 0x09 0 0 with d := d, a := a, imm := (0#4 ++ len ++ pos : BitVec 17) } : Fields).a (({ Fields.base 0x09 0 0 with d := d, a := a, imm := (0#4 ++ len ++ pos : BitVec 17) } : Fields).imm.extractLsb' 0 6) (({ Fields.base 0x09 0 0 with d := d, a := a, imm := (0#4 ++ len ++ pos : BitVec 17) } : Fields).imm.extractLsb' 6 7))) rfl ?_
  simp (disch := omega) only [Fields.base, Fields.ext32, Fields.scope, Fields.scale, Scope.of_code, w32_low, pOf_p5, kOf_k5, v4_v5, bv5_r5, lvlOf_lvl5, SrcWidth.of_code, CacheCfg.of_word, low_part, high_part, low_bit, high_bit, Nat.reduceSub, whole_part, ofBool_bit, bit17_low]
theorem RoundTrip.lea (d a b : GReg) (scale : BitVec 2) (disp : BitVec 17) : RoundTrip.Statement (.lea d a b scale disp) := by
  intro f h hw; cases h
  refine Eq.trans (b := some (.lea ({ Fields.base 0x0A 0 0 with d := d, a := a, b := b, mod := (scale ++ 0#3 : BitVec 5), imm := disp } : Fields).d ({ Fields.base 0x0A 0 0 with d := d, a := a, b := b, mod := (scale ++ 0#3 : BitVec 5), imm := disp } : Fields).a ({ Fields.base 0x0A 0 0 with d := d, a := a, b := b, mod := (scale ++ 0#3 : BitVec 5), imm := disp } : Fields).b ({ Fields.base 0x0A 0 0 with d := d, a := a, b := b, mod := (scale ++ 0#3 : BitVec 5), imm := disp } : Fields).scale ({ Fields.base 0x0A 0 0 with d := d, a := a, b := b, mod := (scale ++ 0#3 : BitVec 5), imm := disp } : Fields).imm)) rfl ?_
  simp (disch := omega) only [Fields.base, Fields.ext32, Fields.scope, Fields.scale, Scope.of_code, w32_low, pOf_p5, kOf_k5, v4_v5, bv5_r5, lvlOf_lvl5, SrcWidth.of_code, CacheCfg.of_word, low_part, high_part, low_bit, high_bit, Nat.reduceSub, whole_part, ofBool_bit, bit17_low]
theorem RoundTrip.br (disp : BitVec 17) : RoundTrip.Statement (.br disp) := by intro f h _; cases h; rfl
theorem RoundTrip.bcmpEq (a b : GReg) (disp : BitVec 17) : RoundTrip.Statement (.bcmpEq a b disp) := by intro f h _; cases h; rfl
theorem RoundTrip.bcmpNe (a b : GReg) (disp : BitVec 17) : RoundTrip.Statement (.bcmpNe a b disp) := by intro f h _; cases h; rfl
theorem RoundTrip.bcmpLt (a b : GReg) (disp : BitVec 17) : RoundTrip.Statement (.bcmpLt a b disp) := by intro f h _; cases h; rfl
theorem RoundTrip.bcmpGe (a b : GReg) (disp : BitVec 17) : RoundTrip.Statement (.bcmpGe a b disp) := by intro f h _; cases h; rfl
theorem RoundTrip.bcmpLtu (a b : GReg) (disp : BitVec 17) : RoundTrip.Statement (.bcmpLtu a b disp) := by intro f h _; cases h; rfl
theorem RoundTrip.bcmpGeu (a b : GReg) (disp : BitVec 17) : RoundTrip.Statement (.bcmpGeu a b disp) := by intro f h _; cases h; rfl
theorem RoundTrip.jal (d : GReg) (disp : BitVec 32) : RoundTrip.Statement (.jal d disp) := by
  intro f h hw; cases h
  refine Eq.trans (b := some (.jal ({ Fields.base 0x12 1 0 with d := d, ext := w32 disp } : Fields).d ({ Fields.base 0x12 1 0 with d := d, ext := w32 disp } : Fields).ext32)) rfl ?_
  simp (disch := omega) only [Fields.base, Fields.ext32, Fields.scope, Fields.scale, Scope.of_code, w32_low, pOf_p5, kOf_k5, v4_v5, bv5_r5, lvlOf_lvl5, SrcWidth.of_code, CacheCfg.of_word, low_part, high_part, low_bit, high_bit, Nat.reduceSub, whole_part, ofBool_bit, bit17_low]
theorem RoundTrip.jr (d a : GReg) (disp : BitVec 17) : RoundTrip.Statement (.jr d a disp) := by intro f h _; cases h; rfl
theorem RoundTrip.trap (code : BitVec 16) : RoundTrip.Statement (.trap code) := by
  intro f h hw; cases h
  refine Eq.trans (b := some (.trap (({ Fields.base 0x14 0 0 with imm := (0#1 ++ code : BitVec 17) } : Fields).imm.extractLsb' 0 16))) rfl ?_
  simp (disch := omega) only [Fields.base, Fields.ext32, Fields.scope, Fields.scale, Scope.of_code, w32_low, pOf_p5, kOf_k5, v4_v5, bv5_r5, lvlOf_lvl5, SrcWidth.of_code, CacheCfg.of_word, low_part, high_part, low_bit, high_bit, Nat.reduceSub, whole_part, ofBool_bit, bit17_low]
theorem RoundTrip.brk (code : BitVec 16) : RoundTrip.Statement (.brk code) := by
  intro f h hw; cases h
  refine Eq.trans (b := some (.brk (({ Fields.base 0x1C 0 0 with imm := (0#1 ++ code : BitVec 17) } : Fields).imm.extractLsb' 0 16))) rfl ?_
  simp (disch := omega) only [Fields.base, Fields.ext32, Fields.scope, Fields.scale, Scope.of_code, w32_low, pOf_p5, kOf_k5, v4_v5, bv5_r5, lvlOf_lvl5, SrcWidth.of_code, CacheCfg.of_word, low_part, high_part, low_bit, high_bit, Nat.reduceSub, whole_part, ofBool_bit, bit17_low]
theorem RoundTrip.rett : RoundTrip.Statement (.rett) := by intro f h _; cases h; rfl
theorem RoundTrip.rettSkip : RoundTrip.Statement (.rettSkip) := by intro f h _; cases h; rfl
theorem RoundTrip.rdcr (d : GReg) (idx : BitVec 12) : RoundTrip.Statement (.rdcr d idx) := by
  intro f h hw; cases h
  refine Eq.trans (b := some (.rdcr ({ Fields.base 0x16 0 0 with d := d, imm := (0#5 ++ idx : BitVec 17) } : Fields).d (({ Fields.base 0x16 0 0 with d := d, imm := (0#5 ++ idx : BitVec 17) } : Fields).imm.extractLsb' 0 12))) rfl ?_
  simp (disch := omega) only [Fields.base, Fields.ext32, Fields.scope, Fields.scale, Scope.of_code, w32_low, pOf_p5, kOf_k5, v4_v5, bv5_r5, lvlOf_lvl5, SrcWidth.of_code, CacheCfg.of_word, low_part, high_part, low_bit, high_bit, Nat.reduceSub, whole_part, ofBool_bit, bit17_low]
theorem RoundTrip.wrcr (a : GReg) (idx : BitVec 12) : RoundTrip.Statement (.wrcr a idx) := by
  intro f h hw; cases h
  refine Eq.trans (b := some (.wrcr ({ Fields.base 0x17 0 0 with a := a, imm := (0#5 ++ idx : BitVec 17) } : Fields).a (({ Fields.base 0x17 0 0 with a := a, imm := (0#5 ++ idx : BitVec 17) } : Fields).imm.extractLsb' 0 12))) rfl ?_
  simp (disch := omega) only [Fields.base, Fields.ext32, Fields.scope, Fields.scale, Scope.of_code, w32_low, pOf_p5, kOf_k5, v4_v5, bv5_r5, lvlOf_lvl5, SrcWidth.of_code, CacheCfg.of_word, low_part, high_part, low_bit, high_bit, Nat.reduceSub, whole_part, ofBool_bit, bit17_low]
theorem RoundTrip.rdtime (d : GReg) : RoundTrip.Statement (.rdtime d) := by intro f h _; cases h; rfl
theorem RoundTrip.wait : RoundTrip.Statement (.wait) := by intro f h _; cases h; rfl
theorem RoundTrip.wake (a : GReg) : RoundTrip.Statement (.wake a) := by intro f h _; cases h; rfl
theorem RoundTrip.yield : RoundTrip.Statement (.yield) := by intro f h _; cases h; rfl
theorem RoundTrip.exit : RoundTrip.Statement (.exit) := by intro f h _; cases h; rfl
theorem RoundTrip.rpt (count : BitVec 10) (stride : BitVec 3) : RoundTrip.Statement (.rpt count stride) := by
  intro f h hw; cases h
  refine Eq.trans (b := some (.rpt (({ Fields.base 0x1E 0 0 with imm := (0#4 ++ stride ++ count : BitVec 17) } : Fields).imm.extractLsb' 0 10) (({ Fields.base 0x1E 0 0 with imm := (0#4 ++ stride ++ count : BitVec 17) } : Fields).imm.extractLsb' 10 3))) rfl ?_
  simp (disch := omega) only [Fields.base, Fields.ext32, Fields.scope, Fields.scale, Scope.of_code, w32_low, pOf_p5, kOf_k5, v4_v5, bv5_r5, lvlOf_lvl5, SrcWidth.of_code, CacheCfg.of_word, low_part, high_part, low_bit, high_bit, Nat.reduceSub, whole_part, ofBool_bit, bit17_low]
theorem RoundTrip.lpset (k : Fin 3) (a : GReg) (disp : BitVec 17) : RoundTrip.Statement (.lpset k a disp) := by
  intro f h hw; cases h
  refine Eq.trans (b := some (.lpset (lvlOf ({ Fields.base 0x1F 0 0 with a := a, mod := (lvl5 k), imm := disp } : Fields).mod) ({ Fields.base 0x1F 0 0 with a := a, mod := (lvl5 k), imm := disp } : Fields).a ({ Fields.base 0x1F 0 0 with a := a, mod := (lvl5 k), imm := disp } : Fields).imm)) rfl ?_
  simp (disch := omega) only [Fields.base, Fields.ext32, Fields.scope, Fields.scale, Scope.of_code, w32_low, pOf_p5, kOf_k5, v4_v5, bv5_r5, lvlOf_lvl5, SrcWidth.of_code, CacheCfg.of_word, low_part, high_part, low_bit, high_bit, Nat.reduceSub, whole_part, ofBool_bit, bit17_low]
theorem RoundTrip.ld (m : MemArgs) : RoundTrip.Statement (.ld m) := by
  intro f h hw; cases h
  refine Eq.trans (b := some (.ld ({ Fields.base 0x20 0 m.minorBits with d := m.d, a := m.a, b := m.b, mod := m.modBits, imm := m.disp } : Fields).mem)) rfl ?_
  rw [Fields.mem_eq (m := m) rfl rfl rfl rfl rfl rfl]
theorem RoundTrip.ldc (m : MemArgs) : RoundTrip.Statement (.ldc m) := by
  intro f h hw; cases h
  refine Eq.trans (b := some (.ldc ({ Fields.base 0x22 0 m.minorBits with d := m.d, a := m.a, b := m.b, mod := m.modBits, imm := m.disp } : Fields).mem)) rfl ?_
  rw [Fields.mem_eq (m := m) rfl rfl rfl rfl rfl rfl]
theorem RoundTrip.st (m : MemArgs) : RoundTrip.Statement (.st m) := by
  intro f h hw
  have hx : m.minorBits.getLsbD 2 = false := by
    simp only [Instr.wellFormed, MemArgs.storeOk, Bool.and_eq_true, Bool.not_eq_true'] at hw
    rw [MemArgs.minor_sx, hw.2]
  cases h
  refine Eq.trans (if_pos hx) ?_
  rw [Fields.mem_eq (m := m) rfl rfl rfl rfl rfl rfl]
theorem RoundTrip.reclaimStore (m : MemArgs) : RoundTrip.Statement (.reclaimStore m) := by
  intro f h hw
  have hx : m.minorBits.getLsbD 2 = true := by
    simp only [Instr.wellFormed, MemArgs.reclaimOk, Bool.and_eq_true] at hw
    rw [MemArgs.minor_sx, hw.1.2]
  cases h
  refine Eq.trans (if_neg (fun h => by have := hx.symm.trans h; simp at this)) ?_
  rw [Fields.mem_eq (m := m) rfl rfl rfl rfl rfl rfl]
theorem RoundTrip.amoAdd (m : AmoArgs) : RoundTrip.Statement (.amoAdd m) := by
  intro f h hw; cases h
  refine Eq.trans (b := some (.amoAdd ({ Fields.base 0x23 0 m.minorBits with d := m.d, a := m.a, b := m.b, c := m.c, mod := m.modBits, imm := 0 } : Fields).amo)) rfl ?_
  rw [Fields.amo_eq (m := m) rfl rfl rfl rfl rfl rfl]
theorem RoundTrip.amoAnd (m : AmoArgs) : RoundTrip.Statement (.amoAnd m) := by
  intro f h hw; cases h
  refine Eq.trans (b := some (.amoAnd ({ Fields.base 0x23 0 m.minorBits with d := m.d, a := m.a, b := m.b, c := m.c, mod := m.modBits, imm := 1 } : Fields).amo)) rfl ?_
  rw [Fields.amo_eq (m := m) rfl rfl rfl rfl rfl rfl]
theorem RoundTrip.amoOr (m : AmoArgs) : RoundTrip.Statement (.amoOr m) := by
  intro f h hw; cases h
  refine Eq.trans (b := some (.amoOr ({ Fields.base 0x23 0 m.minorBits with d := m.d, a := m.a, b := m.b, c := m.c, mod := m.modBits, imm := 2 } : Fields).amo)) rfl ?_
  rw [Fields.amo_eq (m := m) rfl rfl rfl rfl rfl rfl]
theorem RoundTrip.amoXor (m : AmoArgs) : RoundTrip.Statement (.amoXor m) := by
  intro f h hw; cases h
  refine Eq.trans (b := some (.amoXor ({ Fields.base 0x23 0 m.minorBits with d := m.d, a := m.a, b := m.b, c := m.c, mod := m.modBits, imm := 3 } : Fields).amo)) rfl ?_
  rw [Fields.amo_eq (m := m) rfl rfl rfl rfl rfl rfl]
theorem RoundTrip.amoMin (m : AmoArgs) : RoundTrip.Statement (.amoMin m) := by
  intro f h hw; cases h
  refine Eq.trans (b := some (.amoMin ({ Fields.base 0x23 0 m.minorBits with d := m.d, a := m.a, b := m.b, c := m.c, mod := m.modBits, imm := 4 } : Fields).amo)) rfl ?_
  rw [Fields.amo_eq (m := m) rfl rfl rfl rfl rfl rfl]
theorem RoundTrip.amoMax (m : AmoArgs) : RoundTrip.Statement (.amoMax m) := by
  intro f h hw; cases h
  refine Eq.trans (b := some (.amoMax ({ Fields.base 0x23 0 m.minorBits with d := m.d, a := m.a, b := m.b, c := m.c, mod := m.modBits, imm := 5 } : Fields).amo)) rfl ?_
  rw [Fields.amo_eq (m := m) rfl rfl rfl rfl rfl rfl]
theorem RoundTrip.amoMinu (m : AmoArgs) : RoundTrip.Statement (.amoMinu m) := by
  intro f h hw; cases h
  refine Eq.trans (b := some (.amoMinu ({ Fields.base 0x23 0 m.minorBits with d := m.d, a := m.a, b := m.b, c := m.c, mod := m.modBits, imm := 6 } : Fields).amo)) rfl ?_
  rw [Fields.amo_eq (m := m) rfl rfl rfl rfl rfl rfl]
theorem RoundTrip.amoMaxu (m : AmoArgs) : RoundTrip.Statement (.amoMaxu m) := by
  intro f h hw; cases h
  refine Eq.trans (b := some (.amoMaxu ({ Fields.base 0x23 0 m.minorBits with d := m.d, a := m.a, b := m.b, c := m.c, mod := m.modBits, imm := 7 } : Fields).amo)) rfl ?_
  rw [Fields.amo_eq (m := m) rfl rfl rfl rfl rfl rfl]
theorem RoundTrip.amoSwap (m : AmoArgs) : RoundTrip.Statement (.amoSwap m) := by
  intro f h hw; cases h
  refine Eq.trans (b := some (.amoSwap ({ Fields.base 0x23 0 m.minorBits with d := m.d, a := m.a, b := m.b, c := m.c, mod := m.modBits, imm := 8 } : Fields).amo)) rfl ?_
  rw [Fields.amo_eq (m := m) rfl rfl rfl rfl rfl rfl]
theorem RoundTrip.cas (m : AmoArgs) (disp : BitVec 32) : RoundTrip.Statement (.cas m disp) := by
  intro f h hw; cases h
  refine Eq.trans (b := some (.cas ({ Fields.base 0x24 1 m.minorBits with d := m.d, a := m.a, b := m.b, c := m.c, mod := m.modBits, ext := w32 disp } : Fields).amo ({ Fields.base 0x24 1 m.minorBits with d := m.d, a := m.a, b := m.b, c := m.c, mod := m.modBits, ext := w32 disp } : Fields).ext32)) rfl ?_
  rw [Fields.amo_eq (m := m) rfl rfl rfl rfl rfl rfl]
  simp (disch := omega) only [Fields.base, Fields.ext32, Fields.scope, Fields.scale, Scope.of_code, w32_low, pOf_p5, kOf_k5, v4_v5, bv5_r5, lvlOf_lvl5, SrcWidth.of_code, CacheCfg.of_word, low_part, high_part, low_bit, high_bit, Nat.reduceSub, whole_part, ofBool_bit, bit17_low]
theorem RoundTrip.ldfe (m : MemArgs) : RoundTrip.Statement (.ldfe m) := by
  intro f h hw; cases h
  refine Eq.trans (b := some (.ldfe ({ Fields.base 0x25 0 m.minorBits with d := m.d, a := m.a, b := m.b, mod := m.modBits, imm := m.disp } : Fields).mem)) rfl ?_
  rw [Fields.mem_eq (m := m) rfl rfl rfl rfl rfl rfl]
theorem RoundTrip.stfe (m : MemArgs) : RoundTrip.Statement (.stfe m) := by
  intro f h hw; cases h
  refine Eq.trans (b := some (.stfe ({ Fields.base 0x26 0 m.minorBits with d := m.d, a := m.a, b := m.b, mod := m.modBits, imm := m.disp } : Fields).mem)) rfl ?_
  rw [Fields.mem_eq (m := m) rfl rfl rfl rfl rfl rfl]
theorem RoundTrip.ldff (m : MemArgs) : RoundTrip.Statement (.ldff m) := by
  intro f h hw; cases h
  refine Eq.trans (b := some (.ldff ({ Fields.base 0x27 0 m.minorBits with d := m.d, a := m.a, b := m.b, mod := m.modBits, imm := m.disp } : Fields).mem)) rfl ?_
  rw [Fields.mem_eq (m := m) rfl rfl rfl rfl rfl rfl]
theorem RoundTrip.feset (m : MemArgs) (full : Bool) : RoundTrip.Statement (.feset m full) := by
  intro f h hw
  have hx : m.disp = 0 := by
    simp only [Instr.wellFormed, MemArgs.fesetOk, Bool.and_eq_true, decide_eq_true_eq] at hw
    exact hw.1.1.2
  cases h
  have he : Fields.mem { Fields.base 0x28 0 m.minorBits with d := m.d, a := m.a, b := m.b, mod := m.modBits, imm := m.disp } = m :=
    Fields.mem_eq rfl rfl rfl rfl rfl rfl
  refine Eq.trans (b := some (.feset { Fields.mem { Fields.base 0x28 0 m.minorBits with d := m.d, a := m.a, b := m.b, mod := m.modBits, imm := m.disp } with disp := 0 } ((bit17 full).getLsbD 0))) rfl ?_
  rw [he, bit17_low, ← hx]
theorem RoundTrip.fenceAcq (scope : Scope) (pr : Bool) (a : GReg) : RoundTrip.Statement (.fenceAcq scope pr a) := by
  intro f h hw; cases h
  refine Eq.trans (b := some (.fenceAcq ({ Fields.base 0x29 0 0 with a := a, mod := (0#1 ++ BitVec.ofBool pr ++ scope.code : BitVec 5) } : Fields).scope (({ Fields.base 0x29 0 0 with a := a, mod := (0#1 ++ BitVec.ofBool pr ++ scope.code : BitVec 5) } : Fields).mod.getLsbD 3) ({ Fields.base 0x29 0 0 with a := a, mod := (0#1 ++ BitVec.ofBool pr ++ scope.code : BitVec 5) } : Fields).a)) rfl ?_
  simp (disch := omega) only [Fields.base, Fields.ext32, Fields.scope, Fields.scale, Scope.of_code, w32_low, pOf_p5, kOf_k5, v4_v5, bv5_r5, lvlOf_lvl5, SrcWidth.of_code, CacheCfg.of_word, low_part, high_part, low_bit, high_bit, Nat.reduceSub, whole_part, ofBool_bit, bit17_low]
theorem RoundTrip.fenceRel (scope : Scope) (all : Bool) : RoundTrip.Statement (.fenceRel scope all) := by
  intro f h hw; cases h
  refine Eq.trans (b := some (.fenceRel ({ Fields.base 0x29 0 1 with mod := (BitVec.ofBool all ++ 0#1 ++ scope.code : BitVec 5) } : Fields).scope (({ Fields.base 0x29 0 1 with mod := (BitVec.ofBool all ++ 0#1 ++ scope.code : BitVec 5) } : Fields).mod.getLsbD 4))) rfl ?_
  simp (disch := omega) only [Fields.base, Fields.ext32, Fields.scope, Fields.scale, Scope.of_code, w32_low, pOf_p5, kOf_k5, v4_v5, bv5_r5, lvlOf_lvl5, SrcWidth.of_code, CacheCfg.of_word, low_part, high_part, low_bit, high_bit, Nat.reduceSub, whole_part, ofBool_bit, bit17_low]
theorem RoundTrip.fenceFull (scope : Scope) (all : Bool) : RoundTrip.Statement (.fenceFull scope all) := by
  intro f h hw; cases h
  refine Eq.trans (b := some (.fenceFull ({ Fields.base 0x29 0 2 with mod := (BitVec.ofBool all ++ 0#1 ++ scope.code : BitVec 5) } : Fields).scope (({ Fields.base 0x29 0 2 with mod := (BitVec.ofBool all ++ 0#1 ++ scope.code : BitVec 5) } : Fields).mod.getLsbD 4))) rfl ?_
  simp (disch := omega) only [Fields.base, Fields.ext32, Fields.scope, Fields.scale, Scope.of_code, w32_low, pOf_p5, kOf_k5, v4_v5, bv5_r5, lvlOf_lvl5, SrcWidth.of_code, CacheCfg.of_word, low_part, high_part, low_bit, high_bit, Nat.reduceSub, whole_part, ofBool_bit, bit17_low]
theorem RoundTrip.cflush (a b : GReg) (scope : Scope) (scale : BitVec 2) (disp : BitVec 17) : RoundTrip.Statement (.cflush a b scope scale disp) := by
  intro f h hw; cases h
  refine Eq.trans (b := some (.cflush ({ Fields.base 0x2A 0 0 with a := a, b := b, mod := (scale ++ scope.code : BitVec 5), imm := disp } : Fields).a ({ Fields.base 0x2A 0 0 with a := a, b := b, mod := (scale ++ scope.code : BitVec 5), imm := disp } : Fields).b ({ Fields.base 0x2A 0 0 with a := a, b := b, mod := (scale ++ scope.code : BitVec 5), imm := disp } : Fields).scope ({ Fields.base 0x2A 0 0 with a := a, b := b, mod := (scale ++ scope.code : BitVec 5), imm := disp } : Fields).scale ({ Fields.base 0x2A 0 0 with a := a, b := b, mod := (scale ++ scope.code : BitVec 5), imm := disp } : Fields).imm)) rfl ?_
  simp (disch := omega) only [Fields.base, Fields.ext32, Fields.scope, Fields.scale, Scope.of_code, w32_low, pOf_p5, kOf_k5, v4_v5, bv5_r5, lvlOf_lvl5, SrcWidth.of_code, CacheCfg.of_word, low_part, high_part, low_bit, high_bit, Nat.reduceSub, whole_part, ofBool_bit, bit17_low]
theorem RoundTrip.untaint (d : GReg) : RoundTrip.Statement (.untaint d) := by intro f h _; cases h; rfl
theorem RoundTrip.rputG (d : GReg) (a : GReg) (b : GReg) (ext : BitVec 32) : RoundTrip.Statement (.rputG d a b ext) := by
  intro f h hw; cases h
  refine Eq.trans (b := some (.rputG ({ Fields.base 0x2C 1 0 with d := d, a := a, b := b, ext := w32 ext } : Fields).d ({ Fields.base 0x2C 1 0 with d := d, a := a, b := b, ext := w32 ext } : Fields).a ({ Fields.base 0x2C 1 0 with d := d, a := a, b := b, ext := w32 ext } : Fields).b ({ Fields.base 0x2C 1 0 with d := d, a := a, b := b, ext := w32 ext } : Fields).ext32)) rfl ?_
  simp (disch := omega) only [Fields.base, Fields.ext32, Fields.scope, Fields.scale, Scope.of_code, w32_low, pOf_p5, kOf_k5, v4_v5, bv5_r5, lvlOf_lvl5, SrcWidth.of_code, CacheCfg.of_word, low_part, high_part, low_bit, high_bit, Nat.reduceSub, whole_part, ofBool_bit, bit17_low]
theorem RoundTrip.rputV (d : VIdx) (a : GReg) (b : VIdx) (ext : BitVec 32) : RoundTrip.Statement (.rputV d a b ext) := by
  intro f h hw; cases h
  refine Eq.trans (b := some (.rputV ({ Fields.base 0x2C 1 1 with d := d, a := a, b := b, ext := w32 ext } : Fields).d ({ Fields.base 0x2C 1 1 with d := d, a := a, b := b, ext := w32 ext } : Fields).a ({ Fields.base 0x2C 1 1 with d := d, a := a, b := b, ext := w32 ext } : Fields).b ({ Fields.base 0x2C 1 1 with d := d, a := a, b := b, ext := w32 ext } : Fields).ext32)) rfl ?_
  simp (disch := omega) only [Fields.base, Fields.ext32, Fields.scope, Fields.scale, Scope.of_code, w32_low, pOf_p5, kOf_k5, v4_v5, bv5_r5, lvlOf_lvl5, SrcWidth.of_code, CacheCfg.of_word, low_part, high_part, low_bit, high_bit, Nat.reduceSub, whole_part, ofBool_bit, bit17_low]
theorem RoundTrip.pclrG (d : GReg) : RoundTrip.Statement (.pclrG d) := by intro f h _; cases h; rfl
theorem RoundTrip.pclrV (d : VIdx) : RoundTrip.Statement (.pclrV d) := by intro f h _; cases h; rfl
theorem RoundTrip.ptouch (a b : GReg) (scale : BitVec 2) (disp : BitVec 17) : RoundTrip.Statement (.ptouch a b scale disp) := by
  intro f h hw; cases h
  refine Eq.trans (b := some (.ptouch ({ Fields.base 0x2E 0 0 with a := a, b := b, mod := (scale ++ 0#3 : BitVec 5), imm := disp } : Fields).a ({ Fields.base 0x2E 0 0 with a := a, b := b, mod := (scale ++ 0#3 : BitVec 5), imm := disp } : Fields).b ({ Fields.base 0x2E 0 0 with a := a, b := b, mod := (scale ++ 0#3 : BitVec 5), imm := disp } : Fields).scale ({ Fields.base 0x2E 0 0 with a := a, b := b, mod := (scale ++ 0#3 : BitVec 5), imm := disp } : Fields).imm)) rfl ?_
  simp (disch := omega) only [Fields.base, Fields.ext32, Fields.scope, Fields.scale, Scope.of_code, w32_low, pOf_p5, kOf_k5, v4_v5, bv5_r5, lvlOf_lvl5, SrcWidth.of_code, CacheCfg.of_word, low_part, high_part, low_bit, high_bit, Nat.reduceSub, whole_part, ofBool_bit, bit17_low]
theorem RoundTrip.vadd (m : VMod) (d a b : VIdx) : RoundTrip.Statement (.vadd m d a b) := by
  intro f h hw; cases h
  refine Eq.trans (b := some (.vadd ({ Fields.base 0x40 0 0 with pg := m.pg, mod := m.modBits, d := d, a := a, b := b } : Fields).vmod ({ Fields.base 0x40 0 0 with pg := m.pg, mod := m.modBits, d := d, a := a, b := b } : Fields).d ({ Fields.base 0x40 0 0 with pg := m.pg, mod := m.modBits, d := d, a := a, b := b } : Fields).a ({ Fields.base 0x40 0 0 with pg := m.pg, mod := m.modBits, d := d, a := a, b := b } : Fields).b)) rfl ?_
  rw [Fields.vmod_eq (m := m) rfl rfl]
theorem RoundTrip.vsub (m : VMod) (d a b : VIdx) : RoundTrip.Statement (.vsub m d a b) := by
  intro f h hw; cases h
  refine Eq.trans (b := some (.vsub ({ Fields.base 0x40 0 1 with pg := m.pg, mod := m.modBits, d := d, a := a, b := b } : Fields).vmod ({ Fields.base 0x40 0 1 with pg := m.pg, mod := m.modBits, d := d, a := a, b := b } : Fields).d ({ Fields.base 0x40 0 1 with pg := m.pg, mod := m.modBits, d := d, a := a, b := b } : Fields).a ({ Fields.base 0x40 0 1 with pg := m.pg, mod := m.modBits, d := d, a := a, b := b } : Fields).b)) rfl ?_
  rw [Fields.vmod_eq (m := m) rfl rfl]
theorem RoundTrip.vmul (m : VMod) (d a b : VIdx) : RoundTrip.Statement (.vmul m d a b) := by
  intro f h hw; cases h
  refine Eq.trans (b := some (.vmul ({ Fields.base 0x40 0 2 with pg := m.pg, mod := m.modBits, d := d, a := a, b := b } : Fields).vmod ({ Fields.base 0x40 0 2 with pg := m.pg, mod := m.modBits, d := d, a := a, b := b } : Fields).d ({ Fields.base 0x40 0 2 with pg := m.pg, mod := m.modBits, d := d, a := a, b := b } : Fields).a ({ Fields.base 0x40 0 2 with pg := m.pg, mod := m.modBits, d := d, a := a, b := b } : Fields).b)) rfl ?_
  rw [Fields.vmod_eq (m := m) rfl rfl]
theorem RoundTrip.vdiv (m : VMod) (d a b : VIdx) : RoundTrip.Statement (.vdiv m d a b) := by
  intro f h hw; cases h
  refine Eq.trans (b := some (.vdiv ({ Fields.base 0x40 0 3 with pg := m.pg, mod := m.modBits, d := d, a := a, b := b } : Fields).vmod ({ Fields.base 0x40 0 3 with pg := m.pg, mod := m.modBits, d := d, a := a, b := b } : Fields).d ({ Fields.base 0x40 0 3 with pg := m.pg, mod := m.modBits, d := d, a := a, b := b } : Fields).a ({ Fields.base 0x40 0 3 with pg := m.pg, mod := m.modBits, d := d, a := a, b := b } : Fields).b)) rfl ?_
  rw [Fields.vmod_eq (m := m) rfl rfl]
theorem RoundTrip.vmin (m : VMod) (d a b : VIdx) : RoundTrip.Statement (.vmin m d a b) := by
  intro f h hw; cases h
  refine Eq.trans (b := some (.vmin ({ Fields.base 0x40 0 4 with pg := m.pg, mod := m.modBits, d := d, a := a, b := b } : Fields).vmod ({ Fields.base 0x40 0 4 with pg := m.pg, mod := m.modBits, d := d, a := a, b := b } : Fields).d ({ Fields.base 0x40 0 4 with pg := m.pg, mod := m.modBits, d := d, a := a, b := b } : Fields).a ({ Fields.base 0x40 0 4 with pg := m.pg, mod := m.modBits, d := d, a := a, b := b } : Fields).b)) rfl ?_
  rw [Fields.vmod_eq (m := m) rfl rfl]
theorem RoundTrip.vmax (m : VMod) (d a b : VIdx) : RoundTrip.Statement (.vmax m d a b) := by
  intro f h hw; cases h
  refine Eq.trans (b := some (.vmax ({ Fields.base 0x40 0 5 with pg := m.pg, mod := m.modBits, d := d, a := a, b := b } : Fields).vmod ({ Fields.base 0x40 0 5 with pg := m.pg, mod := m.modBits, d := d, a := a, b := b } : Fields).d ({ Fields.base 0x40 0 5 with pg := m.pg, mod := m.modBits, d := d, a := a, b := b } : Fields).a ({ Fields.base 0x40 0 5 with pg := m.pg, mod := m.modBits, d := d, a := a, b := b } : Fields).b)) rfl ?_
  rw [Fields.vmod_eq (m := m) rfl rfl]
theorem RoundTrip.vand (m : VMod) (d a b : VIdx) : RoundTrip.Statement (.vand m d a b) := by
  intro f h hw; cases h
  refine Eq.trans (b := some (.vand ({ Fields.base 0x40 0 6 with pg := m.pg, mod := m.modBits, d := d, a := a, b := b } : Fields).vmod ({ Fields.base 0x40 0 6 with pg := m.pg, mod := m.modBits, d := d, a := a, b := b } : Fields).d ({ Fields.base 0x40 0 6 with pg := m.pg, mod := m.modBits, d := d, a := a, b := b } : Fields).a ({ Fields.base 0x40 0 6 with pg := m.pg, mod := m.modBits, d := d, a := a, b := b } : Fields).b)) rfl ?_
  rw [Fields.vmod_eq (m := m) rfl rfl]
theorem RoundTrip.vor (m : VMod) (d a b : VIdx) : RoundTrip.Statement (.vor m d a b) := by
  intro f h hw; cases h
  refine Eq.trans (b := some (.vor ({ Fields.base 0x40 0 7 with pg := m.pg, mod := m.modBits, d := d, a := a, b := b } : Fields).vmod ({ Fields.base 0x40 0 7 with pg := m.pg, mod := m.modBits, d := d, a := a, b := b } : Fields).d ({ Fields.base 0x40 0 7 with pg := m.pg, mod := m.modBits, d := d, a := a, b := b } : Fields).a ({ Fields.base 0x40 0 7 with pg := m.pg, mod := m.modBits, d := d, a := a, b := b } : Fields).b)) rfl ?_
  rw [Fields.vmod_eq (m := m) rfl rfl]
theorem RoundTrip.vxor (m : VMod) (d a b : VIdx) : RoundTrip.Statement (.vxor m d a b) := by
  intro f h hw; cases h
  refine Eq.trans (b := some (.vxor ({ Fields.base 0x40 0 8 with pg := m.pg, mod := m.modBits, d := d, a := a, b := b } : Fields).vmod ({ Fields.base 0x40 0 8 with pg := m.pg, mod := m.modBits, d := d, a := a, b := b } : Fields).d ({ Fields.base 0x40 0 8 with pg := m.pg, mod := m.modBits, d := d, a := a, b := b } : Fields).a ({ Fields.base 0x40 0 8 with pg := m.pg, mod := m.modBits, d := d, a := a, b := b } : Fields).b)) rfl ?_
  rw [Fields.vmod_eq (m := m) rfl rfl]
theorem RoundTrip.vshl (m : VMod) (d a b : VIdx) : RoundTrip.Statement (.vshl m d a b) := by
  intro f h hw; cases h
  refine Eq.trans (b := some (.vshl ({ Fields.base 0x40 0 9 with pg := m.pg, mod := m.modBits, d := d, a := a, b := b } : Fields).vmod ({ Fields.base 0x40 0 9 with pg := m.pg, mod := m.modBits, d := d, a := a, b := b } : Fields).d ({ Fields.base 0x40 0 9 with pg := m.pg, mod := m.modBits, d := d, a := a, b := b } : Fields).a ({ Fields.base 0x40 0 9 with pg := m.pg, mod := m.modBits, d := d, a := a, b := b } : Fields).b)) rfl ?_
  rw [Fields.vmod_eq (m := m) rfl rfl]
theorem RoundTrip.vshr (m : VMod) (d a b : VIdx) : RoundTrip.Statement (.vshr m d a b) := by
  intro f h hw; cases h
  refine Eq.trans (b := some (.vshr ({ Fields.base 0x40 0 10 with pg := m.pg, mod := m.modBits, d := d, a := a, b := b } : Fields).vmod ({ Fields.base 0x40 0 10 with pg := m.pg, mod := m.modBits, d := d, a := a, b := b } : Fields).d ({ Fields.base 0x40 0 10 with pg := m.pg, mod := m.modBits, d := d, a := a, b := b } : Fields).a ({ Fields.base 0x40 0 10 with pg := m.pg, mod := m.modBits, d := d, a := a, b := b } : Fields).b)) rfl ?_
  rw [Fields.vmod_eq (m := m) rfl rfl]
theorem RoundTrip.vsar (m : VMod) (d a b : VIdx) : RoundTrip.Statement (.vsar m d a b) := by
  intro f h hw; cases h
  refine Eq.trans (b := some (.vsar ({ Fields.base 0x40 0 11 with pg := m.pg, mod := m.modBits, d := d, a := a, b := b } : Fields).vmod ({ Fields.base 0x40 0 11 with pg := m.pg, mod := m.modBits, d := d, a := a, b := b } : Fields).d ({ Fields.base 0x40 0 11 with pg := m.pg, mod := m.modBits, d := d, a := a, b := b } : Fields).a ({ Fields.base 0x40 0 11 with pg := m.pg, mod := m.modBits, d := d, a := a, b := b } : Fields).b)) rfl ?_
  rw [Fields.vmod_eq (m := m) rfl rfl]
theorem RoundTrip.vabd (m : VMod) (d a b : VIdx) : RoundTrip.Statement (.vabd m d a b) := by
  intro f h hw; cases h
  refine Eq.trans (b := some (.vabd ({ Fields.base 0x40 0 12 with pg := m.pg, mod := m.modBits, d := d, a := a, b := b } : Fields).vmod ({ Fields.base 0x40 0 12 with pg := m.pg, mod := m.modBits, d := d, a := a, b := b } : Fields).d ({ Fields.base 0x40 0 12 with pg := m.pg, mod := m.modBits, d := d, a := a, b := b } : Fields).a ({ Fields.base 0x40 0 12 with pg := m.pg, mod := m.modBits, d := d, a := a, b := b } : Fields).b)) rfl ?_
  rw [Fields.vmod_eq (m := m) rfl rfl]
theorem RoundTrip.vfma (m : VMod) (d a b c : VIdx) : RoundTrip.Statement (.vfma m d a b c) := by
  intro f h hw; cases h
  refine Eq.trans (b := some (.vfma ({ Fields.base 0x41 0 0 with pg := m.pg, mod := m.modBits, d := d, a := a, b := b, c := c } : Fields).vmod ({ Fields.base 0x41 0 0 with pg := m.pg, mod := m.modBits, d := d, a := a, b := b, c := c } : Fields).d ({ Fields.base 0x41 0 0 with pg := m.pg, mod := m.modBits, d := d, a := a, b := b, c := c } : Fields).a ({ Fields.base 0x41 0 0 with pg := m.pg, mod := m.modBits, d := d, a := a, b := b, c := c } : Fields).b ({ Fields.base 0x41 0 0 with pg := m.pg, mod := m.modBits, d := d, a := a, b := b, c := c } : Fields).c)) rfl ?_
  rw [Fields.vmod_eq (m := m) rfl rfl]
theorem RoundTrip.vfms (m : VMod) (d a b c : VIdx) : RoundTrip.Statement (.vfms m d a b c) := by
  intro f h hw; cases h
  refine Eq.trans (b := some (.vfms ({ Fields.base 0x41 0 1 with pg := m.pg, mod := m.modBits, d := d, a := a, b := b, c := c } : Fields).vmod ({ Fields.base 0x41 0 1 with pg := m.pg, mod := m.modBits, d := d, a := a, b := b, c := c } : Fields).d ({ Fields.base 0x41 0 1 with pg := m.pg, mod := m.modBits, d := d, a := a, b := b, c := c } : Fields).a ({ Fields.base 0x41 0 1 with pg := m.pg, mod := m.modBits, d := d, a := a, b := b, c := c } : Fields).b ({ Fields.base 0x41 0 1 with pg := m.pg, mod := m.modBits, d := d, a := a, b := b, c := c } : Fields).c)) rfl ?_
  rw [Fields.vmod_eq (m := m) rfl rfl]
theorem RoundTrip.vfnma (m : VMod) (d a b c : VIdx) : RoundTrip.Statement (.vfnma m d a b c) := by
  intro f h hw; cases h
  refine Eq.trans (b := some (.vfnma ({ Fields.base 0x41 0 2 with pg := m.pg, mod := m.modBits, d := d, a := a, b := b, c := c } : Fields).vmod ({ Fields.base 0x41 0 2 with pg := m.pg, mod := m.modBits, d := d, a := a, b := b, c := c } : Fields).d ({ Fields.base 0x41 0 2 with pg := m.pg, mod := m.modBits, d := d, a := a, b := b, c := c } : Fields).a ({ Fields.base 0x41 0 2 with pg := m.pg, mod := m.modBits, d := d, a := a, b := b, c := c } : Fields).b ({ Fields.base 0x41 0 2 with pg := m.pg, mod := m.modBits, d := d, a := a, b := b, c := c } : Fields).c)) rfl ?_
  rw [Fields.vmod_eq (m := m) rfl rfl]
theorem RoundTrip.vabs (m : VMod) (d a : VIdx) : RoundTrip.Statement (.vabs m d a) := by
  intro f h hw; cases h
  refine Eq.trans (b := some (.vabs ({ Fields.base 0x42 0 0 with pg := m.pg, mod := m.modBits, d := d, a := a } : Fields).vmod ({ Fields.base 0x42 0 0 with pg := m.pg, mod := m.modBits, d := d, a := a } : Fields).d ({ Fields.base 0x42 0 0 with pg := m.pg, mod := m.modBits, d := d, a := a } : Fields).a)) rfl ?_
  rw [Fields.vmod_eq (m := m) rfl rfl]
theorem RoundTrip.vneg (m : VMod) (d a : VIdx) : RoundTrip.Statement (.vneg m d a) := by
  intro f h hw; cases h
  refine Eq.trans (b := some (.vneg ({ Fields.base 0x42 0 1 with pg := m.pg, mod := m.modBits, d := d, a := a } : Fields).vmod ({ Fields.base 0x42 0 1 with pg := m.pg, mod := m.modBits, d := d, a := a } : Fields).d ({ Fields.base 0x42 0 1 with pg := m.pg, mod := m.modBits, d := d, a := a } : Fields).a)) rfl ?_
  rw [Fields.vmod_eq (m := m) rfl rfl]
theorem RoundTrip.vsqrt (m : VMod) (d a : VIdx) : RoundTrip.Statement (.vsqrt m d a) := by
  intro f h hw; cases h
  refine Eq.trans (b := some (.vsqrt ({ Fields.base 0x42 0 2 with pg := m.pg, mod := m.modBits, d := d, a := a } : Fields).vmod ({ Fields.base 0x42 0 2 with pg := m.pg, mod := m.modBits, d := d, a := a } : Fields).d ({ Fields.base 0x42 0 2 with pg := m.pg, mod := m.modBits, d := d, a := a } : Fields).a)) rfl ?_
  rw [Fields.vmod_eq (m := m) rfl rfl]
theorem RoundTrip.vrcp (m : VMod) (d a : VIdx) : RoundTrip.Statement (.vrcp m d a) := by
  intro f h hw; cases h
  refine Eq.trans (b := some (.vrcp ({ Fields.base 0x42 0 3 with pg := m.pg, mod := m.modBits, d := d, a := a } : Fields).vmod ({ Fields.base 0x42 0 3 with pg := m.pg, mod := m.modBits, d := d, a := a } : Fields).d ({ Fields.base 0x42 0 3 with pg := m.pg, mod := m.modBits, d := d, a := a } : Fields).a)) rfl ?_
  rw [Fields.vmod_eq (m := m) rfl rfl]
theorem RoundTrip.vrsq (m : VMod) (d a : VIdx) : RoundTrip.Statement (.vrsq m d a) := by
  intro f h hw; cases h
  refine Eq.trans (b := some (.vrsq ({ Fields.base 0x42 0 4 with pg := m.pg, mod := m.modBits, d := d, a := a } : Fields).vmod ({ Fields.base 0x42 0 4 with pg := m.pg, mod := m.modBits, d := d, a := a } : Fields).d ({ Fields.base 0x42 0 4 with pg := m.pg, mod := m.modBits, d := d, a := a } : Fields).a)) rfl ?_
  rw [Fields.vmod_eq (m := m) rfl rfl]
theorem RoundTrip.vexp2 (m : VMod) (d a : VIdx) : RoundTrip.Statement (.vexp2 m d a) := by
  intro f h hw; cases h
  refine Eq.trans (b := some (.vexp2 ({ Fields.base 0x42 0 5 with pg := m.pg, mod := m.modBits, d := d, a := a } : Fields).vmod ({ Fields.base 0x42 0 5 with pg := m.pg, mod := m.modBits, d := d, a := a } : Fields).d ({ Fields.base 0x42 0 5 with pg := m.pg, mod := m.modBits, d := d, a := a } : Fields).a)) rfl ?_
  rw [Fields.vmod_eq (m := m) rfl rfl]
theorem RoundTrip.vlog2 (m : VMod) (d a : VIdx) : RoundTrip.Statement (.vlog2 m d a) := by
  intro f h hw; cases h
  refine Eq.trans (b := some (.vlog2 ({ Fields.base 0x42 0 6 with pg := m.pg, mod := m.modBits, d := d, a := a } : Fields).vmod ({ Fields.base 0x42 0 6 with pg := m.pg, mod := m.modBits, d := d, a := a } : Fields).d ({ Fields.base 0x42 0 6 with pg := m.pg, mod := m.modBits, d := d, a := a } : Fields).a)) rfl ?_
  rw [Fields.vmod_eq (m := m) rfl rfl]
theorem RoundTrip.vtanh (m : VMod) (d a : VIdx) : RoundTrip.Statement (.vtanh m d a) := by
  intro f h hw; cases h
  refine Eq.trans (b := some (.vtanh ({ Fields.base 0x42 0 7 with pg := m.pg, mod := m.modBits, d := d, a := a } : Fields).vmod ({ Fields.base 0x42 0 7 with pg := m.pg, mod := m.modBits, d := d, a := a } : Fields).d ({ Fields.base 0x42 0 7 with pg := m.pg, mod := m.modBits, d := d, a := a } : Fields).a)) rfl ?_
  rw [Fields.vmod_eq (m := m) rfl rfl]
theorem RoundTrip.vnot (m : VMod) (d a : VIdx) : RoundTrip.Statement (.vnot m d a) := by
  intro f h hw; cases h
  refine Eq.trans (b := some (.vnot ({ Fields.base 0x42 0 8 with pg := m.pg, mod := m.modBits, d := d, a := a } : Fields).vmod ({ Fields.base 0x42 0 8 with pg := m.pg, mod := m.modBits, d := d, a := a } : Fields).d ({ Fields.base 0x42 0 8 with pg := m.pg, mod := m.modBits, d := d, a := a } : Fields).a)) rfl ?_
  rw [Fields.vmod_eq (m := m) rfl rfl]
theorem RoundTrip.vcmpEq (m : VMod) (d : PReg) (a b : VIdx) : RoundTrip.Statement (.vcmpEq m d a b) := by
  intro f h hw; cases h
  refine Eq.trans (b := some (.vcmpEq ({ Fields.base 0x43 0 0 with pg := m.pg, mod := m.modBits, d := (p5 d), a := a, b := b } : Fields).vmod (pOf ({ Fields.base 0x43 0 0 with pg := m.pg, mod := m.modBits, d := (p5 d), a := a, b := b } : Fields).d) ({ Fields.base 0x43 0 0 with pg := m.pg, mod := m.modBits, d := (p5 d), a := a, b := b } : Fields).a ({ Fields.base 0x43 0 0 with pg := m.pg, mod := m.modBits, d := (p5 d), a := a, b := b } : Fields).b)) rfl ?_
  rw [Fields.vmod_eq (m := m) rfl rfl]
  simp (disch := omega) only [Fields.base, Fields.ext32, Fields.scope, Fields.scale, Scope.of_code, w32_low, pOf_p5, kOf_k5, v4_v5, bv5_r5, lvlOf_lvl5, SrcWidth.of_code, CacheCfg.of_word, low_part, high_part, low_bit, high_bit, Nat.reduceSub, whole_part, ofBool_bit, bit17_low]
theorem RoundTrip.vcmpNe (m : VMod) (d : PReg) (a b : VIdx) : RoundTrip.Statement (.vcmpNe m d a b) := by
  intro f h hw; cases h
  refine Eq.trans (b := some (.vcmpNe ({ Fields.base 0x43 0 1 with pg := m.pg, mod := m.modBits, d := (p5 d), a := a, b := b } : Fields).vmod (pOf ({ Fields.base 0x43 0 1 with pg := m.pg, mod := m.modBits, d := (p5 d), a := a, b := b } : Fields).d) ({ Fields.base 0x43 0 1 with pg := m.pg, mod := m.modBits, d := (p5 d), a := a, b := b } : Fields).a ({ Fields.base 0x43 0 1 with pg := m.pg, mod := m.modBits, d := (p5 d), a := a, b := b } : Fields).b)) rfl ?_
  rw [Fields.vmod_eq (m := m) rfl rfl]
  simp (disch := omega) only [Fields.base, Fields.ext32, Fields.scope, Fields.scale, Scope.of_code, w32_low, pOf_p5, kOf_k5, v4_v5, bv5_r5, lvlOf_lvl5, SrcWidth.of_code, CacheCfg.of_word, low_part, high_part, low_bit, high_bit, Nat.reduceSub, whole_part, ofBool_bit, bit17_low]
theorem RoundTrip.vcmpLt (m : VMod) (d : PReg) (a b : VIdx) : RoundTrip.Statement (.vcmpLt m d a b) := by
  intro f h hw; cases h
  refine Eq.trans (b := some (.vcmpLt ({ Fields.base 0x43 0 2 with pg := m.pg, mod := m.modBits, d := (p5 d), a := a, b := b } : Fields).vmod (pOf ({ Fields.base 0x43 0 2 with pg := m.pg, mod := m.modBits, d := (p5 d), a := a, b := b } : Fields).d) ({ Fields.base 0x43 0 2 with pg := m.pg, mod := m.modBits, d := (p5 d), a := a, b := b } : Fields).a ({ Fields.base 0x43 0 2 with pg := m.pg, mod := m.modBits, d := (p5 d), a := a, b := b } : Fields).b)) rfl ?_
  rw [Fields.vmod_eq (m := m) rfl rfl]
  simp (disch := omega) only [Fields.base, Fields.ext32, Fields.scope, Fields.scale, Scope.of_code, w32_low, pOf_p5, kOf_k5, v4_v5, bv5_r5, lvlOf_lvl5, SrcWidth.of_code, CacheCfg.of_word, low_part, high_part, low_bit, high_bit, Nat.reduceSub, whole_part, ofBool_bit, bit17_low]
theorem RoundTrip.vcmpLe (m : VMod) (d : PReg) (a b : VIdx) : RoundTrip.Statement (.vcmpLe m d a b) := by
  intro f h hw; cases h
  refine Eq.trans (b := some (.vcmpLe ({ Fields.base 0x43 0 3 with pg := m.pg, mod := m.modBits, d := (p5 d), a := a, b := b } : Fields).vmod (pOf ({ Fields.base 0x43 0 3 with pg := m.pg, mod := m.modBits, d := (p5 d), a := a, b := b } : Fields).d) ({ Fields.base 0x43 0 3 with pg := m.pg, mod := m.modBits, d := (p5 d), a := a, b := b } : Fields).a ({ Fields.base 0x43 0 3 with pg := m.pg, mod := m.modBits, d := (p5 d), a := a, b := b } : Fields).b)) rfl ?_
  rw [Fields.vmod_eq (m := m) rfl rfl]
  simp (disch := omega) only [Fields.base, Fields.ext32, Fields.scope, Fields.scale, Scope.of_code, w32_low, pOf_p5, kOf_k5, v4_v5, bv5_r5, lvlOf_lvl5, SrcWidth.of_code, CacheCfg.of_word, low_part, high_part, low_bit, high_bit, Nat.reduceSub, whole_part, ofBool_bit, bit17_low]
theorem RoundTrip.vcmpGt (m : VMod) (d : PReg) (a b : VIdx) : RoundTrip.Statement (.vcmpGt m d a b) := by
  intro f h hw; cases h
  refine Eq.trans (b := some (.vcmpGt ({ Fields.base 0x43 0 4 with pg := m.pg, mod := m.modBits, d := (p5 d), a := a, b := b } : Fields).vmod (pOf ({ Fields.base 0x43 0 4 with pg := m.pg, mod := m.modBits, d := (p5 d), a := a, b := b } : Fields).d) ({ Fields.base 0x43 0 4 with pg := m.pg, mod := m.modBits, d := (p5 d), a := a, b := b } : Fields).a ({ Fields.base 0x43 0 4 with pg := m.pg, mod := m.modBits, d := (p5 d), a := a, b := b } : Fields).b)) rfl ?_
  rw [Fields.vmod_eq (m := m) rfl rfl]
  simp (disch := omega) only [Fields.base, Fields.ext32, Fields.scope, Fields.scale, Scope.of_code, w32_low, pOf_p5, kOf_k5, v4_v5, bv5_r5, lvlOf_lvl5, SrcWidth.of_code, CacheCfg.of_word, low_part, high_part, low_bit, high_bit, Nat.reduceSub, whole_part, ofBool_bit, bit17_low]
theorem RoundTrip.vcmpGe (m : VMod) (d : PReg) (a b : VIdx) : RoundTrip.Statement (.vcmpGe m d a b) := by
  intro f h hw; cases h
  refine Eq.trans (b := some (.vcmpGe ({ Fields.base 0x43 0 5 with pg := m.pg, mod := m.modBits, d := (p5 d), a := a, b := b } : Fields).vmod (pOf ({ Fields.base 0x43 0 5 with pg := m.pg, mod := m.modBits, d := (p5 d), a := a, b := b } : Fields).d) ({ Fields.base 0x43 0 5 with pg := m.pg, mod := m.modBits, d := (p5 d), a := a, b := b } : Fields).a ({ Fields.base 0x43 0 5 with pg := m.pg, mod := m.modBits, d := (p5 d), a := a, b := b } : Fields).b)) rfl ?_
  rw [Fields.vmod_eq (m := m) rfl rfl]
  simp (disch := omega) only [Fields.base, Fields.ext32, Fields.scope, Fields.scale, Scope.of_code, w32_low, pOf_p5, kOf_k5, v4_v5, bv5_r5, lvlOf_lvl5, SrcWidth.of_code, CacheCfg.of_word, low_part, high_part, low_bit, high_bit, Nat.reduceSub, whole_part, ofBool_bit, bit17_low]
theorem RoundTrip.vsel (m : VMod) (d a b : VIdx) (c : PReg) : RoundTrip.Statement (.vsel m d a b c) := by
  intro f h hw; cases h
  refine Eq.trans (b := some (.vsel ({ Fields.base 0x44 0 0 with pg := m.pg, mod := m.modBits, d := d, a := a, b := b, c := (p5 c) } : Fields).vmod ({ Fields.base 0x44 0 0 with pg := m.pg, mod := m.modBits, d := d, a := a, b := b, c := (p5 c) } : Fields).d ({ Fields.base 0x44 0 0 with pg := m.pg, mod := m.modBits, d := d, a := a, b := b, c := (p5 c) } : Fields).a ({ Fields.base 0x44 0 0 with pg := m.pg, mod := m.modBits, d := d, a := a, b := b, c := (p5 c) } : Fields).b (pOf ({ Fields.base 0x44 0 0 with pg := m.pg, mod := m.modBits, d := d, a := a, b := b, c := (p5 c) } : Fields).c))) rfl ?_
  rw [Fields.vmod_eq (m := m) rfl rfl]
  simp (disch := omega) only [Fields.base, Fields.ext32, Fields.scope, Fields.scale, Scope.of_code, w32_low, pOf_p5, kOf_k5, v4_v5, bv5_r5, lvlOf_lvl5, SrcWidth.of_code, CacheCfg.of_word, low_part, high_part, low_bit, high_bit, Nat.reduceSub, whole_part, ofBool_bit, bit17_low]
theorem RoundTrip.vcvt (m : VMod) (tag : BitVec 5) (d a : VIdx) : RoundTrip.Statement (.vcvt m tag d a) := by
  intro f h hw; cases h
  refine Eq.trans (b := some (.vcvt ({ Fields.base 0x45 0 (0#3 ++ tag : BitVec 8) with pg := m.pg, mod := m.modBits, d := d, a := a } : Fields).vmod (({ Fields.base 0x45 0 (0#3 ++ tag : BitVec 8) with pg := m.pg, mod := m.modBits, d := d, a := a } : Fields).minor.extractLsb' 0 5) ({ Fields.base 0x45 0 (0#3 ++ tag : BitVec 8) with pg := m.pg, mod := m.modBits, d := d, a := a } : Fields).d ({ Fields.base 0x45 0 (0#3 ++ tag : BitVec 8) with pg := m.pg, mod := m.modBits, d := d, a := a } : Fields).a)) rfl ?_
  rw [Fields.vmod_eq (m := m) rfl rfl]
  simp (disch := omega) only [Fields.base, Fields.ext32, Fields.scope, Fields.scale, Scope.of_code, w32_low, pOf_p5, kOf_k5, v4_v5, bv5_r5, lvlOf_lvl5, SrcWidth.of_code, CacheCfg.of_word, low_part, high_part, low_bit, high_bit, Nat.reduceSub, whole_part, ofBool_bit, bit17_low]
theorem RoundTrip.vbfpn (rnd : BitVec 3) (d a : VIdx) (n : BitVec 4) (b : BitVec 3) : RoundTrip.Statement (.vbfpn rnd d a n b) := by
  intro f h hw; cases h
  refine Eq.trans (b := some (.vbfpn (({ Fields.base 0x46 0 0 with mod := (0#1 ++ rnd ++ 0#1 : BitVec 5), d := d, a := a, imm := (0#10 ++ b ++ n : BitVec 17) } : Fields).mod.extractLsb' 1 3) ({ Fields.base 0x46 0 0 with mod := (0#1 ++ rnd ++ 0#1 : BitVec 5), d := d, a := a, imm := (0#10 ++ b ++ n : BitVec 17) } : Fields).d ({ Fields.base 0x46 0 0 with mod := (0#1 ++ rnd ++ 0#1 : BitVec 5), d := d, a := a, imm := (0#10 ++ b ++ n : BitVec 17) } : Fields).a (({ Fields.base 0x46 0 0 with mod := (0#1 ++ rnd ++ 0#1 : BitVec 5), d := d, a := a, imm := (0#10 ++ b ++ n : BitVec 17) } : Fields).imm.extractLsb' 0 4) (({ Fields.base 0x46 0 0 with mod := (0#1 ++ rnd ++ 0#1 : BitVec 5), d := d, a := a, imm := (0#10 ++ b ++ n : BitVec 17) } : Fields).imm.extractLsb' 4 3))) rfl ?_
  simp (disch := omega) only [Fields.base, Fields.ext32, Fields.scope, Fields.scale, Scope.of_code, w32_low, pOf_p5, kOf_k5, v4_v5, bv5_r5, lvlOf_lvl5, SrcWidth.of_code, CacheCfg.of_word, low_part, high_part, low_bit, high_bit, Nat.reduceSub, whole_part, ofBool_bit, bit17_low]
theorem RoundTrip.vbfpx (d a : VIdx) (b : BitVec 3) (h : Bool) : RoundTrip.Statement (.vbfpx d a b h) := by
  intro f h hw; cases h
  refine Eq.trans (b := some (.vbfpx ({ Fields.base 0x46 0 1 with d := d, a := a, imm := (0#9 ++ BitVec.ofBool h ++ b ++ 0#4 : BitVec 17) } : Fields).d ({ Fields.base 0x46 0 1 with d := d, a := a, imm := (0#9 ++ BitVec.ofBool h ++ b ++ 0#4 : BitVec 17) } : Fields).a (({ Fields.base 0x46 0 1 with d := d, a := a, imm := (0#9 ++ BitVec.ofBool h ++ b ++ 0#4 : BitVec 17) } : Fields).imm.extractLsb' 4 3) (({ Fields.base 0x46 0 1 with d := d, a := a, imm := (0#9 ++ BitVec.ofBool h ++ b ++ 0#4 : BitVec 17) } : Fields).imm.getLsbD 7))) rfl ?_
  simp (disch := omega) only [Fields.base, Fields.ext32, Fields.scope, Fields.scale, Scope.of_code, w32_low, pOf_p5, kOf_k5, v4_v5, bv5_r5, lvlOf_lvl5, SrcWidth.of_code, CacheCfg.of_word, low_part, high_part, low_bit, high_bit, Nat.reduceSub, whole_part, ofBool_bit, bit17_low]
theorem RoundTrip.vbfpi (d a : VIdx) (b : BitVec 3) : RoundTrip.Statement (.vbfpi d a b) := by
  intro f h hw; cases h
  refine Eq.trans (b := some (.vbfpi ({ Fields.base 0x46 0 2 with d := d, a := a, imm := (0#10 ++ b ++ 0#4 : BitVec 17) } : Fields).d ({ Fields.base 0x46 0 2 with d := d, a := a, imm := (0#10 ++ b ++ 0#4 : BitVec 17) } : Fields).a (({ Fields.base 0x46 0 2 with d := d, a := a, imm := (0#10 ++ b ++ 0#4 : BitVec 17) } : Fields).imm.extractLsb' 4 3))) rfl ?_
  simp (disch := omega) only [Fields.base, Fields.ext32, Fields.scope, Fields.scale, Scope.of_code, w32_low, pOf_p5, kOf_k5, v4_v5, bv5_r5, lvlOf_lvl5, SrcWidth.of_code, CacheCfg.of_word, low_part, high_part, low_bit, high_bit, Nat.reduceSub, whole_part, ofBool_bit, bit17_low]
theorem RoundTrip.vtag (tag : BitVec 5) (d a : VIdx) : RoundTrip.Statement (.vtag tag d a) := by
  intro f h hw; cases h
  refine Eq.trans (b := some (.vtag (({ Fields.base 0x47 0 (0#3 ++ tag : BitVec 8) with d := d, a := a } : Fields).minor.extractLsb' 0 5) ({ Fields.base 0x47 0 (0#3 ++ tag : BitVec 8) with d := d, a := a } : Fields).d ({ Fields.base 0x47 0 (0#3 ++ tag : BitVec 8) with d := d, a := a } : Fields).a)) rfl ?_
  simp (disch := omega) only [Fields.base, Fields.ext32, Fields.scope, Fields.scale, Scope.of_code, w32_low, pOf_p5, kOf_k5, v4_v5, bv5_r5, lvlOf_lvl5, SrcWidth.of_code, CacheCfg.of_word, low_part, high_part, low_bit, high_bit, Nat.reduceSub, whole_part, ofBool_bit, bit17_low]
theorem RoundTrip.vmov (d a : VIdx) : RoundTrip.Statement (.vmov d a) := by intro f h _; cases h; rfl
theorem RoundTrip.vsplat (m : VMod) (tag : BitVec 5) (d : VIdx) (a : GReg) : RoundTrip.Statement (.vsplat m tag d a) := by
  intro f h hw; cases h
  refine Eq.trans (b := some (.vsplat ({ Fields.base 0x48 0 1 with pg := m.pg, mod := m.modBits, d := d, a := a, imm := (0#12 ++ tag : BitVec 17) } : Fields).vmod (({ Fields.base 0x48 0 1 with pg := m.pg, mod := m.modBits, d := d, a := a, imm := (0#12 ++ tag : BitVec 17) } : Fields).imm.extractLsb' 0 5) ({ Fields.base 0x48 0 1 with pg := m.pg, mod := m.modBits, d := d, a := a, imm := (0#12 ++ tag : BitVec 17) } : Fields).d ({ Fields.base 0x48 0 1 with pg := m.pg, mod := m.modBits, d := d, a := a, imm := (0#12 ++ tag : BitVec 17) } : Fields).a)) rfl ?_
  rw [Fields.vmod_eq (m := m) rfl rfl]
  simp (disch := omega) only [Fields.base, Fields.ext32, Fields.scope, Fields.scale, Scope.of_code, w32_low, pOf_p5, kOf_k5, v4_v5, bv5_r5, lvlOf_lvl5, SrcWidth.of_code, CacheCfg.of_word, low_part, high_part, low_bit, high_bit, Nat.reduceSub, whole_part, ofBool_bit, bit17_low]
theorem RoundTrip.vext (d : GReg) (a : VIdx) (lane : BitVec 6) : RoundTrip.Statement (.vext d a lane) := by
  intro f h hw; cases h
  refine Eq.trans (b := some (.vext ({ Fields.base 0x49 0 0 with d := d, a := a, imm := (0#11 ++ lane : BitVec 17) } : Fields).d ({ Fields.base 0x49 0 0 with d := d, a := a, imm := (0#11 ++ lane : BitVec 17) } : Fields).a (({ Fields.base 0x49 0 0 with d := d, a := a, imm := (0#11 ++ lane : BitVec 17) } : Fields).imm.extractLsb' 0 6))) rfl ?_
  simp (disch := omega) only [Fields.base, Fields.ext32, Fields.scope, Fields.scale, Scope.of_code, w32_low, pOf_p5, kOf_k5, v4_v5, bv5_r5, lvlOf_lvl5, SrcWidth.of_code, CacheCfg.of_word, low_part, high_part, low_bit, high_bit, Nat.reduceSub, whole_part, ofBool_bit, bit17_low]
theorem RoundTrip.vins (d : VIdx) (a : GReg) (lane : BitVec 6) : RoundTrip.Statement (.vins d a lane) := by
  intro f h hw; cases h
  refine Eq.trans (b := some (.vins ({ Fields.base 0x49 0 1 with d := d, a := a, imm := (0#11 ++ lane : BitVec 17) } : Fields).d ({ Fields.base 0x49 0 1 with d := d, a := a, imm := (0#11 ++ lane : BitVec 17) } : Fields).a (({ Fields.base 0x49 0 1 with d := d, a := a, imm := (0#11 ++ lane : BitVec 17) } : Fields).imm.extractLsb' 0 6))) rfl ?_
  simp (disch := omega) only [Fields.base, Fields.ext32, Fields.scope, Fields.scale, Scope.of_code, w32_low, pOf_p5, kOf_k5, v4_v5, bv5_r5, lvlOf_lvl5, SrcWidth.of_code, CacheCfg.of_word, low_part, high_part, low_bit, high_bit, Nat.reduceSub, whole_part, ofBool_bit, bit17_low]
theorem RoundTrip.vperm (m : VMod) (d a b : VIdx) : RoundTrip.Statement (.vperm m d a b) := by
  intro f h hw; cases h
  refine Eq.trans (b := some (.vperm ({ Fields.base 0x4A 0 0 with pg := m.pg, mod := m.modBits, d := d, a := a, b := b } : Fields).vmod ({ Fields.base 0x4A 0 0 with pg := m.pg, mod := m.modBits, d := d, a := a, b := b } : Fields).d ({ Fields.base 0x4A 0 0 with pg := m.pg, mod := m.modBits, d := d, a := a, b := b } : Fields).a ({ Fields.base 0x4A 0 0 with pg := m.pg, mod := m.modBits, d := d, a := a, b := b } : Fields).b)) rfl ?_
  rw [Fields.vmod_eq (m := m) rfl rfl]
theorem RoundTrip.vslide (m : VMod) (d a : VIdx) (k : BitVec 17) : RoundTrip.Statement (.vslide m d a k) := by
  intro f h hw; cases h
  refine Eq.trans (b := some (.vslide ({ Fields.base 0x4B 0 0 with pg := m.pg, mod := m.modBits, d := d, a := a, imm := k } : Fields).vmod ({ Fields.base 0x4B 0 0 with pg := m.pg, mod := m.modBits, d := d, a := a, imm := k } : Fields).d ({ Fields.base 0x4B 0 0 with pg := m.pg, mod := m.modBits, d := d, a := a, imm := k } : Fields).a ({ Fields.base 0x4B 0 0 with pg := m.pg, mod := m.modBits, d := d, a := a, imm := k } : Fields).imm)) rfl ?_
  rw [Fields.vmod_eq (m := m) rfl rfl]
theorem RoundTrip.vrot (m : VMod) (d a : VIdx) (k : BitVec 17) : RoundTrip.Statement (.vrot m d a k) := by
  intro f h hw; cases h
  refine Eq.trans (b := some (.vrot ({ Fields.base 0x4B 0 1 with pg := m.pg, mod := m.modBits, d := d, a := a, imm := k } : Fields).vmod ({ Fields.base 0x4B 0 1 with pg := m.pg, mod := m.modBits, d := d, a := a, imm := k } : Fields).d ({ Fields.base 0x4B 0 1 with pg := m.pg, mod := m.modBits, d := d, a := a, imm := k } : Fields).a ({ Fields.base 0x4B 0 1 with pg := m.pg, mod := m.modBits, d := d, a := a, imm := k } : Fields).imm)) rfl ?_
  rw [Fields.vmod_eq (m := m) rfl rfl]
theorem RoundTrip.vredAdd (m : VMod) (d a : VIdx) : RoundTrip.Statement (.vredAdd m d a) := by
  intro f h hw; cases h
  refine Eq.trans (b := some (.vredAdd ({ Fields.base 0x4C 0 0 with pg := m.pg, mod := m.modBits, d := d, a := a } : Fields).vmod ({ Fields.base 0x4C 0 0 with pg := m.pg, mod := m.modBits, d := d, a := a } : Fields).d ({ Fields.base 0x4C 0 0 with pg := m.pg, mod := m.modBits, d := d, a := a } : Fields).a)) rfl ?_
  rw [Fields.vmod_eq (m := m) rfl rfl]
theorem RoundTrip.vredMin (m : VMod) (d a : VIdx) : RoundTrip.Statement (.vredMin m d a) := by
  intro f h hw; cases h
  refine Eq.trans (b := some (.vredMin ({ Fields.base 0x4C 0 1 with pg := m.pg, mod := m.modBits, d := d, a := a } : Fields).vmod ({ Fields.base 0x4C 0 1 with pg := m.pg, mod := m.modBits, d := d, a := a } : Fields).d ({ Fields.base 0x4C 0 1 with pg := m.pg, mod := m.modBits, d := d, a := a } : Fields).a)) rfl ?_
  rw [Fields.vmod_eq (m := m) rfl rfl]
theorem RoundTrip.vredMax (m : VMod) (d a : VIdx) : RoundTrip.Statement (.vredMax m d a) := by
  intro f h hw; cases h
  refine Eq.trans (b := some (.vredMax ({ Fields.base 0x4C 0 2 with pg := m.pg, mod := m.modBits, d := d, a := a } : Fields).vmod ({ Fields.base 0x4C 0 2 with pg := m.pg, mod := m.modBits, d := d, a := a } : Fields).d ({ Fields.base 0x4C 0 2 with pg := m.pg, mod := m.modBits, d := d, a := a } : Fields).a)) rfl ?_
  rw [Fields.vmod_eq (m := m) rfl rfl]
theorem RoundTrip.vredAnd (m : VMod) (d a : VIdx) : RoundTrip.Statement (.vredAnd m d a) := by
  intro f h hw; cases h
  refine Eq.trans (b := some (.vredAnd ({ Fields.base 0x4C 0 3 with pg := m.pg, mod := m.modBits, d := d, a := a } : Fields).vmod ({ Fields.base 0x4C 0 3 with pg := m.pg, mod := m.modBits, d := d, a := a } : Fields).d ({ Fields.base 0x4C 0 3 with pg := m.pg, mod := m.modBits, d := d, a := a } : Fields).a)) rfl ?_
  rw [Fields.vmod_eq (m := m) rfl rfl]
theorem RoundTrip.vredOr (m : VMod) (d a : VIdx) : RoundTrip.Statement (.vredOr m d a) := by
  intro f h hw; cases h
  refine Eq.trans (b := some (.vredOr ({ Fields.base 0x4C 0 4 with pg := m.pg, mod := m.modBits, d := d, a := a } : Fields).vmod ({ Fields.base 0x4C 0 4 with pg := m.pg, mod := m.modBits, d := d, a := a } : Fields).d ({ Fields.base 0x4C 0 4 with pg := m.pg, mod := m.modBits, d := d, a := a } : Fields).a)) rfl ?_
  rw [Fields.vmod_eq (m := m) rfl rfl]
theorem RoundTrip.vredXor (m : VMod) (d a : VIdx) : RoundTrip.Statement (.vredXor m d a) := by
  intro f h hw; cases h
  refine Eq.trans (b := some (.vredXor ({ Fields.base 0x4C 0 5 with pg := m.pg, mod := m.modBits, d := d, a := a } : Fields).vmod ({ Fields.base 0x4C 0 5 with pg := m.pg, mod := m.modBits, d := d, a := a } : Fields).d ({ Fields.base 0x4C 0 5 with pg := m.pg, mod := m.modBits, d := d, a := a } : Fields).a)) rfl ?_
  rw [Fields.vmod_eq (m := m) rfl rfl]
theorem RoundTrip.vscanAdd (m : VMod) (d a : VIdx) : RoundTrip.Statement (.vscanAdd m d a) := by
  intro f h hw; cases h
  refine Eq.trans (b := some (.vscanAdd ({ Fields.base 0x4D 0 0 with pg := m.pg, mod := m.modBits, d := d, a := a } : Fields).vmod ({ Fields.base 0x4D 0 0 with pg := m.pg, mod := m.modBits, d := d, a := a } : Fields).d ({ Fields.base 0x4D 0 0 with pg := m.pg, mod := m.modBits, d := d, a := a } : Fields).a)) rfl ?_
  rw [Fields.vmod_eq (m := m) rfl rfl]
theorem RoundTrip.vscanMin (m : VMod) (d a : VIdx) : RoundTrip.Statement (.vscanMin m d a) := by
  intro f h hw; cases h
  refine Eq.trans (b := some (.vscanMin ({ Fields.base 0x4D 0 1 with pg := m.pg, mod := m.modBits, d := d, a := a } : Fields).vmod ({ Fields.base 0x4D 0 1 with pg := m.pg, mod := m.modBits, d := d, a := a } : Fields).d ({ Fields.base 0x4D 0 1 with pg := m.pg, mod := m.modBits, d := d, a := a } : Fields).a)) rfl ?_
  rw [Fields.vmod_eq (m := m) rfl rfl]
theorem RoundTrip.vscanMax (m : VMod) (d a : VIdx) : RoundTrip.Statement (.vscanMax m d a) := by
  intro f h hw; cases h
  refine Eq.trans (b := some (.vscanMax ({ Fields.base 0x4D 0 2 with pg := m.pg, mod := m.modBits, d := d, a := a } : Fields).vmod ({ Fields.base 0x4D 0 2 with pg := m.pg, mod := m.modBits, d := d, a := a } : Fields).d ({ Fields.base 0x4D 0 2 with pg := m.pg, mod := m.modBits, d := d, a := a } : Fields).a)) rfl ?_
  rw [Fields.vmod_eq (m := m) rfl rfl]
theorem RoundTrip.vcompress (d a : VIdx) (c : PReg) : RoundTrip.Statement (.vcompress d a c) := by
  intro f h hw; cases h
  refine Eq.trans (b := some (.vcompress ({ Fields.base 0x4E 0 0 with d := d, a := a, c := (p5 c) } : Fields).d ({ Fields.base 0x4E 0 0 with d := d, a := a, c := (p5 c) } : Fields).a (pOf ({ Fields.base 0x4E 0 0 with d := d, a := a, c := (p5 c) } : Fields).c))) rfl ?_
  simp (disch := omega) only [Fields.base, Fields.ext32, Fields.scope, Fields.scale, Scope.of_code, w32_low, pOf_p5, kOf_k5, v4_v5, bv5_r5, lvlOf_lvl5, SrcWidth.of_code, CacheCfg.of_word, low_part, high_part, low_bit, high_bit, Nat.reduceSub, whole_part, ofBool_bit, bit17_low]
theorem RoundTrip.pand (d a b : PReg) : RoundTrip.Statement (.pand d a b) := by
  intro f h hw; cases h
  refine Eq.trans (b := some (.pand (pOf ({ Fields.base 0x4F 0 0 with d := (p5 d), a := (p5 a), b := (p5 b) } : Fields).d) (pOf ({ Fields.base 0x4F 0 0 with d := (p5 d), a := (p5 a), b := (p5 b) } : Fields).a) (pOf ({ Fields.base 0x4F 0 0 with d := (p5 d), a := (p5 a), b := (p5 b) } : Fields).b))) rfl ?_
  simp (disch := omega) only [Fields.base, Fields.ext32, Fields.scope, Fields.scale, Scope.of_code, w32_low, pOf_p5, kOf_k5, v4_v5, bv5_r5, lvlOf_lvl5, SrcWidth.of_code, CacheCfg.of_word, low_part, high_part, low_bit, high_bit, Nat.reduceSub, whole_part, ofBool_bit, bit17_low]
theorem RoundTrip.por (d a b : PReg) : RoundTrip.Statement (.por d a b) := by
  intro f h hw; cases h
  refine Eq.trans (b := some (.por (pOf ({ Fields.base 0x4F 0 1 with d := (p5 d), a := (p5 a), b := (p5 b) } : Fields).d) (pOf ({ Fields.base 0x4F 0 1 with d := (p5 d), a := (p5 a), b := (p5 b) } : Fields).a) (pOf ({ Fields.base 0x4F 0 1 with d := (p5 d), a := (p5 a), b := (p5 b) } : Fields).b))) rfl ?_
  simp (disch := omega) only [Fields.base, Fields.ext32, Fields.scope, Fields.scale, Scope.of_code, w32_low, pOf_p5, kOf_k5, v4_v5, bv5_r5, lvlOf_lvl5, SrcWidth.of_code, CacheCfg.of_word, low_part, high_part, low_bit, high_bit, Nat.reduceSub, whole_part, ofBool_bit, bit17_low]
theorem RoundTrip.pxor (d a b : PReg) : RoundTrip.Statement (.pxor d a b) := by
  intro f h hw; cases h
  refine Eq.trans (b := some (.pxor (pOf ({ Fields.base 0x4F 0 2 with d := (p5 d), a := (p5 a), b := (p5 b) } : Fields).d) (pOf ({ Fields.base 0x4F 0 2 with d := (p5 d), a := (p5 a), b := (p5 b) } : Fields).a) (pOf ({ Fields.base 0x4F 0 2 with d := (p5 d), a := (p5 a), b := (p5 b) } : Fields).b))) rfl ?_
  simp (disch := omega) only [Fields.base, Fields.ext32, Fields.scope, Fields.scale, Scope.of_code, w32_low, pOf_p5, kOf_k5, v4_v5, bv5_r5, lvlOf_lvl5, SrcWidth.of_code, CacheCfg.of_word, low_part, high_part, low_bit, high_bit, Nat.reduceSub, whole_part, ofBool_bit, bit17_low]
theorem RoundTrip.pnot (d a : PReg) : RoundTrip.Statement (.pnot d a) := by
  intro f h hw; cases h
  refine Eq.trans (b := some (.pnot (pOf ({ Fields.base 0x4F 0 3 with d := (p5 d), a := (p5 a) } : Fields).d) (pOf ({ Fields.base 0x4F 0 3 with d := (p5 d), a := (p5 a) } : Fields).a))) rfl ?_
  simp (disch := omega) only [Fields.base, Fields.ext32, Fields.scope, Fields.scale, Scope.of_code, w32_low, pOf_p5, kOf_k5, v4_v5, bv5_r5, lvlOf_lvl5, SrcWidth.of_code, CacheCfg.of_word, low_part, high_part, low_bit, high_bit, Nat.reduceSub, whole_part, ofBool_bit, bit17_low]
theorem RoundTrip.pset (d : PReg) (a : GReg) : RoundTrip.Statement (.pset d a) := by
  intro f h hw; cases h
  refine Eq.trans (b := some (.pset (pOf ({ Fields.base 0x4F 0 4 with d := (p5 d), a := a } : Fields).d) ({ Fields.base 0x4F 0 4 with d := (p5 d), a := a } : Fields).a)) rfl ?_
  simp (disch := omega) only [Fields.base, Fields.ext32, Fields.scope, Fields.scale, Scope.of_code, w32_low, pOf_p5, kOf_k5, v4_v5, bv5_r5, lvlOf_lvl5, SrcWidth.of_code, CacheCfg.of_word, low_part, high_part, low_bit, high_bit, Nat.reduceSub, whole_part, ofBool_bit, bit17_low]
theorem RoundTrip.pcnt (d : GReg) (a : PReg) : RoundTrip.Statement (.pcnt d a) := by
  intro f h hw; cases h
  refine Eq.trans (b := some (.pcnt ({ Fields.base 0x4F 0 5 with d := d, a := (p5 a) } : Fields).d (pOf ({ Fields.base 0x4F 0 5 with d := d, a := (p5 a) } : Fields).a))) rfl ?_
  simp (disch := omega) only [Fields.base, Fields.ext32, Fields.scope, Fields.scale, Scope.of_code, w32_low, pOf_p5, kOf_k5, v4_v5, bv5_r5, lvlOf_lvl5, SrcWidth.of_code, CacheCfg.of_word, low_part, high_part, low_bit, high_bit, Nat.reduceSub, whole_part, ofBool_bit, bit17_low]
theorem RoundTrip.pfirst (d : GReg) (a : PReg) : RoundTrip.Statement (.pfirst d a) := by
  intro f h hw; cases h
  refine Eq.trans (b := some (.pfirst ({ Fields.base 0x4F 0 6 with d := d, a := (p5 a) } : Fields).d (pOf ({ Fields.base 0x4F 0 6 with d := d, a := (p5 a) } : Fields).a))) rfl ?_
  simp (disch := omega) only [Fields.base, Fields.ext32, Fields.scope, Fields.scale, Scope.of_code, w32_low, pOf_p5, kOf_k5, v4_v5, bv5_r5, lvlOf_lvl5, SrcWidth.of_code, CacheCfg.of_word, low_part, high_part, low_bit, high_bit, Nat.reduceSub, whole_part, ofBool_bit, bit17_low]
theorem RoundTrip.vld (m : VMemArgs) (b : GReg) (tag : BitVec 5) : RoundTrip.Statement (.vld m b tag) := by
  intro f h hw; cases h
  refine Eq.trans (b := some (.vld ({ Fields.base 0x50 0 m.minorBits with pg := m.m.pg, d := m.d, a := m.a, mod := m.m.modBits, imm := m.immBits, b := b, c := (r5 tag) } : Fields).vmem ({ Fields.base 0x50 0 m.minorBits with pg := m.m.pg, d := m.d, a := m.a, mod := m.m.modBits, imm := m.immBits, b := b, c := (r5 tag) } : Fields).b (bv5 ({ Fields.base 0x50 0 m.minorBits with pg := m.m.pg, d := m.d, a := m.a, mod := m.m.modBits, imm := m.immBits, b := b, c := (r5 tag) } : Fields).c))) rfl ?_
  rw [Fields.vmem_eq (m := m) rfl rfl rfl rfl rfl rfl]
  simp (disch := omega) only [Fields.base, Fields.ext32, Fields.scope, Fields.scale, Scope.of_code, w32_low, pOf_p5, kOf_k5, v4_v5, bv5_r5, lvlOf_lvl5, SrcWidth.of_code, CacheCfg.of_word, low_part, high_part, low_bit, high_bit, Nat.reduceSub, whole_part, ofBool_bit, bit17_low]
theorem RoundTrip.vst (m : VMemArgs) (b : GReg) : RoundTrip.Statement (.vst m b) := by
  intro f h hw; cases h
  refine Eq.trans (b := some (.vst ({ Fields.base 0x51 0 m.minorBits with pg := m.m.pg, d := m.d, a := m.a, mod := m.m.modBits, imm := m.immBits, b := b } : Fields).vmem ({ Fields.base 0x51 0 m.minorBits with pg := m.m.pg, d := m.d, a := m.a, mod := m.m.modBits, imm := m.immBits, b := b } : Fields).b)) rfl ?_
  rw [Fields.vmem_eq (m := m) rfl rfl rfl rfl rfl rfl]
theorem RoundTrip.vldw (m : VMemArgs) (b : GReg) (tag : BitVec 5) : RoundTrip.Statement (.vldw m b tag) := by
  intro f h hw; cases h
  refine Eq.trans (b := some (.vldw ({ Fields.base 0x52 0 m.minorBits with pg := m.m.pg, d := m.d, a := m.a, mod := m.m.modBits, imm := m.immBits, b := b, c := (r5 tag) } : Fields).vmem ({ Fields.base 0x52 0 m.minorBits with pg := m.m.pg, d := m.d, a := m.a, mod := m.m.modBits, imm := m.immBits, b := b, c := (r5 tag) } : Fields).b (bv5 ({ Fields.base 0x52 0 m.minorBits with pg := m.m.pg, d := m.d, a := m.a, mod := m.m.modBits, imm := m.immBits, b := b, c := (r5 tag) } : Fields).c))) rfl ?_
  rw [Fields.vmem_eq (m := m) rfl rfl rfl rfl rfl rfl]
  simp (disch := omega) only [Fields.base, Fields.ext32, Fields.scope, Fields.scale, Scope.of_code, w32_low, pOf_p5, kOf_k5, v4_v5, bv5_r5, lvlOf_lvl5, SrcWidth.of_code, CacheCfg.of_word, low_part, high_part, low_bit, high_bit, Nat.reduceSub, whole_part, ofBool_bit, bit17_low]
theorem RoundTrip.vgather (m : VMemArgs) (b : VIdx) (tag : BitVec 5) : RoundTrip.Statement (.vgather m b tag) := by
  intro f h hw; cases h
  refine Eq.trans (b := some (.vgather ({ Fields.base 0x53 0 m.minorBits with pg := m.m.pg, d := m.d, a := m.a, mod := m.m.modBits, imm := m.immBits, b := b, c := (r5 tag) } : Fields).vmem ({ Fields.base 0x53 0 m.minorBits with pg := m.m.pg, d := m.d, a := m.a, mod := m.m.modBits, imm := m.immBits, b := b, c := (r5 tag) } : Fields).b (bv5 ({ Fields.base 0x53 0 m.minorBits with pg := m.m.pg, d := m.d, a := m.a, mod := m.m.modBits, imm := m.immBits, b := b, c := (r5 tag) } : Fields).c))) rfl ?_
  rw [Fields.vmem_eq (m := m) rfl rfl rfl rfl rfl rfl]
  simp (disch := omega) only [Fields.base, Fields.ext32, Fields.scope, Fields.scale, Scope.of_code, w32_low, pOf_p5, kOf_k5, v4_v5, bv5_r5, lvlOf_lvl5, SrcWidth.of_code, CacheCfg.of_word, low_part, high_part, low_bit, high_bit, Nat.reduceSub, whole_part, ofBool_bit, bit17_low]
theorem RoundTrip.vscatter (m : VMemArgs) (b : VIdx) : RoundTrip.Statement (.vscatter m b) := by
  intro f h hw; cases h
  refine Eq.trans (b := some (.vscatter ({ Fields.base 0x54 0 m.minorBits with pg := m.m.pg, d := m.d, a := m.a, mod := m.m.modBits, imm := m.immBits, b := b } : Fields).vmem ({ Fields.base 0x54 0 m.minorBits with pg := m.m.pg, d := m.d, a := m.a, mod := m.m.modBits, imm := m.immBits, b := b } : Fields).b)) rfl ?_
  rw [Fields.vmem_eq (m := m) rfl rfl rfl rfl rfl rfl]
theorem RoundTrip.sbindRead (k : Fin 4) (a : GReg) (z : Bool) (disp : BitVec 32) : RoundTrip.Statement (.sbindRead k a z disp) := by
  intro f h hw; cases h
  refine Eq.trans (b := some (.sbindRead (kOf ({ Fields.base 0x55 1 0 with d := (k5 k), a := a, mod := (BitVec.ofBool z ++ 0#4 : BitVec 5), ext := w32 disp } : Fields).d) ({ Fields.base 0x55 1 0 with d := (k5 k), a := a, mod := (BitVec.ofBool z ++ 0#4 : BitVec 5), ext := w32 disp } : Fields).a (({ Fields.base 0x55 1 0 with d := (k5 k), a := a, mod := (BitVec.ofBool z ++ 0#4 : BitVec 5), ext := w32 disp } : Fields).mod.getLsbD 4) ({ Fields.base 0x55 1 0 with d := (k5 k), a := a, mod := (BitVec.ofBool z ++ 0#4 : BitVec 5), ext := w32 disp } : Fields).ext32)) rfl ?_
  simp (disch := omega) only [Fields.base, Fields.ext32, Fields.scope, Fields.scale, Scope.of_code, w32_low, pOf_p5, kOf_k5, v4_v5, bv5_r5, lvlOf_lvl5, SrcWidth.of_code, CacheCfg.of_word, low_part, high_part, low_bit, high_bit, Nat.reduceSub, whole_part, ofBool_bit, bit17_low]
theorem RoundTrip.sbindWrite (k : Fin 4) (a : GReg) (z : Bool) (disp : BitVec 32) : RoundTrip.Statement (.sbindWrite k a z disp) := by
  intro f h hw; cases h
  refine Eq.trans (b := some (.sbindWrite (kOf ({ Fields.base 0x55 1 1 with d := (k5 k), a := a, mod := (BitVec.ofBool z ++ 0#4 : BitVec 5), ext := w32 disp } : Fields).d) ({ Fields.base 0x55 1 1 with d := (k5 k), a := a, mod := (BitVec.ofBool z ++ 0#4 : BitVec 5), ext := w32 disp } : Fields).a (({ Fields.base 0x55 1 1 with d := (k5 k), a := a, mod := (BitVec.ofBool z ++ 0#4 : BitVec 5), ext := w32 disp } : Fields).mod.getLsbD 4) ({ Fields.base 0x55 1 1 with d := (k5 k), a := a, mod := (BitVec.ofBool z ++ 0#4 : BitVec 5), ext := w32 disp } : Fields).ext32)) rfl ?_
  simp (disch := omega) only [Fields.base, Fields.ext32, Fields.scope, Fields.scale, Scope.of_code, w32_low, pOf_p5, kOf_k5, v4_v5, bv5_r5, lvlOf_lvl5, SrcWidth.of_code, CacheCfg.of_word, low_part, high_part, low_bit, high_bit, Nat.reduceSub, whole_part, ofBool_bit, bit17_low]
theorem RoundTrip.sunbind (k : Fin 4) : RoundTrip.Statement (.sunbind k) := by
  intro f h hw; cases h
  refine Eq.trans (b := some (.sunbind (kOf ({ Fields.base 0x56 0 0 with d := (k5 k) } : Fields).d))) rfl ?_
  simp (disch := omega) only [Fields.base, Fields.ext32, Fields.scope, Fields.scale, Scope.of_code, w32_low, pOf_p5, kOf_k5, v4_v5, bv5_r5, lvlOf_lvl5, SrcWidth.of_code, CacheCfg.of_word, low_part, high_part, low_bit, high_bit, Nat.reduceSub, whole_part, ofBool_bit, bit17_low]
theorem RoundTrip.gaddrScalar (d a : GReg) (t : BitVec 4) : RoundTrip.Statement (.gaddrScalar d a t) := by
  intro f h hw; cases h
  refine Eq.trans (b := some (.gaddrScalar ({ Fields.base 0x57 0 0 with d := d, a := a, imm := (0#13 ++ t : BitVec 17) } : Fields).d ({ Fields.base 0x57 0 0 with d := d, a := a, imm := (0#13 ++ t : BitVec 17) } : Fields).a (({ Fields.base 0x57 0 0 with d := d, a := a, imm := (0#13 ++ t : BitVec 17) } : Fields).imm.extractLsb' 0 4))) rfl ?_
  simp (disch := omega) only [Fields.base, Fields.ext32, Fields.scope, Fields.scale, Scope.of_code, w32_low, pOf_p5, kOf_k5, v4_v5, bv5_r5, lvlOf_lvl5, SrcWidth.of_code, CacheCfg.of_word, low_part, high_part, low_bit, high_bit, Nat.reduceSub, whole_part, ofBool_bit, bit17_low]
theorem RoundTrip.gaddrVector (d a : VIdx) (t : BitVec 4) : RoundTrip.Statement (.gaddrVector d a t) := by
  intro f h hw; cases h
  refine Eq.trans (b := some (.gaddrVector ({ Fields.base 0x57 0 1 with d := d, a := a, imm := (0#13 ++ t : BitVec 17) } : Fields).d ({ Fields.base 0x57 0 1 with d := d, a := a, imm := (0#13 ++ t : BitVec 17) } : Fields).a (({ Fields.base 0x57 0 1 with d := d, a := a, imm := (0#13 ++ t : BitVec 17) } : Fields).imm.extractLsb' 0 4))) rfl ?_
  simp (disch := omega) only [Fields.base, Fields.ext32, Fields.scope, Fields.scale, Scope.of_code, w32_low, pOf_p5, kOf_k5, v4_v5, bv5_r5, lvlOf_lvl5, SrcWidth.of_code, CacheCfg.of_word, low_part, high_part, low_bit, high_bit, Nat.reduceSub, whole_part, ofBool_bit, bit17_low]
theorem RoundTrip.dtset (a : GReg) (t : BitVec 4) : RoundTrip.Statement (.dtset a t) := by
  intro f h hw; cases h
  refine Eq.trans (b := some (.dtset ({ Fields.base 0x58 0 0 with a := a, imm := (0#13 ++ t : BitVec 17) } : Fields).a (({ Fields.base 0x58 0 0 with a := a, imm := (0#13 ++ t : BitVec 17) } : Fields).imm.extractLsb' 0 4))) rfl ?_
  simp (disch := omega) only [Fields.base, Fields.ext32, Fields.scope, Fields.scale, Scope.of_code, w32_low, pOf_p5, kOf_k5, v4_v5, bv5_r5, lvlOf_lvl5, SrcWidth.of_code, CacheCfg.of_word, low_part, high_part, low_bit, high_bit, Nat.reduceSub, whole_part, ofBool_bit, bit17_low]
theorem RoundTrip.mma (m : MmaArgs) : RoundTrip.Statement (.mma m) := by
  intro f h hw; cases h
  refine Eq.trans (b := some (.mma ({ Fields.base 0x60 2 0 with d := (r5 m.acc), a := m.a, b := m.b, c := m.c, mod := (bv5 m.j), ext := m.ext } : Fields).mma)) rfl ?_
  rw [Fields.mma_eq (m := m) rfl rfl rfl rfl rfl rfl]
theorem RoundTrip.acrd (d : VIdx) (a : GReg) (acc : BitVec 5) (row : BitVec 3) (cg : BitVec 2) : RoundTrip.Statement (.acrd d a acc row cg) := by
  intro f h hw; cases h
  refine Eq.trans (b := some (.acrd ({ Fields.base 0x61 0 0 with d := d, a := a, imm := (0#7 ++ cg ++ row ++ acc : BitVec 17) } : Fields).d ({ Fields.base 0x61 0 0 with d := d, a := a, imm := (0#7 ++ cg ++ row ++ acc : BitVec 17) } : Fields).a (({ Fields.base 0x61 0 0 with d := d, a := a, imm := (0#7 ++ cg ++ row ++ acc : BitVec 17) } : Fields).imm.extractLsb' 0 5) (({ Fields.base 0x61 0 0 with d := d, a := a, imm := (0#7 ++ cg ++ row ++ acc : BitVec 17) } : Fields).imm.extractLsb' 5 3) (({ Fields.base 0x61 0 0 with d := d, a := a, imm := (0#7 ++ cg ++ row ++ acc : BitVec 17) } : Fields).imm.extractLsb' 8 2))) rfl ?_
  simp (disch := omega) only [Fields.base, Fields.ext32, Fields.scope, Fields.scale, Scope.of_code, w32_low, pOf_p5, kOf_k5, v4_v5, bv5_r5, lvlOf_lvl5, SrcWidth.of_code, CacheCfg.of_word, low_part, high_part, low_bit, high_bit, Nat.reduceSub, whole_part, ofBool_bit, bit17_low]
theorem RoundTrip.acst (acc : BitVec 5) (a b c : GReg) (tag : BitVec 5) (pitch : BitVec 16) : RoundTrip.Statement (.acst acc a b c tag pitch) := by
  intro f h hw; cases h
  refine Eq.trans (b := some (.acst (bv5 ({ Fields.base 0x62 1 (0#3 ++ tag : BitVec 8) with d := (r5 acc), a := a, b := b, c := c, ext := (0#48 ++ pitch : BitVec 64) } : Fields).d) ({ Fields.base 0x62 1 (0#3 ++ tag : BitVec 8) with d := (r5 acc), a := a, b := b, c := c, ext := (0#48 ++ pitch : BitVec 64) } : Fields).a ({ Fields.base 0x62 1 (0#3 ++ tag : BitVec 8) with d := (r5 acc), a := a, b := b, c := c, ext := (0#48 ++ pitch : BitVec 64) } : Fields).b ({ Fields.base 0x62 1 (0#3 ++ tag : BitVec 8) with d := (r5 acc), a := a, b := b, c := c, ext := (0#48 ++ pitch : BitVec 64) } : Fields).c (({ Fields.base 0x62 1 (0#3 ++ tag : BitVec 8) with d := (r5 acc), a := a, b := b, c := c, ext := (0#48 ++ pitch : BitVec 64) } : Fields).minor.extractLsb' 0 5) (({ Fields.base 0x62 1 (0#3 ++ tag : BitVec 8) with d := (r5 acc), a := a, b := b, c := c, ext := (0#48 ++ pitch : BitVec 64) } : Fields).ext.extractLsb' 0 16))) rfl ?_
  simp (disch := omega) only [Fields.base, Fields.ext32, Fields.scope, Fields.scale, Scope.of_code, w32_low, pOf_p5, kOf_k5, v4_v5, bv5_r5, lvlOf_lvl5, SrcWidth.of_code, CacheCfg.of_word, low_part, high_part, low_bit, high_bit, Nat.reduceSub, whole_part, ofBool_bit, bit17_low]
theorem RoundTrip.aczero (acc : BitVec 5) (a : GReg) : RoundTrip.Statement (.aczero acc a) := by
  intro f h hw; cases h
  refine Eq.trans (b := some (.aczero (bv5 ({ Fields.base 0x63 0 0 with d := (r5 acc), a := a } : Fields).d) ({ Fields.base 0x63 0 0 with d := (r5 acc), a := a } : Fields).a)) rfl ?_
  simp (disch := omega) only [Fields.base, Fields.ext32, Fields.scope, Fields.scale, Scope.of_code, w32_low, pOf_p5, kOf_k5, v4_v5, bv5_r5, lvlOf_lvl5, SrcWidth.of_code, CacheCfg.of_word, low_part, high_part, low_bit, high_bit, Nat.reduceSub, whole_part, ofBool_bit, bit17_low]
theorem RoundTrip.acver (d : GReg) (acc : BitVec 5) : RoundTrip.Statement (.acver d acc) := by
  intro f h hw; cases h
  refine Eq.trans (b := some (.acver ({ Fields.base 0x64 0 0 with d := d, imm := (0#12 ++ acc : BitVec 17) } : Fields).d (({ Fields.base 0x64 0 0 with d := d, imm := (0#12 ++ acc : BitVec 17) } : Fields).imm.extractLsb' 0 5))) rfl ?_
  simp (disch := omega) only [Fields.base, Fields.ext32, Fields.scope, Fields.scale, Scope.of_code, w32_low, pOf_p5, kOf_k5, v4_v5, bv5_r5, lvlOf_lvl5, SrcWidth.of_code, CacheCfg.of_word, low_part, high_part, low_bit, high_bit, Nat.reduceSub, whole_part, ofBool_bit, bit17_low]
theorem RoundTrip.cpy (d a b c : GReg) (m : CpyArgs) : RoundTrip.Statement (.cpy d a b c m) := by
  intro f h hw; cases h
  refine Eq.trans (b := some (.cpy ({ Fields.base 0x65 2 0 with d := d, a := a, b := b, c := c, ext := m.ext } : Fields).d ({ Fields.base 0x65 2 0 with d := d, a := a, b := b, c := c, ext := m.ext } : Fields).a ({ Fields.base 0x65 2 0 with d := d, a := a, b := b, c := c, ext := m.ext } : Fields).b ({ Fields.base 0x65 2 0 with d := d, a := a, b := b, c := c, ext := m.ext } : Fields).c ({ Fields.base 0x65 2 0 with d := d, a := a, b := b, c := c, ext := m.ext } : Fields).cpy)) rfl ?_
  rw [Fields.cpy_eq (m := m) rfl]
theorem RoundTrip.btwalk (d a b c : GReg) (m : WalkArgs) : RoundTrip.Statement (.btwalk d a b c m) := by
  intro f h hw; cases h
  refine Eq.trans (b := some (.btwalk ({ Fields.base 0x66 2 0 with d := d, a := a, b := b, c := c, ext := m.ext } : Fields).d ({ Fields.base 0x66 2 0 with d := d, a := a, b := b, c := c, ext := m.ext } : Fields).a ({ Fields.base 0x66 2 0 with d := d, a := a, b := b, c := c, ext := m.ext } : Fields).b ({ Fields.base 0x66 2 0 with d := d, a := a, b := b, c := c, ext := m.ext } : Fields).c ({ Fields.base 0x66 2 0 with d := d, a := a, b := b, c := c, ext := m.ext } : Fields).walk)) rfl ?_
  rw [Fields.walk_eq (m := m) rfl]
theorem RoundTrip.btapp (d a b c : GReg) (pos : BitVec 32) (ch : BitVec 4) : RoundTrip.Statement (.btapp d a b c pos ch) := by
  intro f h hw; cases h
  refine Eq.trans (b := some (.btapp ({ Fields.base 0x67 2 0 with d := d, a := a, b := b, c := c, ext := (0#28 ++ ch ++ pos : BitVec 64) } : Fields).d ({ Fields.base 0x67 2 0 with d := d, a := a, b := b, c := c, ext := (0#28 ++ ch ++ pos : BitVec 64) } : Fields).a ({ Fields.base 0x67 2 0 with d := d, a := a, b := b, c := c, ext := (0#28 ++ ch ++ pos : BitVec 64) } : Fields).b ({ Fields.base 0x67 2 0 with d := d, a := a, b := b, c := c, ext := (0#28 ++ ch ++ pos : BitVec 64) } : Fields).c (({ Fields.base 0x67 2 0 with d := d, a := a, b := b, c := c, ext := (0#28 ++ ch ++ pos : BitVec 64) } : Fields).ext.extractLsb' 0 32) (({ Fields.base 0x67 2 0 with d := d, a := a, b := b, c := c, ext := (0#28 ++ ch ++ pos : BitVec 64) } : Fields).ext.extractLsb' 32 4))) rfl ?_
  simp (disch := omega) only [Fields.base, Fields.ext32, Fields.scope, Fields.scale, Scope.of_code, w32_low, pOf_p5, kOf_k5, v4_v5, bv5_r5, lvlOf_lvl5, SrcWidth.of_code, CacheCfg.of_word, low_part, high_part, low_bit, high_bit, Nat.reduceSub, whole_part, ofBool_bit, bit17_low]
theorem RoundTrip.cpyres (d a : GReg) : RoundTrip.Statement (.cpyres d a) := by intro f h _; cases h; rfl
theorem RoundTrip.jpoll (d a : GReg) : RoundTrip.Statement (.jpoll d a) := by intro f h _; cases h; rfl
theorem RoundTrip.jwait (a : GReg) : RoundTrip.Statement (.jwait a) := by intro f h _; cases h; rfl
theorem RoundTrip.cwait (a : GReg) (ch : BitVec 4) : RoundTrip.Statement (.cwait a ch) := by
  intro f h hw; cases h
  refine Eq.trans (b := some (.cwait ({ Fields.base 0x69 0 0 with a := a, imm := (0#13 ++ ch : BitVec 17) } : Fields).a (({ Fields.base 0x69 0 0 with a := a, imm := (0#13 ++ ch : BitVec 17) } : Fields).imm.extractLsb' 0 4))) rfl ?_
  simp (disch := omega) only [Fields.base, Fields.ext32, Fields.scope, Fields.scale, Scope.of_code, w32_low, pOf_p5, kOf_k5, v4_v5, bv5_r5, lvlOf_lvl5, SrcWidth.of_code, CacheCfg.of_word, low_part, high_part, low_bit, high_bit, Nat.reduceSub, whole_part, ofBool_bit, bit17_low]
theorem RoundTrip.bar (d : GReg) (b : BitVec 4) : RoundTrip.Statement (.bar d b) := by
  intro f h hw; cases h
  refine Eq.trans (b := some (.bar ({ Fields.base 0x6C 0 0 with d := d, imm := (0#13 ++ b : BitVec 17) } : Fields).d (({ Fields.base 0x6C 0 0 with d := d, imm := (0#13 ++ b : BitVec 17) } : Fields).imm.extractLsb' 0 4))) rfl ?_
  simp (disch := omega) only [Fields.base, Fields.ext32, Fields.scope, Fields.scale, Scope.of_code, w32_low, pOf_p5, kOf_k5, v4_v5, bv5_r5, lvlOf_lvl5, SrcWidth.of_code, CacheCfg.of_word, low_part, high_part, low_bit, high_bit, Nat.reduceSub, whole_part, ofBool_bit, bit17_low]
theorem RoundTrip.barv (b : BitVec 4) : RoundTrip.Statement (.barv b) := by
  intro f h hw; cases h
  refine Eq.trans (b := some (.barv (({ Fields.base 0x6C 0 1 with imm := (0#13 ++ b : BitVec 17) } : Fields).imm.extractLsb' 0 4))) rfl ?_
  simp (disch := omega) only [Fields.base, Fields.ext32, Fields.scope, Fields.scale, Scope.of_code, w32_low, pOf_p5, kOf_k5, v4_v5, bv5_r5, lvlOf_lvl5, SrcWidth.of_code, CacheCfg.of_word, low_part, high_part, low_bit, high_bit, Nat.reduceSub, whole_part, ofBool_bit, bit17_low]
theorem RoundTrip.barcfg (a : GReg) (b : BitVec 4) : RoundTrip.Statement (.barcfg a b) := by
  intro f h hw; cases h
  refine Eq.trans (b := some (.barcfg ({ Fields.base 0x6D 0 0 with a := a, imm := (0#13 ++ b : BitVec 17) } : Fields).a (({ Fields.base 0x6D 0 0 with a := a, imm := (0#13 ++ b : BitVec 17) } : Fields).imm.extractLsb' 0 4))) rfl ?_
  simp (disch := omega) only [Fields.base, Fields.ext32, Fields.scope, Fields.scale, Scope.of_code, w32_low, pOf_p5, kOf_k5, v4_v5, bv5_r5, lvlOf_lvl5, SrcWidth.of_code, CacheCfg.of_word, low_part, high_part, low_bit, high_bit, Nat.reduceSub, whole_part, ofBool_bit, bit17_low]
theorem RoundTrip.vcdef (d : BitVec 4) (a : GReg) (c : CacheCfg) : RoundTrip.Statement (.vcdef d a c) := by
  intro f h hw; cases h
  refine Eq.trans (b := some (.vcdef (v4 ({ Fields.base 0x70 2 0 with d := (v5 d), a := a, ext := w32 c.word } : Fields).d) ({ Fields.base 0x70 2 0 with d := (v5 d), a := a, ext := w32 c.word } : Fields).a (CacheCfg.of ({ Fields.base 0x70 2 0 with d := (v5 d), a := a, ext := w32 c.word } : Fields).ext32))) rfl ?_
  simp (disch := omega) only [Fields.base, Fields.ext32, Fields.scope, Fields.scale, Scope.of_code, w32_low, pOf_p5, kOf_k5, v4_v5, bv5_r5, lvlOf_lvl5, SrcWidth.of_code, CacheCfg.of_word, low_part, high_part, low_bit, high_bit, Nat.reduceSub, whole_part, ofBool_bit, bit17_low]
theorem RoundTrip.vcbind (slot : BitVec 6) (vc : BitVec 4) (a : GReg) (len : BitVec 32) : RoundTrip.Statement (.vcbind slot vc a len) := by
  intro f h hw; cases h
  refine Eq.trans (if_pos ?_) ?_
  · show (0#7 ++ vc ++ slot : BitVec 17).getLsbD 10 = false
    rw [high_bit _ _ _ (by omega), high_bit _ _ _ (by omega)]; rfl
  · simp (disch := omega) only [Fields.ext32, w32_low, low_part, high_part, low_bit, high_bit, Nat.reduceSub, whole_part, ofBool_bit]
theorem RoundTrip.vcbindUnbind (slot : BitVec 6) : RoundTrip.Statement (.vcbindUnbind slot) := by
  intro f h hw; cases h
  refine Eq.trans (if_neg ?_) ?_
  · show ¬ (0#6 ++ 1#1 ++ 0#4 ++ slot : BitVec 17).getLsbD 10 = false
    rw [high_bit _ _ _ (by omega), high_bit _ _ _ (by omega), low_bit _ _ _ (by omega)]; decide
  · simp (disch := omega) only [low_part, high_part, low_bit, high_bit, Nat.reduceSub, whole_part, ofBool_bit]
theorem RoundTrip.vcset (d : GReg) (vc : BitVec 4) (a : GReg) (c : CacheCfg) : RoundTrip.Statement (.vcset d vc a c) := by
  intro f h hw; cases h
  refine Eq.trans (b := some (.vcset ({ Fields.base 0x72 1 0 with d := d, a := a, imm := (0#13 ++ vc : BitVec 17), ext := w32 c.word } : Fields).d (({ Fields.base 0x72 1 0 with d := d, a := a, imm := (0#13 ++ vc : BitVec 17), ext := w32 c.word } : Fields).imm.extractLsb' 0 4) ({ Fields.base 0x72 1 0 with d := d, a := a, imm := (0#13 ++ vc : BitVec 17), ext := w32 c.word } : Fields).a (CacheCfg.of ({ Fields.base 0x72 1 0 with d := d, a := a, imm := (0#13 ++ vc : BitVec 17), ext := w32 c.word } : Fields).ext32))) rfl ?_
  simp (disch := omega) only [Fields.base, Fields.ext32, Fields.scope, Fields.scale, Scope.of_code, w32_low, pOf_p5, kOf_k5, v4_v5, bv5_r5, lvlOf_lvl5, SrcWidth.of_code, CacheCfg.of_word, low_part, high_part, low_bit, high_bit, Nat.reduceSub, whole_part, ofBool_bit, bit17_low]
theorem RoundTrip.vcstat (d : GReg) (vc : BitVec 4) (ctr : BitVec 3) : RoundTrip.Statement (.vcstat d vc ctr) := by
  intro f h hw; cases h
  refine Eq.trans (b := some (.vcstat ({ Fields.base 0x73 0 0 with d := d, imm := (0#10 ++ ctr ++ vc : BitVec 17) } : Fields).d (({ Fields.base 0x73 0 0 with d := d, imm := (0#10 ++ ctr ++ vc : BitVec 17) } : Fields).imm.extractLsb' 0 4) (({ Fields.base 0x73 0 0 with d := d, imm := (0#10 ++ ctr ++ vc : BitVec 17) } : Fields).imm.extractLsb' 4 3))) rfl ?_
  simp (disch := omega) only [Fields.base, Fields.ext32, Fields.scope, Fields.scale, Scope.of_code, w32_low, pOf_p5, kOf_k5, v4_v5, bv5_r5, lvlOf_lvl5, SrcWidth.of_code, CacheCfg.of_word, low_part, high_part, low_bit, high_bit, Nat.reduceSub, whole_part, ofBool_bit, bit17_low]
theorem RoundTrip.spawn (d a b c : GReg) (any : Bool) (disp : BitVec 32) : RoundTrip.Statement (.spawn d a b c any disp) := by
  intro f h hw; cases h
  refine Eq.trans (b := some (.spawn ({ Fields.base 0x74 1 (0#7 ++ BitVec.ofBool any : BitVec 8) with d := d, a := a, b := b, c := c, ext := w32 disp } : Fields).d ({ Fields.base 0x74 1 (0#7 ++ BitVec.ofBool any : BitVec 8) with d := d, a := a, b := b, c := c, ext := w32 disp } : Fields).a ({ Fields.base 0x74 1 (0#7 ++ BitVec.ofBool any : BitVec 8) with d := d, a := a, b := b, c := c, ext := w32 disp } : Fields).b ({ Fields.base 0x74 1 (0#7 ++ BitVec.ofBool any : BitVec 8) with d := d, a := a, b := b, c := c, ext := w32 disp } : Fields).c (({ Fields.base 0x74 1 (0#7 ++ BitVec.ofBool any : BitVec 8) with d := d, a := a, b := b, c := c, ext := w32 disp } : Fields).minor.getLsbD 0) ({ Fields.base 0x74 1 (0#7 ++ BitVec.ofBool any : BitVec 8) with d := d, a := a, b := b, c := c, ext := w32 disp } : Fields).ext32)) rfl ?_
  simp (disch := omega) only [Fields.base, Fields.ext32, Fields.scope, Fields.scale, Scope.of_code, w32_low, pOf_p5, kOf_k5, v4_v5, bv5_r5, lvlOf_lvl5, SrcWidth.of_code, CacheCfg.of_word, low_part, high_part, low_bit, high_bit, Nat.reduceSub, whole_part, ofBool_bit, bit17_low]
theorem RoundTrip.tdec (a : GReg) : RoundTrip.Statement (.tdec a) := by intro f h _; cases h; rfl
theorem RoundTrip.rfork (a b c : GReg) (disp : BitVec 32) : RoundTrip.Statement (.rfork a b c disp) := by
  intro f h hw; cases h
  refine Eq.trans (b := some (.rfork ({ Fields.base 0x76 1 0 with a := a, b := b, c := c, ext := w32 disp } : Fields).a ({ Fields.base 0x76 1 0 with a := a, b := b, c := c, ext := w32 disp } : Fields).b ({ Fields.base 0x76 1 0 with a := a, b := b, c := c, ext := w32 disp } : Fields).c ({ Fields.base 0x76 1 0 with a := a, b := b, c := c, ext := w32 disp } : Fields).ext32)) rfl ?_
  simp (disch := omega) only [Fields.base, Fields.ext32, Fields.scope, Fields.scale, Scope.of_code, w32_low, pOf_p5, kOf_k5, v4_v5, bv5_r5, lvlOf_lvl5, SrcWidth.of_code, CacheCfg.of_word, low_part, high_part, low_bit, high_bit, Nat.reduceSub, whole_part, ofBool_bit, bit17_low]
theorem RoundTrip.rjoin (a : GReg) : RoundTrip.Statement (.rjoin a) := by intro f h _; cases h; rfl
theorem RoundTrip.launch (d a : GReg) : RoundTrip.Statement (.launch d a) := by intro f h _; cases h; rfl
theorem RoundTrip.cancelLaunch (a : GReg) : RoundTrip.Statement (.cancelLaunch a) := by intro f h _; cases h; rfl
theorem RoundTrip.cancelGraph (a : GReg) : RoundTrip.Statement (.cancelGraph a) := by intro f h _; cases h; rfl
theorem RoundTrip.cancelPhase (a : GReg) : RoundTrip.Statement (.cancelPhase a) := by intro f h _; cases h; rfl
theorem RoundTrip.cancelJob (a : GReg) : RoundTrip.Statement (.cancelJob a) := by intro f h _; cases h; rfl
theorem RoundTrip.lvwaitLaunch (a b : GReg) : RoundTrip.Statement (.lvwaitLaunch a b) := by intro f h _; cases h; rfl
theorem RoundTrip.lvwaitGraph (a b : GReg) : RoundTrip.Statement (.lvwaitGraph a b) := by intro f h _; cases h; rfl
theorem RoundTrip.lvwaitPhase (a b : GReg) : RoundTrip.Statement (.lvwaitPhase a b) := by intro f h _; cases h; rfl
theorem RoundTrip.lvwaitJob (a b : GReg) : RoundTrip.Statement (.lvwaitJob a b) := by intro f h _; cases h; rfl
theorem RoundTrip.send (a b : GReg) (idx : BitVec 5) : RoundTrip.Statement (.send a b idx) := by
  intro f h hw; cases h
  refine Eq.trans (b := some (.send ({ Fields.base 0x7B 0 0 with a := a, b := b, imm := (0#12 ++ idx : BitVec 17) } : Fields).a ({ Fields.base 0x7B 0 0 with a := a, b := b, imm := (0#12 ++ idx : BitVec 17) } : Fields).b (({ Fields.base 0x7B 0 0 with a := a, b := b, imm := (0#12 ++ idx : BitVec 17) } : Fields).imm.extractLsb' 0 5))) rfl ?_
  simp (disch := omega) only [Fields.base, Fields.ext32, Fields.scope, Fields.scale, Scope.of_code, w32_low, pOf_p5, kOf_k5, v4_v5, bv5_r5, lvlOf_lvl5, SrcWidth.of_code, CacheCfg.of_word, low_part, high_part, low_bit, high_bit, Nat.reduceSub, whole_part, ofBool_bit, bit17_low]
theorem RoundTrip.mcast (a b : GReg) (idx : BitVec 5) : RoundTrip.Statement (.mcast a b idx) := by
  intro f h hw; cases h
  refine Eq.trans (b := some (.mcast ({ Fields.base 0x7B 0 1 with a := a, b := b, imm := (0#12 ++ idx : BitVec 17) } : Fields).a ({ Fields.base 0x7B 0 1 with a := a, b := b, imm := (0#12 ++ idx : BitVec 17) } : Fields).b (({ Fields.base 0x7B 0 1 with a := a, b := b, imm := (0#12 ++ idx : BitVec 17) } : Fields).imm.extractLsb' 0 5))) rfl ?_
  simp (disch := omega) only [Fields.base, Fields.ext32, Fields.scope, Fields.scale, Scope.of_code, w32_low, pOf_p5, kOf_k5, v4_v5, bv5_r5, lvlOf_lvl5, SrcWidth.of_code, CacheCfg.of_word, low_part, high_part, low_bit, high_bit, Nat.reduceSub, whole_part, ofBool_bit, bit17_low]
theorem RoundTrip.radd (a : GReg) (b : VIdx) (idx : BitVec 5) : RoundTrip.Statement (.radd a b idx) := by
  intro f h hw; cases h
  refine Eq.trans (b := some (.radd ({ Fields.base 0x7B 0 2 with a := a, b := b, imm := (0#12 ++ idx : BitVec 17) } : Fields).a ({ Fields.base 0x7B 0 2 with a := a, b := b, imm := (0#12 ++ idx : BitVec 17) } : Fields).b (({ Fields.base 0x7B 0 2 with a := a, b := b, imm := (0#12 ++ idx : BitVec 17) } : Fields).imm.extractLsb' 0 5))) rfl ?_
  simp (disch := omega) only [Fields.base, Fields.ext32, Fields.scope, Fields.scale, Scope.of_code, w32_low, pOf_p5, kOf_k5, v4_v5, bv5_r5, lvlOf_lvl5, SrcWidth.of_code, CacheCfg.of_word, low_part, high_part, low_bit, high_bit, Nat.reduceSub, whole_part, ofBool_bit, bit17_low]
theorem RoundTrip.ntree (a : GReg) (t : BitVec 4) : RoundTrip.Statement (.ntree a t) := by
  intro f h hw; cases h
  refine Eq.trans (b := some (.ntree ({ Fields.base 0x7C 0 0 with a := a, imm := (0#13 ++ t : BitVec 17) } : Fields).a (({ Fields.base 0x7C 0 0 with a := a, imm := (0#13 ++ t : BitVec 17) } : Fields).imm.extractLsb' 0 4))) rfl ?_
  simp (disch := omega) only [Fields.base, Fields.ext32, Fields.scope, Fields.scale, Scope.of_code, w32_low, pOf_p5, kOf_k5, v4_v5, bv5_r5, lvlOf_lvl5, SrcWidth.of_code, CacheCfg.of_word, low_part, high_part, low_bit, high_bit, Nat.reduceSub, whole_part, ofBool_bit, bit17_low]
theorem RoundTrip.xpub (a b : GReg) (scope : Scope) : RoundTrip.Statement (.xpub a b scope) := by
  intro f h hw; cases h
  refine Eq.trans (b := some (.xpub ({ Fields.base 0x80 0 0 with a := a, b := b, mod := (0#2 ++ scope.code : BitVec 5) } : Fields).a ({ Fields.base 0x80 0 0 with a := a, b := b, mod := (0#2 ++ scope.code : BitVec 5) } : Fields).b ({ Fields.base 0x80 0 0 with a := a, b := b, mod := (0#2 ++ scope.code : BitVec 5) } : Fields).scope)) rfl ?_
  simp (disch := omega) only [Fields.base, Fields.ext32, Fields.scope, Fields.scale, Scope.of_code, w32_low, pOf_p5, kOf_k5, v4_v5, bv5_r5, lvlOf_lvl5, SrcWidth.of_code, CacheCfg.of_word, low_part, high_part, low_bit, high_bit, Nat.reduceSub, whole_part, ofBool_bit, bit17_low]
theorem RoundTrip.bufpub (a : GReg) : RoundTrip.Statement (.bufpub a) := by intro f h _; cases h; rfl
theorem RoundTrip.tmoveDram (d a : GReg) (ch : BitVec 12) : RoundTrip.Statement (.tmoveDram d a ch) := by
  intro f h hw; cases h
  refine Eq.trans (if_pos ?_) ?_
  · show (0#52 ++ ch : BitVec 64).getLsbD 12 = false
    rw [high_bit _ _ _ (by omega)]; rfl
  · simp (disch := omega) only [low_part, high_part, low_bit, high_bit, Nat.reduceSub, whole_part, ofBool_bit]
theorem RoundTrip.tmoveHost (d a : GReg) : RoundTrip.Statement (.tmoveHost d a) := by
  intro f h hw; cases h
  exact if_neg (show ¬ (0x1000 : BitVec 64).getLsbD 12 = false by decide)
theorem RoundTrip.rephintClear (a : GReg) : RoundTrip.Statement (.rephintClear a) := by
  intro f h hw; cases h
  exact candidate_rephint a 0
theorem RoundTrip.rephintPin (a : GReg) (deg : BitVec 2) : RoundTrip.Statement (.rephintPin a deg) := by
  intro f h hw; cases h
  have h2 : (0#13 ++ 1#2 ++ deg : BitVec 17).extractLsb' 2 2 = 1#2 := by
    rw [high_part _ _ _ _ (by omega), low_part _ _ _ _ (by omega)]; rfl
  have h0 : (0#13 ++ 1#2 ++ deg : BitVec 17).extractLsb' 0 2 = deg := by
    rw [low_part _ _ _ _ (by omega), whole_part]
  refine Eq.trans (candidate_rephint a _) ?_
  show (match ((0#13 ++ 1#2 ++ deg : BitVec 17).extractLsb' 2 2).toNat with
      | 0 => some (Instr.rephintClear a)
      | 1 => some (.rephintPin a ((0#13 ++ 1#2 ++ deg : BitVec 17).extractLsb' 0 2))
      | 2 => some (.rephintCap a ((0#13 ++ 1#2 ++ deg : BitVec 17).extractLsb' 0 2))
      | _ => none) = _
  rw [h2, h0]
  rfl
theorem RoundTrip.rephintCap (a : GReg) (deg : BitVec 2) : RoundTrip.Statement (.rephintCap a deg) := by
  intro f h hw; cases h
  have h2 : (0#13 ++ 2#2 ++ deg : BitVec 17).extractLsb' 2 2 = 2#2 := by
    rw [high_part _ _ _ _ (by omega), low_part _ _ _ _ (by omega)]; rfl
  have h0 : (0#13 ++ 2#2 ++ deg : BitVec 17).extractLsb' 0 2 = deg := by
    rw [low_part _ _ _ _ (by omega), whole_part]
  refine Eq.trans (candidate_rephint a _) ?_
  show (match ((0#13 ++ 2#2 ++ deg : BitVec 17).extractLsb' 2 2).toNat with
      | 0 => some (Instr.rephintClear a)
      | 1 => some (.rephintPin a ((0#13 ++ 2#2 ++ deg : BitVec 17).extractLsb' 0 2))
      | 2 => some (.rephintCap a ((0#13 ++ 2#2 ++ deg : BitVec 17).extractLsb' 0 2))
      | _ => none) = _
  rw [h2, h0]
  rfl
theorem RoundTrip.repstat (d a : GReg) (ctr : BitVec 2) : RoundTrip.Statement (.repstat d a ctr) := by
  intro f h hw; cases h
  refine Eq.trans (b := some (.repstat ({ Fields.base 0x84 0 0 with d := d, a := a, imm := (0#15 ++ ctr : BitVec 17) } : Fields).d ({ Fields.base 0x84 0 0 with d := d, a := a, imm := (0#15 ++ ctr : BitVec 17) } : Fields).a (({ Fields.base 0x84 0 0 with d := d, a := a, imm := (0#15 ++ ctr : BitVec 17) } : Fields).imm.extractLsb' 0 2))) rfl ?_
  simp (disch := omega) only [Fields.base, Fields.ext32, Fields.scope, Fields.scale, Scope.of_code, w32_low, pOf_p5, kOf_k5, v4_v5, bv5_r5, lvlOf_lvl5, SrcWidth.of_code, CacheCfg.of_word, low_part, high_part, low_bit, high_bit, Nat.reduceSub, whole_part, ofBool_bit, bit17_low]
theorem RoundTrip.plbinvOne (a : GReg) : RoundTrip.Statement (.plbinvOne a) := by intro f h _; cases h; rfl
theorem RoundTrip.plbinvAll : RoundTrip.Statement (.plbinvAll) := by intro f h _; cases h; rfl
theorem RoundTrip.tlbinvOne (a : GReg) : RoundTrip.Statement (.tlbinvOne a) := by intro f h _; cases h; rfl
theorem RoundTrip.tlbinvAll : RoundTrip.Statement (.tlbinvAll) := by intro f h _; cases h; rfl
theorem RoundTrip.ctxswap (a b : GReg) : RoundTrip.Statement (.ctxswap a b) := by intro f h _; cases h; rfl

end Sys2Proof.Laws
end

