-- ==== Sys2Proof/Tests/Slice0.lean ====
section
/-! SUPPORT. Tests on fixed values. Words of the spec's own examples decode; an ill-formed term for each check of
WellFormed is refused; single steps give what the spec's tables give; every statement of the obligations that has
hypotheses has a state that meets them. -/

open Sys2Proof Sys2Proof.Machine

namespace Sys2Proof.Tests

set_option maxRecDepth 20000
set_option exponentiation.threshold 600

/-! ## A small state -/

/-- Thread 0 of job 1 in U mode, at address 0x1000, with every cause delegated to a handler at 0x2000. -/
def thread : Ctx :=
  { Ctx.reset with
    inst := true, job := 1, pc := 0x1000, wait := .ready 0,
    ctl := { Ctrl.reset with tdeleg := BitVec.allOnes 64, thandler := 0x2000 } }

/-- Core 0 belongs to job 1 with a local store of 32 KiB, and thread 0 holds position 0. -/
def small : State :=
  { State.reset with
    cycle := 8, turn := false, cur := 0, ctx := thread,
    cores := [(0, { Core.reset with job := some 1, slices := 2, holders := (Vector.replicate 8 none).set 0 (some 0) })],
    clusters := [(0, { Cluster.reset with job := some 1, cleared := true })] }

/-- Registers with given values. -/
def withRegs (s : State) (l : List (GReg × Word)) : State := l.foldl (fun s x => s.setG x.1 x.2 false) s
def withVecs (s : State) (l : List (VIdx × VReg)) : State := l.foldl (fun s x => s.setV x.1 x.2) s
def withCtx (s : State) (f : Ctx → Ctx) : State := { s with ctx := f s.ctx }
def absentG (s : State) (r : GReg) : State := s.modRegs fun x => { x with gPres := setBit x.gPres r.val false }
def inMode (s : State) (m : BitVec 2) : State := s.modCtl fun c => { c with mode := m }

/-- What a step gives: a next state with the property. -/
def gives (r : Res) (p : State → Bool) : Bool := match r with | .next t => p t | _ => false

/-- The local window's address of an offset (R117). -/
def here (off : Nat) : Word := BitVec.ofNat 64 (0xFFFF_FFFF_FFF0_0000 + off)


/-- An address check that answers a value. -/
def okIs {ε α : Type} [DecidableEq α] (e : Except ε α) (v : α) : Bool := match e with | .ok x => x == v | .error _ => false
theorem okIs_spec {ε α : Type} [DecidableEq α] (e : Except ε α) (v : α) (h : okIs e v = true) : e = .ok v := by
  cases e <;> simp_all [okIs]
/-! ## Ill-formed terms, one for each check of WellFormed -/

theorem test_wf_shift : (Instr.shlImm 1 2 64).wellFormed = false ∧ (Instr.sarImm32 1 2 64).wellFormed = false ∧
    (Instr.shrImm 1 2 63).wellFormed = true := by decide
theorem test_wf_bitField : (Instr.bfxUnsigned 1 2 60 5).wellFormed = false ∧ (Instr.bfi 1 2 0 0).wellFormed = false ∧
    (Instr.bfxSigned 1 2 0 65).wellFormed = false ∧ (Instr.bfi 1 2 60 4).wellFormed = true := by decide
theorem test_wf_crIndex : (Instr.rdcr 1 0x015).wellFormed = false ∧ (Instr.wrcr 1 0x030).wellFormed = false ∧
    (Instr.rdcr 1 0x02F).wellFormed = true := by decide
theorem test_wf_lpset : (Instr.lpset 0 1 1).wellFormed = false ∧ (Instr.lpset 0 1 257).wellFormed = false ∧
    (Instr.lpset 0 1 256).wellFormed = true := by decide
theorem test_wf_index : (Instr.ld ⟨1, 2, 3, .w, false, .pd, .plain, .core, 0, 4⟩).wellFormed = false := by decide
theorem test_wf_loadSign : (Instr.ld ⟨1, 2, 0, .d, true, .pd, .plain, .core, 0, 4⟩).wellFormed = false := by decide
theorem test_wf_storeSign : (Instr.st ⟨1, 2, 0, .w, true, .pd, .plain, .core, 0, 4⟩).wellFormed = false := by decide
theorem test_wf_reclaim : (Instr.reclaimStore ⟨1, 2, 0, .w, true, .pd, .plain, .core, 0, 4⟩).wellFormed = false ∧
    (Instr.reclaimStore ⟨1, 2, 0, .w, true, .unc, .plain, .core, 0, 4⟩).wellFormed = true := by decide
theorem test_wf_fullEmpty : (Instr.ldfe ⟨1, 2, 0, .h, false, .pd, .plain, .core, 0, 4⟩).wellFormed = false ∧
    (Instr.ldff ⟨1, 2, 0, .d, true, .pd, .plain, .core, 0, 4⟩).wellFormed = false ∧
    (Instr.stfe ⟨1, 2, 0, .b, false, .pd, .plain, .core, 0, 4⟩).wellFormed = false ∧
    (Instr.stfe ⟨1, 2, 0, .w, true, .pd, .plain, .core, 0, 4⟩).wellFormed = false := by decide
theorem test_wf_feset : (Instr.feset ⟨1, 2, 0, .w, false, .pd, .plain, .core, 0, 0⟩ true).wellFormed = false ∧
    (Instr.feset ⟨0, 2, 0, .w, false, .pd, .plain, .core, 0, 4⟩ true).wellFormed = false ∧
    (Instr.feset ⟨0, 2, 0, .b, false, .pd, .plain, .core, 0, 0⟩ true).wellFormed = false := by decide
theorem test_wf_atomic : (Instr.amoAdd ⟨1, 2, 3, 4, .h, .pd, .plain, .core, 0⟩).wellFormed = false ∧
    (Instr.cas ⟨1, 2, 3, 4, .w, .pd, .plain, .core, 1⟩ 0).wellFormed = false := by decide
theorem test_wf_fence : (Instr.fenceAcq .die false 6).wellFormed = false ∧ (Instr.fenceAcq .die true 6).wellFormed = true := by
  decide
theorem test_wf_lineForms : (Instr.cflush 1 2 .core 0 4).wellFormed = false ∧ (Instr.ptouch 1 2 0 4).wellFormed = false := by
  decide
theorem test_wf_rput : (Instr.rputG 1 2 3 4).wellFormed = false ∧ (Instr.rputV 1 0 3 4).wellFormed = true := by decide
theorem test_wf_pclr : (Instr.pclrG 0).wellFormed = false := by decide
theorem test_wf_rounding : (Instr.vadd ⟨0, false, 6, false⟩ 1 2 3).wellFormed = false ∧
    (Instr.vmul ⟨0, false, 0, true⟩ 1 2 3).wellFormed = false ∧ (Instr.vdiv ⟨0, false, 6, true⟩ 1 2 3).wellFormed = false ∧
    (Instr.vmin ⟨0, false, 1, true⟩ 1 2 3).wellFormed = false ∧ (Instr.vand ⟨0, false, 0, true⟩ 1 2 3).wellFormed = false ∧
    (Instr.vfma ⟨0, false, 7, false⟩ 1 2 3 4).wellFormed = false ∧ (Instr.vnot ⟨0, false, 1, false⟩ 1 2).wellFormed = false ∧
    (Instr.vrcp ⟨0, false, 0, true⟩ 1 2).wellFormed = false ∧ (Instr.vabd ⟨0, false, 5, true⟩ 1 2 3).wellFormed = true := by
  decide
theorem test_wf_compare : (Instr.vcmpLt ⟨0, false, 0, true⟩ 0 1 2).wellFormed = false ∧
    (Instr.vcmpLt ⟨0, false, 1, false⟩ 1 1 2).wellFormed = false := by decide
theorem test_wf_tags : (Instr.vcvt ⟨0, false, 0, false⟩ 16 1 2).wellFormed = false ∧ (Instr.vtag 23 1 2).wellFormed = false ∧
    (Instr.vtag 7 1 2).wellFormed = false ∧ (Instr.vsplat ⟨0, false, 0, false⟩ 0 1 2).wellFormed = false := by decide
theorem test_wf_vbfpn : (Instr.vbfpn 6 1 2 8 0).wellFormed = false ∧ (Instr.vbfpn 0 1 2 1 0).wellFormed = false ∧
    (Instr.vbfpn 0 1 2 8 2).wellFormed = false ∧ (Instr.vbfpn 0 1 2 8 1).wellFormed = true := by decide
theorem test_wf_crossLane : (Instr.vperm ⟨1, true, 0, false⟩ 1 2 3).wellFormed = false ∧
    (Instr.vslide ⟨1, false, 0, false⟩ 1 2 64).wellFormed = false ∧
    (Instr.vrot ⟨1, false, 0, false⟩ 1 2 (BitVec.ofInt 17 (-64))).wellFormed = false ∧
    (Instr.vredAdd ⟨0, true, 0, false⟩ 1 2).wellFormed = false ∧ (Instr.vredAnd ⟨0, false, 0, true⟩ 1 2).wellFormed = false ∧
    (Instr.vscanMin ⟨0, false, 2, false⟩ 1 2).wellFormed = false := by decide
theorem test_wf_predicate : (Instr.pand 0 1 2).wellFormed = false ∧ (Instr.pset 0 1).wellFormed = false := by decide
theorem test_wf_vectorMemory : (Instr.vld ⟨⟨0, false, 0, false⟩, 1, 2, .pd, .plain, .core, 0⟩ 3 8).wellFormed = false ∧
    (Instr.vld ⟨⟨1, false, 0, false⟩, 1, 2, .pd, .plain, .core, 0⟩ 3 18).wellFormed = false ∧
    (Instr.vld ⟨⟨0, false, 0, false⟩, 1, 2, .pd, .plain, .core, 0⟩ 0 5).wellFormed = false ∧
    (Instr.vst ⟨⟨0, false, 1, false⟩, 1, 2, .pd, .plain, .core, 0⟩ 0).wellFormed = false ∧
    (Instr.vldw ⟨⟨0, false, 0, false⟩, 1, 2, .pd, .plain, .core, 0⟩ 0 8).wellFormed = false ∧
    (Instr.vgather ⟨⟨0, false, 0, false⟩, 1, 2, .pd, .plain, .core, 0⟩ 3 13).wellFormed = false ∧
    (Instr.vscatter ⟨⟨0, false, 0, true⟩, 1, 2, .pd, .plain, .core, 0⟩ 3).wellFormed = false := by decide
theorem test_wf_mma : (Instr.mma ⟨0, 1, 2, 3, 4, false, false, 8, 3, 8, 8, 0⟩).wellFormed = false ∧
    (Instr.mma ⟨0, 1, 2, 3, 0, false, false, 8, 4, 8, 8, 0⟩).wellFormed = false ∧
    (Instr.mma ⟨0, 1, 2, 3, 0, false, false, 1, 3, 8, 8, 0⟩).wellFormed = false ∧
    (Instr.mma ⟨0, 1, 2, 3, 0, false, false, 8, 3, 65, 8, 0⟩).wellFormed = false ∧
    (Instr.mma ⟨0, 1, 2, 3, 0, false, false, 8, 3, 64, 9, 0⟩).wellFormed = false := by decide
theorem test_wf_acst : (Instr.acst 0 1 2 0 10 256).wellFormed = false ∧ (Instr.acst 0 1 2 3 8 256).wellFormed = false ∧
    (Instr.acst 0 1 2 0 8 252).wellFormed = false ∧ (Instr.acst 0 1 2 0 8 258).wellFormed = false ∧
    (Instr.acst 0 1 2 3 22 64).wellFormed = true := by decide
theorem test_wf_copy : (Instr.cpy 1 2 3 4 ⟨6, 0, false, false, 0⟩).wellFormed = false ∧
    (Instr.cpy 1 2 3 4 ⟨0, 0, true, true, 0⟩).wellFormed = false ∧ (Instr.cpy 1 2 3 4 ⟨0, 0, false, false, 1⟩).wellFormed = false ∧
    (Instr.btwalk 1 2 3 4 ⟨0, 1, 3, 0, 1⟩).wellFormed = false ∧ (Instr.btwalk 1 2 3 4 ⟨0, 1, 0, 0, 0⟩).wellFormed = false := by
  decide
theorem test_wf_cache : (Instr.vcdef 1 5 ⟨17, 1, 0, 0⟩).wellFormed = false ∧ (Instr.vcdef 1 5 ⟨1, 1, 0, 0⟩).wellFormed = false ∧
    (Instr.vcdef 1 5 ⟨16, 0, 0, 0⟩).wellFormed = false ∧ (Instr.vcset 2 1 5 ⟨16, 1, 7, 1⟩).wellFormed = false ∧
    (Instr.vcbind 0 1 5 0).wellFormed = false ∧ (Instr.vcstat 1 1 5).wellFormed = false := by decide
theorem test_wf_spawn : (Instr.spawn 1 2 3 4 true 0).wellFormed = false := by decide

/-! ## Words, field by field (R26, R37 to R49) -/

/-- The lower 64 bits of a word by its fields (R26): L, OP, PG, D, A, B, C, MINOR, MOD, IMM17. -/
def word (l op pg d a b c minor md imm : Nat) : Nat :=
  l + op * 2 ^ 2 + pg * 2 ^ 10 + d * 2 ^ 14 + a * 2 ^ 19 + b * 2 ^ 24 + c * 2 ^ 29 + minor * 2 ^ 34 + md * 2 ^ 42 + imm * 2 ^ 47

/-- What the decoder reads from a word of n bytes. -/
noncomputable def reads (n w : Nat) : Except DecodeError (Instr × List Byte) := decodeBytes (bytesOfNat n w)

/-- The `nop` word of R100 in memory, and in a longer run of bytes. -/
theorem test_decode_nop : decodeBytes (bytesOf [0x14, 0, 0, 0, 0, 0, 0, 0, 0xFF]) = .ok (.nop, [0xFF]) := by rfl
theorem test_decode_add : reads 8 (word 0 0x01 0 3 4 5 0 0x00 0 0) = .ok (.addReg 3 4 5, []) := by rfl
theorem test_decode_shrImm32 : reads 12 (word 1 0x03 0 3 4 0 0 0x0A 0 0 + 63 * 2 ^ 64) = .ok (.shrImm32 3 4 63, []) := by rfl
/-- `cmp.lt g3, g4, -5` (05_thread_ops): MOD[0] = 1 and IMM17 = -5. -/
theorem test_decode_cmp : reads 8 (word 0 0x06 0 3 4 0 0 0x02 1 0x1FFFB) = .ok (.cmpLtImm 3 4 0x1FFFB, []) := by rfl
/-- `bfx.sx g7, g6, 12, 20` (05_thread_ops): IMM17 = 1,292. -/
theorem test_decode_bfx : reads 8 (word 0 0x08 0 7 6 0 0 0x01 0 1292) = .ok (.bfxSigned 7 6 12 20, []) := by rfl
theorem test_decode_jal : reads 12 (word 1 0x12 0 1 0 0 0 0 0 0 + 0xFFFFFFFE * 2 ^ 64) = .ok (.jal 1 0xFFFFFFFE, []) := by rfl
theorem test_decode_wrcr : reads 8 (word 0 0x17 0 0 9 0 0 0 0 0x00C) = .ok (.wrcr 9 0x00C, []) := by rfl
theorem test_decode_movi : reads 16 (word 2 0x04 0 9 0 0 0 0 0 0 + 0x123456789ABCDEF0 * 2 ^ 64) =
    .ok (.movi 9 0x123456789ABCDEF0, []) := by rfl
/-- "load a word, zero-extended, under the page's default policy, with acquire, at core scope, into g5, from g6 plus 16
bytes" (01_notation): MINOR = 0x42. -/
theorem test_decode_ld : reads 8 (word 0 0x20 0 5 6 0 0 0x42 0 16) = .ok (.ld ⟨5, 6, 0, .w, false, .pd, .one, .core, 0, 16⟩, []) := by
  rfl
theorem test_decode_amo : reads 8 (word 0 0x23 0 1 2 3 4 0x03 (3 * 8) 8) =
    .ok (.amoSwap ⟨1, 2, 3, 4, .d, .pd, .plain, .core, 3⟩, []) := by rfl
theorem test_decode_vcvt : reads 8 (word 0 0x45 2 3 4 0 0 9 (0x10 + 2 * 2) 0) = .ok (.vcvt ⟨2, false, 2, true⟩ 9 3 4, []) := by rfl
theorem test_decode_pset : reads 8 (word 0 0x4F 0 3 7 0 0 0x04 0 0) = .ok (.pset 3 7, []) := by rfl
theorem test_decode_sbind : reads 12 (word 1 0x55 0 2 7 0 0 0x01 0x10 0 + 48 * 2 ^ 64) = .ok (.sbindWrite 2 7 true 48, []) := by rfl
theorem test_decode_vcbind : reads 12 (word 1 0x71 0 0 9 0 0 0 0 (5 + 3 * 64) + 16 * 2 ^ 64) = .ok (.vcbind 5 3 9 16, []) := by rfl
theorem test_decode_send : reads 8 (word 0 0x7B 0 0 1 2 0 0x00 0 21) = .ok (.send 1 2 21, []) := by rfl
theorem test_decode_ctxswap : reads 8 (word 0 0x87 0 0 1 2 0 0 0 0) = .ok (.ctxswap 1 2, []) := by rfl

/-- An unassigned major (twice), an unassigned minor, a reserved bit 13, a field that the form does not use, a length that is
not the form's, an operand out of range, too few bytes are refused by name (R27, R29, R38). -/
theorem test_refuses : reads 8 0 = .error .noSuchMajorOrMinor ∧ reads 8 (word 0 0x30 0 0 0 0 0 0 0 0) = .error .noSuchMajorOrMinor ∧
    reads 8 (word 0 0x06 0 3 4 5 0 0x06 0 0) = .error .noSuchMajorOrMinor ∧
    reads 8 (word 0 0x01 0 3 4 5 0 0 0 0 + 2 ^ 13) = .error .fieldNotZeroOrReserved ∧
    reads 8 (word 0 0x01 0 3 4 5 1 0 0 0) = .error .fieldNotZeroOrReserved ∧
    reads 12 (word 1 0x01 0 3 4 5 0 0 0 0) = .error .fieldNotZeroOrReserved ∧
    reads 16 3 = .error .lengthCode ∧
    reads 8 (word 0 0x02 0 3 4 0 0 0x09 0 64) = .error .operandRange ∧
    reads 4 0x14 = .error .shortBytes := 
  ⟨by rfl, by rfl, by rfl, by rfl, by rfl, by rfl, by rfl, by rfl, by rfl⟩
/-! ## Single steps; the values are those of the rules' tables, worked by hand -/

/-- A vector of n lanes of w bits, lane 0 lowest. -/
def lanes (tag : BitVec 5) (bits : Nat) (l : List Nat) : VReg :=
  { bits := BitVec.ofNat 512 (l.foldr (fun x acc => x % 2 ^ bits + 2 ^ bits * acc) 0), tag := tag, side := 0 }
/-- The small state with bytes in the local store of core 0. -/
def withBytes (s : State) (off n v : Nat) : State := { s with mem := Memory.writeNat s.mem (lsAddr 0 off) n v }
/-- All lanes, default rounding. -/
def all : VMod := ⟨0, false, 0, false⟩
def args (d a b : GReg) (wd : Width) (sx : Bool) (disp : BitVec 17) : MemArgs := ⟨d, a, b, wd, sx, .pd, .plain, .core, 0, disp⟩

/-- R97: results wrap; an immediate is sign-extended; a write to g0 is dropped (R79). -/
theorem test_add_wraps : gives (exec (.addReg 3 1 2) (withRegs small [(1, BitVec.allOnes 64), (2, 2)]))
    (fun t => t.g 3 = 1 ∧ t.ctx.pc = 0x1008) = true := by decide
theorem test_addImm_sign : gives (exec (.addImm 3 1 0x1FFFF) (withRegs small [(1, 5)])) (fun t => t.g 3 = 4) = true := by decide
theorem test_addImm_g0 : gives (exec (.addImm 0 1 7) (withRegs small [(1, 5)])) (fun t => t.g 0 = 0 ∧ t.ctx.pc = 0x1008) = true := by
  decide
/-- R97: the high half of -1 times 1 is all ones; unsigned it is 0. -/
theorem test_mulh : gives (exec (.mulhReg 3 1 2) (withRegs small [(1, BitVec.allOnes 64), (2, 1)]))
    (fun t => t.g 3 = BitVec.allOnes 64) = true := by decide
theorem test_mulhu : gives (exec (.mulhuReg 3 1 2) (withRegs small [(1, BitVec.allOnes 64), (2, 1)])) (fun t => t.g 3 = 0) = true := by
  decide
theorem test_clz_zero : gives (exec (.clz 3 1) small) (fun t => t.g 3 = 64) = true := by decide
theorem test_ctz : gives (exec (.ctz 3 1) (withRegs small [(1, 8)])) (fun t => t.g 3 = 3) = true := by decide
theorem test_sar : gives (exec (.sarImm 3 1 63) (withRegs small [(1, 0x8000000000000000)])) (fun t => t.g 3 = BitVec.allOnes 64) = true := by
  decide
theorem test_sext_half : gives (exec (.sext 3 1 .h) (withRegs small [(1, 0x1_8001)])) (fun t => t.g 3 = 0xFFFF_FFFF_FFFF_8001) = true := by
  decide
theorem test_madd_own : gives (exec (.madd 1 1 1 1) (withRegs small [(1, 5)])) (fun t => t.g 1 = 30) = true := by decide
/-- R58, R98: -7 / 2 is -3, delivered 22 cycles after issue. -/
theorem test_div : gives (exec (.divReg 3 1 2) (withRegs small [(1, BitVec.ofInt 64 (-7)), (2, 2)]))
    (fun t => t.agenda = [(30, .dividerResult 0 3 (BitVec.ofInt 64 (-3)) false)] ∧ t.g 3 = 0) = true := by decide
/-- R58: division by zero gives all ones, its remainder the dividend. -/
theorem test_remu_zero : gives (exec (.remuReg 3 1 2) (withRegs small [(1, 9)]))
    (fun t => t.agenda = [(30, .dividerResult 0 3 9 false)]) = true := by decide
theorem test_dividerResult : gives (exec (.dividerResult 0 3 7 true) { small with ctx := { thread with wait := .away .longArith } })
    (fun t => t.g 3 = 7 ∧ t.taint 3 ∧ t.ctx.wait = .ready 8) = true := by decide
theorem test_cmp_signs : gives (exec (.cmpLtImm 3 1 0x1FFFB) (withRegs small [(1, BitVec.ofInt 64 (-6))])) (fun t => t.g 3 = 1) = true ∧
    gives (exec (.cmpLtuImm 3 1 0x1FFFB) (withRegs small [(1, 6)])) (fun t => t.g 3 = 1) = true := by decide
theorem test_sel_zero : gives (exec (.sel 3 1 2 4) (withRegs small [(1, 10), (2, 20)])) (fun t => t.g 3 = 20) = true := by decide
/-- `bfi g9, g2, 40, 8` and `bfx.sx g7, g6, 12, 20` of 05_thread_ops. -/
theorem test_bfi : gives (exec (.bfi 9 2 40 8) (withRegs small [(9, BitVec.allOnes 64), (2, 0x1234)]))
    (fun t => t.g 9 = 0xFFFF_34FF_FFFF_FFFF) = true := by decide
theorem test_bfx_signed : gives (exec (.bfxSigned 7 6 12 20) (withRegs small [(6, 0x8000_0000)]))
    (fun t => t.g 7 = 0xFFFF_FFFF_FFF8_0000) = true := by decide
theorem test_lea : gives (exec (.lea 5 1 3 3 64) (withRegs small [(1, 0x100), (3, 2)])) (fun t => t.g 5 = 0x150) = true := by decide

/-- R105: a displacement counts 4 bytes; `jr` reads its target before the link. -/
theorem test_br_back : gives (exec (.br 0x1FFFE) small) (fun t => t.ctx.pc = 0xFF8) = true := by decide
theorem test_jr_own : gives (exec (.jr 4 4 8) (withRegs small [(4, 0x3000)])) (fun t => t.ctx.pc = 0x3008 ∧ t.g 4 = 0x1008) = true := by
  decide
theorem test_bcmp_not_taken : gives (exec (.bcmpLtu 1 2 16) (withRegs small [(1, 3), (2, 3)])) (fun t => t.ctx.pc = 0x1008) = true := by
  decide
/-- R88, R107: a delegated trap enters the handler; `rett` comes back. -/
theorem test_trap : gives (exec (.trap 77) small)
    (fun t => t.ctx.pc = 0x2000 ∧ t.ctx.ctl.tcause = 16 ∧ t.ctx.ctl.tval = 77 ∧ t.ctx.ctl.tepc = 0x1000 ∧ t.ctx.ctl.mode = 1) = true := by
  decide
theorem test_rett : gives (exec .rett (inMode (small.modCtl fun c => { c with tepc := 0x4000, pmode := 0 }) 1))
    (fun t => t.ctx.pc = 0x4000 ∧ t.ctx.ctl.mode = 0) = true := by decide
/-- R109: U mode may not write TDELEG. -/
theorem test_wrcr_privilege : gives (exec (.wrcr 1 0x007) small) (fun t => t.ctx.pc = 0x2000 ∧ t.ctx.ctl.tcause = 2) = true := by decide
theorem test_rdcr_self : gives (exec (.rdcr 3 0x011) small) (fun t => t.g 3 = 0) = true ∧
    gives (exec (.rdcr 3 0x00C) small) (fun t => t.g 3 = 10) = true := by decide
theorem test_rdtime : gives (exec (.rdtime 3) { small with cycle := 11 }) (fun t => t.g 3 = 3) = true := by decide
theorem test_wait : gives (exec .wait small) (fun t => t.ctx.wait = .away .wakeWait ∧ t.ctx.pc = 0x1000) = true := by decide
theorem test_wake_self : gives (exec (.wake 1) small) (fun t => t.ctx.ctl.wake ∧ t.ctx.pc = 0x1008) = true := by decide
/-- R187: the level counts down from its register, from the next instruction to the one at PC + 4 * displacement. -/
theorem test_lpset : gives (exec (.lpset 1 1 4) (withRegs small [(1, 3)]))
    (fun t => t.ctx.loops.lc[1] = 3 ∧ t.ctx.loops.lb[1] = 0x1008 ∧ t.ctx.loops.le[1] = 0x1010 ∧ t.ctx.loops.active = 2) = true := by
  decide
theorem test_absent : gives (exec (.addReg 3 1 2) (absentG small 2)) (fun t => t.ctx.wait = .away .presence ∧ t.ctx.pc = 0x1000) = true := by
  decide
theorem test_pclr : gives (exec (.pclrG 5) (withRegs small [(5, 9)])) (fun t => t.ctx.regs.hasG 5 = false ∧ t.g 5 = 9) = true := by decide

/-- R121: a signed word is widened; R4: the low byte has the low address. -/
theorem test_ld_signed : gives (exec (.ld (args 3 1 0 .w true 4)) (withBytes (withRegs small [(1, here 0x100)]) 0x104 4 0x80000001))
    (fun t => t.g 3 = 0xFFFFFFFF80000001) = true := by decide
theorem test_ldc_taints : gives (exec (.ldc (args 3 1 0 .b false 1)) (withBytes (withRegs small [(1, here 0x100)]) 0x100 4 0x80000201))
    (fun t => t.g 3 = 2 ∧ t.taint 3) = true := by decide
theorem test_st : gives (exec (.st (args 3 1 0 .h false 0)) (withRegs small [(1, here 0x100), (3, 0x12345678)]))
    (fun t => t.mem = [(lsAddr 0 0x100, 0x78), (lsAddr 0 0x101, 0x56)]) = true := by decide
/-- R118: the last byte of the 32 KiB, and the byte after it. -/
theorem test_st_last : gives (exec (.st (args 3 1 0 .b false 0)) (withRegs small [(1, here 0x7FFF), (3, 1)]))
    (fun t => t.mem = [(lsAddr 0 0x7FFF, 1)]) = true := by decide
theorem test_ld_past : gives (exec (.ld (args 3 1 0 .b false 0)) (withRegs small [(1, here 0x8000)]))
    (fun t => t.ctx.ctl.tcause = 10 ∧ t.ctx.ctl.tval = here 0x8000 ∧ t.ctx.pc = 0x2000) = true := by decide
/-- R129: the signed minimum of -1 and 1. -/
theorem test_amoMin : gives (exec (.amoMin ⟨3, 1, 0, 4, .w, .pd, .plain, .core, 0⟩)
      (withBytes (withRegs small [(1, here 0x100), (4, 1)]) 0x100 4 0xFFFFFFFF))
    (fun t => t.g 3 = 0xFFFFFFFF ∧ Memory.readNat t.mem (lsAddr 0 0x100) 4 = 0xFFFFFFFF) = true := by decide
theorem test_cas : gives (exec (.cas ⟨3, 1, 2, 4, .d, .pd, .plain, .core, 0⟩ 8)
      (withBytes (withRegs small [(1, here 0x100), (2, 7), (4, 9)]) 0x108 8 7))
    (fun t => t.g 3 = 7 ∧ Memory.readNat t.mem (lsAddr 0 0x108) 8 = 9) = true := by decide
/-- R131: words are full at reset; `ldfe` empties, `stfe` fills. -/
theorem test_ldfe : gives (exec (.ldfe (args 3 1 0 .w false 0)) (withBytes (withRegs small [(1, here 0x100)]) 0x100 4 6))
    (fun t => t.g 3 = 6 ∧ t.ms.empties = [wordNo (lsAddr 0 0x100)]) = true := by decide
theorem test_stfe_full : gives (exec (.stfe (args 3 1 0 .w false 0)) (withRegs small [(1, here 0x100), (3, 5)]))
    (fun t => t.ctx.wait = .away .fullEmpty ∧ t.ctx.attempts = 1 ∧ t.mem = []) = true := by decide

/-- R57, R162: 8-bit lanes wrap; with a guard on p1 the inactive lane keeps its content. -/
theorem test_vadd : gives (exec (.vadd ⟨1, false, 0, false⟩ 1 2 3)
      ((withVecs small [(1, lanes 1 8 [9, 9]), (2, lanes 1 8 [200, 1]), (3, lanes 1 8 [100, 1])]).setP 1 1))
    (fun t => t.v 1 = lanes 1 8 [44, 9]) = true := by decide
/-- R66: 1 + 2 = 3 on F32. -/
theorem test_vadd_f32 : gives (exec (.vadd all 1 2 3) (withVecs small [(2, lanes 8 32 [0x3F800000]), (3, lanes 8 32 [0x40000000])]))
    (fun t => laneAt (t.v 1) 32 0 = 0x40400000 ∧ t.ctx.ctl.fflags = 0) = true := by decide
/-- R55: two tags are a format fault, both in TVAL. -/
theorem test_vadd_tags : gives (exec (.vadd all 1 2 3) (withVecs small [(2, lanes 1 8 [1]), (3, lanes 8 32 [1])]))
    (fun t => t.ctx.ctl.tcause = 5 ∧ t.ctx.ctl.tval = 0x801) = true := by decide
theorem test_vslide : gives (exec (.vslide all 1 2 1) (withVecs small [(2, lanes 4 64 [1, 2, 3, 4, 5, 6, 7, 8])]))
    (fun t => t.v 1 = lanes 4 64 [0, 1, 2, 3, 4, 5, 6, 7]) = true := by decide
theorem test_vrot : gives (exec (.vrot all 1 2 1) (withVecs small [(2, lanes 4 64 [1, 2, 3, 4, 5, 6, 7, 8])]))
    (fun t => t.v 1 = lanes 4 64 [8, 1, 2, 3, 4, 5, 6, 7]) = true := by decide
theorem test_vredMax : gives (exec (.vredMax all 1 2) (withVecs small [(2, lanes 4 64 [1, 2, 9, 4, 5, 6, 7, 2 ^ 64 - 1])]))
    (fun t => t.v 1 = lanes 4 64 [9]) = true := by decide
/-- R67: the BF16 code of 1.0 from F32; lanes past the source's are zero (R168). -/
theorem test_vcvt : gives (exec (.vcvt all 9 1 2) (withVecs small [(2, lanes 8 32 (List.replicate 16 0x3F800000))]))
    (fun t => t.v 1 = lanes 9 16 (List.replicate 16 0x3F80)) = true := by decide
theorem test_vcmp : gives (exec (.vcmpLt ⟨0, false, 0, true⟩ 2 1 3) (withVecs small [(1, lanes 4 64 [1, 5]), (3, lanes 4 64 [2, 2 ^ 64 - 1])]))
    (fun t => t.p 2 = 3) = true := by decide
theorem test_pfirst : gives (exec (.pfirst 3 1) (small.setP 1 0x50)) (fun t => t.g 3 = 4) = true ∧
    gives (exec (.pcnt 3 0) small) (fun t => t.g 3 = 64) = true := by decide
theorem test_vext : gives (exec (.vext 3 1 1) (withVecs small [(1, lanes 1 8 [1, 0x80])])) (fun t => t.g 3 = 0xFFFF_FFFF_FFFF_FF80) = true := by
  decide
theorem test_acver : gives (exec (.acver 3 5) small) (fun t => t.g 3 = 0) = true := by decide
theorem test_barcfg : gives (exec (.barcfg 1 3) (withRegs small [(1, 129)])) (fun t => t.ctx.ctl.tcause = 1) = true ∧
    gives (exec (.barcfg 1 3) (withRegs small [(1, 128)])) (fun t => (t.barrier 0 3).count = 128) = true := by decide
theorem test_jpoll_none : gives (exec (.jpoll 3 1) small) (fun t => t.g 3 = 2) = true := by decide
theorem test_rput : gives (exec (.rputG 7 0 1 3) (withRegs small [(1, 42)]))
    (fun t => t.agenda.contains (12, .rputDelivery (0, 3) 1 (.g 7 42))) = true := by decide
theorem test_rputDelivery : gives (exec (.rputDelivery (3, 0) 1 (.g 7 42)) small) (fun t => t.g 7 = 42 ∧ t.ctx.ctl.wake) = true := by decide
/-- R144: the visit of position 0 in cycle 8 gives its holder the turn. -/
theorem test_visit : gives (exec (.rotationVisit 0) small) (fun t => t.turn ∧ t.cur = 0 ∧ t.ctx.lastIssue = some 8) = true := by decide
theorem test_reset_step : gives (step State.reset) (fun t => t.cycle = 1) = true := by decide
/-- The very next step runs the word placed for it. -/
theorem test_withFetchWord : gives (step (State.reset.withFetchWord 64 (word 0 0x02 0 3 0 0 0 0 0 5))) (fun t => t.g 3 = 5) = true := by
  decide
/-! ## Witnesses: states that meet the hypotheses of the statements -/

/-- Job 1 as in `small`, with two more cores of the cluster bound to it and a second thread in slot 3. -/
def wide : State :=
  { small with
    cores := [(0, { Core.reset with job := some 1, slices := 2 }), (1, { Core.reset with job := some 1, slices := 2 })],
    ctxs := [(3, { thread with pc := 0x5000 })] }
/-- The thread has nothing on its way. -/
def quiet : State := { wide with ctx := { thread with skipWatch := true } }
/-- A request of thread 0 for a line, and a store of it in the queue of core 0. -/
def request (src : Src) (kind : ReqKind) (pol : Policy) (line : Nat) (mask : BitVec 64) : Req :=
  ⟨src, kind, pol, false, 0, 1, line, mask, 0, 0, 0, 0, [], false⟩
def entryOf (sent : Bool) : SQEntry := ⟨0, 0, request (.queue 0 0) .store .wt 0 1, [], .core, sent, 0⟩
/-- A state whose thread waits for something. -/
def waiting (r : Reason) : State := withCtx small fun c => { c with wait := .away r }

theorem witness_EncodedInstructionsDecodeBack : ∃ i bs, Instr.wellFormed i = true ∧ encodeBytes i = some bs :=
  ⟨.nop, _, by decide, rfl⟩
theorem witness_DecodedBytesAreTheEncoding : ∃ bs i rest, decodeBytes bs = .ok (i, rest) := ⟨_, _, _, test_decode_nop⟩

theorem witness_ComparesConstantsSelectsAndFields : small.hasG [1, 2, 3] = true ∧ bitFieldOk 0 64 = true ∧ bitFieldOk 63 1 = true := by
  decide
theorem witness_IntegerInstructionsWriteTheirResult : small.hasG [1, 2, 3] = true ∧
    (waiting .longArith).ctx.wait = .away .longArith := by decide
theorem witness_BranchesGoToTheirTarget : small.hasG [1, 2] = true ∧ small.g 1 = small.g 2 ∧
    ¬ (withRegs small [(1, 1)]).g 1 = (withRegs small [(1, 1)]).g 2 := by decide

theorem witness_TrapAndBreakAreTaken :
    (Delegated small 16 ∧ Delegated small 15 ∧ (small.cluster small.myCluster).dbg.dctl.getLsbD 5 = false) ∧
    (¬ Delegated (inMode small 1) 16 ∧ (inMode small 1).ctx.unit.group = none ∧ (inMode small 1).ctx.unit.holder = 0 ∧
      (Table.get? ((inMode small 1).core 0).reserved 0).isNone = true) ∧
    (∃ s : State, (s.cluster s.myCluster).dbg.dctl.getLsbD 5 = true ∧ s.ctx.ctl.mode ≠ 2 ∧ (s.cluster s.myCluster).dbg.halted = false) := by
  unfold Delegated
  exact ⟨by decide, by decide, small.modCluster 0 fun c => { c with dbg := { c.dbg with dctl := 32 } }, by decide⟩

/-- A leaf of a mapped page in DRAM: code, policy 1, domain 5, kind 1, frame 3 (R343). -/
def leaf3 : Word := BitVec.ofNat 64 (3 + 4 + 0x10 + 0x80 + 5 * 2 ^ 22 + 3 * 2 ^ 38)
/-- The page at 0x10000 is in core 0's caches, readable and writable, and its first line in the instruction cache. -/
def paged : State :=
  quiet.modCore 0 fun c => { c with
    attrs := [{ page := 1, big := false, leaf := leaf3 }], rights := [{ domain := 5, rights := 3, keyhi := 0 }],
    icache := [{ job := 1, line := 0x400, data := 0x14 }] }

theorem witness_TrapReturnRestoresTheMode :
    (∃ s : State, s.ctx.ctl.mode ≠ 0 ∧ s.ctx.ctl.pmode ≠ 3 ∧
      ∃ h, s.fetchHead s.ctx.ctl.tepc = .ok h s ∧ isRepeat h = false) ∧
    (∃ s : State, s.ctx.ctl.mode ≠ 0 ∧ s.ctx.ctl.pmode ≠ 3 ∧ ∃ h, s.fetchHead s.ctx.ctl.tepc = .ok h s ∧ isRepeat h = true ∧
      s.fetchHead (s.ctx.ctl.tepc + 8) = .ok h s) ∧
    ((inMode small 2).modCtl fun c => { c with pmode := 3 }).ctx.ctl.pmode = 3 ∧ Delegated small 2 :=
  ⟨⟨inMode (paged.modCtl fun c => { c with tepc := 0x10000 }) 1, by decide, by decide, 0x14, by rfl, by decide⟩,
    ⟨(inMode (paged.modCtl fun c => { c with tepc := 0x10000 }) 1).modCore 0 fun c =>
      { c with icache := c.icache.map fun l => { l with data := BitVec.ofNat 512 (0x78 + 0x78 * 2 ^ 64) } },
      by decide, by decide, 0x78, by rfl, by decide, by rfl⟩, by decide,
    by unfold Delegated; decide⟩

theorem witness_ControlRegistersReadAndWrite :
    (inMode small 2).ctx.ctl.mode = 2 ∧ Delegated small 2 ∧ Delegated small 1 ∧ small.hasG [1] = true ∧
    (0x00C : BitVec 12) ∈ userWritable ∧ crRangeOk 0x00C 0xFFFF = true ∧ small.ctx.rep = none ∧
    (0x009 : BitVec 12) ∈ handlerWritable ∧ crRangeOk 0x009 1023 = true ∧ (0x014 : BitVec 12) ∈ systemWritable ∧
    crRangeOk 0x014 0xFFFF = true ∧ crRangeOk 2 0xA = true ∧ (0x000 : BitVec 12) ∈ userWritable ∧ crRangeOk 0x000 5 = false := by
  unfold Delegated userWritable handlerWritable systemWritable; decide

theorem witness_ThreadsWaitYieldAndExit :
    ((small.modCtl fun c => { c with wake := true }).ctx.ctl.wake = true ∧ small.ctx.ctl.wake = false) ∧
    (small.hasG [1] = true ∧ (small.g 1).toNat = small.cur ∧ small.cur < 65536 ∧ small.boundTo small.myCore small.ctx.job = true) ∧
    (∃ s : State, s.hasG [1] = true ∧ (s.g 1).toNat < 65536 ∧ (s.g 1).toNat ≠ s.cur ∧
      s.boundTo (coreOf (s.g 1).toNat) s.ctx.job = true ∧ (s.ctxAt (s.g 1).toNat).inst = true ∧
      (s.ctxAt (s.g 1).toNat).job = s.ctx.job) ∧
    (small.othersWait = false ∧ wide.othersWait = true) ∧
    (small.ctx.sent ≤ small.cycle ∧ small.ctx.pkgAt ≤ small.cycle ∧ small.ctx.msgAt ≤ small.cycle ∧ small.storesDone small.cur = true ∧
      small.messagesDone small.cur = true ∧ small.enginesDone small.cur = true) ∧
    (∃ s : State, s.ctx.sent ≤ s.cycle ∧ s.ctx.pkgAt ≤ s.cycle ∧ s.ctx.msgAt ≤ s.cycle ∧ (s.core s.myCore).queue.any (fun e => e.thread = s.cur) = true) :=
  ⟨by decide, by decide, ⟨withRegs wide [(1, 3)], by decide⟩, by decide, by decide,
    small.modCore 0 fun c => { c with queue := [entryOf false] },
    by decide⟩

theorem witness_PresenceAndTaint :
    (absentG small 2).hasG [1, 2] = false ∧ (absentG small 2).hasG [3, 1, 2] = false ∧ (small.ctx.putAt ≠ small.cycle) ∧
    Delegated small 1 ∧ (∃ s : State, s.ctx.putAt = s.cycle ∧ s.ctx.putG.getLsbD 5 = true ∧ s.ctx.regs.hasG 5 = true) := by
  unfold Delegated
  exact ⟨by decide, by decide, by decide, by decide, withCtx small fun c => { c with putAt := 8, putG := 32 }, by decide⟩

theorem witness_HardwareLoopsCount :
    (let s := withRegs small [(1, 0xFFFFFFFF)]
     s.hasG [1] = true ∧ (s.g 1).toNat < 2 ^ 32 ∧ s.g 1 ≠ 0 ∧ s.ctx.loops.active = 0 ∧ s.ctx.rep = none ∧
      s.ctx.pc + (2 : BitVec 17).signExtend 64 * 4 ≠ s.ctx.pc) ∧
    (∃ (s : State) (h : Nat), s.hasG [1] = true ∧ s.fetchHead (s.ctx.pc + (2 : BitVec 17).signExtend 64 * 4) = .ok h s ∧
      s.g 1 = 0 ∧ ∀ j : Fin 3, s.ctx.loops.active.getLsbD j.val = false) ∧
    (2 ^ 32 ≤ ((withRegs small [(1, 0x100000000)]).g 1).toNat ∧ Delegated (withRegs small [(1, 0x100000000)]) 1) ∧
    (∃ s : State, s.hasG [1] = true ∧ (s.g 1).toNat < 2 ^ 32 ∧ Delegated s 9 ∧ ∃ j : Fin 3, j < 1 ∧
      s.ctx.loops.active.getLsbD j.val = true ∧ s.ctx.loops.le[j].toNat < (s.ctx.pc + (2 : BitVec 17).signExtend 64 * 4).toNat) ∧
    (∃ s : State, s.ctx.rep = none ∧ s.ctx.loops.active.getLsbD 0 = true ∧ s.ctx.loops.le[0] = s.ctx.pc ∧
      (∀ j : Fin 3, 0 < j → ¬ (s.ctx.loops.active.getLsbD j.val = true ∧ s.ctx.loops.le[j] = s.ctx.pc)) ∧ s.ctx.loops.lc[0] ≠ 1) ∧
    (∃ s : State, s.ctx.rep = none ∧ s.ctx.loops.active.getLsbD 0 = true ∧ s.ctx.loops.le[0] = s.ctx.pc ∧
      (∀ j : Fin 3, 0 < j → ¬ (s.ctx.loops.active.getLsbD j.val = true ∧ s.ctx.loops.le[j] = s.ctx.pc)) ∧ s.ctx.loops.lc[0] = 1) := by
  unfold Delegated
  refine ⟨by decide, ⟨withCtx paged fun c => { c with pc := 0x10000 - 8 }, 0x14, by decide, by rfl, by decide⟩, by decide,
    ⟨withCtx small fun c => { c with loops := { c.loops with active := 1 } }, by decide⟩,
    ⟨withCtx small fun c => { c with loops := { c.loops with active := 1, le := c.loops.le.set 0 0x1000 } }, by decide⟩,
    withCtx small fun c => { c with loops := { c.loops with active := 1, le := c.loops.le.set 0 0x1000, lc := c.loops.lc.set 0 1 } },
    by decide⟩

/-- `add g1, g2, g3` after an `rpt`. -/
def repeated : State := withCtx small fun c => { c with follow := (BitVec.ofNat 128 (word 0 0x01 0 1 2 3 0 0 0 0), 0) }
theorem witness_RepeatsAdvanceTheirIndex :
    (let w := BitVec.ofNat 128 (word 0 0x01 0 1 2 3 0 0 0 0)
     repeated.ctx.follow = (w, 0) ∧ notAfterRpt w (wordBytes (Fin.ofNat 4 w.toNat)) = false ∧
      repeated.ctx.ctl.rptix < 29 ∧ rangeBreak w 29 1 = none ∧ rangeBreak w 30 1 = some 29 ∧ Delegated repeated 8 ∧
      repeated.ctx.rep = none ∧ repeated.ctx.loops.active = 0) ∧
    (∃ s : State, s.ctx.rep = some (2, 1) ∧ s.hasG [1, 2] = true ∧ s.ctx.loops.active = 0 ∧
      s.ctx.ctl.rptix.toNat + 1 < (2 : BitVec 10).toNat) ∧
    (∃ s : State, s.ctx.rep = some (2, 1) ∧ s.hasG [1, 2] = true ∧ s.ctx.loops.active = 0 ∧
      (2 : BitVec 10).toNat ≤ s.ctx.ctl.rptix.toNat + 1) := by
  unfold Delegated
  exact ⟨by decide, ⟨withCtx small fun c => { c with rep := some (2, 1) }, by decide⟩,
    withCtx (small.modCtl fun c => { c with rptix := 1 }) fun c => { c with rep := some (2, 1) }, by decide⟩

/-! ### Scalar memory -/

theorem witness_ReachesLocal : ReachesLocal (withRegs quiet [(1, here 0x7FFC)]) (here 0x7FFC) 4 true false 0 0x7FFC ∧
    ReachesLocal quiet (BitVec.ofNat 64 (0xFF00000000000000 + 2 ^ 19)) 8 false true 1 0 := by
  unfold ReachesLocal; decide
theorem witness_ScalarLoadsAndStoresComplete :
    (let s := withRegs quiet [(1, here 0x7FFC)]
     let m := args 3 1 0 .w true 0
     s.hasG [m.d, m.a, m.b] = true ∧ m.ord = .plain ∧ addrOf s m = here 0x7FFC ∧ s.poisonIn (lsAddr 0 0x7FFC) 4 = none ∧
      s.mem.wf = true ∧ s.performed m.scope false = true) ∧
    (∃ s : State, s.performed .clu false = false ∧ s.ctx.doneAt .clu ≤ s.cycle ∧ s.hasG [3, 1, 0] = true ∧ s.mem.wf = true ∧
      ReachesLocal s (addrOf s { args 3 1 0 .w false 0 with ord := .one, scope := .clu }) 4 false true 0 0) ∧
    (∃ (s : State) (x : Attr) (l : L1Line), addrOf s (args 3 1 0 .w false 4) = 0x1003C ∧ PageAtHand s 0x1003C .read x ∧
      s.ctx.skipWatch = true ∧ leafKind x.leaf ≠ 0 ∧ loadPol .pd x ≠ .unc ∧
      (s.core s.myCore).l1Find s.ctx.job (0x1003C / 64) = some l ∧ l.registered = 0xFFFF ∧ l.aliased = false ∧
      (s.core s.myCore).queue = [] ∧ s.ctx.gather = [] ∧ s.ctx.asked = [] ∧ s.behindPush [(addrOf s (args 3 1 0 .w false 4), 4)] = false) := by
  refine ⟨by decide, ⟨(withRegs quiet [(1, here 0)]).modCore 0 fun c => { c with queue := [entryOf true] },
    by decide, by decide, by decide, by decide, by unfold ReachesLocal addrOf; decide⟩,
    (withRegs paged [(1, 0x10038)]).modCore 0 fun c => { c with l1 := [⟨1, 0x400, 0, 7, 0xFFFF, 0, [], 0, 0, 0, 16, false⟩] },
    ⟨1, false, leaf3⟩, ⟨1, 0x400, 0, 7, 0xFFFF, 0, [], 0, 0, 0, 16, false⟩, by unfold addrOf; decide,
    by unfold PageAtHand; rfl, by decide, by decide, by decide, by decide, by decide, by decide, by decide, by decide, by decide, by unfold addrOf; decide⟩
/-- Address 0x8000 past the local store, an address of no window, and a core that is not bound. -/
theorem witness_BadAddressesFault :
    (quiet.hasG [3, 1, 0] = true ∧ quiet.hasG [1, 0, 4] = true ∧ Delegated quiet 10 ∧ Delegated quiet 11 ∧ ∀ a, quiet.behindPush [(a, 4)] = false) ∧
    targetOf quiet.myCore (addrOf (withRegs quiet [(1, 0x80000000000000)]) (args 3 1 0 .w false 0)) = .none ∧
    (targetOf quiet.myCore (addrOf (withRegs quiet [(1, here 0x8000)]) (args 3 1 0 .w false 0)) = .ls 0 0x8000 ∧ quiet.lsSize 0 ≤ 0x8000) ∧
    (∃ s : State, targetOf s.myCore (addrOf s (args 3 1 0 .w false 0)) = .ls 2 0x7FFC ∧ 0x7FFC + 4 ≤ s.lsSize 2 ∧
      s.boundTo 2 s.ctx.job = false ∧ Delegated s 11) := by
  unfold Delegated addrOf
  exact ⟨⟨by decide, by decide, by decide, by decide, fun _ => rfl⟩, by decide, by decide,
    (withRegs quiet [(1, BitVec.ofNat 64 (0xFF00000000000000 + 2 * 2 ^ 19 + 0x7FFC))]).modCore 2 fun c => { c with job := some 2, slices := 2 },
    by decide⟩

def amo (d a b c : GReg) : AmoArgs := ⟨d, a, b, c, .w, .pd, .plain, .core, 0⟩
theorem witness_LocalAtomicsReturnTheOldValue :
    (let s := withRegs quiet [(1, here 0x7FFC)]
     s.hasG [1, 0, 4] = true ∧ (amo 3 1 0 4).amoOk = true ∧ 0x7FFC % 4 = 0 ∧ s.mem.wf = true ∧
      s.poisonIn (lsAddr 0 0x7FFC) 4 = none ∧ ReachesLocal s (s.ea 1 0 0 0) 4 true true 0 0x7FFC ∧
      ReachesLocal s (s.g 1 + (0 : BitVec 32).signExtend 64) 4 true true 0 0x7FFC) := by
  unfold ReachesLocal; decide

def emptied : State := (withRegs quiet [(1, here 0)]).setFull (feWords 0 0 8) false
theorem witness_FullEmptyAccessesPerform :
    (let s := withRegs quiet [(1, here 0)]
     let m := args 3 1 0 .d false 0
     s.hasG [m.d, m.a, m.b] = true ∧ s.mem.wf = true ∧ s.poisonIn (lsAddr 0 0) 8 = none ∧
      ReachesLocal s (addrOf s m) 8 true false 0 0 ∧ allFull s 0 0 8 ∧
      ReachesLocal emptied (addrOf emptied m) 8 false true 0 0 ∧ allEmpty emptied 0 0 8) := by
  unfold ReachesLocal addrOf allFull allEmpty; decide

theorem witness_FencesOrderTheThread :
    (noStreams quiet ∧ quiet.performed .sys true = true ∧ quiet.hasG [1] = true) ∧
    (∃ s : State, noStreams s ∧ s.performed .clu false = false ∧ s.ctx.doneAt .clu ≤ s.cycle) ∧
    ((withRegs quiet [(1, 0x10000)]).hasG [1] = true ∧ ((withRegs quiet [(1, 0x10000)]).g 1).toNat = 0x10000 ∧ (quiet.g 1).toNat = 0 ∧
      inScope .clu true quiet.myCore 0 = true ∧ inScope .clu false quiet.myCore 0 = true ∧ quiet.boundTo 0 quiet.ctx.job = true ∧
      quiet.ctx.asked = []) ∧
    (withCtx quiet fun c => { c with asked := [2] }).ctx.asked = [2] ∧
    (((withRegs quiet [(1, 0x70)]).g 1).toNat / 16 % 4096 = 7 ∧ inScope .clu false quiet.myCore 7 = true ∧ quiet.boundTo 7 quiet.ctx.job = false ∧
      Delegated quiet 11 ∧ inScope .core false quiet.myCore 7 = false) ∧
    (2 ^ 17 ≤ ((withRegs quiet [(1, 0x20000)]).g 1).toNat ∧ Delegated (withRegs quiet [(1, 0x20000)]) 10) := by
  unfold Delegated noStreams
  exact ⟨by decide, ⟨quiet.modCore 0 fun c => { c with queue := [entryOf true] },
    by decide⟩, by decide, by decide, by decide, by decide⟩

/-! ### Vectors -/

/-- Lanes of I8 and of F32 in v2 and v3. -/
def bytes : State := withVecs quiet [(2, lanes 1 8 [1, 0x80]), (3, lanes 1 8 [2, 3]), (4, lanes 1 8 [0])]
def floats : State := withVecs quiet [(2, lanes 8 32 [0x3F800000]), (3, lanes 8 32 [0x40000000]), (4, lanes 8 32 [0])]
theorem witness_VectorLanesAreComputed :
    (intTag 1 = true ∧ (bytes.v 2).tag = 1 ∧ (bytes.v 3).tag = 1 ∧ (bytes.v 4).tag = 1 ∧ VReady bytes true 1 [2, 3, 4]) ∧
    ((floats.v 3).tag ≠ 1 ∧ Delegated bytes 5 ∧ (bytes.v 5).tag ≠ 1) ∧
    (arithFloat 8 = true ∧ (floats.v 2).tag = 8 ∧ (floats.v 3).tag = 8 ∧ (floats.v 4).tag = 8 ∧ VReady floats true 1 [2, 3, 4] ∧
      Delegated floats 5) := by
  unfold VReady Delegated noStreams; decide
theorem witness_LongVectorOperations :
    (VReady bytes true 1 [2, 3] ∧ VReady floats true 1 [2, 3]) ∧ (waiting .longArith).ctx.wait = .away .longArith ∧
    noStreams (waiting .longArith) := by
  unfold VReady noStreams; decide
/-- A register with two BFP8 blocks. -/
def blocks : State := withVecs floats [(5, { bits := 7, tag := 22, side := 0x8081 })]
theorem witness_ConversionsAndMovesWriteTheirResult :
    (hasLanes 1 = true ∧ hasLanes 8 = true ∧ (bytes.v 2).tag = 1 ∧ VReady bytes true 1 [2, 3] ∧ bytes.hasG [1] = true) ∧
    ((63 : BitVec 6).toNat < lanesOf 1 ∧ lanesOf 8 ≤ (16 : BitVec 6).toNat ∧ floats.ctx.ctl.mode = 0 ∧
      floats.ctx.ctl.tdeleg.getLsbD 6 = true) ∧
    (2 ≤ (8 : BitVec 4).toNat ∧ (1 : BitVec 3).toNat < 16 / (8 : BitVec 4).toNat ∧ 16 / (8 : BitVec 4).toNat ≤ (2 : BitVec 3).toNat) ∧
    (bfpSources 8 2 = some [2, 3] ∧ (∀ r ∈ ([2, 3] : List VIdx), (floats.v r).tag = 8) ∧ VReady floats true 1 [2, 2, 3]) ∧
    ((blocks.v 5).tag = bfpTagOf 8 ∧ VReady blocks false 1 [5] ∧ Delegated blocks 5) := by
  unfold VReady Delegated noStreams; decide
theorem witness_CrossLaneInstructionsWriteTheirResult :
    (hasLanes 1 = true ∧ (bytes.v 2).tag = 1 ∧ VReady bytes true 1 [2, 3] ∧ (bytes.v 3).tag = intTagOf (laneWidth 1)) ∧
    (∃ s : State, (s.v 2).tag = 1 ∧ VReady s true 1 [2] ∧ s.ctx.ctl.mode = 0 ∧ s.ctx.ctl.tdeleg.getLsbD 6 = true ∧
      s.active ⟨1, false, 0, false⟩ 1 = true ∧ slideFrom 1 (lanesOf 1) 1 = some 0 ∧ (s.p 1).getLsbD 0 = false) ∧
    (∀ j, slideFrom 1 (lanesOf 1) 63 = some j → (quiet.p 0).getLsbD j = true) ∧
    (VReady floats false 1 [2] ∧ arithFloat 8 = true) := by
  unfold VReady noStreams
  refine ⟨by decide, ⟨bytes.setP 1 2, by decide⟩, ?_, by decide⟩
  intro j h
  rw [show slideFrom 1 (lanesOf 1) 63 = some 62 by decide] at h
  cases h; decide
theorem witness_PredicatesAreWritten :
    (VReady bytes false 2 [2, 3] ∧ intTag 1 = true ∧ VReady floats false 2 [2, 3] ∧ arithFloat 8 = true ∧ floatTag 10 = true) ∧
    bytes.hasG [1] = true := by
  unfold VReady noStreams; decide

/-! ### Vector memory -/

def vargs (pg : PReg) (d : VIdx) (a : GReg) : VMemArgs := ⟨⟨pg, false, 0, false⟩, d, a, .pd, .plain, .core, 0⟩
/-- A span of a small local store, shown by its ends. -/
theorem span_here (s : State) (a : Word) (n core off : Nat) (ha : ∀ i : Fin 64, targetOf s.myCore (a + BitVec.ofNat 64 i) = .ls core (off + i))
    (hn : n ≤ 64) (h1 : off + n ≤ s.lsSize core) (h2 : s.boundTo core s.ctx.job = true) (h3 : near s.myCore core = true)
    (h4 : s.portsNow core = 0) (h5 : s.poisonIn (lsAddr core off) n = none) (h6 : s.ctx.skipWatch = true) :
    SpanHere s a n core off :=
  ⟨fun i h => ha ⟨i, by omega⟩, h1, h2, h3, fun i _ => by simp [h4], h5, .inl h6⟩

theorem witness_VectorAndWideningLoads :
    (∃ s : State, VReady s true 1 [] ∧ s.hasG [1, 2] = true ∧ SpanHere s (vecAddr s (vargs 1 1 1)) 64 0 0x7FC0 ∧
      SpanHere s (vecAddr s (vargs 1 1 1)) 32 0 0x7FC0 ∧ SpanHere s (s.g 2) 2 0 0x100 ∧ SpanHere s (s.g 2) (bfpBlocks (bfpN 22)) 0 0x100) ∧
    lanesOf 1 * narrowBits 1 / 8 = 64 ∧ bfpTag 22 = true ∧ bfpBytes (bfpN 22) = 64 ∧ bfpBlocks (bfpN 22) = 2 := by
  refine ⟨⟨withRegs quiet [(1, here 0x7FC0), (2, here 0x100)], by unfold VReady noStreams; decide, by decide, ?_, ?_, ?_, ?_⟩, by decide⟩
  all_goals first
    | exact span_here _ _ _ _ _ (by decide) (by decide) (by decide) (by decide) (by decide) (by decide) (by decide) (by decide)
theorem witness_VectorStoresWriteTheirBytes :
    (∃ s : State, VReady s false 2 [2] ∧ s.hasG [1] = true ∧ s.mem.wf = true ∧ (s.core s.myCore).queue.length ≤ 64 ∧
      (s.v 2).tag = 1 ∧ wholeTag 1 = false ∧ SpanHere s (vecAddr s (vargs 1 2 1)) 64 0 0) ∧
    (∃ s : State, VReady s false 2 [2] ∧ (s.v 2).tag = 0 ∧ SpanHere s (vecAddr s (vargs 0 2 1)) 64 0 0) ∧
    (∃ s : State, VReady s false 5 [5] ∧ bfpTag (s.v 5).tag = true ∧ s.hasG [2] = true ∧
      SpanHere s (vecAddr s (vargs 0 5 1)) 64 0 0 ∧ SpanHere s (s.g 2) 2 0 64 ∧ lsAddr 0 0 + 64 ≤ lsAddr 0 64) ∧
    (merges (vargs 1 5 1).m = true ∧ wholeTag 22 = true ∧ (blocks.v 5).tag = 22 ∧ Delegated blocks 5) ∧
    (bfpTag (bytes.v 2).tag = false ∧ Delegated bytes 1) := by
  refine ⟨⟨withRegs bytes [(1, here 0)], by unfold VReady noStreams; decide, by decide, by decide, by decide, by decide, by decide, ?_⟩,
    ⟨withRegs quiet [(1, here 0)], by unfold VReady noStreams; decide, by decide, ?_⟩,
    ⟨withRegs blocks [(1, here 0), (2, here 64)], by unfold VReady noStreams; decide, by decide, by decide, ?_, ?_, by decide⟩,
    by unfold Delegated; decide, by unfold Delegated; decide⟩
  all_goals exact span_here _ _ _ _ _ (by decide) (by decide) (by decide) (by decide) (by decide) (by decide) (by decide) (by decide)
theorem witness_GatherScatterAndDistribution :
    (∃ (s : State) (at_ : Nat → Nat × Nat), s.hasG [1] = true ∧ elementTag 4 = true ∧ intTag (s.v 3).tag = true ∧ s.ctx.inst = true ∧
      (s.core s.myCore).queue.length ≤ 64 ∧ (∀ i, i < min (lanesOf 4) (lanesOf (s.v 3).tag) → s.active (vargs 0 2 1).m i = true →
        SpanHere s (elementAddr s (vargs 0 2 1) 3 i) 8 (at_ i).1 (at_ i).2) ∧
      VReady s false 2 [2, 3] ∧ (s.v 2).tag = 4) ∧
    (∃ (s : State) (tb : DistTable), s.hasG [1] = true ∧ ReachesLocal s (s.g 1) 16 true false 0 0 ∧ s.poisonIn (lsAddr 0 0) 16 = none ∧
      tableOf (s.mem.readBytes (lsAddr 0 0) 16) = some tb) ∧
    (∃ s : State, (s.core s.myCore).tables.toList[0]? = some (some ⟨0, 3, 4, 4095, 2, 1⟩) ∧ s.hasG [1] = true ∧ Delegated s 10 ∧
      (0 ≤ (4095 : Int) + ((s.g 1).toNat / 2 ^ 4 % 2 : Nat) * (1 : BitVec 16).toInt ∧
        (4095 : Int) + ((s.g 1).toNat / 2 ^ 4 % 2 : Nat) * (1 : BitVec 16).toInt ≤ 4095) ∧
      ¬ (4095 : Int) + ((16 : Nat) / 2 ^ 4 % 2 : Nat) * (1 : BitVec 16).toInt ≤ 4095 ∧
      (s.v 2).tag = 4 ∧ VReady s false 1 [2]) := by
  refine ⟨⟨withVecs (withRegs quiet [(1, here 0)]) [(2, lanes 4 64 [1]), (3, lanes 4 64 [8, 8, 8, 8, 8, 8, 8, 8])], fun _ => (0, 8),
      by decide, by decide, by decide, by decide, by decide, ?_, by unfold VReady noStreams; decide, by decide⟩,
    ⟨withBytes (withRegs quiet [(1, here 0)]) 10 2 1, ⟨0, 0, 0, 0, 1, 0⟩, by decide, by unfold ReachesLocal; decide, by decide, by decide⟩,
    ⟨withVecs (quiet.modCore 0 fun c => { c with tables := c.tables.set 0 (some ⟨0, 3, 4, 4095, 2, 1⟩) }) [(2, lanes 4 64 [0])],
      by decide, by decide, by unfold Delegated; decide, by decide, by decide, by decide, by unfold VReady noStreams; decide⟩⟩
  intro i hi _
  have h : elementAddr (withVecs (withRegs quiet [(1, here 0)]) [(2, lanes 4 64 [1]), (3, lanes 4 64 [8, 8, 8, 8, 8, 8, 8, 8])])
      (vargs 0 2 1) 3 i = here 8 := by
    have : ∀ j : Fin 8, elementAddr (withVecs (withRegs quiet [(1, here 0)]) [(2, lanes 4 64 [1]),
        (3, lanes 4 64 [8, 8, 8, 8, 8, 8, 8, 8])]) (vargs 0 2 1) 3 j.val = here 8 := by unfold elementAddr lane; decide
    exact this ⟨i, by
      have hb : min (lanesOf 4) (lanesOf ((withVecs (withRegs quiet [(1, here 0)]) [(2, lanes 4 64 [1]),
        (3, lanes 4 64 [8, 8, 8, 8, 8, 8, 8, 8])]).v 3).tag) = 8 := by decide
      omega⟩
  rw [h]
  show SpanHere _ _ 8 0 8
  exact span_here _ _ _ _ _ (by decide) (by decide) (by decide) (by decide) (by decide) (by decide) (by decide) (by decide)

/-- A stream of two units of 64 bytes from the start of the local store up. -/
def stream (write : Bool) (next : Nat) (buf : List StreamUnit) : Stream :=
  ⟨write, false, here 0, 2, 1, 1, 0, .pd, 64, 0, 0, next, buf, [], [], [], 0⟩
def streaming (st : Stream) : State := withCtx quiet fun c => { c with streams := c.streams.set 0 (some st) }
theorem witness_StreamsFeedAndDrain :
    (∃ (s : State) (st : Stream), s.hasG [1] = true ∧ ReachesLocal s (s.g 1 + (0 : BitVec 32).signExtend 64) 48 true false 0 0 ∧
      s.poisonIn (lsAddr 0 0) 48 = none ∧ streamOf false false (s.mem.readBytes (lsAddr 0 0) 48) = some st ∧ s.pushing 0 = false) ∧
    (∀ n ∈ [0, 20], let st : Stream := { stream true 1 [.data 5] with sent := n }
     let s := withRegs (streaming st) [(1, here 0x100)]
     s.ctx.streams[(0 : Fin 4)] = some st ∧ s.pushing 0 = true ∧ s.hasG [1] = true ∧
      ReachesLocal s (s.g 1 + (0 : BitVec 32).signExtend 64) 48 true false 0 0x100 ∧ s.poisonIn (lsAddr 0 0x100) 48 = none ∧
      (streamOf true false (s.mem.readBytes (lsAddr 0 0x100) 48)).isSome = true) ∧
    (∃ st : Stream, (streaming st).ctx.streams[(0 : Fin 4)] = some st ∧ st.write = false ∧ st.next < st.units ∧ st.buf = [.data 5]) ∧
    (∃ st : Stream, (streaming st).ctx.streams[(0 : Fin 4)] = some st ∧ st.write = true ∧ st.next < st.units ∧ st.buf.length < 4 ∧
      st.tag = 0 ∧ SpanHere (streaming st) (st.addr st.next) 64 0 0) ∧
    (∃ st : Stream, st.write = true ∧ st.buf = [.data 5] ∧ st.sent ≤ (streaming st).cycle ∧ (streaming st).ctx.inst = true ∧ (streaming st).mem.wf = true ∧
      ((streaming st).core (streaming st).myCore).queue = [] ∧ SpanHere (streaming st) (st.addr (st.next - st.buf.length)) 64 0 0) ∧
    (∃ st : Stream, st.write = false ∧ st.buf = [] ∧ st.units = st.next + 1 ∧ (streaming st).behindPush [(st.addr st.next, 64)] = false ∧
      (streaming st).ctx.inst = true ∧ (streaming st).storeComing 0 0 = false ∧ SpanHere (streaming st) (st.addr st.next) 64 0 64) ∧
    (let st := stream false 1 [.comes 5 8]
     st.write = false ∧ st.buf = [.comes 5 8] ∧ 8 ≤ (streaming st).cycle ∧ st.units = st.next + 1 ∧ (streaming st).ctx.inst = true) := by
  refine ⟨⟨withRegs quiet [(1, here 0)], stream false 0 [] |> fun _ => ⟨false, false, 0, 0, 0, 0, 0, .pd, 0, 0, 0, 0, [], [], [], [], 0⟩,
      by decide, by unfold ReachesLocal; decide, by decide, by decide, by decide⟩, by unfold ReachesLocal; decide,
    ⟨stream false 1 [.data 5], by decide⟩, ⟨stream true 0 [], by decide, by decide, by decide, by decide, by decide, ?_⟩,
    ⟨stream true 1 [.data 5], by decide, by decide, by decide, by decide, by decide, by decide, ?_⟩,
    ⟨stream false 1 [], by decide, by decide, by decide, by decide, by decide, by decide, ?_⟩, by decide⟩
  all_goals exact span_here _ _ _ _ _ (by decide) (by decide) (by decide) (by decide) (by decide) (by decide) (by decide) (by decide)

/-! ### The matrix unit and the copy unit -/

def mmaArgs (job : Bool) : MmaArgs := ⟨0, 1, 2, 3, 4, job, false, 8, 3, 64, 8, 0⟩
def tiles : State := withRegs quiet [(1, here 0), (2, here 0x300), (3, 575)]
def someOp (acc ver : Nat) : MatrixOp := ⟨acc, true, 2, 0, 64, 8, BitVec.ofNat 16 ver, 0, 0, 0, none, 0, 0⟩
theorem witness_MatrixOperationsAreQueuedAndRun :
    (tiles.hasG [1, 2, 3] = true ∧ targetOf tiles.myCore (tiles.g 1) = .ls 0 0 ∧ targetOf tiles.myCore (tiles.g 2) = .ls 0 0x300 ∧
      clusterOf 0 = tiles.myCluster ∧ tiles.boundTo 0 tiles.ctx.job = true ∧ 0x300 % 4 = 0 ∧ 0 + 96 * 8 ≤ tiles.lsSize 0 ∧
      (tiles.g 3).toNat ≤ 575 ∧ (coreQueue tiles).length < 16 ∧ (tiles.freeJob tiles.myCluster).isSome = true) ∧
    (∃ s : State, 16 ≤ (coreQueue s).length) ∧
    (∃ s : State, targetOf s.myCore (s.g 1) = .ls 8 0 ∧ targetOf s.myCore (s.g 2) = .ls 0 0 ∧ clusterOf 8 ≠ s.myCluster ∧ Delegated s 10) ∧
    (∃ s : State, (s.cluster 0).dbg.halted = false ∧ (∀ r ∈ (s.cluster 0).running, r.start + r.op.n ≤ s.cycle) ∧
      (s.cluster 0).queues[(0 : Fin 8)] = [someOp 0 0] ∧ s.eligible 0 (someOp 0 0) = true ∧ 0 < (s.cluster 0).credit[(0 : Fin 8)] ∧
      ∀ i : Fin 8, i ≠ 0 → (s.cluster 0).queues[i] = []) ∧
    (∃ (s : State) (r : MatrixRun), (s.cluster 0).running = [r] ∧ r.start + 2 + r.op.n ≤ s.cycle ∧ r.op.jid = none ∧ r.op.rows ≤ 8 ∧
      r.op.cols ≤ 64 ∧ Rising ((s.cluster 0).acc r.op.acc).data ∧ r.op.clear = true) := by
  unfold Delegated Rising coreQueue
  exact ⟨by decide, ⟨quiet.modCluster 0 fun c => { c with queues := c.queues.set 0 (List.replicate 16 (someOp 0 0)) }, by decide⟩,
    ⟨withRegs quiet [(1, BitVec.ofNat 64 (0xFF00000000000000 + 8 * 2 ^ 19)), (2, here 0)], by decide⟩,
    ⟨quiet.modCluster 0 fun c => { c with queues := c.queues.set 0 [someOp 0 0] }, by decide⟩,
    quiet.modCluster 0 fun c => { c with running := [⟨someOp 0 0, 2, [], []⟩] }, ⟨someOp 0 0, 2, [], []⟩, by decide⟩

theorem witness_AccumulatorsAreRead :
    (quiet.hasG [1, 2, 3] = true ∧ quiet.accReadable 0 (quiet.g 1) = true ∧ ((quiet.cluster 0).acc 0).poison = false ∧
      VReady quiet false 1 []) ∧
    (let s := withRegs quiet [(1, 1)]
     s.hasG [1] = true ∧ noStreams s ∧ s.accReadable 0 (s.g 1) = false) ∧
    (∃ s : State, s.hasG [1] = true ∧ noStreams s ∧ s.accReadable 0 (s.g 1) = true ∧ ((s.cluster s.myCluster).acc 0).poison = true ∧
      Delegated s 12) ∧
    (∃ s : State, s.checkAcst (s.g 1) (s.g 3) 8 256 = .ok (0, 0, 0) ∧ s.hasG [1, 2, 3] = true ∧ s.ctx.asked = [] ∧
      s.accReadable 0 (s.g 2) = true ∧ ((s.cluster s.myCluster).acc 0).poison = false) ∧
    (∀ n ∈ [0, 31], let s := withCtx quiet fun c => { c with asked := [acstMark, n, 0, 0, 0] }
      s.ctx.asked = [acstMark, n, 0, 0, 0] ∧
      (s.beatPorts (s.cellRows s.ctx.job (((acstPlaces 0 0 0 8 256).drop (64 * n)).take 64))).isSome = true ∧
      (n = 31 → (acstPlaces 0 0 0 8 256).length ≤ 64 * (n + 1)) ∧ (n = 0 → 64 * (n + 1) < (acstPlaces 0 0 0 8 256).length)) := by
  unfold VReady Delegated noStreams
  exact ⟨by decide, by decide, ⟨quiet.modCluster 0 fun c => { c with accs := [(0, ⟨[], 0, true⟩)] }, by decide⟩,
    ⟨withRegs quiet [(1, here 0)], okIs_spec _ _ (by decide), by decide⟩, by decide⟩

def command (ext : BitVec 64) (jid : Nat) : CopyCmd :=
  ⟨1, ext, 0, here 0, here 0x100, BitVec.ofNat 256 (64 + 2 ^ 32 + 2 ^ 64), 0, 0, 1, 0, jid, 0, 0, 0, 0, 0, [], 0⟩
def entry (state : BitVec 3) (jid : Nat) : JobEntry :=
  { JobEntry.reset with taken := true, state := state, cmd := some (command 0 jid), thread := 0 }
/-- The run of a command at a span and an offset. -/
def runAt (c : CopyCmd) (pos off : Nat) : CopyRun := ⟨c, pos, off, 0, 0, 0, none, [], [], 0, false, none, [], [], none, 0, []⟩
def run : CopyRun := runAt (command 0 0) 0 0
/-- Cluster 0 with one job-table entry and a running command on channel 0. -/
def copying (r : Option CopyRun) (st : BitVec 3) : State :=
  quiet.modCluster 0 fun c => { c with jobs := [(0, entry st 0)], channels := c.channels.set 0 { Channel.reset with run := r } }

theorem witness_CopyCommandsAreSubmitted :
    (let s := withRegs quiet [(1, here 0)]
     noStreams s ∧ (s.freeJob s.myCluster).isSome = true ∧ s.hasG [1, 2, 3] = true ∧
      (s.channel s.myCluster 15).queue.length < 8) ∧
    (withRegs quiet [(1, here 0)]).clusterSpan ((withRegs quiet [(1, here 0)]).g 1) 32 8 = .ok (0, 0) ∧
    (withRegs quiet [(1, here 0)]).clusterSpan ((withRegs quiet [(1, here 0)]).g 1) 64 8 = .ok (0, 0) ∧
    (∀ n ∈ [32, 64], let s := withRegs quiet [(1, here 0)]
     ReachesLocal s (s.g 1) n true false 0 0 ∧ s.poisonIn (lsAddr 0 0) n = none) ∧
    (∃ s : State, 8 ≤ (s.channel s.myCluster 0).queue.length) ∧
    (∃ s : State, s.jobOf s.myCluster (s.mem.readNat (lsAddr 0 0 + 18) 2) = some (entry 3 0) ∧ (entry 3 0).state = 3 ∧
      (entry 3 0).cmd = some (command 0 0) ∧ (s.channel s.myCluster (command 0 0).channel).queue.length < 8) ∧
    quiet.jobOf quiet.myCluster (quiet.mem.readNat (lsAddr 0 0 + 18) 2) = none := by
  unfold noStreams ReachesLocal
  exact ⟨by decide, okIs_spec _ _ (by decide), okIs_spec _ _ (by decide), by decide,
    ⟨quiet.modCluster 0 fun c => { c with channels := c.channels.set 0 { Channel.reset with queue := List.replicate 8 (command 0 0) } },
      by decide⟩, ⟨copying none 3, by decide⟩, by decide⟩

theorem witness_CommandsAreObserved :
    (quiet.hasG [1] = true ∧ (quiet.g 1).toNat < 65536 ∧ quiet.jobOf quiet.myCluster (quiet.g 1).toNat = none) ∧
    ((copying none 4).jobOf 0 0 = some (entry 4 0) ∧ 3 ≤ (entry 4 0).state ∧ 2 ≤ (entry 4 0).state ∧ (entry 1 0).state < 2 ∧
      (copying none 1).jobOf 0 0 = some (entry 1 0)) ∧
    (65536 ≤ ((withRegs quiet [(1, 65536)]).g 1).toNat ∧ Delegated (withRegs quiet [(1, 65536)]) 10) ∧
    (let e := { entry 2 0 with taken := false, bytes := 8 }
     let s := quiet.modCluster 0 fun c => { c with jobs := [(0, e)] }
     s.jobOf s.myCluster (s.g 1).toNat = none ∧ Table.getD (s.cluster s.myCluster).jobs ((s.g 1).toNat % 64) JobEntry.reset = e ∧
      e.gen.toNat = (s.g 1).toNat / 64 % 1024) ∧
    (quiet.g 1).toNat ≤ (quiet.channel 0 0).chwp.toNat ∧
    (quiet.channel 0 0).chwp.toNat < ((withRegs quiet [(1, 1)]).g 1).toNat := by
  unfold Delegated; decide

/-- A copy of 64 bytes within core 0 is at its first beat; then it has ended, and it has faulted. -/
theorem witness_CopyCommandsMoveAndEnd :
    (let s := copying (some run) 1
     Debug.copyHalted (s.cluster 0).dbg s.cycle = false ∧ (s.cluster 0).copyAt ≠ s.cycle ∧ s.agenda = [] ∧
      (s.channel 0 0).run = some run ∧ run.cmd.kind = 1 ∧ run.cmd.conv = 0 ∧ run.cmd.remote = false ∧ clusterOf run.cmd.core = 0 ∧
      run.cmd.channel = 0 ∧ run.fault = none ∧ run.stop = false ∧ run.snap = none ∧
      run.lost = [] ∧ run.got = [] ∧ run.pend = [] ∧
      (let rows (a : Nat) : List (Nat × Nat) := s.cellRows run.cmd.job ((List.range 64).map (a + ·))
       ((s.beatPorts (rows (lsAddr 0 0))).any fun u => (u.beatPorts (rows (lsAddr 0 0x100))).isSome) = true) ∧
      run.cmd.spans[run.pos]? = some ⟨here 0x100, 64, .bytes (here 0) 64, 0, 0⟩ ∧ run.off < 64 ∧ s.mem.wf = true ∧
      s.copyCheck run.cmd false (here 0) 64 = none ∧ s.copyCheck run.cmd true (here 0x100) 64 = none ∧
      (∀ i, i < 64 → targetOf 0 (here 0 + BitVec.ofNat 64 i) = .ls 0 (0 + i)) ∧
      (∀ i, i < 64 → targetOf 0 (here 0x100 + BitVec.ofNat 64 i) = .ls 0 (0x100 + i)) ∧ s.poisonIn (lsAddr 0 0) 64 = none) ∧
    (let r := { run with pos := 1 }
     let s := copying (some r) 1
     (s.channel 0 0).run = some r ∧ s.jobOf 0 r.cmd.jid = some (entry 1 0) ∧ r.unacked = 0 ∧ r.isOver = true ∧ r.cmd.remote = false ∧
      Debug.copyHalted (s.cluster 0).dbg s.cycle = false) ∧
    (let r := { run with fault := some (2, BitVec.ofNat 64 0x300) }
     r.fault = some (2, BitVec.ofNat 64 0x300) ∧ r.snap = none ∧ (entry 1 0).thread ≠ noThread ∧ r.cmd.thread ≠ noThread ∧
      (copying (some r) 1).mem.wf = true) ∧
    (quiet.ctxAt 0).inst = true := by decide

theorem witness_BarriersCountAndRelease :
    (∃ s : State, s.ctx.asked ≠ [1] ∧ (s.barrier s.myCluster 0).count ≠ 0 ∧ s.performed .clu false = true ∧
      (s.barrier s.myCluster 0).arrivals + 1 < (s.barrier s.myCluster 0).count) ∧
    (∃ s : State, s.ctx.asked ≠ [1] ∧ (s.barrier s.myCluster 0).count ≠ 0 ∧ s.performed .clu false = true ∧
      (s.barrier s.myCluster 0).count ≤ (s.barrier s.myCluster 0).arrivals + 1) ∧
    (∃ s : State, (s.barrier s.myCluster 0).count ≠ 0 ∧ noStreams s) ∧
    ((quiet.barrier 0 0).count = 0 ∧ quiet.ctx.asked ≠ [1] ∧ Delegated quiet 1) ∧
    (1 ≤ ((withRegs quiet [(1, 128)]).g 1).toNat ∧ ((withRegs quiet [(1, 128)]).g 1).toNat ≤ 128 ∧ (quiet.g 1).toNat = 0 ∧
      128 < ((withRegs quiet [(1, 129)]).g 1).toNat) ∧
    (∃ s : State, s.ctx.inst = true ∧ s.ctx.asked = [1] ∧ s.ctx.wait = .away .barrier ∧ noStreams s ∧ s.cur < 65536) := by
  unfold Delegated noStreams
  exact ⟨⟨quiet.modCluster 0 fun c => { c with barriers := [(0, ⟨2, 0, 0, []⟩)] }, by decide⟩,
    ⟨quiet.modCluster 0 fun c => { c with barriers := [(0, ⟨2, 1, 0, []⟩)] }, by decide⟩,
    ⟨quiet.modCluster 0 fun c => { c with barriers := [(0, ⟨2, 0, 0, []⟩)] }, by decide⟩, by decide, by decide,
    withCtx (waiting .barrier) fun c => { c with asked := [1] }, by decide⟩

/-! ### The memory system -/

def oneBank : CacheCfg := ⟨16, 1, 0, 0⟩
def cacheOne (set : List VcsetRun) : VCache := ⟨oneBank, [5], 0, 0, 0, 0, set⟩
def bankOne (ws : BitVec 16) : BankLine := ⟨5, 0, 0, false, 1, 7, 1, false, 0, ws, 0, false, none, 0, 0⟩
def switching (scan : Option Nat) (ends : Nat) : VcsetRun := ⟨oneBank, [5], 0, 0, scan, ends, [], []⟩
/-- Way 0 of bank 5 is job 1's, and its cache 1 has that one bank. -/
def cached (set : List VcsetRun) : State :=
  (quiet.modMS fun m => { m with allot := [(80, BitVec.ofNat 16 0x8001)] }).modJob 1 fun j => { j with vcs := [(1, cacheOne set)] }
def withCopy (s : State) (b : BankLine) : State := s.modMS fun m => { m with banks := [b] }

theorem witness_VirtualCachesAreConfiguredAndServe :
    (∃ s : State, s.hasG [1] = true ∧ ListHere s (s.g 1) (8 + 2 * bankCount (s.mem.readBytes (lsAddr 0 0) 8)) 0 0 ∧
      bankCount (s.mem.readBytes (lsAddr 0 0) 8) ≠ 0 ∧ bankList (s.mem.readBytes (lsAddr 0 0) 8)
        (s.mem.readBytes (lsAddr 0 0) (8 + 2 * bankCount (s.mem.readBytes (lsAddr 0 0) 8))) = some [5] ∧
      s.badParent 1 17 16 = false ∧ s.badWays oneBank [5] = false ∧ s.badParent 2 17 16 = false ∧
      s.cacheOf s.ctx.job 2 = none ∧ s.cacheOf s.ctx.job 1 = some (cacheOne []) ∧ (s.freeJob s.myCluster).isSome = true) ∧
    (let s := withRegs (cached []) [(1, 0x10000)]
     s.hasG [1] = true ∧ (s.g 1).toNat % 65536 = 0 ∧ (s.g 1).toNat + 1 * 65536 ≤ 2 ^ 55 ∧ (s.cacheOf s.ctx.job 1).isSome = true ∧
      Rising (s.job s.ctx.job).regions) ∧
    (∀ u ∈ [switching none 0, switching (some 0) 0, switching (some 1) 20, switching (some 1) 0], let s := (cached [u]).modCluster 0 fun c => { c with jobs := [(0, entry 1 0)] }
     s.cacheOf 1 1 = some (cacheOne [u]) ∧ s.fillsComing 1 1 = false ∧ u.cfg.parent = (cacheOne [u]).cfg.parent ∧ (cacheOne [u]).cfg.log.toNat = 0 ∧
      s.jobOf u.cluster u.jid = some (entry 1 0) ∧ (u.ends = 20 → s.cycle < u.ends) ∧ (u.ends = 0 → u.ends ≤ s.cycle)) ∧
    (∃ s : State, s.cacheOf 1 1 = some (cacheOne [switching none 0]) ∧ s.fillsComing 1 1 = true) ∧
    (let w : Wb := ⟨0, 1, 7, 1, 0, 5, false, none, 0, some (.vcset 1 1, 3)⟩
     (cached [switching (some 1) 0]).ackComing (.vcset 1 1) = false ∧
      ({ cached [switching (some 1) 0] with agenda := [(9, .homeWriteback w)] } : State).ackComing (.vcset 1 1) = true) ∧
    (let s := quiet.modPkg fun p => { p with segmentReady := [1] }
     s.pkg.segmentReady.contains (16 / 16) = true ∧ s.pkg.segmentReady.contains (15 / 16) = false ∧
      (BitVec.ofNat 16 0x8001).getLsbD 15 = true ∧ (BitVec.ofNat 16 0x4001).getLsbD 15 = false) ∧
    (let w : Wb := ⟨0, 1, 7, 1, 0, 5, false, none, 0, none⟩
     let s := quiet.modJob 1 fun j => { j with ending := some 8 }
     w.ack = none ∧ s.wbComing 1 = false ∧ (s.job 1).ending = some 8 ∧ 8 ≤ s.cycle ∧ ({ s with agenda := [(9, .homeWriteback w)] } : State).wbComing 1 = true ∧
      (withCopy (cached []) (bankOne 0xFFFF)).copyIn w.job 1 w.line = some (bankOne 0xFFFF) ∧ w.held &&& ~~~(bankOne 0xFFFF).valid = 0 ∧
      (cached []).bankWay (cacheOne []) w.job w.line = some (0, none) ∧
      (let s := (cached []).modMS fun m => { m with allot := [] }
       s.cacheOf 1 1 = some (cacheOne []) ∧ s.copyIn 1 1 7 = none ∧ s.bankWay (cacheOne []) 1 7 = none ∧ s.parentOf 1 1 = 16)) ∧
    (Rising quiet.ms.allot ∧ (5 : Nat) < 8192 ∧ ((BitVec.ofNat 16 0x8001).getLsbD 15 && (BitVec.ofNat 16 0x8001).getLsbD 14) = false) ∧
    (let r := request (.load 0) .load .wt 7 15
     quiet.cacheOf r.job 1 = none ∧ wordsOf r.mask ≠ 0 ∧ (cached []).treeHeld 1 1 7 = (0, 0) ∧
      (cached []).copyIn 1 1 7 = none ∧ (cached []).parentOf 1 1 = 16 ∧
      (withCopy (cached []) (bankOne 0xFFFF)).cacheOf 1 1 = some (cacheOne []) ∧
      (withCopy (cached []) (bankOne 0xFFFF)).treeHeld 1 1 7 = (0, 0) ∧
      (withCopy (cached []) (bankOne 0xFFFF)).copyIn 1 1 7 = some (bankOne 0xFFFF) ∧ wordsOf r.mask &&& ~~~(bankOne 0xFFFF).valid = 0 ∧
      (withCopy (cached []) (bankOne 0xFFFF)).parentOf 1 1 = 16 ∧ (bankOne 0xFFFF).shared = false ∧ (bankOne 0xFFFF).lease = none ∧
      (cached [switching none 0]).cacheOf r.job 1 = some (cacheOne [switching none 0])) ∧
    (let r := request (.load 0) .load .wt 7 15
     let low : VCache := { cacheOne [] with cfg := ⟨1, 1, 0, 1⟩ }
     let s := (cached []).modJob 1 fun j => { j with vcs := [(1, cacheOne []), (2, low)] }
     s.cacheOf r.job 2 = some low ∧ s.treeHeld 1 2 7 = (0, 0) ∧ s.copyIn 1 2 7 = none ∧ s.parentOf 1 2 = 1 ∧ s.cacheOf r.job 1 = some (cacheOne [])) := by
  unfold ListHere ReachesLocal Rising
  exact ⟨⟨withBytes (withBytes (withRegs (cached []) [(1, here 0)]) 0 2 1) 8 2 5, by decide⟩, by decide,
    by decide, ⟨{ cached [switching none 0] with agenda := [(9, .vcacheLookup { request (.load 0) .load .wt 7 15 with path := [1] } 1)] }, by decide⟩,
    by decide,
    by decide, by decide, by decide, by decide, by decide⟩

/-- Physical line 5 with one word registered by core 0, whose number stands in the word. -/
def held (h : HomeLine) : State :=
  { small with ms := { small.ms with home := [(5, h)] } }
def registered (txn : Option Txn) : HomeLine := { HomeLine.reset with registered := 1, txn := txn }
def l1Line : L1Line := ⟨1, physBase + 5, 0, 7, 1, 0, [], 0, 0, 0, 16, false⟩
def txn : Txn := ⟨request (.load 16) .load .own (physBase + 5) 15, false, [0, 16], 3, 0, 0, false, 0, 0⟩

theorem witness_HomeServesRequests :
    (let pl := small.physPlace 5
     let r := request (.load 0) .load .wt (physBase + 5) 15
     PlainHome small r pl ∧ small.aliased pl.dir = false ∧ wordsOf r.mask ≠ 0 ∧ small.mem.wf = true ∧
      PlainHome small { r with pol := .own } pl) ∧
    (let pl := small.physPlace 5
     let r := request (.queue 0 3) .store .wt (physBase + 5) 15
     PlainHome small r pl ∧ r.mask ≠ 0 ∧ Table.getD small.ms.lineKeys pl.data 0 = pl.key) ∧
    small.placeFor (request (.load 0) .load .wt 7 15) = none ∧
    (let r := request (.load 0) .load .wt (physBase + 5) 15
     let s := small.modPkg fun p => { p with fenced := [slicePlace (sliceOf 5)] }
     s.placeFor r = some (s.physPlace 5) ∧ s.pkg.fenced.contains (slicePlace (sliceOf (s.physPlace 5).dir)) = true) ∧
    (let r := request (.load 0) .load .wt (physBase + 5) 15
     let s := held (registered (some txn))
     s.placeFor r = some (s.physPlace 5) ∧ s.pkg.fenced.contains (slicePlace (sliceOf (s.physPlace 5).dir)) = false ∧
      s.replicaOf r = none ∧ r.shadow = false ∧ s.ms.holds = [] ∧ Table.get? s.ms.home (s.physPlace 5).dir = some (registered (some txn))) := by
  unfold PlainHome; decide

/-- Page 1 is mapped by the tables: the root at 0, a level-2 table in frame 1, a level-3 table in frame 2. -/
def mapped (leaf : Nat) : State :=
  { quiet with mem := Memory.writeNat (Memory.writeNat (Memory.writeNat [] 0 8 (1 + 2 ^ 38)) 65536 8 (1 + 2 * 2 ^ 38)) 131080 8 leaf }
def farCopy : State := (mapped (leaf3.toNat + 2 ^ 9)).modMS fun m =>
  { m with allot := [(32768, BitVec.ofNat 16 0xC000)], regions := [(0, { RepRegion.reset with degree := 2 })] }

theorem witness_ProbesAndCoherenceTimers :
    (∃ s : State, (s.core (agentCore 0)).l1 = [l1Line] ∧ (s.core (agentCore 0)).fills = [] ∧ agentIsRoot 0 = false ∧
      (s.place l1Line.job l1Line.line).any (fun q => q.dir = 5) = true ∧ (1 : BitVec 16) &&& ~~~l1Line.registered = 0) ∧
    (agentIsRoot (rootAgent 1 1) = true ∧ small.vlinesOf (agentJob (rootAgent 1 1)) 5 = [] ∧
      (let s := withCopy (cached []) { bankOne 0xFFFF with line := physBase + 5, registered := 1 }
       s.vlinesOf (agentJob (rootAgent 1 1)) 5 = [physBase + 5] ∧ s.risingWb 1 (physBase + 5) = false ∧
        (1 : BitVec 16) &&& ~~~(s.treeHeld 1 (agentVc (rootAgent 1 1)) (physBase + 5)).1 = 0)) ∧
    (small.place 1 7 = none ∧ small.place 1 (physBase + 5) = some (small.physPlace 5) ∧ small.registrants (small.physPlace 5).dir 1 = []) ∧
    (let x : Txn := { txn with req := request (.load 16) .load .wt (physBase + 5) 15, waiting := [0] }
     let s := held { HomeLine.reset with txn := some x }
     (s.homeLine 5).txn = some x ∧ (s.registrants 5 (x.words &&& ~~~(x.merged ||| 1))).any (fun y => y.1 = 0) = false ∧
      Rising s.ms.home ∧ x.waiting = [0] ∧ x.host = false ∧ x.evict = false ∧ (s.homeLine 5).queue = [] ∧
      s.placeFor x.req = some (s.physPlace 5) ∧ s.homeFenced 5 = false ∧ (s.ownWords x.req (s.physPlace 5)).1 = 0 ∧
      wordsOf x.req.mask &&& ~~~x.words &&& (s.homeLine 5).registered = 0 ∧ (s.physPlace 5).dir = 5 ∧ leafTier (s.physPlace 5).leaf = 0 ∧ lineInHost 5 = false ∧
      leafRepl (s.physPlace 5).leaf = false) ∧
    ((held (registered none)).lastWords 0 5 = none) ∧
    ((0x80000000 : BitVec 32).getLsbD 31 = true ∧ (0x80000000 : BitVec 32).getLsbD 30 = false) ∧
    (let s := held (registered none)
     s.place 1 (physBase + 5) = some (s.physPlace 5) ∧ (s.physPlace 5).dir = 5 ∧ Rising s.ms.home ∧
      (s.registrants 5 1).find? (fun x => x.1 = 0) = some (0, 1) ∧
      Table.getD s.ms.lineKeys (s.front 5) 0 = s.pageKeyOf (s.front 5) ∧ (s.homeLine 5).txn = none ∧ (s.homeLine 5).queue = [] ∧
      s.mem.wf = true ∧ s.ms.home = [(5, registered none)] ∧
      (s.registrants 5 0xFFFF).find? (fun x => x.1 = 0) = some (0, 1)) ∧
    (let s := held { HomeLine.reset with txn := some txn }
     (s.homeLine 5).txn = some txn ∧ (0 : BitVec 32) ∈ txn.waiting ∧ (∃ o ∈ txn.waiting, o ≠ 0) ∧
      (s.registrants 5 (txn.words &&& ~~~(txn.merged ||| 1))).any (fun y => y.1 = 0) = false) ∧
    (0 + 2 ^ 20 ≤ ({ small with cycle := 1048576 } : State).cycle) ∧
    (let pl := farCopy.placeUnder 1 ⟨1, false, BitVec.ofNat 64 (leaf3.toNat + 2 ^ 9)⟩ 0x400
     farCopy.placeFor { request (.load 16) .load .wt 0x400 15 with core := 1024 } = some pl ∧
      farCopy.fillsReplica { request (.load 16) .load .wt 0x400 15 with core := 1024 } pl = true ∧
      (farCopy.homeLine pl.dir).wts.toNat = 0 ∧ farCopy.replicaRoom (baseOf (dieOf 1024)) ≠ 0) ∧
    Table.get? (small.modMS fun m => { m with regions := [(3, RepRegion.reset)] }).ms.regions 3 = some RepRegion.reset := by
  unfold Rising
  exact ⟨⟨small.modCore 0 fun c => { c with l1 := [l1Line] }, by decide⟩, by decide, by decide, by decide, by decide, by decide, by decide,
    ⟨by decide, by decide, ⟨16, by decide, by decide⟩, by decide⟩, by decide, by decide, by decide⟩

/-! ### Steps, visits and replays -/

/-- It is the thread's turn, with the words of instructions from its PC up in its fetch block. -/
noncomputable def atWords (is : List Instr) : State :=
  let bs := is.flatMap fun i => (encodeBytes i).getD []
  { small with turn := true, ctx := { thread with fblock := some ⟨0x1000, BitVec.ofNat 256 (natOfBytes bs), false⟩ } }
theorem witness_StepRunsTheDecodedInstruction :
    (∃ b rest, (atWords [.nop]).turn = true ∧ AtWord (atWords [.nop]) b ∧
      decodeBytes (blockBytes b ((atWords [.nop]).ctx.pc.toNat % 32)) = .ok (.nop, rest)) ∧
    (∃ b rest more, AtWord (atWords [.rpt 4 1, .addReg 1 2 3]) b ∧
      decodeBytes (blockBytes b ((atWords [.rpt 4 1, .addReg 1 2 3]).ctx.pc.toNat % 32)) = .ok (.rpt 4 1, rest) ∧
      decodeBytes rest = .ok (.addReg 1 2 3, more)) ∧
    (∃ b rest, AtWord (atWords [.plbinvAll]) b ∧
      decodeBytes (blockBytes b ((atWords [.plbinvAll]).ctx.pc.toNat % 32)) = .ok (.plbinvAll, rest)) ∧
    (privilegeOk 0 .nop = true ∧ privilegeOk 0 (.rpt 4 1) = true ∧ privilegeOk 0 (.addReg 1 2 3) = true ∧
      privilegeOk 0 .plbinvAll = false ∧ Delegated small 2) ∧
    (∃ s : State, s.ctx.inst = true ∧ s.ctx.latch = some 0x14 ∧ decodeFields (Fields.unpack 0x14) = .ok .nop ∧ s.turn = true) ∧
    (∃ s : State, s.ctx.inst = true ∧ s.ctx.latch = some 0x14 ∧ s.turn = false ∧ (∀ x ∈ s.agenda, s.cycle < x.1) ∧ s.nextKick = some s.cur) ∧
    (∃ s : State, s.turn = false ∧ s.kicks = [] ∧ s.agenda = [(8, .sliceSweep (0, 1024))] ∧ 8 ≤ s.cycle) ∧
    (∃ s : State, s.turn = false ∧ s.kicks = [0] ∧ s.agenda = [(8, .wakeDelivery 0 1)] ∧ eventOrder (.wakeDelivery 0 1) < 3) ∧
    (∃ s : State, s.turn = false ∧ s.kicks = [] ∧ (∀ x ∈ s.agenda, s.cycle < x.1) ∧ s.replays = [] ∧ 0 ∈ s.allThreads ∧ s.visitFrom ≤ coreOf 0 ∧
      (∀ t ∈ s.allThreads, s.visitFrom ≤ coreOf t → coreOf 0 ≤ coreOf t)) ∧
    (let s := { small with visitFrom := 1 }
     s.turn = false ∧ s.kicks = [] ∧ (∀ x ∈ s.agenda, s.cycle < x.1) ∧ s.replays = [] ∧ ∀ t ∈ s.allThreads, coreOf t < s.visitFrom) := by
  unfold AtWord Delegated
  exact ⟨⟨_, _, rfl, ⟨rfl, rfl, rfl, rfl, rfl, rfl, rfl⟩, rfl⟩, ⟨_, _, _, ⟨rfl, rfl, rfl, rfl, rfl, rfl, rfl⟩, rfl, rfl⟩,
    ⟨_, _, ⟨rfl, rfl, rfl, rfl, rfl, rfl, rfl⟩, rfl⟩, ⟨rfl, rfl, rfl, rfl, by decide⟩,
    ⟨{ small with turn := true, ctx := { thread with latch := some 0x14 } }, by decide, by decide, rfl, by decide⟩,
    ⟨{ small with ctx := { thread with latch := some 0x14 }, kicks := [0] }, by decide⟩,
    ⟨{ small with agenda := [(8, .sliceSweep (0, 1024))] }, by decide⟩, ⟨{ small with kicks := [0], agenda := [(8, .wakeDelivery 0 1)] }, by decide⟩, ⟨small, by decide⟩, by decide⟩

/-- Nobody holds a position of core 0. -/
def unheld : State := small.modCore 0 fun c => { c with holders := Vector.replicate 8 none }
theorem ready_only (s : State) (h : ∀ j, j < 16 → (s.ctxAt (0 * 16 + j)).inst = true → j = 0)
    (h0 : (s.ctxAt 0).wait.readyAt s.cycle = some 0) (j q : Nat) (hj : j < 16) (hr : ReadySince s (0 * 16 + j) q) : j = 0 ∧ q = 0 := by
  obtain rfl := h j hj hr.1
  have := hr.2.2.1.symm.trans h0
  exact ⟨rfl, by simpa using this⟩
theorem witness_RotationVisitSelectsTheContext :
    ((∀ i, i < 16 → (small.ctxAt (0 * 16 + i)).cancelled = false) ∧ (∀ i, i < 16 → (small.ctxAt (0 * 16 + i)).efaults = []) ∧
      (∀ i, i < 16 → (small.ctxAt (0 * 16 + i)).lostStore = none) ∧
      (∀ i : Fin 4, (small.cluster (clusterOf 0)).dbg.bpc[i].getLsbD 0 = false) ∧
      (small.cluster (clusterOf 0)).dbg.halted = false) ∧
    ((small.core 0).holders[small.cycle % 8]! = some 0 ∧ ReadySince small (0 * 16 + 0) 0) ∧
    ((∀ i, i < 16 → (unheld.core 0).holders[unheld.cycle % 8]! ≠ some i) ∧ ReadySince unheld (0 * 16 + 0) 0 ∧
      NoPosition unheld 0 0 ∧
      ∀ j q, j < 16 → ReadySince unheld (0 * 16 + j) q → NoPosition unheld 0 j → 0 < q ∨ (0 = q ∧ 0 ≤ j)) ∧
    (∀ h : Fin 8, (unheld.core 0).holders[h] = none) ∧
    (let s := withCtx small fun c => { c with latch := some (BitVec.ofNat 128 (0x1B * 4)), wait := .away .drain }
     (s.core 0).holders[s.cycle % 8]! = some 0 ∧ (s.ctxAt (0 * 16 + 0)).exiting = true ∧ ∀ r, ¬ ReadySince s (0 * 16 + 0) r) ∧
    (∀ i r, i < 16 → ¬ ReadySince State.reset (0 * 16 + i) r) ∧
    (∀ d : Debug, d ∈ [{ Debug.reset with halted := true, haltAt := 2 }, { Debug.reset with halted := true, haltAt := 8, stopped := 1 }] →
      let s := small.modCluster 0 fun c => { c with dbg := d }
      (s.cluster (clusterOf 0)).dbg.halted = true ∧ ((s.cluster (clusterOf 0)).dbg.haltAt + 6 ≤ s.cycle ∨
        (s.cluster (clusterOf 0)).dbg.stopped.getLsbD (0 % 8) = true)) := by
  refine ⟨by decide, ⟨by decide, by decide, by decide, by decide, fun l h => nomatch (show (none : Option Nat) = some l from h)⟩,
    ⟨by decide, ⟨by decide, by decide, by decide, fun l h => nomatch (show (none : Option Nat) = some l from h)⟩, by unfold NoPosition; decide, ?_⟩,
    by decide, ⟨by decide, by decide, fun r h => nomatch (show (none : Option Nat) = some r from h.2.2.1)⟩, ?_, by decide⟩
  · intro j q hj hr _
    obtain ⟨rfl, rfl⟩ := ready_only unheld (by decide) (by decide) j q hj hr
    exact .inr ⟨rfl, Nat.le_refl _⟩
  · intro i r hi hr
    have : ∀ i, i < 16 → (State.reset.ctxAt (0 * 16 + i)).inst = false := by decide
    exact absurd hr.1 (by rw [this i hi]; decide)

theorem witness_StepKeepsMemoryCanonical : ∃ s t : State, s.mem.wf = true ∧ step s = .next t := ⟨small, _, by decide, rfl⟩

/-- The ports of core 0's banks are taken in this cycle. -/
def busy : State := (withRegs quiet [(1, here 0x7FFC)]).modCore 0 fun c => { c with ports := [(8, BitVec.allOnes 16)] }
theorem witness_ConflictsAndRetriesReplayTheAccess :
    (let m := args 3 1 0 .w true 0
     busy.hasG [m.a, m.b] = true ∧ m.ord = .plain ∧ targetOf busy.myCore (addrOf busy m) = .ls 0 0x7FFC ∧
      0x7FFC + m.width.bytes ≤ busy.lsSize 0 ∧ busy.boundTo 0 busy.ctx.job = true ∧ near busy.myCore 0 = true ∧
      busy.portsNow 0 &&& banksOf 0x7FFC m.width.bytes (busy.job busy.ctx.job).bankKey ≠ 0 ∧ busy.ctx.skipWatch = true ∧
      busy.ctx.asked = [] ∧ busy.behindPush [(addrOf busy m, m.width.bytes)] = false) ∧
    (let m := args 3 1 0 .d true 0
     let s := emptied
     s.hasG [m.a, m.b] = true ∧ s.poisonIn (lsAddr 0 0) 8 = none ∧ ReachesLocal s (addrOf s m) 8 true false 0 0 ∧
      (feWords 0 0 8).any (fun x => x ∈ s.ms.empties) = true ∧ s.ctx.attempts + 1 < s.ctx.ctl.retrylim.toNat ∧
      (s.modCtl fun c => { c with retrylim := 1 }).ctx.ctl.retrylim.toNat ≤ s.ctx.attempts + 1 ∧ Delegated s 13) ∧
    ((waiting .bank).ctxAt 0).wait = .away .bank ∧
    (((withCtx small fun c => { c with asked := [remoteMark] }).ctxAt 0).asked.contains remoteMark = true ∧ (small.core (coreOf 0)).orphans = []) ∧
    (((waiting .fullEmpty).ctxAt 0).wait = .away .fullEmpty ∧ ((waiting .fullEmpty).cluster (0 / 128)).dbg.halted = false ∧
      ((waiting .fullEmpty).ctxAt 0).firstAttempt = none) ∧
    (∃ s : State, (s.ctxAt 0).wait = .away .fullEmpty ∧ (s.cluster (0 / 128)).dbg.halted = true) ∧
    (∃ s : State, ((s.ctxAt 0).firstAttempt).map (fun x => (x.2 * 4 - lsAddr 0 0) / 2 ^ 19) = some 9 ∧ (s.ctxAt 0).wait = .away .fullEmpty ∧
      (s.cluster (9 / 8)).dbg.halted = true) ∧
    (((waiting .allowance).ctxAt 0).wait = .away .allowance ∧ coreOf 0 = 0) ∧
    (∃ s : State, (s.ctxAt 0).inst = true ∧ (s.ctxAt 0).asked = [1] ∧ (s.core 0).queue = [] ∧
      (∀ f ∈ (s.core 0).fills, f.kind ≠ 1) ∧ (∀ x ∈ (s.core 0).promos, x.1 ≠ 0)) := by
  unfold ReachesLocal addrOf Delegated
  exact ⟨by decide, by decide, by decide, by decide, by decide,
    ⟨(waiting .fullEmpty).modCluster 0 fun c => { c with dbg := { c.dbg with halted := true } }, by decide⟩,
    ⟨(withCtx (waiting .fullEmpty) fun c => { c with asked := [fullEmptyMark, 0, (lsAddr 0 0 + 9 * 2 ^ 19) / 4] }).modCluster 1
      fun c => { c with dbg := { c.dbg with halted := true } }, by decide⟩, by decide,
    withCtx small fun c => { c with asked := [1] }, by decide⟩

theorem witness_PagesAndLinesAreTouchedAndResident :
    (let s := withRegs quiet [(1, here 0)]
     s.hasG [1, 0] = true ∧ targetOf s.myCore (s.ea 1 0 0 0) = .ls 0 0 ∧ 0 < s.lsSize 0 ∧ s.boundTo 0 s.ctx.job = true) ∧
    (let s := withRegs paged [(1, 0x10000)]
     targetOf s.myCore (s.ea 1 0 0 0) = .global 0x10000 ∧ s.queuedOn [0x10000 / 64] = false ∧
      PageAtHand s 0x10000 .read ⟨1, false, leaf3⟩) ∧
    (((waiting .access).ctxAt 0).wait = .away .access ∧ ((waiting .access).ctxAt 0).inst = true ∧
      findAttr ((waiting .access).core (coreOf 0)).attrs 0x10000 = none) ∧
    (let s := (waiting .access).modCore 0 fun c => { c with attrs := [⟨1, false, leaf3⟩] }
     findAttr (s.core (coreOf 0)).attrs 0x10000 = some ⟨1, false, leaf3⟩ ∧ leafMapped leaf3 = true ∧ leafBad false leaf3 = false ∧
      findRights (s.core (coreOf 0)).rights (leafDomain leaf3) = none) ∧
    (∀ a ∈ [0x10000, 0x20000], let s := withCtx (mapped leaf3.toNat) fun c => { c with wait := .away .page, absent := [a] }
     (s.ctxAt 0).inst = true ∧ (s.ctxAt 0).wait = .away .page ∧
      (s.ctxAt 0).absent.all (fun a => leafMapped (s.walk a).attr.leaf) = decide (a = 0x10000)) ∧
    (∃ s : State, (s.walk 0x10000).attr.big = false ∧ ∃ p ∈ s.ms.parked, p.1 = 0x10000 / 2 ^ 16) ∧
    ((mapped 0).leafAddr 0x10000 = some (131080, false) ∧ (mapped 0).mem.wf = true ∧ leafMapped leaf3 = true ∧
      leafBad false leaf3 = false ∧ (mapped 0).ms.leaving = [] ∧ (mapped 0).thirdMapping leaf3 false 1 = false ∧
      (mapped 0).channelsReady leaf3 false = false) ∧
    (let s := (mapped 0).modPkg fun p => { p with channelReady := [Config.channelOf (3 * 65536)] }
     s.channelsReady leaf3 false = true ∧ s.thirdMapping leaf3 false 1 = false) ∧
    (∀ l, l = 0 ∨ l = leaf3.toNat → let s := (mapped l).modMS fun m => { m with frames := [(frameKey leaf3 false, [7, 8])] }
     s.leafAddr 0x10000 = some (131080, false) ∧ s.thirdMapping leaf3 false 1 = true ∧ s.mem.wf = true ∧
      leafMapped (BitVec.ofNat 64 (s.mem.readNat 131080 8)) = decide (l ≠ 0)) ∧
    (let s := mapped leaf3.toNat
     s.leafAddr 0x10000 = some (131080, false) ∧ BitVec.ofNat 64 (s.mem.readNat 131080 8) = leaf3 ∧ leafMapped 0 = false) ∧
    (let x : Leaving := ⟨⟨1, false, 0⟩, true⟩
     let s := (mapped 0).modMS fun m => { m with leaving := [x] }
     let pl := s.placeUnder 0 x.attr (x.attr.page * pageLines false)
     s.ms.leaving.find? (fun y => y.attr.page = 1 && y.attr.big = false) = some x ∧ x.flushed = true ∧
      s.pageComing x.attr pl = false ∧ s.pageQuiet pl = true ∧ s.ms.home = [] ∧
      (let t := s.modMS fun m => { m with home := [(0, registered none)] }
       t.pageComing x.attr pl = false ∧ t.pageQuiet pl = true ∧ pl.hits 0 = true ∧ (registered none).registered ≠ 0 ∧
        (t.modMS fun m => { m with home := [(0, registered (some txn))] }).pageQuiet pl = false)) := by
  refine ⟨by decide, ⟨by decide, by decide, by unfold PageAtHand; rfl⟩, by decide, by decide, by decide,
    ⟨small.modMS fun m => { m with parked := [(1, 0)] }, by decide, (1, 0), by decide, by decide⟩, by decide, by decide,
    by rintro l (rfl | rfl) <;> decide, by decide, by decide⟩

/-! ### Messages -/

def tree (contrib : Table VReg) : Tree := ⟨[0, 3], contrib, 5, 0⟩
def treed (contrib : Table VReg) : State := floats.modJob 1 fun j => { j with trees := [(2, tree contrib)] }
theorem witness_RegisterMessagesLeaveTheirThread :
    (let s := withRegs wide [(1, 3), (4, 65536), (5, 600), (6, 2)]
     s.hasG [1, 2] = true ∧ (s.g 1).toNat < 65536 ∧ s.boundTo (coreOf (s.g 1).toNat) s.ctx.job = true ∧
      (s.core s.myCore).queue.any (fun e => e.thread = s.cur && e.scope ≠ .core && !e.sent) = false ∧ 8 ≤ (s.core s.myCore).allowances ∧
      65536 ≤ (s.g 4).toNat ∧ Delegated s 10 ∧ s.boundTo (coreOf (s.g 5).toNat) s.ctx.job = false ∧ Delegated s 11 ∧
      s.ctx.regs.vPres.getLsbD 2 = true ∧ noStreams s ∧ s.covered s.cur false = [] ∧ (s.ctxAt 3).inst = true ∧
      (s.ctxAt 3).job = s.ctx.job ∧ s.cur < 65536 ∧ s.holdsThread 3 s.ctx.job = true ∧ s.holdsThread 4 s.ctx.job = false ∧
      (s.core s.myCore).spent ≤ 6 ∧ ((s.modCore 0 fun c => { c with spent := 7 }).core 0).allowances < 2) ∧
    (let s := withRegs (treed []) [(1, 2)]
     noStreams s ∧ s.covered s.cur false = [] ∧ s.cur < 65536 ∧ s.hasG [1, 2] = true ∧ (s.g 1).toNat < 16 ∧ s.ctx.regs.vPres.getLsbD 2 = true ∧
      s.tree s.ctx.job (s.g 1).toNat = some (tree []) ∧ s.cur ∈ (tree []).members ∧ (s.v 2).tag = 8 ∧
      Table.get? (tree []).contrib s.cur = none ∧ s.performed .pkg false = true) ∧
    (∃ s : State, noStreams s ∧ s.covered s.cur false = [] ∧ s.cur < 65536 ∧ s.hasG [1] = true ∧ ListHere s (s.g 1) (8 + 4 * [0, 3].length) 0 0 ∧
      treeMembers (s.mem.readBytes (lsAddr 0 0) (8 + 4 * [0, 3].length)) = some [0, 3] ∧
      (∀ m ∈ [0, 3], s.boundTo (coreOf m) s.ctx.job = true) ∧ s.tree s.ctx.job 2 = none) := by
  unfold Delegated noStreams ListHere ReachesLocal
  exact ⟨by decide, by decide, withBytes (withBytes (withRegs quiet [(1, here 0)]) 0 4 2) 12 4 3, by decide⟩

def answer : Reply := ⟨.ok, 5, 0xFFFF, 0, 0, 0, .untracked, none, false, 0, 0⟩
theorem witness_RepliesAndMessagesArrive :
    (∃ s : State, (s.cluster (clusterOf 0)).resetUntil ≤ s.cycle ∧ (s.ctxAt 0).inst = true ∧ (s.ctxAt 0).job = 1 ∧
      (s.ctxAt 0).latch ≠ none ∧ 7 ∈ (s.ctxAt 0).asked ∧ (s.ctxAt 0).wait = .away .access) ∧
    (∃ s : State, ∃ e ∈ (s.core 0).queue, e.id = 0 ∧ e.req.pol ≠ .own) ∧
    ((waiting .fetch).ctxAt 0).wait = .away .fetch ∧ ((waiting .fetch).ctxAt 0).latch = none ∧
    (∀ f ∈ ((waiting .fetch).core 0).fills, f.useOnce = false) ∧ answer.st = .ok ∧
    ((wide.ctxAt 3).inst = true ∧ (wide.ctxAt 3).job = 1 ∧ (5 : GReg) ≠ 0) ∧
    ((wide.ctxAt 4).inst = false ∧ Table.get? (wide.core (coreOf 4)).forward 4 = none) ∧
    (let cells : List (Nat × Byte) := [(lsAddr 0 0, 1), (lsAddr 0 1, 2)]
     let rows := quiet.cellRows (quiet.ctxAt 0).job (cells.map (·.1))
     (cells.map (·.1)).Nodup ∧ (∀ r ∈ rows, (quiet.portsNow r.1).getLsbD r.2 = false) ∧ ∃ r ∈ rows, (busy.portsNow r.1).getLsbD r.2 = true) ∧
    (let s := withCtx small fun c => { c with wait := .away .round, latch := none, asked := [roundMark, 2] }
     (s.ctxAt 0).wait = .away .round ∧ (s.ctxAt 0).latch = none ∧ (s.ctxAt 0).asked = [roundMark, 2]) ∧
    (let T := tree [(0, floats.v 2), (3, floats.v 3)]
     let s := treed [(0, floats.v 2), (3, floats.v 3)]
     s.tree 1 2 = some T ∧ T.members.length = 2 ∧ T.members.head? = some 0 ∧ 0 / 16 = 3 / 16 ∧ (s.ctxAt 0).inst = true ∧
      (s.ctxAt 0).job = 1) := by
  exact ⟨⟨withCtx small fun c => { c with latch := some 0x14, asked := [7], wait := .away .access }, by decide⟩,
    ⟨quiet.modCore 0 fun c => { c with queue := [entryOf true] },
      entryOf true, by decide, by decide, by decide⟩,
    by decide, by decide, by decide, by decide, by decide, by decide, by decide, by decide, by decide⟩

/-! ### Threads, units and launches -/

def packet : Packet := ⟨5, thread, 0, []⟩
def unit0 (duty : Duty) (due : Option Nat) : UnitInfo := ⟨0, duty, 0, 0, none, none, false, due⟩
def withUnit (slot : Nat) (x : UnitInfo) : State := quiet.modCore 0 fun c => { c with reserved := [(slot, x)] }
def onItsWay : State := withCtx small fun c => { c with asked := [1], wait := .away .access }
def record (kind ls : BitVec 8) : BindRec := ⟨kind, ls, 1, 0, 1, 5, 0, 0, 2, 0, 0⟩
theorem witness_ThreadsMigrateAndSwap :
    (Rising onItsWay.ctxs ∧ (1 : Nat) < 4096 ∧ 1 ≠ coreOf 0 ∧ (onItsWay.ctxAt 0).inst = true ∧ (onItsWay.ctxAt 0).asked = [1] ∧
      (onItsWay.ctxAt 0).wait = .away .access ∧ (onItsWay.core 1).packets.length < 4 ∧ onItsWay.freeSlot 1 = some 0) ∧
    (∃ s : State, (s.ctxAt 0).asked = [1] ∧ 4 ≤ (s.core 1).packets.length) ∧
    (∃ s : State, Rising s.ctxs ∧ Table.get? (s.core (coreOf 5)).forward 5 = some (inBuffer + 1) ∧
      (s.core 1).packets.find? (fun q => q.src = 5) = some packet ∧ (s.ctxAt 5).inst = false ∧ s.freeSlot 1 = some 0 ∧ 1 ≠ coreOf 5 ∧
      packet.arrived + 4096 ≤ ({ s with cycle := 4096 } : State).cycle) ∧
    (Table.get? ((withUnit 5 (unit0 (.task 64) none)).core (coreOf 5)).reserved (slotOf 5) = some (unit0 (.task 64) none) ∧
      (withUnit 5 (unit0 (.task 64) none)).mem.wf = true ∧
      Table.get? ((withUnit 5 (unit0 (.record 0 0 1 2 false) none)).core (coreOf 5)).reserved (slotOf 5) =
        some (unit0 (.record 0 0 1 2 false) none)) ∧
    (Rising small.ctxs ∧ small.swapAt 0 = none ∧ small.entryIdle 0 5 = true ∧ small.entryFits 0 5 = true ∧ (small.ctxAt 0).inst = true ∧
      small.swapReady 0 = true ∧ (waiting .jobWait).swapDeferred 0 = true ∧ (waiting .access).swapDeferred 0 = false ∧
      (waiting .access).swapOwes 0 = true) ∧
    (let s := small.modCluster 0 fun c => { c with swaps := [(3, (5, some thread))], cache := [(5, (3, thread))] }
     s.swapAt 3 = some (5, some thread) ∧ Table.get? (s.cluster (3 / 128)).cache 5 = some (3, thread) ∧ thread.inst = true) ∧
    (let s := withRegs small [(1, 5), (2, 3)]
     s.hasG [1, 2] = true ∧ (s.g 1).toNat = 5 ∧ (s.g 2).toNat = 3 ∧ s.ctx.asked = [] ∧ 3 / 128 = s.myCluster ∧ 3 ≠ s.cur ∧
      Table.get? (s.cluster s.myCluster).cache 5 = none ∧ Delegated s 10) ∧
    (∀ n ∈ [0, 1], (withCtx small fun c => { c with asked := [swapMark + 1, n] }).ctx.asked = [swapMark + 1, n]) ∧
    (recordOk 2 (record 2 2) = true ∧ (record 2 2).entry.toNat = 5 ∧ recordOk 2 (record 2 19) = false) := by
  unfold Rising Delegated
  exact ⟨by decide, ⟨onItsWay.modCore 1 fun c => { c with packets := List.replicate 4 packet }, by decide⟩,
    ⟨(small.modCore 0 fun c => { c with forward := [(5, inBuffer + 1)] }).modCore 1 fun c => { c with packets := [packet] }, by decide⟩,
    by decide, by decide, by decide, by decide, by decide, by decide⟩

/-- Launch 0 of job 1: one unit at 0x10000. -/
def descriptor : Nat := 0x10000 + 2 ^ 128 + 2 ^ 160 + 2 ^ 168 + 2 ^ 176
def launch0 (st : LaunchSt) : Launch :=
  ⟨0, 1, launchDesc (BitVec.ofNat 512 descriptor), st, 0, 0, none, [], false, false, false, [], 0, [], 0, 0, []⟩
def withLaunch (s : State) (st : LaunchSt) : State := s.modDie 0 fun d => { d with launches := [(0, launch0 st)] }
/-- The launch's range is in the ready queue of die 0, whose cores 0 and 1 work. -/
def dispatching : State := (withLaunch wide .queued).modDie 0 (fun d => { d with ready := [.launch 0 0 4] }) |>.modPkg
  fun p => { p with coreReady := [0, 1], clusterReady := [0] }
theorem witness_BindRecordsStartUnits :
    (dispatching.dispatchOk 16 (record 1 1) = true ∧ dispatching.slotOpen 16 = true ∧
      dispatching.mayBind (coreOf 16) (record 1 1).job.toNat (record 1 1).ls.toNat = true) ∧
    (dispatching.dispatchOk 0 (record 1 1) = true ∧
      (dispatching.slotOpen 0 && dispatching.mayBind (coreOf 0) (record 1 1).job.toNat (record 1 1).ls.toNat) = false) ∧
    dispatching.dispatchOk 16 (record 1 2) = false ∧
    (recordOk 3 (record 3 2) = true ∧ recordOk 3 (record 3 19) = false ∧ State.reset.coreEmpty (coreOf 16) = true) ∧
    (∃ s : State, Table.get? (s.core (coreOf 5)).reserved (slotOf 5) = some (unit0 (.record 0 0 1 2 false) (some 8)) ∧ 8 ≤ s.cycle ∧
      (s.ctxAt 5).inst = false ∧ s.launch? 0 = some (launch0 .running)) := by
  exact ⟨by decide, by decide, by decide, by decide,
    withLaunch (withUnit 5 (unit0 (.record 0 0 1 2 false) (some 8))) .running, by decide⟩

/-- A task record at the start of core 0's local store: its dependence count and its state (R304). -/
def recordOf (count st : Nat) : State := withBytes (withBytes (withLaunch (withRegs quiet [(1, here 0), (2, 1), (3, 1)]) .running) 16 2 count) 18 1 st
theorem witness_TasksAreSpawnedAndRun :
    (let s := recordOf 0 0
     s.hasG [1, 0, 2, 3] = true ∧ CellHere s (s.g 1) 32 0 0 ∧ BankFree s 32 0 0 ∧ s.performed .pkg false = true ∧ s.mem.wf = true ∧
      (s.g 2).toNat ≤ 65535 ∧ (1 ≤ (s.g 3).toNat ∧ (s.g 3).toNat < 256) ∧ s.mem.read (lsAddr 0 0 + 18) = 0 ∧
      s.launch? s.ctx.unit.lid = some (launch0 .running) ∧ (launch0 .running).cancelled = false ∧ s.g 2 ≠ 0 ∧ s.g 0 = 0 ∧
      readyRoom s s.myDie = true ∧ s.ctx.skipWatch = true) ∧
    (small.ctx.skipWatch = false ∧ small.watchHit [((small.g 0).toNat, 32)] true true = none) ∧
    (let s := withRegs quiet [(1, here 0)]
     s.hasG [1] = true ∧ CellHere s (s.g 1) 32 0 0 ∧ noStreams s ∧ s.covered s.cur false = [] ∧ s.cur < 65536) ∧
    (recordOf 0 4).mem.read (lsAddr 0 0 + 18) = 4 ∧
    (let s := recordOf 2 1
     1 < s.mem.readNat (lsAddr 0 0 + 16) 2 ∧ s.mem.read (lsAddr 0 0 + 18) ≠ 4 ∧ s.mem.wf = true) ∧
    (let s := recordOf 1 1
     s.mem.readNat (lsAddr 0 0 + 16) 2 = 1 ∧ s.mem.read (lsAddr 0 0 + 18) = 1) ∧
    (let s := recordOf 0 0
     s.mem.readNat (lsAddr 0 0 + 16) 2 = 0 ∧ s.mem.read (lsAddr 0 0 + 18) ≠ 4 ∧
      s.launch? (s.mem.readNat (lsAddr 0 0 + 24) 4) = some (launch0 .running)) ∧
    (∃ s : State, s.freeSlot 0 = some 1 ∧ s.mem.wf = true ∧ (s.core 0).runList = [lsAddr 0 0] ∧
      s.launch? (s.mem.readNat (lsAddr 0 0 + 24) 4) = some (launch0 .running)) ∧
    (let s := ((recordOf 0 2).modDie 0 fun d => { d with ready := [.task (lsAddr 0 0) 1 0] }).modCore 0 fun c => { c with slices := 1 }
     let s := s.modPkg fun p => { p with coreReady := [0], clusterReady := [0] }
     s.launch? 0 = some (launch0 .running) ∧ (s.die (dieOf 0)).readyTask (lsAddr 0 0) = some (1, 0) ∧
      s.mem.readNat (lsAddr 0 0 + 24) 4 = 0 ∧ s.slotOpen (0 * 16 + 1) = true ∧ s.boundTo 0 1 = true ∧
      (s.core 0).slices = (launch0 .running).desc.ls ∧ s.mayBind 0 1 (launch0 .running).desc.ls = true ∧ s.slotOpen (0 * 16 + 0) = false ∧ s.taskDue (0 * 16 + 0) (lsAddr 0 0) = none) ∧
    (State.reset.dieIdle 0 = true ∧ (State.reset.die 0).stealNext = false) ∧
    (∃ s : State, (s.die 1).ready = [.launch 0 0 10] ∧ 0 + 2 ≤ 10 ∧ s.launch? 0 = some (launch0 .running) ∧
      (launch0 .running).desc.mask = 0) := by
  unfold CellHere BankFree noStreams
  exact ⟨by decide, by decide, by decide, by decide, by decide, by decide, by decide,
    ⟨(recordOf 0 2).modCore 0 fun c => { c with runList := [lsAddr 0 0] }, by decide⟩, by decide, by decide, (withLaunch quiet .running).modDie 1 fun d => { d with ready := [.launch 0 0 10] }, by decide⟩

/-- A join cell at the start of core 0's local store. -/
def joinCell (n : Nat) : State := withBytes (withRegs quiet [(1, 8), (2, 3), (3, here 0)]) 0 4 n
theorem witness_RangesForkAndJoin :
    (let s := joinCell 0
     s.hasG [1, 2, 3] = true ∧ CellHere s (s.g 3) 16 0 0 ∧ s.performed .pkg false = true ∧ s.mem.wf = true ∧ (s.g 1).toNat < 2 ^ 32 ∧ s.g 2 ≠ 0 ∧
      (s.g 2).toNat < 2 ^ 32 ∧ s.ctx.skipWatch = true) ∧
    (Table.get? ((withUnit 5 (unit0 .chunk none)).core (coreOf 5)).reserved (slotOf 5)).isSome = true ∧
    (∀ n, n < 3 → let s := joinCell n
     s.hasG [3] = true ∧ s.ctx.sent ≤ s.cycle ∧ s.ctx.pkgAt ≤ s.cycle ∧ s.ctx.msgAt ≤ s.cycle ∧ s.storesDone s.cur = true ∧ s.messagesDone s.cur = true ∧
      s.enginesDone s.cur = true ∧ s.ctx.efaults = [] ∧ CellHere s (s.g 3) 16 0 0 ∧ BankFree s 16 0 0 ∧
      s.poisonIn (lsAddr 0 0) 16 = none ∧ s.mem.wf = true ∧ s.mem.readNat (lsAddr 0 0) 4 = n ∧ s.ctx.unit.group = none ∧
      s.ctx.skipWatch = true ∧ Delegated s 10) ∧
    (let u : UnitInfo := ⟨0, .chunk, 0, 0, some 4, some 3, false, none⟩
     let k : Fork := ⟨none, true, 0⟩
     let s := (withCtx (joinCell 1) fun c => { c with unit := u }).modJob 1 fun j => { j with units := [(3, [0])], forks := [(4, k)] }
     s.ctx.unit.group = some 3 ∧ (Table.get? (s.job s.ctx.job).units 3).isSome = true ∧ s.ctx.unit.fork = some 4 ∧
      Table.get? (s.job s.ctx.job).forks 4 = some k ∧ Rising (s.job s.ctx.job).forks ∧ CellHere s (s.g 3) 16 0 0 ∧
      s.mem.readNat (lsAddr 0 0) 4 = 1) := by
  unfold CellHere BankFree Delegated Rising
  exact ⟨by decide, by decide, by decide, by decide⟩

/-- A table with the same entry at every number of a range. -/
theorem get_run {α : Type} (a : α) (n lo i : Nat) (h1 : lo ≤ i) (h2 : i < lo + n) :
    Table.get? ((List.range' lo n).map fun k => (k, a)) i = some a := by
  induction n generalizing lo with
  | zero => omega
  | succ n ih =>
    by_cases h : lo = i
    · simp [List.range'_succ, Table.get?, h]
    · simp only [List.range'_succ, List.map_cons, Table.get?, if_neg h]
      exact ih (lo + 1) (by omega) (by omega)
def fullDie : Die := { Die.reset with launches := (List.range' 0 4096).map fun k => (k, launch0 .running) }
theorem full_die : fullDie.freeEntry = none := by
  rw [Die.freeEntry, List.find?_eq_none]
  intro i hi
  rw [show fullDie.launches = (List.range' 0 4096).map fun k => (k, launch0 .running) from rfl,
    get_run _ _ _ _ (Nat.zero_le _) (by simpa using hi)]
  decide

def asking : State := withCtx (mapped leaf3.toNat) fun c => { c with asked := [launchMark], wait := .away .jobWait }
def submission (raw : Nat) : LaunchSub := ⟨0, 1, BitVec.ofNat 512 raw, some 0, 0⟩
theorem witness_LaunchesRunToCompletion :
    (let s := withRegs quiet [(1, here 64)]
     s.hasG [1] = true ∧ s.ctx.asked = [] ∧ (s.g 1).toNat % 64 = 0 ∧ ReachesLocal s (s.g 1) 64 true false 0 64 ∧
      s.poisonIn (lsAddr 0 64) 64 = none ∧ s.performed .pkg false = true) ∧
    (withCtx small fun c => { c with asked := [launchMark, 7] }).ctx.asked = [launchMark, 7] ∧
    ((asking.ctxAt 0).inst = true ∧ (asking.ctxAt 0).asked = [launchMark] ∧ (asking.die 0).freeEntry.isSome = true ∧
      asking.descOk 1 (BitVec.ofNat 512 descriptor) = true ∧ (∀ p ∈ (launchDesc (BitVec.ofNat 512 descriptor)).preds, p = 0) ∧
      readyRoom asking (readyDie 0 (launchDesc (BitVec.ofNat 512 descriptor)).mask) = true ∧
      (asking.nameLevels 1 0 0 false).isSome = true ∧ asking.descOk 1 0 = false) ∧
    (∃ s : State, (s.ctxAt 0).inst = true ∧ (s.ctxAt 0).asked = [launchMark] ∧ (s.die 0).freeEntry = none) ∧
    ((withLaunch quiet .held).launch? 0 = some (launch0 .held) ∧ (launch0 .held).preds = [] ∧ (launch0 .held).doomed = false ∧
      readyRoom (withLaunch quiet .held) (readyDie (lidDie 0) (launch0 .held).desc.mask) = true) ∧
    ((withLaunch quiet .running).launch? 0 = some (launch0 .running) ∧
      (withLaunch quiet .running).launchOver 0 (launch0 .running) = true) ∧
    (let s := quiet.modDie 1 fun d => { d with turned := [launch0 .done] }
     (s.die 1).turned = [launch0 .done] ∧ s.launch? (turnedLid 1) = none ∧
      (findLevel ((s.modDie 1 fun d => { d with graphs := [⟨1, 0, 0, 0, false, false, 0⟩] }).die
        (levelDie (launch0 .done).job)).graphs (launch0 .done).job (launch0 .done).desc.graph).isSome = true) := by
  unfold ReachesLocal
  exact ⟨by decide, by decide, by decide, ⟨asking.modDie 0 fun _ => fullDie, by decide, by decide, full_die⟩, by decide, by decide, by decide⟩

theorem witness_LevelsAreCancelledAndAwaited :
    (let s := withRegs (withLaunch quiet .running) [(1, 1), (2, 0x100000000)]
     s.hasG [0, 1, 2] = true ∧ s.launch? (levelId 0 (s.g 0)) = some (launch0 .running) ∧ (launch0 .running).job = s.ctx.job ∧
      (launch0 .running).st ≠ .done ∧ (launch0 .held).desc.units ≠ 0 ∧ 0 ∈ s.launchesOf s.ctx.job 1 (levelId 1 (s.g 0)) ∧
      0 ∈ s.launchesOf s.ctx.job 2 (levelId 2 (s.g 0)) ∧ 0 ∈ s.launchesOf s.ctx.job 3 0 ∧ (s.g 1).toNat = s.ctx.job ∧
      (s.g 0).toNat ≠ s.ctx.job ∧ Delegated s 11 ∧
      (∀ lvl, lvl < 4 → s.reached s.ctx.job lvl (levelId lvl (s.g 0)) (s.g 0).toNat = true ∧
        s.reached s.ctx.job lvl (levelId lvl (s.g 0)) (s.g 1).toNat = false) ∧
      2 ^ 32 ≤ (s.g 2).toNat ∧ Delegated s 1) ∧
    (coreOf 0 = 0 ∧ (small.ctxAt 0).inst = true ∧ (small.ctxAt 0).unit.lid = 0) ∧
    LevelMine (withLaunch quiet .running) 0 0 ∧ LevelMine small 1 0 ∧ LevelMine small 2 0 ∧ LevelMine small 3 1 := by
  unfold Delegated LevelMine
  refine ⟨by decide, by decide, ⟨fun _ l h => ?_, by decide⟩, ⟨by decide, by decide⟩, ⟨by decide, by decide⟩, ⟨by decide, by decide⟩⟩
  rw [show (withLaunch quiet .running).launch? (levelId 0 0) = some (launch0 .running) by decide] at h
  cases h; decide

/-! ### Pages, debug, failures, bring-up and the fabric -/

/-- The rights table of job 1 gives domain 5 the rights `r` (R345). -/
def ruled (s : State) (r : Nat) : State :=
  ({ s with mem := Memory.writeNat s.mem 0x300A 2 r } : State).modJob 1 fun j => { j with rightsBase := 0x3000 }
/-- A TWIN page with its front in frame 4. -/
def twinLeaf : Nat := 3 + 4 + 0x10 + 0x80 + 0x100 + 5 * 2 ^ 22 + 4 * 2 ^ 38
def twin : State := (withRegs (mapped twinLeaf) [(1, 0x10000)]).modCore 0 fun c =>
  { c with attrs := [⟨1, false, BitVec.ofNat 64 twinLeaf⟩], rights := [⟨5, 2, 0⟩] }
def hold : PageHold := ⟨3, false, 0, some 0, 9, 0, 0, none, 0, 0, 0, [request (.load 0) .load .wt 0x400 15]⟩
def moving : State := ((mapped leaf3.toNat).modMS fun m => { m with holds := [hold], frames := [(3, [1])] }).modCluster 0
  fun c => { c with jobs := [(0, { entry 1 0 with move := true })] }
/-- No entry of the job table is free. -/
def fullTable : State :=
  quiet.modCluster 0 fun c => { c with jobs := (List.range' 0 64).map fun k => (k, entry 1 0) }
theorem witness_PagesArePublishedAndMoved :
    (quiet.hasG [1, 0] = true ∧ quiet.performed .pkg false = true ∧ quiet.g 0 = 0) ∧
    (let s := withRegs (ruled (mapped leaf3.toNat) 3) [(1, 0x10000), (2, 64)]
     let x : RangePage := ⟨0x10000, 0x1003F, ⟨1, false, leaf3⟩⟩
     s.hasG [1, 2] = true ∧ s.performed .pkg false = true ∧ (s.g 2).toNat < 2 ^ 32 ∧ s.g 2 ≠ 0 ∧
      (s.g 1).toNat + (s.g 2).toNat ≤ 2 ^ 55 ∧
      s.rangePages ((s.g 1).toNat + (s.g 2).toNat - 1) 65537 (s.g 1).toNat = [x] ∧ leafMapped x.attr.leaf = true ∧
      leafBad x.attr.big x.attr.leaf = false ∧ leafCode x.attr.leaf = true ∧
      (s.rightsEntry s.ctx.job (leafDomain x.attr.leaf)).rights ≠ 0 ∧ (∀ h ∈ s.ms.home, h.2.txn = none)) ∧
    (let s := withRegs (mapped (leaf3.toNat - 1)) [(1, 0x10000), (2, 64)]
     let x : RangePage := ⟨0x10000, 0x1003F, ⟨1, false, leaf3 - 1⟩⟩
     s.hasG [1, 2] = true ∧ (s.g 2).toNat < 2 ^ 32 ∧ s.g 2 ≠ 0 ∧ (s.g 1).toNat + (s.g 2).toNat ≤ 2 ^ 55 ∧
      s.rangePages ((s.g 1).toNat + (s.g 2).toNat - 1) 65537 (s.g 1).toNat = [x] ∧ leafAbsent x.attr.leaf = true) ∧
    (2 ^ 32 ≤ ((withRegs quiet [(2, 0x100000000)]).g 2).toNat ∧ Delegated quiet 1 ∧ Delegated quiet 10) ∧
    (let s := withRegs (mapped leaf3.toNat) [(1, 0x10000)]
     (s.g 1).toNat < 2 ^ 55 ∧ leafMapped (s.walk (s.g 1).toNat).attr.leaf = true ∧
      leafTwin (s.walk (s.g 1).toNat).attr.leaf = false ∧ (s.g 1).toNat % 65536 = 0 ∧ (s.freeJob s.myCluster).isSome = true) ∧
    (leafTwin (twin.walk (twin.g 1).toNat).attr.leaf = true ∧ twin.ctx.asked = [] ∧ twin.ctx.gather = []) ∧
    PageAtHand twin (twin.g 1).toNat .write ⟨1, false, BitVec.ofNat 64 twinLeaf⟩ ∧
    (∃ s : State, s.ctx.gather = [⟨0x400, 1, 0, .ok, 0, false⟩]) ∧
    fullTable.freeJob fullTable.myCluster = none ∧
    ((withRegs quiet [(1, 8)]).g 1).toNat % 65536 ≠ 0 ∧
    (moving.mem.wf = true ∧ moving.ms.holds.find? (fun x => x.jid = some 0 && x.cluster = 0) = some hold ∧
      moving.jobOf 0 0 = some { entry 1 0 with move := true } ∧ Table.getD moving.ms.frames hold.frame [] = [1] ∧
      moving.leafAddr (1 * 65536) = some (131080, false) ∧ leafTwin (BitVec.ofNat 64 (moving.mem.readNat 131080 8)) = false ∧
      hold.dest < 2 ^ 26 ∧ frameKey (BitVec.ofNat 64 (moving.mem.readNat 131080 8)) false = hold.frame ∧ moving.ms.lineKeys = [] ∧ 131080 + 8 ≤ hold.frame * 65536 ∧ 131080 + 8 ≤ hold.dest * 65536) := by
  unfold Delegated
  exact ⟨by decide, by decide, by decide, by decide, by decide, by decide, by unfold PageAtHand; rfl,
    ⟨withCtx quiet fun c => { c with gather := [⟨0x400, 1, 0, .ok, 0, false⟩] }, by decide⟩, by decide, by decide, by decide⟩

theorem witness_HintsAndShootdowns :
    (let s := withRegs paged [(1, 0x10000)]
     s.hasG [1] = true ∧ (s.g 1).toNat < 2 ^ 55) ∧
    PageAtHand (withRegs paged [(1, 0x10000)]) ((withRegs paged [(1, 0x10000)]).g 1).toNat .read ⟨1, false, leaf3⟩ ∧
    ((withRegs paged [(1, 5)]).g 1).toNat < 65536 ∧ paged.ctx.asked = [] ∧
    (withCtx paged fun c => { c with asked := [remoteMark] }).ctx.asked.contains remoteMark = true ∧
    (2 : BitVec 2).toNat < ((paged.modMS fun m => { m with regions := [(0, { RepRegion.reset with degree := 3 })] }).repRegion 0).degree :=
  ⟨by decide, by unfold PageAtHand; rfl, by decide⟩

def halted : State := wide.modCluster 0 fun c => { c with dbg := { c.dbg with halted := true } }
def sampling (made : Nat) : State := small.modDie 0 fun d =>
  { d with strainer := { d.strainer with sctl := 1, ssize := 4, produced := made, stored := made } }
theorem witness_DebugModuleObserves :
    ((small.cluster 0).dbg.halted = false ∧ (halted.cluster 0).dbg.halted = true) ∧
    (∃ s : State, (s.cluster 0).dbg.dctl.getLsbD 6 = true ∧ (s.cluster 0).dbg.halted = false ∧ 1 / 64 = 0 / 64 ∧ 0 ≠ 1) ∧
    (small.cluster 0).dbg.dctl.getLsbD 6 = false ∧
    (((halted.cluster 0).dbg.halted = true ∧ (halted.ctxAt ((0 * 8 + 0) * 16 + 3)).inst = true) ∧ (5 : Fin 32) ≠ 0) ∧
    (8 : BitVec 64).extractLsb' 1 2 = 0 ∧
    ((small.die 0).strainer.stored = (small.die 0).strainer.produced ∧ (small.die 0).strainer.sctl.getLsbD 0 = false ∧
      (small.die 0).strainer.rows = []) ∧
    (∀ made, made = 0 ∨ made = 4 → let x := ((sampling made).die 0).strainer
      x.stored = x.produced ∧ x.sctl.getLsbD 0 = true ∧ x.next ≤ (sampling made).cycle ∧ x.ssize ≠ 0 ∧ x.rows = [] ∧
      (sampling made).physBytes (x.sring.toNat + 8) 8 = some (List.replicate 8 0) ∧
      (made = 0 → x.produced < natOfBytes (List.replicate 8 0) + x.ssize.toNat) ∧
      (made = 4 → natOfBytes (List.replicate 8 0) + x.ssize.toNat ≤ x.produced)) := by
  refine ⟨by decide, ⟨small.modCluster 0 fun c => { c with dbg := { c.dbg with dctl := 64 } }, by decide⟩, by decide, by decide,
    by decide, by decide, ?_⟩
  rintro made (rfl | rfl) <;> decide

theorem witness_FailuresAreContained :
    Tidy small ∧
    (∃ s : State, Tidy s ∧ (s.ctxAt 0).inst = true ∧ (s.ctxAt 0).asked.contains remoteMark = true) ∧
    (∃ (s : State) (p : Reply), let r := request (.load 0) .load .wt 7 15
      Tidy s ∧ (s.ctxAt 0).asked.contains remoteMark = false ∧ s.replyComing 0 = some (20, .memoryReply r p, r)) ∧
    (request (.load 0) .load .wt 7 15).mask ≠ 0 ∧
    (let s := withCtx small fun c => { c with asked := [remoteMark], wait := .away .access }
     Tidy s ∧ (s.ctxAt 0).inst = true ∧ (s.ctxAt 0).wait = .away .access ∧ (s.ctxAt 0).asked.head? = some remoteMark) ∧
    (let r := request (.report 0) .move .wt 7 15
     let s := moving
     Tidy s ∧ s.jobOf (clusterOf r.core) r.data2.toNat = some { entry 1 0 with move := true } ∧ (entry 1 0).thread ≠ noThread) ∧
    (small.die (dieOf 0)).log = [] ∧
    (∃ s : State, (s.die 0).log = [⟨1, 1, 0, 1, 0⟩] ∧ s.pkg.events[0].length < 256 ∧ s.reaches 0 0 = true) ∧
    (small.pkg.ringReady.getLsbD 2 = false ∧ (small.modPkg fun p => { p with ringReady := 63 }).pkg.ringReady.getLsbD 2 = true) ∧
    (∃ s : State, s.pkg.ringReady.getLsbD 2 = true ∧ (bitsOf (setBit s.pkg.downLinks 2 true)).length = 2 ∧
      s.pkg.fenced = []) ∧
    (∀ ready, ready = 0 ∨ ready = 15 → let s := small.modPkg fun p => { p with downLinks := 9, cmdpReady := ready }
     s.failedLinks = [0, 3] ∧ s.halfReady (splitHalves 0 3).1 = decide (ready = 15) ∧
      s.halfReady (splitHalves 0 3).2 = decide (ready = 15) ∧ s.pkg.events[0].length < 256) ∧
    (small.halfReady [1, 2, 3] = false ∧ (∃ p ∈ ([1, 2, 3] : List Nat), p ∉ small.pkg.fenced)) ∧
    (small.modPkg fun p => { p with cmdpReady := 1 }).halfReady [1, 2, 3] = true := by
  unfold Tidy Rising
  exact ⟨by decide, ⟨withCtx small fun c => { c with asked := [remoteMark] }, by decide⟩,
    ⟨{ small with agenda := [(20, .memoryReply (request (.load 0) .load .wt 7 15) answer)] }, answer, by decide⟩, by decide, by decide, by decide, by decide,
    ⟨small.modDie 0 fun d => { d with log := [⟨1, 1, 0, 1, 0⟩] }, by decide⟩, by decide,
    ⟨small.modPkg fun p => { p with ringReady := 0b111110, downLinks := 1 }, by decide⟩, by rintro ready (rfl | rfl) <;> decide, ⟨by decide, 1, by decide⟩,
    by decide⟩

theorem witness_ThePackageComesUp :
    ((State.reset.cluster 3).cleared = false ∧ (State.reset.cluster 3).clearing = false) ∧
    (let seen (t : State) : BitVec 6 := t.pkg.explored.toList.getD 3 0
     (seen small).getLsbD 1 = false ∧ (seen (small.modPkg fun p => { p with explored := Vector.replicate 4 2 })).getLsbD 1 = true) ∧
    (let s := small.modPkg fun p => { p with dmgrReady := 1, bootAt := [(0, 8)] }
     s.pkg.dmgrReady.getLsbD 0 = true ∧ Table.getD s.pkg.bootAt 0 0 + 2 ^ 24 ≤ ({ s with cycle := 2 ^ 24 + 8 } : State).cycle ∧
      s.cycle < Table.getD s.pkg.bootAt 0 0 + 2 ^ 24) ∧
    (small.modPkg fun p => { p with ringReady := 63 }).pkg.ringReady.getLsbD 1 = true ∧ (1 + 1) % 6 ≠ 1 ∧ (1 + 5) % 6 ≠ 1 ∧
    small.primaryOf = none ∧
    (let s := small.modPkg fun p => { p with cmdpReady := 1, ringReady := 63 }
     s.primaryOf = some 0 ∧ s.pkg.bringUp = false ∧ (s.modPkg fun p => { p with bringUp := true }).pkg.bringUp = true) := by decide

/-- Queue 0 with a command of an opcode whose operand lies at 0, and its stage. -/
def queued (op stage : Nat) : State := small.modPkg fun p =>
  { p with cmdpReady := 1, queues := [(0, { HostQueue.reset with qbase := 0x1001, qsize := 4, qctl := 1, entry := BitVec.ofNat 512 op, stage := stage })] }
theorem witness_CommandQueuesRun :
    (small.queue 0).qbase.getLsbD 0 = false ∧
    (let x := (queued 0 0).queue 0
     x.qbase.getLsbD 0 = true ∧ (BitVec.ofNat 32 1 - x.qhead).toNat ≤ x.qsize.toNat ∧ x.qsize.toNat < (BitVec.ofNat 32 9 - x.qhead).toNat) ∧
    (∃ (s : State) (e : Line), (s.queue 0).stage = 0 ∧ s.pkg.cmdpReady.getLsbD (0 % 4) = true ∧ (s.queue 0).qctl.getLsbD 12 = false ∧
      (s.queue 0).qhead ≠ BitVec.ofNat 32 1 ∧
      s.physLine (((s.queue 0).qbase.toNat / 4096 * 4096 + (s.queue 0).qhead.toNat % (s.queue 0).qsize.toNat * 64) / 64) = some e ∧
      entryOk e = true) ∧
    (let s := (queued 1 1).modJob 1 fun j => { j with ending := some 9 }
     Commanded s 0 1 64 (List.replicate 64 0) ∧ (s.job (s.queue 0).job).ending.isSome = true ∧
      ((queued 1 1).job ((queued 1 1).queue 0).job).ending = none) ∧
    (∀ op n, (op = 1 ∧ n = 64) ∨ (op = 3 ∧ n = 128) ∨ (op = 5 ∧ n = 64) → Commanded (queued op 1) 0 op n (List.replicate n 0)) ∧
    Commanded (queued 4 1) 0 4 256 (List.replicate 256 0) ∧
    (((queued 2 1).queue 0).stage = 1 ∧ ((queued 2 1).queue 0).entry.toNat % 256 = 2) ∧
    (∃ s : State, s.launch? 0 = some (launch0 .running) ∧ (launch0 .running).st ≠ .done ∧ 0 ∈ s.launchesOf (s.queue 0).job 3 0) ∧
    (small.cluster 9).job ≠ some ((queued 5 1).queue 0).job := by
  unfold Commanded
  refine ⟨by decide, by decide,
    ⟨{ queued 0 0 with mem := Memory.writeNat [] 0x1000 8 2 }, 2, by decide, by decide, by decide, by decide, by decide, by decide⟩,
    by decide, ?_, by decide, by decide, ⟨withLaunch (queued 2 1) .running, by decide⟩, by decide⟩
  rintro op n (⟨rfl, rfl⟩ | ⟨rfl, rfl⟩ | ⟨rfl, rfl⟩) <;> decide

def remoteRun (pos off : Nat) : CopyRun := runAt (command (BitVec.ofNat 64 (0x100 + 7 * 2 ^ 16)) 0) pos off
/-- A remote copy to device 7, which is open over link 2. -/
def remote (pos off : Nat) : State := (copying (some (remoteRun pos off)) 1).modPkg fun p =>
  { p with fabReady := 4, remote := [(7, ⟨BitVec.ofNat 32 0x80000000, 1, 4, 64⟩)] }
theorem witness_TheFabricReachesMemory :
    (Rising small.ms.filter ∧ small.mem.wf = true ∧ Table.get? small.ms.home (small.physPlace 5).dir = none ∧
      small.backInvAt (small.physPlace 5).dir = 0 ∧ Table.getD small.ms.lineKeys (small.physPlace 5).data 0 = (small.physPlace 5).key) ∧
    (let s := ruled (mapped leaf3.toNat) 2
     let l := (s.walk (0x10000 / 64 * 64)).attr
     leafMapped l.leaf = true ∧ leafBad l.big l.leaf = false ∧ (s.rightsEntry 1 (leafDomain l.leaf)).rights = 2 ∧
      s.boundCache 1 (0x10000 / 64 * 64) = 16) ∧
    leafMapped (small.walk (0x10000 / 64 * 64)).attr.leaf = false ∧
    (let r := remoteRun 1 0
     let s := remote 1 0
     (s.channel 0 0).run = some r ∧ clusterOf r.cmd.core = 0 ∧ r.cmd.channel = 0 ∧ r.cmd.remote = true ∧ r.isOver = true ∧
      r.lastAck ≤ s.cycle ∧ r.next = none ∧ s.remoteLinks r.cmd.dev ≠ 0 ∧
      (let q := { r with next := some (0, 0), beats := [⟨2, 9, 1, 0, 0⟩] }
       q.isOver = true ∧ q.next.isSome = true ∧ s.cycle < q.lastAck ∧ q.lastAck ≤ ({ s with cycle := 9 } : State).cycle) ∧
      Table.get? s.pkg.remote r.cmd.dev = some ⟨BitVec.ofNat 32 0x80000000, 1, 4, 64⟩ ∧ s.jobOf 0 r.cmd.jid = some (entry 1 0)) ∧
    (let r := { remoteRun 0 8 with beats := [⟨2, 9, 0, 0, 5⟩] }
     let s := (copying (some r) 1).modPkg fun p => { p with fabReady := 4 }
     Rising s.clusters ∧ (s.channel 0 0).run = some r ∧ r.onFabric s.cycle 2 = some ⟨2, 9, 0, 0, 5⟩ ∧ r.onFabric s.cycle 3 = none) := by
  unfold Rising; decide
end Sys2Proof.Tests
end

/-! PROOFS. The integer instructions of 05_core_ops (R97, R98, R104): one lemma for each shared form of the model, the
model's functions as the statements write them, and the tables of the statements as those forms. -/
namespace Sys2Proof.Machine

/-! ## What a register holds and which registers stay depend on the thread's registers only -/

theorem HoldsG.of_regs {u t : State} {d : GReg} {v : Word} {b : Bool} (h : t.ctx.regs = u.ctx.regs)
    (hu : HoldsG u d v b) : HoldsG t d v b := by
  simpa only [HoldsG, State.g_of_regs h, State.taint_of_regs h, h] using hu

theorem SameG.of_regs {s u t : State} {but : List GReg} (h : t.ctx.regs = u.ctx.regs) (hu : SameG s u but) :
    SameG s t but := by
  simpa only [SameG, State.g_of_regs h, State.taint_of_regs h, h] using hu

theorem SameV.of_regs {s u t : State} {but : List VIdx} (h : t.ctx.regs = u.ctx.regs) (hu : SameV s u but) :
    SameV s t but := by
  simpa only [SameV, State.v_of_regs h, h] using hu

theorem SameP.of_regs {s u t : State} {but : List PReg} (h : t.ctx.regs = u.ctx.regs) (hu : SameP s u but) :
    SameP s t but := by
  simpa only [SameP, State.p_of_regs h] using hu

/-! ## The shared forms of R97 and R98 -/

theorem State.anyTaint_pair (s : State) (a b : GReg) : s.anyTaint [a, b] = (s.taint a || s.taint b) := by
  simp [State.anyTaint]

theorem State.anyTaint_triple (s : State) (a b c : GReg) :
    s.anyTaint [a, b, c] = (s.taint a || s.taint b || s.taint c) := by
  simp [State.anyTaint, Bool.or_assoc]

/-- An instruction whose sources are present, and which writes one g-register, completes. -/
theorem withG_writesG {rs : List GReg} {s : State} (h : s.hasG rs = true) (d : GReg) (v : Word) (b : Bool) (n : Nat) :
    ∃ t, withG rs s (.next ((s.setG d v b).finish n)) = .next t ∧ WritesG s t d v b n :=
  ⟨_, withG_present h, s.setG_finish_writesG d v b n⟩

theorem intReg_writesG (f : Word → Word → Word) (d a b : GReg) (s : State) (h : s.hasG [a, b] = true) :
    ∃ t, intReg f d a b s = .next t ∧ WritesG s t d (f (s.g a) (s.g b)) (s.taint a || s.taint b) 8 :=
  s.anyTaint_pair a b ▸ withG_writesG h d (f (s.g a) (s.g b)) (s.anyTaint [a, b]) 8

theorem intImm_writesG (f : Word → Word → Word) (d a : GReg) (y : Word) (n : Nat) (s : State) (h : s.hasG [a] = true) :
    ∃ t, intImm f d a y n s = .next t ∧ WritesG s t d (f (s.g a) y) (s.taint a) n :=
  withG_writesG h d (f (s.g a) y) (s.taint a) n

theorem intUnary_writesG (f : Word → Word) (d a : GReg) (s : State) (h : s.hasG [a] = true) :
    ∃ t, intUnary f d a s = .next t ∧ WritesG s t d (f (s.g a)) (s.taint a) 8 :=
  withG_writesG h d (f (s.g a)) (s.taint a) 8

/-- The division's part of its thread is the end of an instruction and a wait; its result is an event of the agenda. -/
theorem State.divide_divides (s : State) (d : GReg) (v : Word) (b : Bool) (n : Nat) :
    Divides s (s.divide d v b n) d v b n := by
  obtain ⟨hG, hV, hP, hControl, hThread, -, hPasses⟩ := s.finish_writesNothing n
  have hregs : (s.divide d v b n).ctx.regs = (s.finish n).ctx.regs := rfl
  have hdue : (s.cycle + 22, Instr.dividerResult s.cur d v b) ∈ (s.divide d v b n).agenda := by
    simpa [State.divide] using mem_insertDue (s.cycle + 22) (.dividerResult s.cur d v b) s.agenda
  refine ⟨hdue, rfl, ⟨hG.of_regs hregs, hV.of_regs hregs, hP.of_regs hregs, hControl, hThread⟩, hPasses, ?_⟩
  obtain ⟨c, hc⟩ := s.finish_only_ctx n
  simp only [State.divide, hc]
  rfl

theorem divReg_divides (f : Word → Word → Word) (d a b : GReg) (s : State) (h : s.hasG [a, b] = true) :
    ∃ t, divReg f d a b s = .next t ∧ Divides s t d (f (s.g a) (s.g b)) (s.taint a || s.taint b) 8 :=
  ⟨_, withG_present h, s.anyTaint_pair a b ▸ s.divide_divides d _ _ 8⟩

theorem divImm_divides (f : Word → Word → Word) (d a : GReg) (y : Word) (n : Nat) (s : State) (h : s.hasG [a] = true) :
    ∃ t, divImm f d a y n s = .next t ∧ Divides s t d (f (s.g a) y) (s.taint a) n :=
  ⟨_, withG_present h, s.divide_divides d _ _ n⟩

/-- The divider's result of the current thread while it waits for it. -/
theorem execDividerResult_cur (d : GReg) (v : Word) (b : Bool) (s : State) (h : s.ctx.wait = .away .longArith) :
    execDividerResult s.cur d v b s =
      .next { s with ctx := { s.ctx with regs := s.ctx.regs.setG d v b, wait := .ready s.cycle } } := by
  simp [execDividerResult, h, State.modCtxAt, State.setCtxAt]

/-! ## The functions of R97, as the statements write them -/

theorem clzW_eq (x : Word) : clzW x = BitVec.ofNat 64 (if x = 0 then 64 else 63 - Nat.log2 x.toNat) := by
  have hx : x.toNat = 0 ↔ x = 0 := BitVec.toNat_inj (y := 0)
  by_cases h : x = 0
  · simp [clzW, bitLength, h]
  · simp only [clzW, bitLength, hx, h, if_false]
    congr 1
    omega

theorem ctzFrom_eq_find (x n i : Nat) :
    ctzFrom x n i = ((List.range' i n).find? fun j => x.testBit j).getD 64 := by
  induction n generalizing i with
  | zero => rfl
  | succ n ih =>
    rw [ctzFrom, List.range'_succ, List.find?_cons]
    cases x.testBit i
    · exact ih (i + 1)
    · rfl

theorem ctzW_eq (x : Word) :
    ctzW x = BitVec.ofNat 64 (((List.range 64).find? fun i => x.getLsbD i).getD 64) := by
  rw [ctzW, ctzFrom_eq_find, List.range_eq_range']
  rfl

theorem popCount_eq_countP (x n : Nat) : popCount x n = (List.range n).countP fun i => x.testBit i := by
  induction n with
  | zero => rfl
  | succ n ih => simp [popCount, ih, List.range_succ, List.countP_append, Nat.add_comm]

theorem popcW_eq (x : Word) : popcW x = BitVec.ofNat 64 ((List.range 64).countP fun i => x.getLsbD i) :=
  congrArg (BitVec.ofNat 64) (popCount_eq_countP x.toNat 64)

theorem srcBits_le (sw : SrcWidth) : srcBits sw ≤ 64 := by cases sw <;> decide

theorem sextW_eq (sw : SrcWidth) (x : Word) : sextW sw x = (x.setWidth (srcBits sw)).signExtend 64 := by
  rw [sextW, BitVec.setWidth_eq_extractLsb' (srcBits_le sw)]

/-- The low bits, zero-extended, are the word under a mask of ones. -/
theorem zextW_eq (sw : SrcWidth) (x : Word) : zextW sw x = x &&& BitVec.ofNat 64 (2 ^ srcBits sw - 1) := by
  have hpow : 2 ^ srcBits sw ≤ 2 ^ 64 := Nat.pow_le_pow_right (by decide) (srcBits_le sw)
  have hlow : x.toNat % 2 ^ srcBits sw < 2 ^ 64 := Nat.lt_of_le_of_lt (Nat.mod_le _ _) x.isLt
  apply BitVec.eq_of_toNat_eq
  rw [BitVec.toNat_and, BitVec.toNat_ofNat, Nat.mod_eq_of_lt (by omega), Nat.and_two_pow_sub_one_eq_mod, zextW,
    BitVec.zeroExtend_eq_setWidth, BitVec.toNat_setWidth, BitVec.extractLsb'_toNat, Nat.shiftRight_zero,
    Nat.mod_eq_of_lt hlow]

/-! ## The tables of the statements are the model's forms -/

/-- The three forms of a two-source operation run as the model's shared forms with its function. -/
def RunsAs (p : IntForm) : Prop :=
  ∀ (d a b : GReg) (i17 : BitVec 17) (i32 : BitVec 32) (s : State),
    exec (p.reg d a b) s = intReg p.f d a b s ∧
    exec (p.imm d a i17) s = intImm p.f d a (simm i17) 8 s ∧
    exec (p.imm32 d a i32) s = intImm p.f d a (simm i32) 12 s

theorem intForms_runAs : ∀ p ∈ intForms, RunsAs p := by
  simp only [intForms, List.mem_cons, List.not_mem_nil, or_false, forall_eq_or_imp, forall_eq]
  and_intros
  all_goals exact fun _ _ _ _ _ _ => ⟨rfl, rfl, rfl⟩

/-- The three forms of a division run as the model's shared forms with its function. -/
def DividesAs (p : DivForm) : Prop :=
  ∀ (d a b : GReg) (i17 : BitVec 17) (i32 : BitVec 32) (s : State),
    exec (p.reg d a b) s = divReg p.f d a b s ∧
    exec (p.imm d a i17) s = divImm p.f d a (simm i17) 8 s ∧
    exec (p.imm32 d a i32) s = divImm p.f d a (simm i32) 12 s

theorem divForms_divideAs : ∀ p ∈ divForms, DividesAs p := by
  simp only [divForms, List.mem_cons, List.not_mem_nil, or_false, forall_eq_or_imp, forall_eq]
  and_intros
  all_goals exact fun _ _ _ _ _ _ => ⟨rfl, rfl, rfl⟩

/-! ## R97 -/

theorem integerFormsWriteTheirResult : IntegerFormsWriteTheirResult := by
  intro p hp d a b i17 i32 s
  obtain ⟨hreg, himm, himm32⟩ := intForms_runAs p hp d a b i17 i32 s
  rw [hreg, himm, himm32]
  exact ⟨intReg_writesG p.f d a b s, intImm_writesG p.f d a _ 8 s, intImm_writesG p.f d a _ 12 s⟩

theorem countsAndExtensionsWriteTheirResult : CountsAndExtensionsWriteTheirResult := by
  intro d a b c s
  refine ⟨fun h => ⟨?_, ?_, ?_, fun sw => ?_, fun sw => ?_⟩, fun h => ?_⟩
  · exact clzW_eq (s.g a) ▸ intUnary_writesG clzW d a s h
  · exact ctzW_eq (s.g a) ▸ intUnary_writesG ctzW d a s h
  · exact popcW_eq (s.g a) ▸ intUnary_writesG popcW d a s h
  · have hw := intUnary_writesG (sextW sw) d a s h
    rw [sextW_eq] at hw
    cases sw <;> exact hw
  · have hw := intUnary_writesG (zextW sw) d a s h
    rw [zextW_eq] at hw
    cases sw <;> exact hw
  · exact s.anyTaint_triple a b c ▸ withG_writesG h d (s.g a * s.g b + s.g c) (s.anyTaint [a, b, c]) 8

/-! ## R98 -/

theorem divisionsDeliverTheirResult : DivisionsDeliverTheirResult := by
  constructor
  · intro p hp d a b i17 i32 s
    obtain ⟨hreg, himm, himm32⟩ := divForms_divideAs p hp d a b i17 i32 s
    rw [hreg, himm, himm32]
    exact ⟨divReg_divides p.f d a b s, divImm_divides p.f d a _ 8 s, divImm_divides p.f d a _ 12 s⟩
  · intro d v b s hwait
    obtain ⟨hHolds, hG, hV, hP, -⟩ := s.setG_finish_writesG d v b 8
    have hregs : s.ctx.regs.setG d v b = ((s.setG d v b).finish 8).ctx.regs := by simp
    exact ⟨_, execDividerResult_cur d v b s hwait, hHolds.of_regs hregs, hG.of_regs hregs, hV.of_regs hregs,
      hP.of_regs hregs, rfl, ⟨rfl, rfl, rfl, rfl, rfl, rfl⟩, rfl, rfl, rfl⟩

/-- Settles O4: each table entry runs as a shared form of the model, and each shared form writes or divides. -/
theorem integerInstructionsWriteTheirResult : Obligations.IntegerInstructionsWriteTheirResult :=
  ⟨integerFormsWriteTheirResult, countsAndExtensionsWriteTheirResult, divisionsDeliverTheirResult⟩

/-! ## R104 -/

/-- The number of a word as the sum of its fields, each at its place (R26). -/
theorem pack_eq_sum (f : Fields) :
    f.pack = f.l.val + f.op.val * 2 ^ 2 + f.pg.val * 2 ^ 10 + f.r13.val * 2 ^ 13 + f.d.val * 2 ^ 14 + f.a.val * 2 ^ 19 +
      f.b.val * 2 ^ 24 + f.c.val * 2 ^ 29 + f.minor.toNat * 2 ^ 34 + f.mod.toNat * 2 ^ 42 + f.imm.toNat * 2 ^ 47 +
      f.ext.toNat * 2 ^ 64 := by
  unfold Fields.pack
  omega

/-- A scale stands in MOD[4:3]. -/
theorem toNat_scale_append (scale : BitVec 2) : (scale ++ 0#3 : BitVec 5).toNat = scale.toNat * 2 ^ 3 := by
  rw [BitVec.toNat_append, BitVec.toNat_zero, Nat.or_zero, Nat.shiftLeft_eq]

theorem encode_lea (d a b : GReg) (scale : BitVec 2) (disp : BitVec 17) :
    encode (.lea d a b scale disp) = some (0x0A * 2 ^ 2 + d.val * 2 ^ 14 + a.val * 2 ^ 19 + b.val * 2 ^ 24 +
      scale.toNat * 2 ^ 45 + disp.toNat * 2 ^ 47) := by
  have hfields : encode (.lea d a b scale disp) = some (Fields.pack { Fields.base 0x0A 0 0 with
      d := d, a := a, b := b, mod := (scale ++ 0#3 : BitVec 5), imm := disp }) := rfl
  have hop : (0x0A : Fin 256).val = 0x0A := rfl
  have hminor : (0 : BitVec 8).toNat = 0 := rfl
  have hext : (0 : BitVec 64).toNat = 0 := rfl
  rw [hfields, pack_eq_sum, toNat_scale_append]
  refine congrArg some ?_
  simp only [Fields.base, hop, hminor, hext, Fin.val_zero]
  omega

/-- Settles O37: the effective address is written as any other result, and the fields of the word add up (R26). -/
theorem leaComputesAnAddress : Obligations.LeaComputesAnAddress :=
  fun d a b scale disp s =>
    ⟨fun h => s.anyTaint_pair a b ▸ withG_writesG h d (s.ea a b scale (simm disp)) (s.anyTaint [a, b]) 8,
      encode_lea d a b scale disp⟩

end Sys2Proof.Machine

/-! PROOFS. Taint of 06_thread_memory (R137): a taint bit cleared, and the end of the instruction that clears it. -/
namespace Sys2Proof.Machine

/-- The current thread with the taint bit of a g-register cleared: the part of `untaint` before its end. Whatever else
a frame compares is the same as before by definition. -/
def State.clearTaint (s : State) (d : GReg) : State :=
  s.modRegs fun r => { r with gTaint := setBit r.gTaint d.val false }

theorem exec_untaint (d : GReg) (s : State) : exec (.untaint d) s = .next ((s.clearTaint d).finish 8) := rfl

theorem State.taint_clearTaint_same (s : State) (d : GReg) : (s.clearTaint d).taint d = false := by
  simp [State.taint, State.clearTaint, setBit_getElem]

theorem State.taint_clearTaint_ne (s : State) {d r : GReg} (h : r ≠ d) : (s.clearTaint d).taint r = s.taint r := by
  have hval : d.val ≠ r.val := Fin.val_ne_of_ne (Ne.symm h)
  simp [State.taint, State.clearTaint, setBit_getElem, hval]

/-- g0 reads untainted whatever its bit holds, so its bit cleared shows in no register. -/
theorem State.taint_clearTaint_zero (s : State) (r : GReg) : (s.clearTaint 0).taint r = s.taint r := by
  by_cases hr : r = 0
  · rw [hr, State.taint_zero, State.taint_zero]
  · exact s.taint_clearTaint_ne hr

/-- Settles O38: the end of the instruction changes no register, and one taint bit alone was cleared before it. -/
theorem untaintClearsOneTaint : Obligations.UntaintClearsOneTaint := by
  intro d s
  obtain ⟨hG, hV, hP, hControl, hThread, hMachine, hPasses⟩ := (s.clearTaint d).finish_writesNothing 8
  have hg (r : GReg) : ((s.clearTaint d).finish 8).g r = s.g r := (hG r List.not_mem_nil).1
  have htaint (r : GReg) : ((s.clearTaint d).finish 8).taint r = (s.clearTaint d).taint r := (hG r List.not_mem_nil).2.1
  have hhas (r : GReg) : ((s.clearTaint d).finish 8).ctx.regs.hasG r = s.ctx.regs.hasG r := (hG r List.not_mem_nil).2.2
  refine ⟨_, exec_untaint d s, (htaint d).trans (s.taint_clearTaint_same d), hg,
    fun r hr => (htaint r).trans (s.taint_clearTaint_ne hr), hhas, hV, hP, hControl, hThread, hMachine, hPasses, ?_⟩
  rintro rfl
  exact ⟨fun r _ => ⟨hg r, (htaint r).trans (s.taint_clearTaint_zero r), hhas r⟩, hV, hP, hControl, hThread, hMachine,
    hPasses⟩

end Sys2Proof.Machine
